-- ==== Sys2Proof/Word.lean ====
section
/-! DEFINITION. The word types of the J9 and their plainest arithmetic (spec R5, R20). -/

namespace Sys2Proof

/-- A byte of memory. -/
abbrev Byte := BitVec 8

/-- A 64-bit word: a control register, an s register, a system register. -/
abbrev W64 := BitVec 64

/-- A 48-bit program counter or virtual address (R20). -/
abbrev W48 := BitVec 48

end Sys2Proof
end

