-- ==== Sys2Proof/Syntax.lean ====
section
/-! DEFINITION. The instructions and events of the J9: one constructor of Instr per row of spec/opcode_table.json
(R46 to R53 for the 32-bit words; 95_what_each_step_holds.md and the rules named at each event for the steps
that are no instruction word). The operands of an event are what the outside world or the unit supplies. -/

namespace Sys2Proof

/-- A vector operand field (R48): a main register, an operand register, a last-result register, or a replicated
segment of v0 to v15 of 1, 4, 16 or 64 elements. -/
inductive VOp where
  | main (n : BitVec 5)
  | oper (n : BitVec 3)
  | last (n : BitVec 1)
  | repl (size : BitVec 2) (n : BitVec 4)
deriving DecidableEq, Repr, Inhabited

/-- A scope code of R38 and R233. -/
inductive Scope where
  | tm | qd | di | dv | sy
deriving DecidableEq, Repr, Inhabited

/-- The fields of a vmode word (R88): six select bits, then the fields they select. -/
structure VModeFields where
  selT : Bool
  selRnd : Bool
  selSat : Bool
  selM : Bool
  selG : Bool
  selSc : Bool
  t : BitVec 4
  rnd : BitVec 3
  sat : Bool
  m : Bool
  gen : Bool
  gk : BitVec 3
  gneg : Bool
  sc : BitVec 3
deriving DecidableEq, Repr, Inhabited

/-- Who executes instructions: the control or the vector stream of a hart, or a verge core (0 to 7; 8 is the debug
core). A hart is named by its place in the model, eight times its team plus its index in the team, which it keeps
across pre-emption; its global number (R3) is a field of its own. -/
inductive Party where
  | ctrl (h : Nat)
  | vec (h : Nat)
  | verge (n : Nat)
deriving DecidableEq, Repr, Inhabited

/-- A stream of a hart, and a vector stream. -/
def Party.isHart : Party → Bool
  | .verge _ => false
  | _ => true
def Party.isVec : Party → Bool
  | .vec _ => true
  | _ => false

/-- One cell of a fabric message as it arrives from a peer, with the rail it came on (R310). -/
structure Cell where
  ch : Nat
  msg : Nat
  idx : Nat
  len : Nat
  tag : W64
  data : List Byte
  rail : Nat
deriving DecidableEq, Repr, Inhabited

/-- What a start of the device meets (R331): for each of the steps 2 to 7 whether its work, or its fallback, passes (entry
i − 1 of the list; entry 0 stands for step 1, whose outcome the firmware decides); the channels and rails that fail; what
each CXL slot reports (R306); the firmware image and its signature (R334); the step during which a thermal trip falls, if any (R336). -/
structure StartRun where
  pass : List Bool
  channels : W64
  rails : BitVec 16
  cxl : List W64
  firmware : List Byte
  signature : List Byte
  trip : Option Nat
deriving DecidableEq, Repr, Inhabited

/-- The instructions and events, in the order of spec/opcode_table.json. -/
inductive Instr where
  /-- Control stream: x[rd] := x[rs1] + x[rs2], modulo 2^64. (R60) -/
  | add (d a b : BitVec 5)
  /-- Control stream: x[rd] := x[rs1] - x[rs2], modulo 2^64. (R60) -/
  | sub (d a b : BitVec 5)
  /-- Control stream: bitwise and of two registers. (R60) -/
  | and (d a b : BitVec 5)
  /-- Control stream: bitwise or of two registers. (R60) -/
  | or (d a b : BitVec 5)
  /-- Control stream: bitwise exclusive or of two registers. (R60) -/
  | xor (d a b : BitVec 5)
  /-- Control stream: shift left by b[5:0]. (R60) -/
  | sll (d a b : BitVec 5)
  /-- Control stream: logical shift right by b[5:0]. (R60) -/
  | srl (d a b : BitVec 5)
  /-- Control stream: arithmetic shift right by b[5:0]. (R60) -/
  | sra (d a b : BitVec 5)
  /-- Control stream: 1 if a < b signed, else 0. (R60) -/
  | slt (d a b : BitVec 5)
  /-- Control stream: 1 if a < b unsigned, else 0. (R60) -/
  | sltu (d a b : BitVec 5)
  /-- Control stream: signed minimum of two registers. (R60) -/
  | min (d a b : BitVec 5)
  /-- Control stream: unsigned minimum of two registers. (R60) -/
  | minu (d a b : BitVec 5)
  /-- Control stream: signed maximum of two registers. (R60) -/
  | max (d a b : BitVec 5)
  /-- Control stream: unsigned maximum of two registers. (R60) -/
  | maxu (d a b : BitVec 5)
  /-- Control stream: low 64 bits of the product. (R60) -/
  | mul (d a b : BitVec 5)
  /-- Control stream: high 64 bits of the signed 128-bit product. (R60) -/
  | mulh (d a b : BitVec 5)
  /-- Control stream: high 64 bits of the unsigned 128-bit product. (R60) -/
  | mulhu (d a b : BitVec 5)
  /-- Control stream: signed division with defined results for zero and overflow. (R61) -/
  | div (d a b : BitVec 5)
  /-- Control stream: unsigned division, all ones on division by zero. (R61) -/
  | divu (d a b : BitVec 5)
  /-- Control stream: signed remainder with the sign of a. (R61) -/
  | rem (d a b : BitVec 5)
  /-- Control stream: unsigned remainder, a on division by zero. (R61) -/
  | remu (d a b : BitVec 5)
  /-- Control stream: add a sign-extended 14-bit immediate. (R62) -/
  | addi (d a : BitVec 5) (i : BitVec 14)
  /-- Control stream: and with a sign-extended immediate. (R62) -/
  | andi (d a : BitVec 5) (i : BitVec 14)
  /-- Control stream: or with a sign-extended immediate. (R62) -/
  | ori (d a : BitVec 5) (i : BitVec 14)
  /-- Control stream: exclusive or with a sign-extended immediate. (R62) -/
  | xori (d a : BitVec 5) (i : BitVec 14)
  /-- Control stream: shift left by an immediate 0 to 63. (R62) -/
  | slli (d a : BitVec 5) (i : BitVec 14)
  /-- Control stream: logical shift right by an immediate. (R62) -/
  | srli (d a : BitVec 5) (i : BitVec 14)
  /-- Control stream: arithmetic shift right by an immediate. (R62) -/
  | srai (d a : BitVec 5) (i : BitVec 14)
  /-- Control stream: 1 if a < immediate signed. (R62) -/
  | slti (d a : BitVec 5) (i : BitVec 14)
  /-- Control stream: 1 if a < sign-extended immediate unsigned. (R62) -/
  | sltui (d a : BitVec 5) (i : BitVec 14)
  /-- Control stream: x[rd] := sign-extended 19-bit immediate shifted left by 14. (R63) -/
  | lui (d : BitVec 5) (j : BitVec 19)
  /-- Control stream: x[rd] := pc + (immediate << 14). (R63) -/
  | auipc (d : BitVec 5) (j : BitVec 19)
  /-- Control stream: load 8 bytes after range, alignment and translation checks. (R64) -/
  | ld (d a : BitVec 5) (i : BitVec 14)
  /-- Control stream: load 4 bytes, sign-extended. (R64) -/
  | lw (d a : BitVec 5) (i : BitVec 14)
  /-- Control stream: load 4 bytes, zero-extended. (R64) -/
  | lwu (d a : BitVec 5) (i : BitVec 14)
  /-- Control stream: load 2 bytes, sign-extended. (R64) -/
  | lh (d a : BitVec 5) (i : BitVec 14)
  /-- Control stream: load 2 bytes, zero-extended. (R64) -/
  | lhu (d a : BitVec 5) (i : BitVec 14)
  /-- Control stream: load 1 byte, sign-extended. (R64) -/
  | lb (d a : BitVec 5) (i : BitVec 14)
  /-- Control stream: load 1 byte, zero-extended. (R64) -/
  | lbu (d a : BitVec 5) (i : BitVec 14)
  /-- Control stream: store 8 bytes, dirtying them in the L1. (R64) -/
  | std (s a : BitVec 5) (i : BitVec 14)
  /-- Control stream: store 4 bytes. (R64) -/
  | stw (s a : BitVec 5) (i : BitVec 14)
  /-- Control stream: store 2 bytes. (R64) -/
  | sth (s a : BitVec 5) (i : BitVec 14)
  /-- Control stream: store 1 byte. (R64) -/
  | stb (s a : BitVec 5) (i : BitVec 14)
  /-- Control stream: branch when equal. (R66) -/
  | beq (a b : BitVec 5) (o : BitVec 14)
  /-- Control stream: branch when not equal. (R66) -/
  | bne (a b : BitVec 5) (o : BitVec 14)
  /-- Control stream: branch when less, signed. (R66) -/
  | blt (a b : BitVec 5) (o : BitVec 14)
  /-- Control stream: branch when greater or equal, signed. (R66) -/
  | bge (a b : BitVec 5) (o : BitVec 14)
  /-- Control stream: branch when less, unsigned. (R66) -/
  | bltu (a b : BitVec 5) (o : BitVec 14)
  /-- Control stream: branch when greater or equal, unsigned. (R66) -/
  | bgeu (a b : BitVec 5) (o : BitVec 14)
  /-- Control stream: jump to pc-relative target, saving the return address. (R67) -/
  | jal (d : BitVec 5) (o : BitVec 19)
  /-- Control stream: jump to register plus immediate, saving the return address. (R67) -/
  | jalr (d a : BitVec 5) (i : BitVec 14)
  /-- Queue a vector block with x10-x17, stalling while the block queue is full. (R68) -/
  | vgo (o : BitVec 19)
  /-- Remove the oldest reply word into x[rd], stalling while the reply queue is empty. (R70) -/
  | rqpop (d : BitVec 5)
  /-- Wait for an idle vector stream, re-declare the main-register count and take a new lane grant. (R71) -/
  | vsetl (d a : BitVec 5) (i : BitVec 14)
  /-- Wait for all queued blocks and their accesses and engine commands, then release and acquire at the scope. (R72) -/
  | vdrain (s : Scope)
  /-- Vector element-wise sum. (R77) -/
  | vadd (d a b : VOp)
  /-- Vector element-wise difference. (R77) -/
  | vsub (d a b : VOp)
  /-- Vector element-wise product. (R77) -/
  | vmul (d a b : VOp)
  /-- Vector high half of the exact integer product. (R77) -/
  | vmulh (d a b : VOp)
  /-- Vector element-wise quotient. (R77) -/
  | vdiv (d a b : VOp)
  /-- Vector element-wise integer remainder. (R77) -/
  | vrem (d a b : VOp)
  /-- Vector element-wise minimum. (R77) -/
  | vmin (d a b : VOp)
  /-- Vector element-wise maximum. (R77) -/
  | vmax (d a b : VOp)
  /-- Vector fused multiply-add into the destination, one rounding. (R77) -/
  | vfma (d a b : VOp)
  /-- Vector fused multiply-subtract from the destination. (R77) -/
  | vfms (d a b : VOp)
  /-- Vector negated fused multiply-add. (R78) -/
  | vfnma (d a b : VOp)
  /-- Vector element-wise magnitude. (R77) -/
  | vabs (d a : VOp)
  /-- Vector element-wise negation. (R77) -/
  | vneg (d a : VOp)
  /-- Vector correctly rounded square root. (R77) -/
  | vsqrt (d a : VOp)
  /-- Vector correctly rounded reciprocal. (R77) -/
  | vrcp (d a : VOp)
  /-- Vector correctly rounded reciprocal square root. (R77) -/
  | vrsq (d a : VOp)
  /-- Vector bitwise and. (R77) -/
  | vand (d a b : VOp)
  /-- Vector bitwise or. (R77) -/
  | vor (d a b : VOp)
  /-- Vector bitwise exclusive or. (R77) -/
  | vxor (d a b : VOp)
  /-- Vector bitwise complement. (R77) -/
  | vnot (d a : VOp)
  /-- Vector shift left by b mod w. (R77) -/
  | vshl (d a b : VOp)
  /-- Vector logical shift right by b mod w. (R77) -/
  | vshr (d a b : VOp)
  /-- Vector arithmetic shift right by b mod w. (R77) -/
  | vsra (d a b : VOp)
  /-- Vector add of a signed 8-bit immediate. (R79) -/
  | vaddi (d a : VOp) (i : BitVec 8)
  /-- Vector shift left by an immediate. (R79) -/
  | vshli (d a : VOp) (i : BitVec 8)
  /-- Vector logical shift right by an immediate. (R79) -/
  | vshri (d a : VOp) (i : BitVec 8)
  /-- Vector arithmetic shift right by an immediate. (R79) -/
  | vsrai (d a : VOp) (i : BitVec 8)
  /-- Vector copy of the bit pattern. (R77) -/
  | vmv (d a : VOp)
  /-- Vector select of a or b by the guard for every element below vl. (R80) -/
  | vsel (d a b : VOp)
  /-- Vector conversion between types of equal width. (R81) -/
  | vcvt (d a : VOp) (t : BitVec 4)
  /-- Vector widening conversion, including q4 decode. (R81) -/
  | vcvtw (d a : VOp) (t : BitVec 4)
  /-- Vector narrowing conversion. (R81) -/
  | vcvtn (d a : VOp) (t : BitVec 4)
  /-- Vector compare equal into a mask. (R82) -/
  | vceq (k : BitVec 3) (a b : VOp)
  /-- Vector compare not equal into a mask. (R82) -/
  | vcne (k : BitVec 3) (a b : VOp)
  /-- Vector compare less into a mask. (R82) -/
  | vclt (k : BitVec 3) (a b : VOp)
  /-- Vector compare less or equal into a mask. (R82) -/
  | vcle (k : BitVec 3) (a b : VOp)
  /-- Vector compare greater into a mask. (R82) -/
  | vcgt (k : BitVec 3) (a b : VOp)
  /-- Vector compare greater or equal into a mask. (R82) -/
  | vcge (k : BitVec 3) (a b : VOp)
  /-- Ordered sum reduction into element 0. (R83) -/
  | vredsum (d a b : VOp)
  /-- Maximum reduction into element 0. (R83) -/
  | vredmax (d a b : VOp)
  /-- Minimum reduction into element 0. (R83) -/
  | vredmin (d a b : VOp)
  /-- Bitwise and reduction into element 0. (R83) -/
  | vredand (d a b : VOp)
  /-- Bitwise or reduction into element 0. (R83) -/
  | vredor (d a b : VOp)
  /-- Ordered inclusive prefix sum. (R83) -/
  | vscan (d a b : VOp)
  /-- Permute elements of a by index vector b. (R84) -/
  | vperm (d a b : VOp)
  /-- Slide elements up by an immediate. (R84) -/
  | vslup (d a : VOp) (k : BitVec 8)
  /-- Slide elements down by an immediate. (R84) -/
  | vsldn (d a : VOp) (k : BitVec 8)
  /-- Broadcast an s-register pattern to active elements. (R85) -/
  | vsplat (a : BitVec 4) (v : BitVec 5)
  /-- Extract one element into an s register. (R85) -/
  | vextr (a b : BitVec 4) (v : BitVec 5)
  /-- Insert an s-register value into one element. (R85) -/
  | vinsr (a b : BitVec 4) (v : BitVec 5)
  /-- Write each active element's index. (R85) -/
  | vidx (d : VOp)
  /-- Mask and. (R86) -/
  | kand (d a b : BitVec 3)
  /-- Mask or. (R86) -/
  | kor (d a b : BitVec 3)
  /-- Mask exclusive or. (R86) -/
  | kxor (d a b : BitVec 3)
  /-- Mask and-not. (R86) -/
  | kandn (d a b : BitVec 3)
  /-- Set mask bits 0 to vl-1. (R86) -/
  | kset (d : BitVec 3)
  /-- Clear mask bits 0 to vl-1. (R86) -/
  | ksetClear (d : BitVec 3)
  /-- Count set mask bits below vl into an s register. (R86) -/
  | kpop (a : BitVec 3) (s : BitVec 4)
  /-- Lowest set mask bit, or vl, into an s register. (R86) -/
  | kfirst (a : BitVec 3) (s : BitVec 4)
  /-- Vector-stream scalar add. (R87) -/
  | sadd (a b c : BitVec 4)
  /-- Vector-stream scalar subtract. (R87) -/
  | ssub (a b c : BitVec 4)
  /-- Vector-stream scalar unsigned minimum. (R87) -/
  | smin (a b c : BitVec 4)
  /-- Vector-stream scalar signed minimum. (R87) -/
  | sminS (a b c : BitVec 4)
  /-- Vector-stream scalar unsigned maximum. (R87) -/
  | smax (a b c : BitVec 4)
  /-- Vector-stream scalar signed maximum. (R87) -/
  | smaxS (a b c : BitVec 4)
  /-- Vector-stream scalar bitwise and. (R87) -/
  | sand (a b c : BitVec 4)
  /-- Vector-stream scalar shift left by an immediate. (R87) -/
  | sshli (a b : BitVec 4) (n : BitVec 8)
  /-- Vector-stream scalar logical shift right by an immediate. (R87) -/
  | sshri (a b : BitVec 4) (n : BitVec 8)
  /-- Load a sign-extended 20-bit immediate into an s register. (R87) -/
  | sli (a : BitVec 4) (i : BitVec 20)
  /-- Read vl, vlmax, G, lane groups, a loop pass count or a nest index into an s register. (R87) -/
  | svl (a : BitVec 4) (f : BitVec 8)
  /-- Change the selected fields of the mode register, lowering vl on a type change. (R88) -/
  | vmode (f : VModeFields)
  /-- Set vl to min(vlmax, s). (R28) -/
  | vlen (a : BitVec 4)
  /-- Push a counted loop, or skip the body when the count is zero. (R89) -/
  | vloop (n : BitVec 4) (o : BitVec 19)
  /-- Push a loop that repeats while an s register is non-zero, tested first. (R89) -/
  | vloopnz (n : BitVec 4) (o : BitVec 19)
  /-- Push a six-level counted nest read from six s registers. (R89) -/
  | vnest (n : BitVec 4) (o : BitVec 19)
  /-- Append an s register to the reply queue, stalling while it is full. (R91) -/
  | vreply (a : BitVec 4)
  /-- End the block and empty the loop stack. (R91) -/
  | vend
  /-- Write the dependence vector of nearest equal earlier active elements. (R96) -/
  | vconf (d a : VOp)
  /-- Count earlier duplicates and mark last occurrences. (R12) -/
  | vconfc (d a : VOp) (k : BitVec 3)
  /-- Write the longest safe run of pending elements to a mask. (R10) -/
  | vpart (k : BitVec 3) (a : VOp) (p : BitVec 3)
  /-- Mask of active elements before the break element, optionally writing it to an s register. (R98) -/
  | kbefore (d a : BitVec 3) (w : Bool) (s : BitVec 4)
  /-- Mask of active elements through the break element. (R98) -/
  | kthrough (d a : BitVec 3) (w : Bool) (s : BitVec 4)
  /-- Highest active element, or the fallback, into an s register. (R101) -/
  | vlast (a b : BitVec 4) (v : BitVec 5)
  /-- Propagate the last active value forward from a carry-in. (R100) -/
  | vcprop (d a b : VOp)
  /-- Compress active elements to the front. (R102) -/
  | vcomp (d a : VOp)
  /-- Expand packed elements to active positions. (R102) -/
  | vexpand (d a : VOp)
  /-- Collect deferred faults of fm under a mask and clear them. (R105) -/
  | vfchk (d a : BitVec 3)
  /-- Raise a deferred-fault trap for the lowest covered fm bit, else clear them. (R105) -/
  | vfchkR (a : BitVec 3)
  /-- Stable order of active elements by key with run starts in a mask. (R103) -/
  | vgrp (d a : VOp) (k : BitVec 3)
  /-- Unit-stride vector load. (R111) -/
  | vld (d : VOp) (b : BitVec 4)
  /-- Unit-stride vector store. (R111) -/
  | vst (d : VOp) (b : BitVec 4)
  /-- Strided vector load. (R111) -/
  | vlds (d : VOp) (b k : BitVec 4)
  /-- Strided vector store. (R111) -/
  | vsts (d : VOp) (b k : BitVec 4)
  /-- Indexed unordered gather. (R111) -/
  | vldx (d : VOp) (b : BitVec 4) (i : VOp) (f : BitVec 4)
  /-- Indexed unordered scatter with whole-element duplicate winner. (R112) -/
  | vstx (d : VOp) (b : BitVec 4) (i : VOp) (f : BitVec 4)
  /-- Indexed gather performed in ascending element order. (R113) -/
  | vldxo (d : VOp) (b : BitVec 4) (i : VOp) (f : BitVec 4)
  /-- Indexed scatter performed in ascending element order. (R113) -/
  | vstxo (d : VOp) (b : BitVec 4) (i : VOp) (f : BitVec 4)
  /-- Unit-stride first-fault load lowering vl at a later failing element. (R116) -/
  | vldff (d : VOp) (b : BitVec 4)
  /-- Unit-stride speculative load setting fm bits in place of trapping. (R117) -/
  | vldsp (d : VOp) (b : BitVec 4)
  /-- Indexed first-fault load. (R116) -/
  | vldxff (d : VOp) (b : BitVec 4) (i : VOp) (f : BitVec 4)
  /-- Indexed speculative load. (R117) -/
  | vldxsp (d : VOp) (b : BitVec 4) (i : VOp) (f : BitVec 4)
  /-- Indexed atomic add in ascending steps per address. (R114) -/
  | vamoadd (d : VOp) (b : BitVec 4) (i : VOp) (f : BitVec 4)
  /-- Indexed atomic minimum. (R114) -/
  | vamomin (d : VOp) (b : BitVec 4) (i : VOp) (f : BitVec 4)
  /-- Indexed atomic maximum. (R114) -/
  | vamomax (d : VOp) (b : BitVec 4) (i : VOp) (f : BitVec 4)
  /-- Indexed atomic and. (R114) -/
  | vamoand (d : VOp) (b : BitVec 4) (i : VOp) (f : BitVec 4)
  /-- Indexed atomic or. (R114) -/
  | vamoor (d : VOp) (b : BitVec 4) (i : VOp) (f : BitVec 4)
  /-- Indexed atomic exclusive or. (R114) -/
  | vamoxor (d : VOp) (b : BitVec 4) (i : VOp) (f : BitVec 4)
  /-- Indexed atomic swap. (R114) -/
  | vamoswp (d : VOp) (b : BitVec 4) (i : VOp) (f : BitVec 4)
  /-- Advance a work vector's tail once and store active records at their slots. (R118) -/
  | vappend (d : VOp) (b : BitVec 4) (i : VOp) (l : Bool) (q : BitVec 2)
  /-- Handle-typed load resolving each position through the tensor's levels. (R203) -/
  | vldh (d : VOp) (h : BitVec 4) (p : VOp)
  /-- Handle-typed store to the entries that hold each position. (R203) -/
  | vsth (d : VOp) (h : BitVec 4) (p : VOp)
  /-- Raise the team's tile-row holding without waiting. (R125) -/
  | matt (a b : BitVec 4)
  /-- Wait for the team's matrix commands, then release every tile row. (R126) -/
  | mdet
  /-- Set a range of accumulator tiles to +0. (R159) -/
  | mzero (a b : BitVec 4)
  /-- Matrix product of scratchpad rows into accumulator tiles. (R156) -/
  | mma (a b c : BitVec 4) (z : Bool) (f : BitVec 3)
  /-- Structured-sparse matrix product with a mask. (R157) -/
  | mmas (a b c : BitVec 4) (k : BitVec 3) (z : Bool) (f : BitVec 3)
  /-- Matrix product with A rows gathered by an index vector. (R157) -/
  | mmag (a b c : BitVec 4) (v : BitVec 5) (z : Bool) (f : BitVec 3)
  /-- One tree-descent step: dots, child nodes and path-trace records. (R127) -/
  | mdsc (a b c : BitVec 4) (v : BitVec 5) (f : BitVec 3) (t : Bool) (p : BitVec 2)
  /-- Read a field of path-trace records into a vector. (R132) -/
  | ptrd (a : BitVec 4) (v : BitVec 5) (f p : BitVec 2)
  /-- Read accumulator elements by flat index into a vector. (R161) -/
  | mrd (a : BitVec 4) (v : BitVec 5)
  /-- Write vector elements to accumulator elements by flat index. (R161) -/
  | mwr (a : BitVec 4) (v : BitVec 5)
  /-- Convert accumulator tiles into the scratchpad, optionally clearing them. (R160) -/
  | mcvt (a b c : BitVec 4) (l : Bool) (f : BitVec 3)
  /-- Write one 8-byte word of a handle register. (R200) -/
  | hset (h b : BitVec 4) (w : BitVec 3)
  /-- Clear a handle register to all zeros. (R200) -/
  | hsetZ (h : BitVec 4)
  /-- Load a 64-byte handle image into a handle register. (R169) -/
  | hld (h b : BitVec 4)
  /-- Store a handle register's 64-byte image. (R201) -/
  | hst (h b : BitVec 4)
  /-- Issue a product-key lookup command for m queries. (R172) -/
  | klq (h b c d : BitVec 4) (n : BitVec 6)
  /-- Issue a product-key gradient update command. (R176) -/
  | klu (h b c d : BitVec 4) (n : BitVec 6)
  /-- Mark elements whose index rows would fail the index probe. (R211) -/
  | probe (a : BitVec 4) (k : BitVec 3) (c : BitVec 4) (v : BitVec 5) (z : BitVec 4)
  /-- Issue an index-engine gather of rows into packed scratchpad rows. (R208) -/
  | gix (a b c : BitVec 4) (v : BitVec 5) (z : BitVec 4)
  /-- Issue an index-engine scatter, store or add, of packed rows. (R208) -/
  | six (a b c : BitVec 4) (v : BitVec 5) (o : BitVec 2) (z : BitVec 4)
  /-- Issue a one-run copy command in a chosen direction with an optional completion add. (R218) -/
  | cpy (a b c d : BitVec 4) (r : BitVec 2) (n : BitVec 6)
  /-- Issue a copy command with one run per iteration of the latched loop nest. (R220) -/
  | cpyn (a b c d : BitVec 4) (r : BitVec 2) (n : BitVec 6)
  /-- Write one loop-nest level's count and strides. (R219) -/
  | lnset (a b c : BitVec 4) (l : BitVec 3)
  /-- Reset every loop-nest level to count 1, strides 0. (R219) -/
  | lnsetZ
  /-- Scalar atomic add with optional release and acquire. (R237) -/
  | amoAdd (d a b : BitVec 5) (o : BitVec 2) (w : Bool) (s : Scope)
  /-- Scalar atomic and. (R237) -/
  | amoAnd (d a b : BitVec 5) (o : BitVec 2) (w : Bool) (s : Scope)
  /-- Scalar atomic or. (R237) -/
  | amoOr (d a b : BitVec 5) (o : BitVec 2) (w : Bool) (s : Scope)
  /-- Scalar atomic exclusive or. (R237) -/
  | amoXor (d a b : BitVec 5) (o : BitVec 2) (w : Bool) (s : Scope)
  /-- Scalar atomic signed minimum. (R237) -/
  | amoMin (d a b : BitVec 5) (o : BitVec 2) (w : Bool) (s : Scope)
  /-- Scalar atomic unsigned minimum. (R237) -/
  | amoMinu (d a b : BitVec 5) (o : BitVec 2) (w : Bool) (s : Scope)
  /-- Scalar atomic signed maximum. (R237) -/
  | amoMax (d a b : BitVec 5) (o : BitVec 2) (w : Bool) (s : Scope)
  /-- Scalar atomic unsigned maximum. (R237) -/
  | amoMaxu (d a b : BitVec 5) (o : BitVec 2) (w : Bool) (s : Scope)
  /-- Scalar atomic swap. (R237) -/
  | amoSwp (d a b : BitVec 5) (o : BitVec 2) (w : Bool) (s : Scope)
  /-- Scalar atomic compare with x[rd] and swap. (R237) -/
  | amoCas (d a b : BitVec 5) (o : BitVec 2) (w : Bool) (s : Scope)
  /-- Single-copy atomic load followed by an acquire at its scope. (R239) -/
  | ldacq (d a : BitVec 5) (x : Bool) (z : BitVec 2) (s : Scope)
  /-- Release at its scope followed by a single-copy atomic store. (R239) -/
  | strel (a b : BitVec 5) (z : BitVec 2) (s : Scope)
  /-- Full fence: release fence then acquire fence at the scope. (R240) -/
  | fence (s : Scope)
  /-- Release fence at the scope. (R240) -/
  | fenceRl (s : Scope)
  /-- Acquire fence at the scope. (R240) -/
  | fenceAq (s : Scope)
  /-- Wait until a word is at least a value, then acquire. (R179) -/
  | waitge (a b : BitVec 5) (s : Scope)
  /-- Wait until a word differs from a value, then acquire. (R241) -/
  | waitne (a b : BitVec 5) (s : Scope)
  /-- Release, then raise a barrier's pending count. (R244) -/
  | expect (a b : BitVec 5) (s : Scope)
  /-- Release, then lower a barrier's pending count by a mask's popcount, completing the phase at zero. (R244) -/
  | arrive (d a b : BitVec 5) (s : Scope)
  /-- Wait until a barrier's phase moves on, then acquire. (R244) -/
  | bwait (a b : BitVec 5) (s : Scope)
  /-- Read a system register of a target into x[rd]. (R297) -/
  | srr (d t : BitVec 5) (n : BitVec 9)
  /-- Write a system register of a target. (R297) -/
  | srw (t v : BitVec 5) (n : BitVec 9)
  /-- Environment call: precise trap on a hart, trap to tvec on a verge core. (R298) -/
  | ecall
  /-- Return from a verge-core trap to epc. (R298) -/
  | eret
  /-- The hart issues no further control-stream instruction; its queued blocks still run. (R277) -/
  | exit
  /-- Stop being ready for up to c cycles, or a verge core waits for a fault record. (R299) -/
  | yield (a : BitVec 5)
  /-- Drain, check a launch record and append it to the team's device queue. (R259) -/
  | launch (a : BitVec 5)
  /-- Invalidate cached translations of a page, a context or all, waiting for pins. (R300) -/
  | tinv (a b : BitVec 5) (e : BitVec 2)
  /-- Copy the head fault-queue record out and advance head, then acquire. (R300) -/
  | fqpop (d a : BitVec 5)
  /-- Release and resume every hart and command parked on a record, optionally skipping. (R300) -/
  | fqreplay (d a b : BitVec 5)
  /-- Breakpoint trap, or a halt to the debug core when armed. (R298) -/
  | brk
  /-- The vector stream takes the next block-queue entry and starts the block. (R16) -/
  | blockStart (h : Nat)
  /-- At a loop's end address the loop entry is repeated or popped. (R90) -/
  | loopEndCheck (h : Nat)
  /-- A made report is written into the fault-queue ring once there is room. (R285) -/
  | faultRecordWrite
  /-- A write of fqring that gives a usable ring lets waiting reports enter in order. (R285) -/
  | fqringWrite (v : W64)
  /-- The copy engine performs a run, or 4 KiB of one, of a copy command. (R220) -/
  | copyRun (h seq : Nat)
  /-- A command waiting for free RIT entries receives them in waiting order and issues. (R226) -/
  | ritStallEnd (core : Nat)
  /-- After every payload byte, the completion word is added to as a release. (R222) -/
  | completionAdd (h seq : Nat)
  /-- A tile row finishes one tile of a product or conversion command. (R156) -/
  | matrixTile (h seq : Nat)
  /-- The matrix unit completes an mdsc, writing children and trace records. (R128) -/
  | descentExecute (h seq : Nat)
  /-- A lookup command translates and pins its tables and named rows. (R175) -/
  | lookupProbe (h seq : Nat)
  /-- A KLE scores, selects and weights queries, or steps value rows for klu. (R173) -/
  | lookupExecute (h seq : Nat)
  /-- An index command checks indices and pins every page its rows touch. (R210) -/
  | indexProbePass (h seq : Nat)
  /-- The slice index engines gather or scatter the rows of an index command. (R208) -/
  | indexMove (h seq : Nat)
  /-- A dirty L1 byte is written back 65,536 cycles after it became dirty. (R188) -/
  | l1WritebackHorizon (core line : Nat)
  /-- A clean L1 byte is invalidated 65,536 cycles after its fill. (R188) -/
  | l1InvalidateHorizon (core line : Nat)
  /-- A waiting waitge, waitne or bwait tests its word again on a line write or every 4,096 cycles. (R242) -/
  | waitRetest (p : Party)
  /-- An exited hart's groups return to the pool once its vector stream is idle. (R29) -/
  | laneGroupReturn (h : Nat)
  /-- Crossroads takes the highest-priority ready queue head and forms its pending teams. (R268) -/
  | takeRecord
  /-- Crossroads places pending teams that fit and chooses pre-emption victims. (R272) -/
  | schedulerPass
  /-- After 2^24 cycles pending a team's effective priority rises by one. (R272) -/
  | teamAgeing (team : Nat)
  /-- Crossroads stops a team's streams and lets issued engine commands reach their points. (R274) -/
  | preemptStop (team : Nat)
  /-- Once stopped, the team is released at dv, saved and its resources freed. (R275) -/
  | teamSave (team : Nat)
  /-- A team whose harts exited and whose blocks and engine commands finished is released and freed. (R277) -/
  | teamRetire (team : Nat)
  /-- A write of 1 to hctl requests pre-emption of the hart's team, or a dump with hold. (R294) -/
  | hctlPreempt (g : Nat)
  /-- A write of 2 to hctl terminates the hart's launch. (R277) -/
  | hctlTerminate (g : Nat)
  /-- An access to rfdata reads or writes 8 bytes of the selected file and advances the offset. (R294) -/
  | rfdataAccess (g : Nat) (w : Option W64)
  /-- A write to rngseed waits for an idle vector stream and reseeds the lanes. (R293) -/
  | rngseedWrite (h : Nat) (v : W64)
  /-- A write to a host queue's tail is the tail-pointer write that offers records. (R265) -/
  | qtailWrite (q : Nat) (v : W64)
  /-- A read of olink returns the link state and clears the link-down bit. (R302) -/
  | olinkRead
  /-- The Onistyan link goes down; host-window accesses and queue reads wait. (R304) -/
  | hostLinkDown
  /-- The link returns; waiting accesses complete and due completion entries are written. (R304) -/
  | hostLinkUp
  /-- After 2^20 cycles a waiting host-window read completes poisoned and a write is discarded. (R304) -/
  | hostAccessTimeout (p : Party)
  /-- An expander leaving the link turns its slot into a none range. (R193) -/
  | cxlExpanderLeave (e : Nat)
  /-- The fabric port takes send descriptors after the send-tail store. (R308) -/
  | fabricSendTake (ch : Nat)
  /-- A cell arrives at the peer and is written into its message's slot. (R310) -/
  | fabricCellArrive (c : Cell)
  /-- The sender's port receives the acknowledgement and adds the completion word. (R310) -/
  | fabricAck (ch msg : Nat)
  /-- The peer port grants permits as the receive-head word frees slots. (R309) -/
  | fabricPermitGrant (ch : Nat) (fromPeer : Option Nat)
  /-- On a peer's reset notice its permits are reclaimed and partial messages aborted. (R309) -/
  | fabricResetNotice (peer : Nat)
  /-- A write of imgaddr starts a code-image load. (R315) -/
  | imgaddrWrite (v : W64)
  /-- The image load finishes its checks and registers the image or records an error. (R315) -/
  | imageLoadDone
  /-- The translator finishes native code for a registered image and sets imgstat[16]. (R317) -/
  | nativeTranslationDone (id : Nat)
  /-- A write of imgdrop unregisters an image once no team runs its code. (R315) -/
  | imgdropWrite (v : W64)
  /-- Setting haltreq stops the selected hart and releases at dv. (R326) -/
  | haltreq (g : Nat)
  /-- Setting resumereq acquires at dv and lets the halted hart issue. (R326) -/
  | resumereq (g : Nat)
  /-- Writing hold to 0 lets a team held for a dump return to pending. (R328) -/
  | holdRelease
  /-- A hart whose next instruction matches a breakpoint halts before it. (R327) -/
  | breakpointHalt (p : Party)
  /-- The abstract command reads or writes a register of the selected hart. (R324) -/
  | accessRegister (cmd : BitVec 32)
  /-- The abstract command reads or writes memory at data2. (R324) -/
  | accessMemory (cmd : BitVec 32)
  /-- Writing 1s to dbgstat clears cmderr. (R323) -/
  | dbgstatWrite (v : W64)
  /-- Every 2^k cycles all units latch counters and a record is written or dropped. (R329) -/
  | milestoneTick
  /-- A read of msptr is an acquire at dv for the records it counts. (R329) -/
  | msptrRead
  /-- The host sets a power state and budget, pre-empting teams if the budget falls. (R335) -/
  | pstateWrite (v : W64)
  /-- A start runs its seven steps with fallbacks and writes the start record. (R331) -/
  | deviceStart (r : StartRun)
  /-- A write to recaddr while step 1 waits fetches and verifies a recovery image. (R334) -/
  | recoveryImageFetch (a : W64) (r : StartRun)
  /-- A hardwired thermal trip stops every clock without saving anything. (R336) -/
  | thermalTrip
  /-- A write to attreq starts a signed attestation report. (R337) -/
  | attestationRequest (a : W64)
  /-- The report is written as a release at sy and attstat[1] is set. (R337) -/
  | attestationDone
  /-- A write to a system register that has no row of its own. (R292) -/
  | registerWrite (t n : Nat) (v : W64)
  /-- The c cycles of a yield run out, so the hart is ready again or the verge core's wait ends. (R299) -/
  | yieldWaitEnd (p : Party)
  /-- A host write to device memory arrives over the Onistyan link and takes its place in the home slice's coherence order. (R190) -/
  | hostWrite (pa : Nat) (bytes : List Byte)
  /-- This device's fabric port is reset: it loses every permit it holds and sends a link-level reset notice. (R309) -/
  | portReset
deriving DecidableEq, Repr, Inhabited

/-- What moves next: a party runs one instruction (`cut` is the element group at which a pre-emption stops an
element-wise instruction, R34), the two streams of a hart run one each that were issued together (R19), an event happens, time passes, an L1 line is evicted (R187), a translation or a code line
is cached or dropped (R283, R291, R320), a line's memory reports an uncorrectable error (R289), a lookup or index
command meets poison ahead of its next step (R175, R176, R210), the fabric carries away the oldest of what the port has
sent (R310), a party runs one instruction whose accesses stay unperformed (R248, R338), such an access is performed, or a read is
performed again. -/
inductive Mover where
  | run (p : Party) (cut : Option Nat)
  | both (h : Nat) (cut : Option Nat)
  | event (i : Instr)
  | elapse (n : Nat)
  | evict (core line : Nat)
  | fillTlb (core ctx va : Nat)
  | dropTlb (i : Nat)
  | fillCode (core line : Nat)
  | dropCode (core line : Nat)
  | poison (line : Nat)
  | meet (h seq : Nat)
  | depart
  | late (p : Party)
  | perform (k : Nat)
  | reread (k : Nat)
deriving DecidableEq, Repr, Inhabited

end Sys2Proof
end

