-- ==== Sys2Proof/Config.lean ====
section
/-! DEFINITION. What the spec leaves open, as free values: constants with no body, so that no proof can see what they
are and a statement holds whatever they are. Each is applied to a counter of State (`fresh`) that the step advances, or
to what the value depends on. -/

namespace Sys2Proof

/-- Which party, engine or outside event moves next when the agenda of State is empty (log 4). -/
opaque Config.freeMover : Nat → Mover

/-- A choice that R7 leaves to the device, such as which of several duplicate scatter elements stands (log 5). -/
opaque Config.freeNat : Nat → Nat

/-- The value over a period of a Milestone counter that counts time inside a unit or events the model does not tell apart
(R330; log 6): unit kind, unit, counter, tick. -/
opaque Config.milestoneCount : Nat → Nat → Nat → Nat → BitVec 32

/-- The eight bytes at an offset of the loop stack (file 14) or of a queue (17, and 18 for the reply queue) in the layout of
the save area, as a function of what the stack or the queue holds (R325, R328; log 41). -/
opaque Config.saveLayout : Nat → List Nat → Nat → BitVec 64

/-- Which accesses walk the tables though their core has the translation cached: by the counter of free values and the address
(R283; log 93). -/
opaque Config.walksAgain : Nat → Nat → Bool

/-- The set of an L1 that a line belongs to, of 128 (R186; log 18). -/
opaque Config.l1Set : Nat → Fin 128

/-- The 96 bytes of the secret that the device's identity key pair is made from, and the random bytes of a signature, by the counter of
free values (R337; log 7). -/
opaque Config.deviceSecret : Nat → Byte
opaque Config.signatureRandom : Nat → Nat → Byte

/-- The bytes of the public key that is fused into the package (R334; log 45). -/
opaque Config.fusedKey : Nat → Byte

/-- The length of the recovery image that lies at a host physical address, and where its signature lies from there on, by its
first 64 bytes (R334; log 45). -/
opaque Config.recoveryLength : List Byte → Nat
opaque Config.recoverySignature : List Byte → Nat

/-- What the rest of a start meets, where a store to recaddr lets it go on (R331, R334; log 60): by the counter of free
values. -/
opaque Config.freeStart : Nat → StartRun

/-- The ISA version the device implements (R312, R315; log 8). -/
opaque Config.isaMajor : BitVec 8
opaque Config.isaMinor : BitVec 8

/-- The errata list of a stepping (R319; log 8): whether erratum e is present, and whether a corrected one is
reproducible. -/
opaque Config.erratumPresent : BitVec 8 → Nat → Bool
opaque Config.erratumReproducible : BitVec 8 → Nat → Bool

/-- The word that translated code executes in place of a JPF word, to reproduce a set of corrected errata that the word's
image relies on (R319; log 91). -/
opaque Config.reproducedWord : Nat → Nat → Nat

end Sys2Proof
end

