-- ==== Sys2Proof/Machine/Tab.lean ====
section
/-! DEFINITION. The one container of the model: a table of (key, value) pairs in rising key order in which a key that
is not listed reads as a default value. Memory, scratchpads, register files, teams and queues are tables. Kept in
canonical form (Tab.wf), equal tables are equal lists. -/

namespace Sys2Proof.Machine

/-- Pairs in rising key order. -/
abbrev Tab (α : Type) := List (Nat × α)

/-- The value at a key; `d` where the key is not listed. -/
def Tab.get {α : Type} (d : α) : Tab α → Nat → α
  | [], _ => d
  | (j, v) :: t, k => if k < j then d else if j = k then v else Tab.get d t k

/-- The rest of a table above a key. -/
def Tab.above {α : Type} (k : Nat) : Tab α → Tab α
  | [] => []
  | (j, v) :: t => if j ≤ k then Tab.above k t else (j, v) :: t

/-- The table with one key's value replaced; a default value is not listed. -/
def Tab.put {α : Type} [DecidableEq α] (d : α) : Tab α → Nat → α → Tab α
  | [], k, v => if v = d then [] else [(k, v)]
  | (j, w) :: t, k, v =>
    if j < k then (j, w) :: Tab.put d t k v
    else if v = d then Tab.above k ((j, w) :: t)
    else (k, v) :: Tab.above k ((j, w) :: t)

/-- The table with a listed key forgotten. -/
def Tab.del {α : Type} [DecidableEq α] (d : α) (m : Tab α) (k : Nat) : Tab α := Tab.put d m k d

/-- The pairs whose keys lie at or above a bound, rise, and satisfy a condition. -/
def Tab.only {α : Type} (p : Nat → Bool) : Nat → Tab α → Tab α
  | _, [] => []
  | lo, (j, v) :: t => if j < lo then Tab.only p lo t else if p j then (j, v) :: Tab.only p (j + 1) t else Tab.only p (j + 1) t

/-- The table with every key forgotten that does not satisfy a condition. -/
def Tab.keep {α : Type} (p : Nat → Bool) (m : Tab α) : Tab α := Tab.only p 0 m

/-- Every listed key lies above a bound and the keys rise. -/
def Tab.rising {α : Type} (lo : Nat) : Tab α → Bool
  | [] => true
  | (j, _) :: t => lo ≤ j && Tab.rising (j + 1) t

/-- Canonical form: keys strictly rising, no entry equal to what an unlisted key reads as. -/
def Tab.wf {α : Type} [DecidableEq α] (d : α) (m : Tab α) : Bool :=
  Tab.rising 0 m && m.all (fun e => !decide (e.2 = d))

end Sys2Proof.Machine
end

