-- ==== Sys2Proof/Machine/State.lean ====
section
/-! DEFINITION. The state of the J9 as plain data: everything the spec gives the machine, with the state after reset,
and the reasons a step can stop. Each field's docstring names the rule that gives it. -/

namespace Sys2Proof.Machine

/-- Why the machine stops with a fault. -/
inductive Fault where
  /-- Raised by step alone: after a thermal trip every clock has stopped until power is applied again (R336), so nothing
  but a start moves. Safe: the machine does no more than the device. -/
  | clocksStopped
deriving DecidableEq, Repr

/-- Why an instruction has no meaning. -/
inductive Refusal where
  /-- Raised by exec for an instruction that has no meaning yet. Safe: nothing follows from it. -/
  | notModelled (mnemonic : String)
deriving DecidableEq, Repr

/-- One vector register (R20, R27): its bits, the scale store of a q4 register (R139), one byte for each 32 codes, and
the number of byte rows written since the last zeroing (R36). -/
structure VReg where
  data : Nat := 0
  scale : Nat := 0
  rows : Nat := 0
deriving DecidableEq, Repr, Inhabited

/-- A queued block (R15): its address, x10 to x17 as they stood, and the address of its vgo (R286). -/
structure Block where
  addr : W48
  args : List W64
  vgo : W48
deriving DecidableEq, Repr, Inhabited

/-- What a loop entry counts (R89). -/
inductive LoopKind where
  | count (remaining : W64)
  | nz (n : Nat)
  | nest (counts indices : List W64)
deriving DecidableEq, Repr

/-- A loop stack entry (R89): the kind, the end address, the body start, and the passes completed (R87). -/
structure Loop where
  kind : LoopKind
  stop : W48
  start : W48
  passes : Nat
deriving DecidableEq, Repr

/-- A level of the loop-nest sequencer (R219). -/
structure Level where
  count : W64 := 1
  ss : W64 := 0
  ds : W64 := 0
deriving DecidableEq, Repr, Inhabited

/-- What a control stream or a verge core waits for. A sleeping wait is tested again by WAIT_RETEST (R242); a yield
ends at a cycle (R299); a host-window access waits while the link is down (R304). -/
inductive Wait where
  | asleep
  | yield (until_ : Nat)
  | host (since : Nat)
deriving DecidableEq, Repr

/-- A record that a stream or a command is parked on (R19, R215): its index, and the st bit of its header, which
fqreplay looks at (R300). -/
structure Park where
  rid : Nat
  st : Bool
deriving DecidableEq, Repr

/-- A range that an engine command holds in the range interlock table (R223). -/
structure Range where
  mem : Bool
  lo : Nat
  hi : Nat
  write : Bool
deriving DecidableEq, Repr

/-- What an engine command does, with the operands latched at issue (R217, R162, R177, R212). -/
inductive EngOp where
  /-- A copy (R220): direction, bases, bytes per run, latched levels. -/
  | copy (dir : Nat) (dst src : W64) (z : Nat) (nest : List Level)
  /-- A product (R156): format, z, K, tiles, bases and pitches; for each output row the A row's offset, or none for an
  inactive row; the mask of mmas. -/
  | prod (fmt : Nat) (z : Bool) (k c0 mt nt : Nat) (rows : List (Option Nat)) (b pb : Nat) (mask : Option Nat)
  /-- A tile conversion (R160): tiles, output offset, format, rounding, saturation, clear. -/
  | mcvt (tile spad n fmt rnd : Nat) (sat clr : Bool)
  /-- A descent step (R127): token and node bases, geometry word, format, write-trace flag and trace register; the
  node vector's register; the active elements with their nodes and token rows. -/
  | desc (a b : Nat) (geom : W64) (fmt : Nat) (trace : Option Nat) (v : Nat) (vl : Nat) (rows : List (Nat × Nat × Nat))
  /-- A lookup query (R172): the handle image, the offsets of queries and records, m, and once probed the selections of
  each query with their weights (R173). -/
  | klq (h : BitVec 512) (query rec m : Nat) (sel : List (List (Nat × Nat)))
  /-- A lookup update (R176): the handle image, the offsets of gradients and records, m, the scale, and once probed the
  row steps: query, row, weight. -/
  | klu (h : BitVec 512) (grad rec m c : Nat) (work : List (Nat × Nat × Nat))
  /-- A row gather or scatter (R207): the base, pitch and bound, the row size, the packed offset, the latched row indices;
  for a scatter its operation. -/
  | gix (base pitch bound : Nat) (z pack : Nat) (rows : List Nat)
  | six (base pitch bound : Nat) (z pack : Nat) (rows : List Nat) (op : Nat)
deriving DecidableEq, Repr

/-- How far a command has come: to be probed (R175, R210), running, or waiting to add its completion word (R222). -/
inductive Stage where
  | probe
  | run
  | add
deriving DecidableEq, Repr

/-- An engine command in flight (R217, R286): its hart and sequence number, where it was issued, its operands, its
completion word, the interlock ranges it still holds, its progress (run and offset of a copy, R228; the next tile of a
matrix command; the next row of a lookup or index command), the record it is parked on, and whether a save kept it and
its team's harts wait for it (R276). -/
structure Cmd where
  hart : Nat
  seq : BitVec 32
  cpc : W48
  vpc : W48
  op : EngOp
  cw : W64
  add : Nat
  ranges : List Range
  stage : Stage
  k : Nat
  o : Nat
  parked : Option Park
  kept : Bool := false
  /-- the entries given up at the end of the payload, held again by a command that parks there (R222), and those that are to be
  made again on the core its team was placed on (R229) -/
  spare : List Range := []
  unmade : List Range := []
deriving DecidableEq, Repr

/-- A command that cannot issue for want of interlock entries (R226): how many it needs, and whether its turn has come. -/
structure RitStall where
  need : Nat
  ready : Bool
deriving DecidableEq, Repr

/-- The tail latch of a stopped vappend (R118): the old tail, and the instruction it belongs to. -/
structure TailLatch where
  base : W64
  pc : W48
deriving DecidableEq, Repr

/-- A hart (R13, R20). A hart is named by eight times its team plus its index; `num` is its global number (R3, R341). -/
structure Hart where
  /-- resident on a core: its global number is in use (R341) -/
  resident : Bool := false
  /-- the global hart number it holds, or held when it was saved (R3, R341) -/
  num : Nat := 0
  /-- x1 to x31 (R20); x0 is not listed -/
  x : Tab W64 := []
  /-- the control-stream program counter (R13) -/
  cpc : W48 := 0
  /-- s0 to s15 (R20) -/
  s : Tab W64 := []
  /-- the vector-stream program counter (R13) -/
  vpc : W48 := 0
  /-- v0 to v31 at 0 to 31, o0 to o7 at 32 to 39, l0 and l1 at 40 and 41 (R20) -/
  v : Tab VReg := []
  /-- the register that the l-file move of a stopped element-wise instruction displaced (R22, R34; log 11) -/
  lold : VReg := {}
  /-- k0 to k7 (R20) -/
  k : Tab Nat := []
  /-- the fault mask (R104) -/
  fm : Nat := 0
  /-- h0 to h15 (R20) -/
  hd : Tab (BitVec 512) := []
  /-- pt0 to pt3, 4 KiB each: byte offset plus 4,096 times the number (R131) -/
  pt : Tab Byte := []
  /-- the mode register (R24) -/
  mode : BitVec 32 := 0
  /-- vl and vstart (R20) -/
  vl : Nat := 0
  vstart : Nat := 0
  /-- the declared register count (R27, R71) -/
  n : Nat := 8
  /-- the lane groups held, a set of 16 (R29) -/
  groups : Nat := 0
  /-- the number of groups held, or saved by a pre-emption (R27, R31) -/
  lg : Nat := 0
  /-- the block queue and the reply queue (R15, R17) -/
  blockQ : List Block := []
  replyQ : List W64 := []
  /-- the running block (R16, R286) -/
  block : Option Block := none
  /-- the loop stack, top first (R89), and whether the end check of R90 is due -/
  loops : List Loop := []
  check : Bool := false
  /-- the loop-nest levels (R219) -/
  nest : Tab Level := []
  /-- engine commands issued (R293) -/
  engseq : BitVec 32 := 0
  /-- the stochastic seed and lanes 0 to 255 (R143) -/
  rngseed : BitVec 32 := 0
  rng : Tab (BitVec 32) := []
  /-- a vappend stopped at a record (R118) -/
  latch : Option TailLatch := none
  /-- the records the two streams are parked on (R19), and the instructions that replays have skipped while it was away,
  which count at its resumption (R300) -/
  parkC : Option Park := none
  parkV : Option Park := none
  skips : Nat := 0
  /-- exit has been performed (R277) -/
  exited : Bool := false
  /-- halted to the debug core, with the cause (R326, R327) -/
  halted : Option Nat := none
  /-- a halt is requested, or a resumption while it is away (R326) -/
  haltReq : Bool := false
  resumeReq : Bool := false
  /-- the matching instruction executes once after resumption (R327) -/
  bpSkipC : Bool := false
  bpSkipV : Bool := false
  /-- what the control stream waits for -/
  wait : Option Wait := none
  /-- the vector stream waits for the host link (R304) -/
  vwait : Option Wait := none
  /-- the link time-out of R304 has passed for the pending access of a stream -/
  linkDeadC : Bool := false
  linkDeadV : Bool := false
  /-- the vector stream stands at a command that is stalled for interlock entries (R226) -/
  stalled : Option RitStall := none
  /-- the register-file selector (R294) -/
  rfsel : W64 := 0
  /-- streams that run translated code (R317) -/
  fastC : Bool := false
  fastV : Bool := false
deriving DecidableEq, Repr

/-- Where a team stands (R260, R272 to R277). -/
inductive TeamState where
  | pending
  | resident
  | stopping
  | saved
  | retired
deriving DecidableEq, Repr

/-- A team (R258, R260, R268, R272). Hart index i of team t is hart 8 t + i. -/
structure Team where
  st : TeamState := .pending
  /-- the launch it belongs to and its number in it (R260) -/
  launch : Nat := 0
  index : Nat := 0
  /-- the shape field (R258) and the context (R264) -/
  shape : W64 := 0
  ctx : Nat := 0
  /-- the age (R268), when it became pending and how long it was pending before (R272), and whether that has raised its
  effective priority -/
  age : Nat := 0
  since : Nat := 0
  waited : Nat := 0
  aged : Bool := false
  /-- when it was placed, in the order of placements (R270, R272) -/
  placed : Nat := 0
  /-- the team it was chosen as a victim for (R272), and whether for a power state (R270) -/
  victimOf : Option Nat := none
  forPower : Bool := false
  /-- the core, the first scratchpad unit (R182) -/
  core : Nat := 0
  unit0 : Nat := 0
  /-- the scratchpad by offset (R182), the accumulator elements by flat index (R153), the tile rows held (R151) -/
  spad : Tab Byte := []
  acc : Tab (BitVec 32) := []
  rows : Nat := 0
  /-- has started; asked to stop; kept saved for a dump (R328); its launch is terminated (R277) -/
  started : Bool := false
  request : Bool := false
  held : Bool := false
  killed : Bool := false
  /-- runs JPF (R316), and the registered image its code lies in -/
  jpf : Bool := false
  image : Option Nat := none
deriving DecidableEq, Repr

/-- Where a launch record came from: record i of a host queue (R265), or the hart and address of a launch
instruction (R340). -/
inductive Source where
  | host (q : Nat) (i : W64)
  | device (g : Nat) (pc : W48)
deriving DecidableEq, Repr

/-- A launch that has been taken (R260, R261, R266): its record, context, and how many teams have been formed, have
started and have retired; its status; finished. -/
structure Launch where
  src : Source := .host 0 0
  words : List W64 := []
  ctx : Nat := 0
  teams : Nat := 0
  started : Nat := 0
  retired : Nat := 0
  killed : Bool := false
  finished : Bool := false
deriving DecidableEq, Repr

/-- A record in a device queue (R259, R267), with the hart and address that launched it (R340). -/
structure DevRecord where
  words : List W64
  hart : Nat
  pc : W48
deriving DecidableEq, Repr

/-- A byte of a core's L1 (R186): its value, whether it is dirty, and the cycle it was filled or became dirty. -/
structure L1Byte where
  val : Byte
  dirty : Bool
  at_ : Nat
deriving DecidableEq, Repr

/-- A cached translation of a core (R283): the context, the page's first address, its size, the leaf entry. -/
structure TlbEntry where
  core : Nat
  ctx : Nat
  base : Nat
  size : Nat
  leaf : W64
deriving DecidableEq, Repr

/-- A cached code line (R291): its 64 bytes as fetched, and whether it was poisoned. -/
structure CodeLine where
  bytes : List Byte
  poisoned : Bool
deriving DecidableEq, Repr

/-- Bytes of one write to host memory that wait for the link (R304), with the cycle they began to wait. -/
structure LinkWrite where
  pa : Nat
  vals : List Byte
  since : Nat
deriving DecidableEq, Repr

/-- The place of an access: a scratchpad offset of the hart's team, a physical address, or a register view. -/
inductive Place where
  | spad (team off : Nat)
  | mem (pa : Nat)
  | view (pa : Nat)
deriving DecidableEq, Repr

/-- The function of an atomic step (R114, R237). -/
inductive AtomicFn where
  | add | and | or | xor | min | minu | max | maxu | swp | cas
deriving DecidableEq, Repr

/-- An atomic step that is still to be performed: its function, its operand, the value that a cas compares with, and for an element
of an indexed atomic its type, rounding mode, saturation and the state of its stochastic lane (R114, R143). -/
structure LateStep where
  fn : AtomicFn
  operand : Nat
  compare : Nat
  vec : Option (Nat × Nat × Bool × BitVec 32)
deriving DecidableEq, Repr

/-- What takes the value that an access reads: nothing, a control register, extended by its sign, an element of vector registers, or a
handle register. -/
inductive Target where
  | none
  | x (r : Nat) (signed : Bool)
  | v (regs : List Nat) (elem : Nat)
  | handle (n : Nat)
deriving DecidableEq, Repr

/-- What an access that can still be performed does there: a write of bytes; a read, which has been performed once and may be
performed again in its place; an atomic step; the wait and the write-back of a release, before its own write or, for a release
fence, before every later write of its stream (R234, R240). -/
inductive LateAct where
  | write (vals : List Byte)
  | read (dst : Target)
  | step (x : LateStep) (dst : Target)
  | release (sc : Scope) (fence : Bool)
deriving DecidableEq, Repr

/-- An access of a completed instruction that can still be performed (R248, R338): the stream, the core whose L1 it goes through,
whether it is performed at the home slice, its place and bytes, what it does; the ranges of its instruction (R122, R224); the number
of its instruction among those whose accesses stand in order, 0 for none; whether a block that sees it has been queued (R69); and the
cycle in which its instruction executed. -/
structure Pending where
  party : Party
  core : Nat
  home : Bool
  pl : Place
  size : Nat
  act : LateAct
  span : List Range := []
  grp : Nat := 0
  queued : Bool := false
  since : Nat := 0
deriving DecidableEq, Repr

/-- A fault report that still waits for the ring (R285): its index, the eight words of R286, and the core of the hart that
it is made for, whose release goes before its write. -/
structure Report where
  rid : Nat
  words : List W64
  core : Option Nat
deriving DecidableEq, Repr

/-- A translation-fault entry that still merges (R215): its index, context and page. -/
structure Entry where
  rid : Nat
  ctx : Nat
  base : Nat
  size : Nat
deriving DecidableEq, Repr

/-- A pin on a page held by a probe pass (R283), with the page's leaf entry. -/
structure Pin where
  hart : Nat
  seq : BitVec 32
  ctx : Nat
  base : Nat
  size : Nat
  leaf : W64
deriving DecidableEq, Repr

/-- A verge core or the debug core (R53, R296). -/
structure Verge where
  x : Tab W64 := []
  pc : W64 := 0
  tvec : W64 := 0
  epc : W64 := 0
  ecause : W64 := 0
  evalue : W64 := 0
  escratch : W64 := 0
  vroot : W64 := 0
  wait : Option Wait := none
  linkDead : Bool := false
deriving DecidableEq, Repr

/-- What waits for the host link besides harts and verge cores (R304): an engine command, a fabric channel's sending side, a
message that arrives in a slot or is acknowledged, an abstract debug command, the load of an image, a launch that is to be
finished, the head of a queue (a host queue's number, or 64 plus 4 times a context plus a priority). -/
inductive Waiter where
  | cmd (hart : Nat) (seq : BitVec 32)
  | send (ch : Nat)
  | recv (ch msg slot : Nat)
  | ack (ch msg : Nat)
  | debug
  | image
  | launch (l : Nat)
  | queue (q : Nat)
deriving DecidableEq, Repr

/-- A fabric message being sent (R308, R310): channel, sequence number, descriptor fields, and the record its completion
word's add is parked on. -/
structure SendMsg where
  ch : Nat
  msg : Nat
  src : W64
  len : Nat
  cw : W64
  tag : W64
  parked : Option Nat
deriving DecidableEq, Repr

/-- A fabric message being received (R310, R311): its slot's address, the cells written, the cells held back, the
record it is parked on, and whether its sender's reset has aborted it (R309). -/
structure RecvMsg where
  ch : Nat
  msg : Nat
  slot : Nat
  len : Nat
  tag : W64
  seen : List Nat
  held : List Cell
  parked : Option Nat
  aborted : Bool := false
deriving DecidableEq, Repr

/-- What the port sends over the fabric (R309, R310): a cell on a rail to a channel of a peer, the acknowledgement of a
message, permits, a reset notice to every peer. -/
inductive Packet where
  | cell (rail peer : Nat) (c : Cell)
  | ack (peer ch msg : Nat)
  | permits (peer ch n : Nat)
  | resetNotice
deriving DecidableEq, Repr

/-- A kernel of a registered image (R313): where its words lie in either form, and how many there are. -/
structure Kernel where
  nctl : Nat
  jctl : Nat
  words : Nat
deriving DecidableEq, Repr, Inhabited

/-- A registered code image (R312, R315): it holds native code, which is this device's if the hashes agree (R316), its
kernels, and the set of corrected errata that its translated code reproduces (R319). -/
structure Image where
  id : Nat
  ctx : Nat
  base : Nat
  size : Nat
  hasNative : Bool
  native : Bool
  kernels : List Kernel
  errata : Nat := 0
  translated : Bool
  dropped : Bool
deriving DecidableEq, Repr

/-- The device (R1 to R3). -/
structure State where
  /-- the party that executes; the movers to come; where an element-wise instruction is cut by a pre-emption; the
  counter of free values; the last value returned to a reader outside (the model's own fields, logs 4 and 9) -/
  cur : Party := .verge 0
  agenda : List Mover := []
  cut : Option Nat := none
  fresh : Nat := 0
  hostData : W64 := 0
  /-- the grade is J9S-A48 (R1); the stepping (R293); the quad slots (R295) -/
  a48 : Bool := false
  stepping : BitVec 8 := 1
  qplace : Tab W64 := []
  /-- cycles since device start (R293) -/
  cycle : Nat := 0
  /-- the home copy of every physical byte (R181, R190); poisoned lines (R289) -/
  mem : Tab Byte := []
  poison : Tab Bool := []
  /-- the L1 bytes of every core, at core times 2^52 plus the physical address (R186) -/
  l1 : Tab (Option L1Byte) := []
  /-- accesses of completed instructions that can still be performed, oldest first (R248, R338) -/
  late : List Pending := []
  /-- cached code lines of every core, at core times 2^46 plus the line number (R291), and cached translations (R283) -/
  icache : Tab (Option CodeLine) := []
  tlb : List TlbEntry := []
  pins : List Pin := []
  /-- contexts (R295) -/
  ctxsel : Nat := 0
  ctxroot : Tab W64 := []
  /-- the root each context's accesses walk from: the last one written with en set, for clearing en stops no running team -/
  roots : Tab W64 := []
  /-- the fault queue (R285) and its waiting reports and merging entries (R215) -/
  fqring : W64 := 0
  fqhead : Nat := 0
  fqtail : Nat := 0
  reports : List Report := []
  live : List Entry := []
  /-- host queues: qring, qcring, qhead, qtail of queue q at 4 q to 4 q + 3 (R302) -/
  hq : Tab W64 := []
  /-- device queues at 4 times the context plus the priority (R267), and for each priority the queue at which the round
  robin goes on (R268): a host queue's number, or 64 plus a context -/
  dq : Tab (List DevRecord) := []
  rr : Tab Nat := []
  /-- launches, teams, harts; how many of each there are; the clocks of ages and placements -/
  launches : Tab Launch := []
  teams : Tab Team := []
  harts : Tab Hart := []
  nlaunch : Nat := 0
  nteam : Nat := 0
  nage : Nat := 0
  nplace : Nat := 0
  /-- the hart most recently saved from each global number (R341) -/
  savedFrom : Tab (Option Nat) := []
  /-- engine commands in flight, oldest first (R214), and the harts of each core that wait for entries (R226) -/
  cmds : List Cmd := []
  ritQ : Tab (List Nat) := []
  /-- completion entries that wait for the link: address and 16 bytes (R304) -/
  dueEntries : List (Nat × List Byte) := []
  /-- the Onistyan link (R302) and the expanders' cxlstat (R306) -/
  linkUp : Bool := false
  linkDown : Bool := false
  /-- who has met the link down, and at which cycle (R304) -/
  hostWaits : List (Waiter × Nat) := []
  linkQ : List LinkWrite := []
  cxlstat : Tab W64 := []
  /-- the fabric (R307 to R311): permits held and granted, messages, sequence numbers, parked channels -/
  fabid : W64 := 0
  fchan : W64 := 0
  railstat : W64 := 0
  permits : Tab Nat := []
  granted : Tab Nat := []
  sends : List SendMsg := []
  sendSeq : Tab Nat := []
  sendPark : Tab (Option Nat) := []
  recvs : List RecvMsg := []
  /-- what the port has sent and the fabric has not carried away, oldest first (R310) -/
  outbox : List Packet := []
  /-- code images (R315 to R319) -/
  imgctx : Nat := 0
  imgcode : Nat := 0
  imgerr : Nat := 0
  imgdone : Bool := false
  imgid : Nat := 0
  imgload : Option W64 := none
  images : List Image := []
  nimage : Nat := 0
  /-- debug registers (R323) -/
  dbgctl : W64 := 0
  cmderr : Nat := 0
  data0 : W64 := 0
  data1 : W64 := 0
  data2 : W64 := 0
  /-- an abstract command that has been written and is to be performed: dbgstat's busy (R323) -/
  dbgCmd : Option (BitVec 32) := none
  bp : Tab W64 := []
  /-- the Milestone stream (R329) -/
  msctl : W64 := 0
  msbase : W64 := 0
  msptr : Nat := 0
  msrd : W64 := 0
  msdrop : Nat := 0
  msgap : Bool := false
  mstick : Nat := 0
  /-- what the period has counted so far, by counter (R330) -/
  counts : Tab Nat := []
  /-- power and start (R331 to R336) -/
  pstate : Nat := 0
  power : Nat := 0
  /-- the state and the budget in force while a change is in progress (R333, R335) -/
  former : Nat × Nat := (0, 0)
  changing : Bool := false
  halfRate : Bool := false
  slowMem : Bool := false
  strec0 : W64 := 0
  strec1 : W64 := 0
  strec2 : W64 := 0
  /-- the outcomes of the previous start, while this one runs (R331) -/
  prevStart : W64 := 0
  /-- a start has begun since the module was made (R332) -/
  booted : Bool := false
  recovery : Bool := false
  tripped : Bool := false
  meas : Tab W64 := []
  attaddr : W64 := 0
  attstat : W64 := 0
  /-- verge cores 0 to 7 and the debug core, 8 (R1) -/
  verges : Tab Verge := []
deriving DecidableEq, Repr

/-- The default records of the tables. -/
abbrev Hart.zero : Hart := {}
abbrev Team.zero : Team := {}
abbrev Launch.zero : Launch := {}
abbrev Verge.zero : Verge := {}

/-- The machine right after reset (R1, R3, R293 to R337): the values the spec states, and those of logs 1 to 3 where it
states none. Logical quad q occupies slot q. -/
def State.reset : State :=
  { qplace := (List.range 16).map (fun q => (q, BitVec.ofNat 64 (16 + q))) }

end Sys2Proof.Machine
end

