-- ==== Sys2Proof/Machine/Flags.lean ====
section
/-! DEFINITION. The mode register and the masks. The J9 has no arithmetic flags (R75): what an instruction looks at
besides its operands is the mode group (R24, R25), and what a comparison leaves is a mask. -/

namespace Sys2Proof.Machine

/-- Element types, codes of R24. -/
abbrev tF32 : Nat := 0
abbrev tBf16 : Nat := 1
abbrev tF16 : Nat := 2
abbrev tF8e4 : Nat := 3
abbrev tF8e5 : Nat := 4
abbrev tQ4 : Nat := 5
abbrev tN32 : Nat := 12
abbrev tN64 : Nat := 13

/-- The width in bits of an element type (R27). -/
def width (t : Nat) : Nat :=
  match t with
  | 0 => 32 | 1 => 16 | 2 => 16 | 3 => 8 | 4 => 8 | 5 => 4
  | 6 => 8 | 7 => 16 | 8 => 32 | 9 => 64
  | 10 => 8 | 11 => 16 | 12 => 32 | _ => 64

/-- Class F of R74. -/
def isF (t : Nat) : Bool := t ≤ 2

/-- Signed and unsigned integer types (R74). -/
def isS (t : Nat) : Bool := 6 ≤ t && t ≤ 9
def isN (t : Nat) : Bool := 10 ≤ t && t ≤ 13

/-- Class I of R74. -/
def isI (t : Nat) : Bool := 6 ≤ t && t ≤ 13

/-- Class B of R74. -/
def isB (t : Nat) : Bool := t ≠ 5 && t ≤ 13

/-- The fields of the mode register (R24). -/
abbrev mT (m : BitVec 32) : Nat := (m.extractLsb' 16 4).toNat
abbrev mRnd (m : BitVec 32) : Nat := (m.extractLsb' 13 3).toNat
abbrev mSat (m : BitVec 32) : Bool := m.getLsbD 12
abbrev mZero (m : BitVec 32) : Bool := m.getLsbD 11
abbrev mGen (m : BitVec 32) : Bool := m.getLsbD 10
abbrev mGk (m : BitVec 32) : Nat := (m.extractLsb' 7 3).toNat
abbrev mGneg (m : BitVec 32) : Bool := m.getLsbD 6
abbrev mSc (m : BitVec 32) : Nat := (m.extractLsb' 3 3).toNat

/-- Rounding mode stoch (R24). -/
abbrev stoch : Nat := 5

/-- A mode image holds a reserved value or a reserved bit (R24, R54). -/
def modeBad (m : BitVec 32) : Bool :=
  !(m.extractLsb' 20 12 == 0 && m.extractLsb' 0 3 == 0 && mT m ≤ 13 && mRnd m ≤ 5 && mSc m ≤ 4)

/-- One field of a register image replaced: `n` bits from `lo`. -/
def setField (m : BitVec 32) (lo n v : Nat) : BitVec 32 :=
  let mask := BitVec.ofNat 32 ((2 ^ n - 1) * 2 ^ lo)
  (m &&& ~~~mask) ||| (BitVec.ofNat 32 (v * 2 ^ lo) &&& mask)

/-- The mode register after a vmode (R26, R88): only selected fields change. -/
def applyMode (f : VModeFields) (m : BitVec 32) : BitVec 32 :=
  let m := if f.selT then setField m 16 4 f.t.toNat else m
  let m := if f.selRnd then setField m 13 3 f.rnd.toNat else m
  let m := if f.selSat then setField m 12 1 f.sat.toNat else m
  let m := if f.selM then setField m 11 1 f.m.toNat else m
  let m := if f.selG then setField (setField (setField m 10 1 f.gen.toNat) 7 3 f.gk.toNat) 6 1 f.gneg.toNat else m
  if f.selSc then setField m 3 3 f.sc.toNat else m

/-- Element `i` below vl is active (R25). -/
def guard (m : BitVec 32) (k : Tab Nat) (i : Nat) : Bool :=
  !mGen m || ((Tab.get 0 k (mGk m)).testBit i != mGneg m)

/-- One bit of a bit set replaced. -/
def setBit (x i : Nat) (b : Bool) : Nat :=
  if x.testBit i = b then x else x ^^^ 2 ^ i

/-- The number of set bits of a bit set below `n`. -/
def popBelow (x : Nat) : Nat → Nat
  | 0 => 0
  | n + 1 => popBelow x n + (x.testBit n).toNat

/-- The lowest `i ≥ lo` among the `n` next ones with the bit set, else `lo + n`. -/
def lowestFrom (x lo : Nat) : Nat → Nat
  | 0 => lo
  | n + 1 => if x.testBit lo then lo else lowestFrom x (lo + 1) n

end Sys2Proof.Machine
end

