-- ==== Sys2Proof/WellFormed.lean ====
section
/-! DEFINITION. Which instructions are legal as words: the field values that R54 calls reserved (reason 6) or that must
be zero because the form does not use them (reason 5), for every check that needs the fields alone. Checks that need
the element type, the declared register count or the executing party are made by the meanings. -/

namespace Sys2Proof

/-- The reasons of R54, in its order. -/
inductive Reason where
  | unassigned | wrongStream | privileged | jpfMode | reservedBit | reservedValue | register
deriving DecidableEq, Repr

/-- The number R54 gives a reason. -/
def Reason.code : Reason → Nat
  | .unassigned => 1
  | .wrongStream => 2
  | .privileged => 3
  | .jpfMode => 4
  | .reservedBit => 5
  | .reservedValue => 6
  | .register => 7

/-- A vector operand that may be written (R22, R48): not a replicate, and of the last-result file only l0. -/
def VOp.writable : VOp → Bool
  | .main _ => true
  | .oper _ => true
  | .last n => n == 0
  | .repl _ _ => false

/-- Reserved value (reason 6) unless the condition holds. -/
def needs (c : Bool) : Option Reason := if c then none else some .reservedValue

/-- A field that must be zero (reason 5) when the form does not use it, then a further check. -/
def mustBeZero (c : Bool) (rest : Option Reason) : Option Reason := if c then rest else some .reservedBit

/-- A vmode word (R88): unselected fields are zero (reason 5); a selected field holds no reserved value (reason 6). -/
def VModeFields.illFormed (f : VModeFields) : Option Reason :=
  mustBeZero ((f.selT || f.t == 0) && (f.selRnd || f.rnd == 0) && (f.selSat || !f.sat) && (f.selM || !f.m)
      && (f.selG || (!f.gen && f.gk == 0 && !f.gneg)) && (f.selSc || f.sc == 0))
    (needs (f.t.toNat ≤ 13 && f.rnd.toNat ≤ 5 && f.sc.toNat ≤ 4 && (f.gen || (f.gk == 0 && !f.gneg))))

/-- Why an instruction is illegal whatever the state, or none. -/
def Instr.illFormed : Instr → Option Reason
  -- shift amounts are 0 to 63 (R62, R87)
  | .slli _ _ i | .srli _ _ i | .srai _ _ i => needs (i.toNat ≤ 63)
  | .sshli _ _ n | .sshri _ _ n => needs (n.toNat ≤ 63)
  -- element results go to a writable class (R22, R48)
  | .vadd d _ _ | .vsub d _ _ | .vmul d _ _ | .vmulh d _ _ | .vdiv d _ _ | .vrem d _ _ | .vmin d _ _ | .vmax d _ _
  | .vfma d _ _ | .vfms d _ _ | .vfnma d _ _ | .vand d _ _ | .vor d _ _ | .vxor d _ _ | .vshl d _ _ | .vshr d _ _
  | .vsra d _ _ | .vsel d _ _ | .vredsum d _ _ | .vredmax d _ _ | .vredmin d _ _ | .vredand d _ _ | .vredor d _ _
  | .vscan d _ _ | .vperm d _ _ | .vcprop d _ _ => needs d.writable
  | .vabs d _ | .vneg d _ | .vsqrt d _ | .vrcp d _ | .vrsq d _ | .vnot d _ | .vmv d _ | .vconf d _ | .vcomp d _
  | .vexpand d _ => needs d.writable
  | .vaddi d _ _ | .vshli d _ _ | .vshri d _ _ | .vsrai d _ _ | .vslup d _ _ | .vsldn d _ _ => needs d.writable
  | .vidx d => needs d.writable
  | .vconfc d _ _ | .vgrp d _ _ => needs d.writable
  -- a conversion names a source type of R24 (R81)
  | .vcvt d _ t | .vcvtw d _ t | .vcvtn d _ t => needs (d.writable && t.toNat ≤ 13)
  -- svl reads 0 to 4 and 8 to 13 (R87)
  | .svl _ f => needs (f.toNat ≤ 4 || (8 ≤ f.toNat && f.toNat ≤ 13))
  | .vmode f => f.illFormed
  -- a nest names six s registers (R89)
  | .vnest n _ => needs (n.toNat ≤ 10)
  -- the s register of the break forms is zero unless it is written (R98)
  | .kbefore _ _ w s | .kthrough _ _ w s => mustBeZero (w || s == 0) none
  -- loads, and atomics that return, write their data register (R108)
  | .vld d _ | .vldff d _ | .vldsp d _ => needs d.writable
  | .vlds d _ _ => needs d.writable
  | .vldx d _ _ _ | .vldxo d _ _ _ | .vldxff d _ _ _ | .vldxsp d _ _ _ => needs d.writable
  | .vamoadd d _ _ f | .vamomin d _ _ f | .vamomax d _ _ f | .vamoand d _ _ f | .vamoor d _ _ f | .vamoxor d _ _ f
  | .vamoswp d _ _ f => needs (!f.getLsbD 3 || d.writable)
  | .vldh d _ _ => needs d.writable
  -- the slot vector of vappend is written, or its field is reserved (R118)
  | .vappend _ _ i l _ => mustBeZero (l || i == .main 0) (needs (!l || i.writable))
  -- operand formats (R154, R127, R160)
  | .mma _ _ _ _ f | .mmag _ _ _ _ _ f => needs (f.toNat ≤ 5)
  | .mmas _ _ _ _ _ f => needs (f.toNat ≤ 5)
  | .mdsc _ _ _ v f t p => needs (f.toNat ≤ 4 && !v.getLsbD 0 && (t || p == 0))
  | .mcvt _ _ _ _ f => needs (f.toNat ≤ 4)
  -- register pairs end below s15; completion words (R172, R176, R207, R124)
  | .klq _ b _ d n => mustBeZero (n != 0 || d == 0) (needs (b != 15))
  | .klu _ b c d n => mustBeZero (n != 0 || d == 0) (needs (b != 15 && c != 15))
  | .probe a _ _ _ z => needs (a != 15 && z.toNat ≤ 12)
  | .gix a b _ _ z => needs (a != 15 && b != 15 && z.toNat ≤ 12)
  | .six a b _ _ o z => needs (a != 15 && b != 15 && z.toNat ≤ 12 && o.toNat ≤ 2)
  | .cpy _ _ _ d _ n | .cpyn _ _ _ d _ n => mustBeZero (n != 0 || d == 0) none
  | .lnset _ _ _ l => needs (l.toNat ≤ 5)
  -- an 8-byte value has no sign to extend (R239)
  | .ldacq _ _ x z _ => needs (!(x && z == 3))
  | .tinv _ _ e => needs (e != 3)
  | _ => none

/-- The instruction is legal as a word. -/
abbrev Instr.WellFormed (i : Instr) : Prop := i.illFormed = none

end Sys2Proof
end

