-- ==== Sys2Proof/Machine/Ops.lean ====
section
/-! DEFINITION. The named operations every meaning is built from: who executes, reading and writing registers, raising
reports and taking a trap (R19, R284 to R288, R296), returning from one, and ending an instruction. -/

namespace Sys2Proof.Machine

/-- A precise trap of the executing party (R286 to R288): cause code, detail, element, address, access kind, log2 of
the size, translation reason with the page it concerns, and whether it is an engine command's. -/
structure Trap where
  cls : Nat
  detail : W64 := 0
  elem : Nat := 0
  addr : W64 := 0
  acc : Nat := 0
  sz : Nat := 0
  rsn : Nat := 0
  base : Nat := 0
  size : Nat := 0
  eng : Bool := false
deriving DecidableEq, Repr

/-- Why a meaning stops before the instruction is complete: it traps, or it waits at an instruction boundary. The state
it leaves is the state carried beside this. -/
inductive Stop where
  | trap (t : Trap)
  | wait
deriving DecidableEq, Repr

/-- A meaning that reads and writes the state and may stop; a stop keeps the effects made before it. -/
abbrev M := EStateM Stop State

/-- Raise a trap. -/
def raise {α : Type} (t : Trap) : M α := throw (.trap t)

/-- Stop at an instruction boundary, to be tried again. -/
def waitHere {α : Type} : M α := throw .wait

/-- An illegal-instruction trap with a reason of R54. -/
def illegal (r : Reason) : Trap := { cls := 0x01, detail := BitVec.ofNat 64 r.code }

/-- Raise a trap unless a condition holds. -/
def check (c : Bool) (t : Trap) : M Unit := if c then pure () else raise t

/-- Reason 6 unless a condition holds. -/
def legal (c : Bool) : M Unit := check c (illegal .reservedValue)

/-! ### Harts, teams and verge cores -/

def State.hart (s : State) (h : Nat) : Hart := Tab.get Hart.zero s.harts h
def State.setHart (s : State) (h : Nat) (v : Hart) : State := { s with harts := Tab.put Hart.zero s.harts h v }
def State.modHart (s : State) (h : Nat) (f : Hart → Hart) : State := s.setHart h (f (s.hart h))

def State.team (s : State) (t : Nat) : Team := Tab.get Team.zero s.teams t
def State.setTeam (s : State) (t : Nat) (v : Team) : State := { s with teams := Tab.put Team.zero s.teams t v }
def State.modTeam (s : State) (t : Nat) (f : Team → Team) : State := s.setTeam t (f (s.team t))

def State.verge (s : State) (n : Nat) : Verge := Tab.get Verge.zero s.verges n
def State.setVerge (s : State) (n : Nat) (v : Verge) : State := { s with verges := Tab.put Verge.zero s.verges n v }
def State.modVerge (s : State) (n : Nat) (f : Verge → Verge) : State := s.setVerge n (f (s.verge n))

/-- The team of a hart, and its index in the team. -/
abbrev teamOf (h : Nat) : Nat := h / 8
abbrev indexOf (h : Nat) : Nat := h % 8

/-- The shape fields of R258. -/
def Team.nharts (t : Team) : Nat := (t.shape.extractLsb' 0 4).toNat
def Team.lgmin (t : Team) : Nat := (t.shape.extractLsb' 4 4).toNat + 1
def Team.lgmax (t : Team) : Nat := (t.shape.extractLsb' 8 4).toNat + 1
def Team.regs (t : Team) : Nat := 8 * ((t.shape.extractLsb' 12 2).toNat + 1)
def Team.prio (t : Team) : Nat := (t.shape.extractLsb' 14 2).toNat
def Team.pclass (t : Team) : Nat := (t.shape.extractLsb' 16 8).toNat
def Team.units (t : Team) : Nat := (t.shape.extractLsb' 24 8).toNat
def Team.tiles (t : Team) : Nat := (t.shape.extractLsb' 32 13).toNat

/-- The declared scratchpad bytes of a team (R182). -/
def Team.bytes (t : Team) : Nat := 4096 * t.units

/-- The hart that a party belongs to; 0 for a verge core. -/
def partyHart : Party → Nat
  | .ctrl h => h
  | .vec h => h
  | .verge _ => 0

/-- The core whose L1 and translations a party uses: 0 to 63, or 64 and up for the verge cores and the debug core
(log 10). -/
def State.coreOf (s : State) : Party → Nat
  | .ctrl h => (s.team (teamOf h)).core
  | .vec h => (s.team (teamOf h)).core
  | .verge n => 64 + n

/-- The bytes an instruction word occupies where a party runs: 8 in JPF, else 4 (R57). -/
def State.wordBytes (s : State) : Party → Nat
  | .ctrl h => if (s.team (teamOf h)).jpf then 8 else 4
  | .vec h => if (s.team (teamOf h)).jpf then 8 else 4
  | .verge _ => 4

/-- The program counter of a party. -/
def State.pcOf (s : State) : Party → W64
  | .ctrl h => (s.hart h).cpc.setWidth 64
  | .vec h => (s.hart h).vpc.setWidth 64
  | .verge n => (s.verge n).pc

/-- The program counter of a party replaced; a hart's keeps its 48 bits, so that after its last word a stream goes on at address 0 (the
model's choice, log 112). -/
def State.setPc (s : State) (p : Party) (a : W64) : State :=
  match p with
  | .ctrl h => s.modHart h (fun t => { t with cpc := a.setWidth 48 })
  | .vec h => s.modHart h (fun t => { t with vpc := a.setWidth 48 })
  | .verge n => s.modVerge n (fun t => { t with pc := a })

/-! ### The control registers (R57: x0 reads 0 and discards writes) -/

/-- Register r of a party's control file. -/
def State.readX (s : State) (p : Party) (r : Nat) : W64 :=
  if r = 0 then 0 else
  match p with
  | .ctrl h => Tab.get 0 (s.hart h).x r
  | .vec h => Tab.get 0 (s.hart h).x r
  | .verge n => Tab.get 0 (s.verge n).x r

/-- Register r of a party's control file replaced. -/
def State.writeX (s : State) (p : Party) (r : Nat) (v : W64) : State :=
  if r = 0 then s else
  match p with
  | .ctrl h => s.modHart h (fun t => { t with x := Tab.put 0 t.x r v })
  | .vec h => s.modHart h (fun t => { t with x := Tab.put 0 t.x r v })
  | .verge n => s.modVerge n (fun t => { t with x := Tab.put 0 t.x r v })

/-- A control register of the executing party. -/
abbrev State.getX (s : State) (r : BitVec 5) : W64 := s.readX s.cur r.toNat
abbrev State.putX (s : State) (r : BitVec 5) (v : W64) : State := s.writeX s.cur r.toNat v

/-! ### The s registers of a hart (R20) -/

def State.readS (s : State) (h n : Nat) : W64 := Tab.get 0 (s.hart h).s n
def State.writeS (s : State) (h n : Nat) (v : W64) : State := s.modHart h (fun t => { t with s := Tab.put 0 t.s n v })

/-- The executing hart. -/
abbrev State.me (s : State) : Nat := partyHart s.cur

/-- An s register of the executing hart. -/
abbrev State.getS (s : State) (r : BitVec 4) : W64 := s.readS s.me r.toNat
abbrev State.putS (s : State) (r : BitVec 4) (v : W64) : State := s.writeS s.me r.toNat v

/-! ### Ending an instruction -/

/-- The party goes on at the next word (R57); a hart's pc wraps after the last word below 2^48, and a verge core's goes on to an address
that fails its range check (log 112). A vector stream that holds a loop entry is then due an end check, which
R90 performs before the next word when the pc has reached the end. -/
def State.advance (s : State) : State :=
  let s' := s.setPc s.cur (s.pcOf s.cur + BitVec.ofNat 64 (s.wordBytes s.cur))
  match s.cur with
  | .vec h => s'.modHart h (fun t => { t with check := !t.loops.isEmpty })
  | _ => s'

/-- The next value of the counter of free values (log 4). -/
def drawFree : M Nat := do
  let s ← get
  set { s with fresh := s.fresh + 1 }
  return Config.freeNat s.fresh

/-! ### Reports (R285, R286) -/

/-- The little-endian value of a list of bytes (R5). -/
def leNat : List Byte → Nat
  | [] => 0
  | b :: t => b.toNat + 256 * leNat t

/-- The `n` low bytes of a value, lowest first (R5). -/
def leBytes : Nat → Nat → List Byte
  | 0, _ => []
  | n + 1, v => BitVec.ofNat 8 v :: leBytes n (v / 256)

/-- `n` bytes of the home copies from an address upward (R190). -/
def State.home (s : State) (pa : Nat) : Nat → List Byte
  | 0 => []
  | n + 1 => Tab.get 0 s.mem pa :: State.home s (pa + 1) n

/-- Bytes written at the home copies (R190). -/
def State.putHome (s : State) (pa : Nat) : List Byte → State
  | [] => s
  | b :: t => State.putHome { s with mem := Tab.put 0 s.mem pa b } (pa + 1) t

/-- A line is poisoned (R289). -/
def State.poisoned (s : State) (line : Nat) : Bool := Tab.get false s.poison line

/-- One write at the home slices: the bytes, and the poison mark lifted from every line the write covers whole
(R187, R189, R289). -/
def State.homeWrite (s : State) (pa : Nat) (bs : List Byte) : State :=
  let s := s.putHome pa bs
  let first := (pa + 63) / 64
  let last := (pa + bs.length) / 64
  { s with poison := (List.range (last - first)).foldl (fun m i => Tab.put false m (first + i) false) s.poison }

/-- Where the ring's records lie, and how many, while fqring is usable (R285). -/
def State.ringBase (s : State) : Nat := (s.fqring.extractLsb' 0 48).toNat
def State.ringSize (s : State) : Nat := 2 ^ (s.fqring.extractLsb' 48 4).toNat

/-- The memory channels that are up (R181, R192, R332). -/
def State.channels (s : State) : Nat :=
  let c := if s.a48 then 36 else 48
  c - popBelow s.strec1.toNat c

/-- Device memory (R181). -/
def State.isDevice (s : State) (pa : Nat) : Bool := pa < 4000000000 * s.channels

/-- The ring can take records (R285). -/
def State.ringUsable (s : State) : Bool :=
  (s.fqring.extractLsb' 48 4).toNat ≥ 6 && s.ringBase ≠ 0 && s.ringBase % 4096 = 0 && s.fqring.extractLsb' 52 12 == 0
    && s.isDevice (s.ringBase + 64 * s.ringSize - 1)

/-- The number of harts of the grade (R1). -/
def State.nharts (s : State) : Nat := if s.a48 then 384 else 512

/-- What a report says besides its index (R286). -/
structure ReportOf where
  cls : Nat
  st : Bool
  asy : Bool
  rsn : Nat := 0
  ctx : Nat
  eg : Bool := false
  sz : Nat := 0
  acc : Nat := 0
  addr : W64 := 0
  cpc : W48 := 0
  vpc : W48 := 0
  elem : Nat := 0
  eng : BitVec 32 := 0
  o : Nat := 0
  detail : W64 := 0
  hart : Nat
  base : Nat := 0
  size : Nat := 0
  core : Option Nat := none

/-- The header word of R286 with count 1. -/
def ReportOf.hdr (r : ReportOf) : W64 :=
  BitVec.ofNat 64 (r.cls + r.acc % 16 * 2 ^ 8 + r.sz % 8 * 2 ^ 12 + r.eg.toNat * 2 ^ 15 + 2 ^ 16 + r.ctx % 2 ^ 16 * 2 ^ 32
    + r.rsn % 256 * 2 ^ 48 + r.asy.toNat * 2 ^ 56 + r.st.toNat * 2 ^ 57)

/-- The eight words of a record (R286). -/
def ReportOf.words (r : ReportOf) (rid : Nat) : List W64 :=
  [r.hdr, r.addr, r.cpc.setWidth 64, r.vpc.setWidth 64, BitVec.ofNat 64 r.elem,
    BitVec.ofNat 64 (r.eng.toNat + r.o % 2 ^ 32 * 2 ^ 32), r.detail, BitVec.ofNat 64 (rid % 2 ^ 32 + r.hart % 2 ^ 16 * 2 ^ 32)]

/-- The index the next report takes (R285). -/
def State.nextRid (s : State) : Nat := s.fqtail + s.reports.length

/-- A header with its count raised by one, clamped (R286). -/
def raiseCount (h : W64) : W64 :=
  if h.extractLsb' 16 16 == 0xFFFF then h else h + 0x10000

/-- The words of a waiting report with its count raised. -/
def raiseHead : List W64 → List W64
  | [] => []
  | h :: t => raiseCount h :: t

/-- The first merging entry of a context and page (R215). -/
def State.entryFor (s : State) (ctx base size : Nat) : Option Entry :=
  s.live.find? (fun e => e.ctx = ctx && e.base = base && e.size = size)

/-- A fault that merges raises the count of its entry's record, in the ring or still waiting (R215, R285). The record is looked for
at the place that fqring gives now (the model's reading where fqring has been rewritten since, log 109). -/
def State.mergeInto (s : State) (e : Entry) : State :=
  if e.rid < s.fqtail then
    let pa := s.ringBase + 64 * (e.rid % s.ringSize)
    s.homeWrite pa (leBytes 8 (raiseCount (BitVec.ofNat 64 (leNat (s.home pa 8)))).toNat)
  else
    { s with reports := s.reports.map (fun r =>
        if r.rid = e.rid then { r with words := raiseHead r.words } else r) }

/-- The st bit of the record an entry stands for (R286). -/
def State.entrySt (s : State) (e : Entry) : Bool :=
  if e.rid < s.fqtail then
    (BitVec.ofNat 64 (leNat (s.home (s.ringBase + 64 * (e.rid % s.ringSize)) 8))).getLsbD 57
  else
    match s.reports.find? (fun r => r.rid = e.rid) with
    | some r => (r.words.headD 0).getLsbD 57
    | none => false

/-- Make a report (R285): a translation fault merges into a live entry of its context and page, any other report takes
the next index and waits to be written. Answers what the reporter is parked on. -/
def State.report (s : State) (r : ReportOf) : Park × State :=
  match (if r.cls = 0x05 then s.entryFor r.ctx r.base r.size else none) with
  | some e => (⟨e.rid, s.entrySt e⟩, s.mergeInto e)
  | none =>
    let rid := s.nextRid
    let s := { s with reports := s.reports ++ [⟨rid, r.words rid, r.core⟩] }
    let s := if r.cls = 0x05 then { s with live := s.live ++ [⟨rid, r.ctx, r.base, r.size⟩] } else s
    (⟨rid, r.st⟩, s)

/-- The context of a hart. -/
def State.ctxOf (s : State) (h : Nat) : Nat := (s.team (teamOf h)).ctx

/-- The address of the vgo that queued the running block (R286). -/
def Hart.vgo (t : Hart) : W48 := match t.block with | some b => b.vgo | none => 0

/-! ### Taking a trap, and returning from one -/

/-- The elem field of a vector stream's record (R286): the element that the trap names, which is where it leaves vstart;
vstart as it stands where it names none (R55); 0 for the translation of a fetch (R291). -/
def Hart.trapElem (v : Hart) (t : Trap) : Nat :=
  if t.cls = 0x05 && t.acc = 4 then 0 else if t.elem = 0 then v.vstart else t.elem

/-- TAKING A TRAP. On a hart (R19, R284 to R286) the stream is parked on the report that the trap makes or merges into,
its position stays, and an element trap leaves vstart at its element; on a verge core (R296) epc, ecause and evalue are
set and the pc goes to tvec. -/
def State.takeTrap (s : State) (t : Trap) : State :=
  match s.cur with
  | .ctrl h =>
    let v := s.hart h
    let (pk, s) := s.report {
      cls := t.cls, st := false, asy := false, rsn := t.rsn, ctx := s.ctxOf h, eg := t.eng, sz := t.sz,
      acc := t.acc, addr := t.addr, cpc := v.cpc, elem := t.elem, eng := if t.eng then v.engseq else 0, detail := t.detail,
      hart := v.num, base := t.base, size := t.size, core := some (s.coreOf s.cur) }
    s.modHart h (fun v => { v with parkC := some pk, wait := none })
  | .vec h =>
    let v := s.hart h
    let (pk, s) := s.report {
      cls := t.cls, st := true, asy := false, rsn := t.rsn, ctx := s.ctxOf h, eg := t.eng, sz := t.sz,
      acc := t.acc, addr := t.addr, cpc := v.vgo, vpc := v.vpc, elem := v.trapElem t, eng := if t.eng then v.engseq else 0,
      detail := t.detail, hart := v.num, base := t.base, size := t.size, core := some (s.coreOf s.cur) }
    s.modHart h (fun v => { v with parkV := some pk, vwait := none, stalled := none })
  | .verge n =>
    s.modVerge n (fun v => { v with
      epc := v.pc, ecause := BitVec.ofNat 64 t.cls,
      evalue := if 2 ≤ t.cls && t.cls ≤ 7 then t.addr else t.detail, pc := v.tvec, wait := none })

/-- Returning from a trap on a verge core (R298). A hart is released by fqreplay instead (R300). -/
def State.returnFromTrap (s : State) : State :=
  match s.cur with
  | .verge n => s.modVerge n (fun v => { v with pc := v.epc })
  | _ => s

/-- The outcome of a meaning: complete, trapped, or waiting where it is. -/
def finish (m : M Unit) (s : State) : Host.Outcome State Fault Refusal :=
  match m s with
  | .ok _ s => .next s
  | .error (.trap t) s => .next (s.takeTrap t)
  | .error .wait s => .next s

/-! ### Who may execute (R53, R54) -/

/-- A trap of the executing party as an outcome, nothing else changed. -/
def trapNow (s : State) (t : Trap) : Host.Outcome State Fault Refusal := .next (s.takeTrap t)

/-- The opcode belongs to a control stream: harts' control streams, verge cores and the debug core run it. -/
def State.isControl (s : State) : Bool := match s.cur with | .vec _ => false | _ => true

/-- The executing party is a vector stream. -/
def State.isVector (s : State) : Bool := match s.cur with | .vec _ => true | _ => false

/-- The executing party is a hart's control stream. -/
def State.isHartControl (s : State) : Bool := match s.cur with | .ctrl _ => true | _ => false

/-- The executing party is a verge core or the debug core. -/
def State.isVerge (s : State) : Bool := match s.cur with | .verge _ => true | _ => false

/-- A pure instruction of the control stream: the party must be able to run it (R53, reason 2); it then has its effect
and goes on. -/
def onControl (s : State) (f : State → State) : Host.Outcome State Fault Refusal :=
  if s.isControl then .next (f s).advance else trapNow s (illegal .wrongStream)

/-- The same for a pure instruction of the vector stream. -/
def onVector (s : State) (f : State → State) : Host.Outcome State Fault Refusal :=
  if s.isVector then .next (f s).advance else trapNow s (illegal .wrongStream)

/-- An instruction of a control stream or verge core with a meaning that may stop; it goes on when complete. -/
def controlOp (s : State) (m : M Unit) : Host.Outcome State Fault Refusal :=
  if s.isControl then finish (do m; modify State.advance) s else trapNow s (illegal .wrongStream)

/-- An instruction of a hart's control stream only. -/
def hartOp (s : State) (m : M Unit) : Host.Outcome State Fault Refusal :=
  if s.isHartControl then finish (do m; modify State.advance) s else trapNow s (illegal .wrongStream)

/-- An instruction of the vector stream with a meaning that may stop. -/
def vectorOp (s : State) (m : M Unit) : Host.Outcome State Fault Refusal :=
  if s.isVector then finish (do m; modify State.advance) s else trapNow s (illegal .wrongStream)

end Sys2Proof.Machine
end

