-- ==== Sys2Proof/Machine/Memory.lean ====
section
/-! DEFINITION. The physical map (R181), translation (R281 to R283), the L1 caches (R186 to R189) and the home slices
(R190), releases and acquires (R188, R234, R235), and the scalar and element accesses built from them. -/

namespace Sys2Proof.Machine

/-! ### The physical map (R181) -/

/-- The host window. -/
def isHost (pa : Nat) : Bool := pa / 2 ^ 48 = 1

/-- Where a host physical address stands in `mem`: at its place in the host window, or, beyond the window, above the physical
map, where only the host's own writes and a recovery image's fetch (R333) come. -/
def hostPa (a : Nat) : Nat := if a < 2 ^ 48 then 2 ^ 48 + a else 2 ^ 52 + a

/-- The register views. -/
def isView (pa : Nat) : Bool := pa / 2 ^ 48 = 15

/-- The CXL windows, up to each present expander's capacity (R306). -/
def State.isCxl (s : State) (pa : Nat) : Bool :=
  2 ^ 49 ≤ pa && pa < 2 ^ 49 + 2 ^ 44 &&
    (let w := Tab.get 0 s.cxlstat ((pa - 2 ^ 49) / 2 ^ 42)
     w.getLsbD 0 && (pa - 2 ^ 49) % 2 ^ 42 < (w.extractLsb' 4 24).toNat * 2 ^ 28)

/-- Some memory or register answers at a physical address; every other address is a "none" range. -/
def State.mapped (s : State) (pa : Nat) : Bool := s.isDevice pa || isHost pa || s.isCxl pa || isView pa

/-- The scratchpad window of harts (R184). -/
def windowBase : Nat := 0xFF0000000000
def inWindow (va : Nat) : Bool := windowBase ≤ va && va < windowBase + 0x50000

/-! ### Translation (R281, R282) -/

/-- What an access needs of a leaf (R282), with the access kind of R286. -/
inductive Access where
  | load | store | atomic | fetch | engRead | engWrite
deriving DecidableEq, Repr

def Access.code : Access → Nat
  | .load => 1 | .store => 2 | .atomic => 3 | .fetch => 4 | .engRead => 5 | .engWrite => 6

/-- The leaf's rights allow the access. -/
def Access.allowed (a : Access) (leaf : W64) : Bool :=
  match a with
  | .load => leaf.getLsbD 1
  | .engRead => leaf.getLsbD 1
  | .store => leaf.getLsbD 2
  | .engWrite => leaf.getLsbD 2
  | .atomic => leaf.getLsbD 1 && leaf.getLsbD 2
  | .fetch => leaf.getLsbD 3

/-- A page a walk found: its virtual base, size and leaf. -/
structure Page where
  base : Nat
  size : Nat
  leaf : W64
deriving DecidableEq, Repr

/-- A failed translation (R282): the reason, and the page it concerns (R215). -/
structure TFail where
  reason : Nat
  base : Nat
  size : Nat
deriving DecidableEq, Repr

/-- Bits [51:12] of an entry as an address. -/
def entryPa (e : W64) : Nat := (e.extractLsb' 12 40).toNat * 4096

/-- A table page lies in device memory. -/
def State.tableOk (s : State) (pa : Nat) : Bool := s.isDevice (pa + 4095)

/-- The 8-byte table entry at an address, read at its home slice. -/
def State.entryAt (s : State) (pa : Nat) : W64 := BitVec.ofNat 64 (leNat (s.home pa 8))

/-- The 16 aligned entries of a 64 KiB page agree but for pa[15:12], which is each entry's own index. -/
def State.groupOk (s : State) (table idx : Nat) : Bool :=
  let e := s.entryAt (table + 8 * idx)
  (List.range 16).all (fun i =>
    let f := s.entryAt (table + 8 * (idx / 16 * 16 + i))
    (f &&& ~~~(0xF000 : W64)) == (e &&& ~~~(0xF000 : W64)) && (f.extractLsb' 12 4).toNat = i)

/-- The malformed-entry conditions of reason 3 (R282) at level `l` for an entry `e` at index `idx` of a table. -/
def State.malformed (s : State) (l table idx : Nat) (e : W64) : Bool :=
  let leaf := e.getLsbD 1 || e.getLsbD 2 || e.getLsbD 3
  let low := 2 ^ (12 + 9 * (3 - l))
  !(e.extractLsb' 52 12 == 0 && e.extractLsb' 6 6 == 0 && !e.getLsbD 4)
    || (e.getLsbD 5 && l ≠ 3)
    || (e.getLsbD 2 && !e.getLsbD 1)
    || (leaf && l = 0) || (!leaf && l = 3)
    || (leaf && l ≠ 3 && entryPa e % low ≠ 0)
    || (leaf && e.getLsbD 5 && !s.groupOk table idx)
    || (!leaf && !s.tableOk (entryPa e))

/-- The size of the page a leaf at level `l` maps (R281). -/
def leafSize (l : Nat) (e : W64) : Nat := if l = 3 && e.getLsbD 5 then 65536 else 2 ^ (12 + 9 * (3 - l))

/-- The page that a failure at an entry concerns (R215): the page of a leaf that the walk has found, else the 4 KiB page
of the address. No leaf stands at level 0. -/
def failPage (l va : Nat) (e : W64) (reason : Nat) : TFail :=
  let z := if (e.getLsbD 1 || e.getLsbD 2 || e.getLsbD 3) && l ≠ 0 then leafSize l e else 4096
  ⟨reason, va / z * z, z⟩

/-- The walk from a table at level 4 − fuel down to a leaf (R282): per entry reason 5, 1, 3. The 16 entries of a 64 KiB
page lie in two lines, which are both read. -/
def State.walk (s : State) (va : Nat) : Nat → Nat → Except TFail Page
  | 0, _ => .error ⟨3, va / 4096 * 4096, 4096⟩
  | n + 1, table =>
    let l := 3 - n
    let idx := va / 2 ^ (12 + 9 * n) % 512
    let e := s.entryAt (table + 8 * idx)
    let at_ := va / 4096 * 4096
    let other := table + 8 * (idx / 16 * 16)
    if s.poisoned ((table + 8 * idx) / 64) then .error ⟨5, at_, 4096⟩
    else if !e.getLsbD 0 then .error ⟨1, at_, 4096⟩
    else if l = 3 && e.getLsbD 5 && (e.getLsbD 1 || e.getLsbD 2 || e.getLsbD 3)
        && (s.poisoned (other / 64) || s.poisoned (other / 64 + 1)) then .error (failPage l va e 5)
    else if s.malformed l table idx e then .error (failPage l va e 3)
    else if e.getLsbD 1 || e.getLsbD 2 || e.getLsbD 3 then
      let z := leafSize l e
      .ok ⟨va / z * z, z, e⟩
    else s.walk va n (entryPa e)

/-- The checks at a leaf (R282): reason 4 for a page not wholly in memory (R181, R292), then reason 2 for a missing
right. `views` allows the register views (R296). -/
def State.useLeaf (s : State) (views : Bool) (p : Page) (va : Nat) (a : Access) : Except TFail Nat :=
  let pa := entryPa p.leaf / p.size * p.size
  if !(s.mapped pa && s.mapped (pa + p.size - 1)) || (isView pa && (!views || a == .fetch)) then .error ⟨4, p.base, p.size⟩
  else if !a.allowed p.leaf then .error ⟨2, p.base, p.size⟩
  else .ok (pa + va % p.size)

/-- A translation through the tables at a root (R281, R282). -/
def State.translateRoot (s : State) (views : Bool) (root va : Nat) (a : Access) : Except TFail Nat :=
  if !s.tableOk root then .error ⟨3, va / 4096 * 4096, 4096⟩
  else
    match s.walk va 4 root with
    | .ok p => s.useLeaf views p va a
    | .error f => .error f

/-- The table root of a context (R281, R295). -/
def State.rootOf (s : State) (ctx : Nat) : Nat := entryPa (Tab.get 0 s.roots ctx)

/-- A cached translation that covers an address (R283). -/
def State.held (s : State) (core ctx va : Nat) : Option TlbEntry :=
  s.tlb.find? (fun e => e.core = core && e.ctx = ctx && e.base ≤ va && va < e.base + e.size)

/-- The cached translation that an access uses: between a change of a page and its tinv, an access uses the entry as it was or
as it is, and two elements of one instruction may differ (R283; log 93). -/
def State.cached (s : State) (core ctx va : Nat) : Option TlbEntry :=
  match s.held core ctx va with
  | some e => if Config.walksAgain s.fresh va then none else some e
  | none => none

/-- The translation of an address of a context, as core `core` makes it: through a cached entry if it holds one, else by
a walk (R283). Crossroads and the fabric port walk. -/
def State.translate (s : State) (core ctx va : Nat) (a : Access) : Except TFail Nat :=
  match s.cached core ctx va with
  | some e => s.useLeaf false ⟨e.base, e.size, e.leaf⟩ va a
  | none => s.translateRoot false (s.rootOf ctx) va a

/-- The translation a verge core makes (R296). -/
def State.translateVerge (s : State) (n va : Nat) (a : Access) : Except TFail Nat :=
  let r := (s.verge n).vroot
  if entryPa r = 0 then
    if !s.mapped va || (isView va && a == .fetch) then .error ⟨4, va / 4096 * 4096, 4096⟩ else .ok va
  else s.translateRoot true (entryPa r) va a

/-! ### Where a scalar or element access is performed (R58, R110, R184, R232) -/

/-- log2 of an access size for a record (R286). -/
def log2 : Nat → Nat
  | 1 => 0 | 2 => 1 | 4 => 2 | 8 => 3 | 16 => 4 | 32 => 5 | _ => 6

/-- The checks of an access of `n` bytes at `ea` by a party (R58, R110): range, alignment, translation; the place where
it is performed. The hart's window is not translated (R184). Where the walk itself read a poisoned line (reason 5), the
access that failed is the walk's read: acc 7, sz 3 (R286; log 14). -/
def State.resolve (s : State) (p : Party) (ea : W64) (n : Nat) (a : Access) : Except Trap Place :=
  let va := ea.toNat
  let trap (cls : Nat) : Trap := { cls := cls, addr := ea, acc := a.code, sz := log2 n }
  let tf (f : TFail) : Trap :=
    { cls := 0x05, addr := ea, acc := if f.reason = 5 then 7 else a.code, sz := if f.reason = 5 then 3 else log2 n,
      rsn := f.reason, base := f.base, size := f.size }
  match p with
  | .verge k =>
    let top := if entryPa (s.verge k).vroot = 0 then 2 ^ 52 else 2 ^ 48
    if top ≤ va then .error (trap 0x02)
    else if va % n ≠ 0 then .error (trap 0x03)
    else match s.translateVerge k va a with
      | .ok pa => .ok (if isView pa then .view pa else .mem pa)
      | .error f => .error (tf f)
  | _ =>
    let h := partyHart p
    let t := s.team (teamOf h)
    if 2 ^ 48 ≤ va then .error (trap 0x02)
    else if inWindow va then
      if t.bytes < va - windowBase + n then .error (trap 0x02)
      else if va % n ≠ 0 then .error (trap 0x03)
      else .ok (.spad (teamOf h) (va - windowBase))
    else if va % n ≠ 0 then .error (trap 0x03)
    else match s.translate t.core t.ctx va a with
      | .ok pa => .ok (.mem pa)
      | .error f => .error (tf f)

/-- The same as a meaning that traps. -/
def resolveM (ea : W64) (n : Nat) (a : Access) : M Place := do
  let s ← get
  match s.resolve s.cur ea n a with
  | .ok p => pure p
  | .error t => raise t

/-! ### Scratchpads (R182, R185) -/

/-- `n` bytes of a team's scratchpad. -/
def State.spadRead (s : State) (team off n : Nat) : List Byte :=
  (List.range n).map (fun i => Tab.get 0 (s.team team).spad (off + i))

/-- Bytes written into a table of bytes from a key upward. -/
def putBytes (m : Tab Byte) (k : Nat) : List Byte → Tab Byte
  | [] => m
  | b :: t => putBytes (Tab.put 0 m k b) (k + 1) t

/-- Bytes written into a team's scratchpad. -/
def State.spadWrite (s : State) (team off : Nat) (bs : List Byte) : State :=
  s.modTeam team (fun t => { t with spad := putBytes t.spad off bs })

/-! ### Host memory over the link (R193, R304) -/

/-- Bytes written to memory; those of the host window wait while the link is down. -/
def State.outWrite (s : State) (pa : Nat) (bs : List Byte) : State :=
  if isHost pa && !s.linkUp then
    { s with linkQ := s.linkQ ++ [⟨pa, bs, s.cycle⟩] }
  else s.homeWrite pa bs

/-- The longest wait for the link (R304). -/
def linkLimit : Nat := 2 ^ 20

/-! ### The L1 (R186 to R189) -/

def l1key (core pa : Nat) : Nat := core * 2 ^ 52 + pa

/-- The L1 byte of a core at an address. -/
def State.l1Byte (s : State) (core pa : Nat) : Option L1Byte := Tab.get none s.l1 (l1key core pa)

def State.putL1 (s : State) (core pa : Nat) (b : Option L1Byte) : State :=
  { s with l1 := Tab.put none s.l1 (l1key core pa) b }

/-- The core holds a byte as dirty. -/
def State.dirtyAt (s : State) (core pa : Nat) : Bool :=
  match s.l1Byte core pa with
  | some b => b.dirty
  | none => false

/-- Read a line from its home slice into the L1: the invalid bytes are filled (R186) and the clean ones refreshed, as R251
says of every read that a core performs at a home slice; a dirty byte is never overwritten. `n` bytes from `pa` are left. -/
def State.fill (s : State) (core pa : Nat) : Nat → State
  | 0 => s
  | n + 1 =>
    State.fill (if s.dirtyAt core pa then s else s.putL1 core pa (some ⟨Tab.get 0 s.mem pa, false, s.cycle⟩)) core (pa + 1) n

/-- Every one of the `n` bytes from `pa` is valid in the L1. -/
def State.l1Has (s : State) (core pa n : Nat) : Bool :=
  (List.range n).all (fun i => (s.l1Byte core (pa + i)).isSome)

/-- The L1's values of `n` bytes, an invalid byte reading its home copy. -/
def State.l1Read (s : State) (core pa n : Nat) : List Byte :=
  (List.range n).map (fun i => match s.l1Byte core (pa + i) with
    | some b => b.val
    | none => Tab.get 0 s.mem (pa + i))

/-- Store bytes into the L1: they become valid and dirty, without reading memory (R186); a byte already dirty keeps the
cycle it became so. -/
def State.l1Write (s : State) (core pa : Nat) : List Byte → State
  | [] => s
  | b :: t =>
    let c := match s.l1Byte core pa with
      | some o => if o.dirty then o.at_ else s.cycle
      | none => s.cycle
    State.l1Write (s.putL1 core pa (some ⟨b, true, c⟩)) core (pa + 1) t

/-- The dirty bytes of a line of a core, as (address, value) (R187). -/
def State.dirtyOf (s : State) (core line : Nat) : List (Nat × Byte) :=
  (List.range 64).filterMap (fun i => match s.l1Byte core (line * 64 + i) with
    | some b => if b.dirty then some (line * 64 + i, b.val) else none
    | none => none)

/-- The writes of a write-back: the dirty bytes of a line, and only those (R187); 64 of them are one write of the whole line,
which lifts a poison mark (R289). -/
def State.sendLine (s : State) (core line : Nat) : State :=
  let d := s.dirtyOf core line
  if d.length = 64 then s.outWrite (line * 64) (d.map Prod.snd) else d.foldl (fun s e => s.outWrite e.1 [e.2]) s

/-- A byte that has been written back is clean. Its 65,536 cycles of R188 count from the write-back, for it was never filled (the model's
choice, log 117). -/
def State.cleanByte (s : State) (core : Nat) (e : Nat × Byte) : State := s.putL1 core e.1 (some ⟨e.2, false, s.cycle⟩)

/-- A write-back of a line (R187): its dirty bytes go to the home slice in one step and become clean. -/
def State.writeBack (s : State) (core line : Nat) : State :=
  (s.dirtyOf core line).foldl (fun s e => s.cleanByte core e) (s.sendLine core line)

/-- The lines of a core that hold L1 bytes, each once. -/
def State.linesOf (s : State) (core : Nat) : List Nat :=
  ((s.l1.filter (fun e => e.1 / 2 ^ 52 = core)).map (fun e => e.1 % 2 ^ 52 / 64)).eraseReps

/-- Invalidate the clean bytes of a line (R188), or every byte of it. -/
def State.dropLine (s : State) (core line : Nat) (dirtyToo : Bool) : State :=
  (List.range 64).foldl (fun s i => match s.l1Byte core (line * 64 + i) with
    | some b => if b.dirty && !dirtyToo then s else s.putL1 core (line * 64 + i) none
    | none => s) s

/-- Before a home-slice access of a core touches a line, the core's dirty bytes there are written back and the line is
invalidated (R189). -/
def State.flushLine (s : State) (core line : Nat) : State := (s.writeBack core line).dropLine core line true

/-- The lines of a range of bytes. -/
def linesIn (pa n : Nat) : List Nat :=
  if n = 0 then [] else (List.range ((pa + n - 1) / 64 - pa / 64 + 1)).map (· + pa / 64)

/-- The same for every line of a range. -/
def State.flush (s : State) (core pa n : Nat) : State := (linesIn pa n).foldl (fun s l => s.flushLine core l) s

/-- A line of the range is poisoned (R289). -/
def State.anyPoison (s : State) (pa n : Nat) : Bool := (linesIn pa n).any s.poisoned

/-- A core's read of bytes meets poison (R289), from the L1 as well: a line is marked, and the core's own stores have not
covered all 64 bytes of it (log 25). -/
def State.meetsPoison (s : State) (core pa n : Nat) : Bool :=
  (linesIn pa n).any (fun l => s.poisoned l && (s.dirtyOf core l).length ≠ 64)

/-! ### Releases and acquires (R188) -/

/-- The write-back a release at a scope makes: every dirty byte of the core's L1 at qd and wider (log 24). -/
def State.release (s : State) (core : Nat) (sc : Scope) : State :=
  if sc = .tm then s else (s.linesOf core).foldl (fun s l => s.writeBack core l) s

/-- The key of a code line of a core, and the code lines of a core forgotten (R291, R320). -/
def codeKey (core line : Nat) : Nat := core * 2 ^ 46 + line
def State.dropCode (s : State) (core : Nat) : State := { s with icache := Tab.keep (fun e => e / 2 ^ 46 ≠ core) s.icache }

/-- The invalidation an acquire at a scope makes: every clean byte of the core's L1 at qd and wider; at sy the core's
cached code too (R320). -/
def State.acquire (s : State) (core : Nat) (sc : Scope) : State :=
  if sc = .tm then s else
  let s := (s.linesOf core).foldl (fun s l => s.dropLine core l false) s
  if sc = .sy then s.dropCode core else s

/-- A host-window byte of the executing party's writes still waits for the link, and not yet too long (R304): a release
at sy waits for it. -/
def State.linkPending (s : State) : Bool := s.linkQ.any (fun w => s.cycle < w.since + linkLimit)

/-! ### Reading and writing one access -/

/-- The scope code of R24 and R38. -/
def scopeOf (n : Nat) : Scope :=
  match n with | 0 => .tm | 1 => .qd | 2 => .di | 3 => .dv | _ => .sy

/-- The executing stream gave up on the host link for its pending access (R304). -/
def State.linkDead (s : State) : Bool :=
  match s.cur with
  | .ctrl h => (s.hart h).linkDeadC
  | .vec h => (s.hart h).linkDeadV
  | .verge n => (s.verge n).linkDead

/-- Wait for the link (R304). -/
def linkWait : M Unit := do
  modify fun s => match s.cur with
    | .ctrl h => s.modHart h (fun t => if t.wait.isSome then t else { t with wait := some (.host s.cycle) })
    | .vec h => s.modHart h (fun t => if t.vwait.isSome then t else { t with vwait := some (.host s.cycle) })
    | .verge n => s.modVerge n (fun t => if t.wait.isSome then t else { t with wait := some (.host s.cycle) })
  waitHere

/-- The pending access is over: forget that it waited. -/
def State.linkDone (s : State) : State :=
  match s.cur with
  | .ctrl h => s.modHart h (fun t => { t with linkDeadC := false })
  | .vec h => s.modHart h (fun t => { t with linkDeadV := false })
  | .verge n => s.modVerge n (fun t => { t with linkDead := false })

/-- Before an access that must reach host memory: wait while the link is down; after the time-out of R304 the access
is performed without the host. Answers whether it is dead. -/
def needLink (pa : Nat) : M Bool := do
  let s ← get
  if isHost pa && !s.linkUp then
    if s.linkDead then
      modify State.linkDone
      return true
    else
      linkWait
      return true
  else return false

/-- The data-poison trap (R64, R110, R290). -/
def poisonTrap (ea : W64) (n : Nat) (a : Access) : Trap := { cls := 0x06, addr := ea, acc := a.code, sz := log2 n }

/-- Read `n` bytes through the L1 of a core (R186): served there when valid, else the line is filled first. -/
def readL1 (ea : W64) (core pa n : Nat) (a : Access) : M (List Byte) := do
  let s ← get
  if s.l1Has core pa n then
    check (!s.meetsPoison core pa n) (poisonTrap ea n a)
    return s.l1Read core pa n
  else
    let dead ← needLink pa
    check (!dead && !s.meetsPoison core pa n) (poisonTrap ea n a)
    modify fun s => s.fill core (pa / 64 * 64) 64
    let s ← get
    return s.l1Read core pa n

/-- Read `n` bytes at the home slice (R189, R190), or at host memory. -/
def readHome (ea : W64) (core pa n : Nat) (a : Access) : M (List Byte) := do
  let dead ← needLink pa
  modify fun s => s.flush core pa n
  let s ← get
  check (!dead && !s.anyPoison pa n) (poisonTrap ea n a)
  return s.home pa n

/-- Write bytes at the home slice, or at host memory. -/
def writeHome (core pa : Nat) (bs : List Byte) : M Unit := do
  let dead ← needLink pa
  if dead then return ()
  modify fun s => (s.flush core pa bs.length).homeWrite pa bs

/-- A team's core. -/
def State.coreOfTeam (s : State) (t : Nat) : Nat := (s.team t).core

end Sys2Proof.Machine
end

