-- ==== Sys2Proof/Machine/Shake.lean ====
section
/-! DEFINITION. SHAKE256 (FIPS 202), which R314 and R334 use: the configuration hash and the firmware measurement. -/

namespace Sys2Proof.Machine

/-- The rotation of lane x + 5 y (FIPS 202, rho). -/
def keccakRot : List Nat :=
  [0, 1, 62, 28, 27, 36, 44, 6, 55, 20, 3, 10, 43, 25, 39, 41, 45, 15, 21, 8, 18, 2, 61, 56, 14]

/-- The round constants (FIPS 202, iota). -/
def keccakRc : List W64 :=
  [0x0000000000000001, 0x0000000000008082, 0x800000000000808A, 0x8000000080008000, 0x000000000000808B, 0x0000000080000001,
   0x8000000080008081, 0x8000000000008009, 0x000000000000008A, 0x0000000000000088, 0x0000000080008009, 0x000000008000000A]
  ++ [0x000000008000808B, 0x800000000000008B, 0x8000000000008089, 0x8000000000008003, 0x8000000000008002, 0x8000000000000080,
   0x000000000000800A, 0x800000008000000A, 0x8000000080008081, 0x8000000000008080, 0x0000000080000001, 0x8000000080008008]

/-- One round: theta, rho and pi, chi, iota. A state is the list of its 25 lanes. -/
def keccakRound (a : List W64) (rc : W64) : List W64 :=
  let at_ (l : List W64) (x y : Nat) : W64 := l.getD (x % 5 + 5 * (y % 5)) 0
  let c := (List.range 5).map (fun x => at_ a x 0 ^^^ at_ a x 1 ^^^ at_ a x 2 ^^^ at_ a x 3 ^^^ at_ a x 4)
  let d := (List.range 5).map (fun x => c.getD ((x + 4) % 5) 0 ^^^ (c.getD ((x + 1) % 5) 0).rotateLeft 1)
  let t := (List.range 25).map (fun i => a.getD i 0 ^^^ d.getD (i % 5) 0)
  -- lane (x, y) of the result of pi is lane (x + 3 y, x), rotated
  let b := (List.range 25).map (fun i =>
    let j := (i % 5 + 3 * (i / 5)) % 5 + 5 * (i % 5)
    (t.getD j 0).rotateLeft (keccakRot.getD j 0))
  let r := (List.range 25).map (fun i => at_ b (i % 5) (i / 5) ^^^ (~~~(at_ b (i % 5 + 1) (i / 5)) &&& at_ b (i % 5 + 2) (i / 5)))
  r.zipIdx.map (fun e => if e.2 = 0 then e.1 ^^^ rc else e.1)

def keccak (a : List W64) : List W64 := keccakRc.foldl keccakRound a

/-- The message padded to a multiple of the rate, 136 bytes: 0x1F after it, and the last byte's top bit set. -/
def shakePad (m : List Byte) : List Byte :=
  let l := m ++ (0x1F :: List.replicate (135 - m.length % 136) 0)
  l.zipIdx.map (fun e => if e.2 + 1 = l.length then e.1 ||| 0x80 else e.1)

/-- The lanes of a state with the first 136 bytes of a padded message added. -/
def shakeBlock (a : List W64) (p : List Byte) : List W64 :=
  a.zipIdx.map (fun e => if e.2 < 17 then e.1 ^^^ BitVec.ofNat 64 (leNat ((p.drop (8 * e.2)).take 8)) else e.1)

/-- `n` blocks of a padded message absorbed. -/
def shakeAbsorb : Nat → List Byte → List W64 → List W64
  | 0, _, a => a
  | n + 1, p, a => shakeAbsorb n (p.drop 136) (keccak (shakeBlock a p))

/-- The first `n` lanes (8 bytes each, little-endian; at most 17) of SHAKE256 of a message. -/
def shake256 (m : List Byte) (n : Nat) : List W64 :=
  (shakeAbsorb (m.length / 136 + 1) (shakePad m) (List.replicate 25 0)).take n

/-- The configuration hash of an errata mask (R314). -/
def State.cfghash (s : State) (errmask : W64) : W64 :=
  (shake256 ([if s.a48 then 48 else 64, s.stepping, Config.isaMajor, Config.isaMinor] ++ leBytes 8 errmask.toNat) 1).headD 0

end Sys2Proof.Machine
end

