-- ==== Sys2Proof/Machine/Number.lean ====
section
/-! DEFINITION. Number formats and rounding (R75, R76, R78, R134 to R148). A float operation is done on exact values and
rounded once; an integer operation is done on Int and narrowed. -/

namespace Sys2Proof.Machine

/-! ### Formats (R134, R135) -/

/-- Exponent bits and fraction bits of a float type. -/
def expBits (t : Nat) : Nat := match t with | 0 => 8 | 1 => 8 | 2 => 5 | 3 => 4 | _ => 5
def fracBits (t : Nat) : Nat := match t with | 0 => 23 | 1 => 7 | 2 => 10 | 3 => 3 | _ => 2
def bias (t : Nat) : Nat := 2 ^ (expBits t - 1) - 1

/-- The code of the largest finite value, of infinity (f8e4 has none), and of the canonical NaN. -/
def maxCode (t : Nat) : Nat := if t = tF8e4 then 0x7E else (2 ^ expBits t - 1) * 2 ^ fracBits t - 1
def infCode (t : Nat) : Nat := if t = tF8e4 then 0x7F else (2 ^ expBits t - 1) * 2 ^ fracBits t
def nanCode (t : Nat) : Nat :=
  if t = tF8e4 then 0x7F else (2 ^ expBits t - 1) * 2 ^ fracBits t + 2 ^ (fracBits t - 1)
def signBit (t : Nat) (neg : Bool) : Nat := if neg then 2 ^ (expBits t + fracBits t) else 0

/-- An exact value: NaN, an infinity, or a finite value of magnitude between q × 2^e and (q + 1) × 2^e, equal to
q × 2^e when not `sticky`. -/
inductive Exact where
  | nan
  | inf (neg : Bool)
  | fin (neg : Bool) (q : Nat) (e : Int) (sticky : Bool)
deriving DecidableEq, Repr

/-- The value of a code (R135). -/
def decodeFloat (t c : Nat) : Exact :=
  let p := fracBits t
  let f := c % 2 ^ p
  let e := c / 2 ^ p % 2 ^ expBits t
  let neg := c / 2 ^ (p + expBits t) % 2 = 1
  if t = tF8e4 && e = 15 && f = 7 then .nan
  else if t ≠ tF8e4 && e = 2 ^ expBits t - 1 then if f = 0 then .inf neg else .nan
  else if e = 0 then .fin neg f (1 - (bias t : Int) - p) false
  else .fin neg (2 ^ p + f) ((e : Int) - bias t - p) false

/-! ### Rounding (R141 to R143) -/

/-- Whether a magnitude `m` plus rem / 2^sh (and a little more when sticky) is rounded up. -/
def roundsUp (rnd u : Nat) (neg : Bool) (m rem sh : Nat) (sticky : Bool) : Bool :=
  let inexact := rem ≠ 0 || sticky
  let half := 2 ^ sh / 2
  match rnd with
  | 0 => inexact && 0 < sh && (half < rem || (rem = half && (sticky || m % 2 = 1)))
  | 1 => false
  | 2 => inexact && neg
  | 3 => inexact && !neg
  | 4 => inexact && 0 < sh && half ≤ rem
  | _ => u < rem * 2 ^ 32 / 2 ^ sh

/-- A magnitude rounded to a whole multiple of 2^lsb; the multiple. -/
def roundAt (rnd u : Nat) (neg : Bool) (q : Nat) (e lsb : Int) (sticky : Bool) : Nat :=
  if lsb ≤ e then q * 2 ^ (e - lsb).toNat + (roundsUp rnd u neg q 0 0 sticky).toNat
  else
    let sh := (lsb - e).toNat
    let m := q / 2 ^ sh
    m + (roundsUp rnd u neg m (q % 2 ^ sh) sh sticky).toNat

/-- The number of bits of a magnitude. -/
def bitLen (q : Nat) : Nat := if q = 0 then 0 else Nat.log2 q + 1

/-- The direction of rounding is towards zero (R142). -/
def towardZero (rnd : Nat) (neg : Bool) : Bool := rnd = 1 || (rnd = 2 && !neg) || (rnd = 3 && neg)

/-- An exact value rounded to a float type (R141, R142); `u` is the stochastic draw; `sat` as R81 applies it. -/
def roundFloat (t rnd u : Nat) (sat : Bool) : Exact → Nat
  | .nan => nanCode t
  | .inf neg => signBit t neg + (if sat && t = tF8e4 then maxCode t else infCode t)
  | .fin neg q e sticky =>
    let p := fracBits t
    let emin : Int := 1 - (bias t : Int) - p
    let lsb := max (e + bitLen q - (p + 1)) emin
    let m := roundAt rnd u neg q e lsb sticky
    let code := if m < 2 ^ p then m else (lsb - emin).toNat * 2 ^ p + m
    signBit t neg + (if code ≤ maxCode t then code
      else if towardZero rnd neg || sat then maxCode t
      else infCode t)

/-- An exact value rounded to an integer (R141). -/
def roundInt (rnd u : Nat) (neg : Bool) (q : Nat) (e : Int) (sticky : Bool) : Int :=
  let m := roundAt rnd u neg q e 0 sticky
  if neg then -(m : Int) else m

/-! ### Exact arithmetic -/

def Exact.negate : Exact → Exact
  | .nan => .nan
  | .inf n => .inf (!n)
  | .fin n q e s => .fin (!n) q e s

/-- The sum (R141: an exact zero sum of operands of opposite sign is +0, or −0 under RDN). -/
def Exact.add (rnd : Nat) : Exact → Exact → Exact
  | .nan, _ => .nan
  | _, .nan => .nan
  | .inf a, .inf b => if a = b then .inf a else .nan
  | .inf a, .fin .. => .inf a
  | .fin .., .inf b => .inf b
  | .fin na qa ea _, .fin nb qb eb _ =>
    if qa = 0 && qb = 0 then .fin (if na = nb then na else rnd = 2) 0 0 false
    else
      let e := min ea eb
      let a : Int := (if na then -1 else 1) * (qa * 2 ^ (ea - e).toNat : Nat)
      let b : Int := (if nb then -1 else 1) * (qb * 2 ^ (eb - e).toNat : Nat)
      let c := a + b
      if c = 0 then .fin (rnd = 2) 0 0 false else .fin (c < 0) c.natAbs e false

/-- The product (R75, R146). -/
def Exact.mul : Exact → Exact → Exact
  | .nan, _ => .nan
  | _, .nan => .nan
  | .inf a, .inf b => .inf (a != b)
  | .inf a, .fin b q _ _ => if q = 0 then .nan else .inf (a != b)
  | .fin a q _ _, .inf b => if q = 0 then .nan else .inf (a != b)
  | .fin na qa ea _, .fin nb qb eb _ => .fin (na != nb) (qa * qb) (ea + eb) false

/-- Extra bits kept in quotients and roots, so that every rounding sees the exact value. -/
def guardBits : Nat := 80

/-- The quotient (R75). -/
def Exact.div : Exact → Exact → Exact
  | .nan, _ => .nan
  | _, .nan => .nan
  | .inf _, .inf _ => .nan
  | .inf a, .fin b _ _ _ => .inf (a != b)
  | .fin a _ _ _, .inf b => .fin (a != b) 0 0 false
  | .fin na qa ea _, .fin nb qb eb _ =>
    if qb = 0 then if qa = 0 then .nan else .inf (na != nb)
    else if qa = 0 then .fin (na != nb) 0 0 false
    else
      let k := guardBits + bitLen qb
      let n := qa * 2 ^ k
      .fin (na != nb) (n / qb) (ea - eb - k) (n % qb ≠ 0)

/-- The whole square root of `n`, whose root has at most `b` bits, from a partial root `r`. -/
def isqrt (n : Nat) : Nat → Nat → Nat
  | 0, r => r
  | b + 1, r => if (r + 2 ^ b) * (r + 2 ^ b) ≤ n then isqrt n b (r + 2 ^ b) else isqrt n b r

def natSqrt (n : Nat) : Nat := isqrt n (bitLen n / 2 + 1) 0

/-- The square root (R77). -/
def Exact.sqrt : Exact → Exact
  | .nan => .nan
  | .inf true => .nan
  | .inf false => .inf false
  | .fin n q e _ =>
    if q = 0 then .fin n 0 0 false
    else if n then .nan
    else
      let odd := e % 2 = 1
      let q' := (if odd then 2 * q else q) * 2 ^ (2 * guardBits)
      let e' := (if odd then e - 1 else e) / 2 - guardBits
      let r := natSqrt q'
      .fin false r e' (r * r ≠ q')

/-- The reciprocal square root (R77, R78). -/
def Exact.rsqrt : Exact → Exact
  | .nan => .nan
  | .inf true => .nan
  | .inf false => .fin false 0 0 false
  | .fin n q e _ =>
    if q = 0 then .inf n
    else if n then .nan
    else
      let odd := e % 2 = 1
      let q' := if odd then 2 * q else q
      let e' := (if odd then e - 1 else e) / 2
      let k := guardBits + bitLen q'
      let r := natSqrt (2 ^ (2 * k) / q')
      .fin false r (-e' - k) (r * r * q' ≠ 2 ^ (2 * k))

/-- The value one. -/
def Exact.one : Exact := .fin false 1 0 false

/-- The order of two exact values without sticky; none when one is NaN (R82). -/
def Exact.cmp : Exact → Exact → Option Ordering
  | .nan, _ => none
  | _, .nan => none
  | .inf a, .inf b => some (if a = b then .eq else if a then .lt else .gt)
  | .inf a, .fin .. => some (if a then .lt else .gt)
  | .fin .., .inf b => some (if b then .gt else .lt)
  | .fin na qa ea _, .fin nb qb eb _ =>
    let e := min ea eb
    let a : Int := (if na then -1 else 1) * (qa * 2 ^ (ea - e).toNat : Nat)
    let b : Int := (if nb then -1 else 1) * (qb * 2 ^ (eb - e).toNat : Nat)
    some (if a < b then .lt else if a = b then .eq else .gt)

/-! ### Integers (R76, R136) -/

/-- The value of a pattern of an integer type. -/
def intOf (t c : Nat) : Int :=
  let w := width t
  if isS t && 2 ^ (w - 1) ≤ c % 2 ^ w then (c % 2 ^ w : Nat) - (2 ^ w : Nat) else (c % 2 ^ w : Nat)

def minInt (t : Nat) : Int := if isS t then -(2 ^ (width t - 1) : Nat) else 0
def maxInt (t : Nat) : Int := if isS t then (2 ^ (width t - 1) : Nat) - 1 else (2 ^ width t : Nat) - 1

/-- The pattern of an integer reduced modulo 2^w. -/
def wrapInt (t : Nat) (v : Int) : Nat := (v % (2 ^ width t : Nat)).toNat

/-- An integer result narrowed to its type: clamped under sat, else reduced (R76). -/
def narrow (t : Nat) (sat : Bool) (v : Int) : Nat :=
  wrapInt t (if sat then max (minInt t) (min (maxInt t) v) else v)

/-! ### The q4 family (R137, R138) -/

/-- A scale byte is ill-formed. -/
def scaleBad (b : Nat) : Bool := b % 64 = 63

/-- A code is reserved under a block's type. -/
def codeBad (b c : Nat) : Bool := 2 ≤ b / 64 % 4 && c % 16 = 8

/-- Eight times the magnitude that the low three bits of a code stand for, for types 01, 10 and 11. -/
def q4Mag (ty c : Nat) : Nat :=
  match ty, c % 8 with
  | 1, 1 => 4 | 1, 2 => 8 | 1, 3 => 12 | 1, 4 => 16 | 1, 5 => 24 | 1, 6 => 32 | 1, 7 => 48
  | 2, 1 => 1 | 2, 2 => 2 | 2, 3 => 4 | 2, 4 => 8 | 2, 5 => 16 | 2, 6 => 32 | 2, 7 => 64
  | 3, 1 => 8 | 3, 2 => 16 | 3, 3 => 24 | 3, 4 => 32 | 3, 5 => 48 | 3, 6 => 64 | 3, 7 => 96
  | _, _ => 0

/-- The value of a q4 code under its block's scale byte (R138). A reserved code has −0 and e = 63 the scale 2^31: every instruction checks
for both before it decodes, so that only a product whose bytes another hart changes after its check pass meets them (R164; the model's
choice, log 115). -/
def decodeQ4 (b c : Nat) : Exact :=
  let e : Int := (b % 64 : Nat) - 32 - 3
  let c := c % 16
  match b / 64 % 4 with
  | 0 => if c < 8 then .fin false (8 * c) e false else .fin true (8 * (16 - c)) e false
  | ty => .fin (8 ≤ c) (q4Mag ty c) e false

/-- A value of an operand format (R154): the float types, or a q4 code under a scale byte. -/
def decodeOperand (fmt c scale : Nat) : Exact := if fmt = tQ4 then decodeQ4 scale c else decodeFloat fmt c

/-! ### Group sums (R146, R147) and accumulation (R148) -/

/-- A product of two operand elements (R146): a zero factor gives +0. -/
def groupProduct (a b : Exact) : Exact :=
  match a.mul b with
  | .fin n q e s => if q = 0 then .fin false 0 0 false else .fin n q e s
  | x => x

/-- The exponent of the leading bit of a non-zero finite value. -/
def Exact.top : Exact → Int
  | .fin _ q e _ => e + bitLen q - 1
  | _ => 0

/-- The truncated multiple of 2^lsb of a finite value, signed, and whether something was cut off. -/
def truncAt (lsb : Int) : Exact → Int × Bool
  | .fin n q e _ =>
    let m := if lsb ≤ e then q * 2 ^ (e - lsb).toNat else q / 2 ^ (lsb - e).toNat
    let cut := e < lsb && q % 2 ^ (lsb - e).toNat ≠ 0
    (if n then -(m : Int) else m, cut)
  | _ => (0, false)

/-- The f32 code of a group sum (R147). -/
def groupSum (ps : List Exact) : Nat :=
  let nanned := ps.any (fun p => p = .nan) || (ps.any (fun p => p = .inf true) && ps.any (fun p => p = .inf false))
  if nanned then nanCode tF32
  else if ps.any (fun p => p = .inf true) then signBit tF32 true + infCode tF32
  else if ps.any (fun p => p = .inf false) then infCode tF32
  else
    let nz := ps.filter (fun p => match p with | .fin _ q _ _ => q ≠ 0 | _ => false)
    match nz with
    | [] => 0
    | p :: rest =>
      let emax := rest.foldl (fun m x => max m x.top) p.top
      let lsb := emax - 47
      let ts := nz.map (truncAt lsb)
      let total : Int := ts.foldl (fun a x => a + x.1) 0
      let sticky := ts.any (fun x => x.2)
      if total = 0 then 0
      else roundFloat tF32 (if sticky then 4 else 0) 0 false (.fin (total < 0) total.natAbs lsb false)

/-- f32 addition rounded to nearest even (R148). -/
def addF32 (a b : Nat) : Nat := roundFloat tF32 0 0 false ((decodeFloat tF32 a).add 0 (decodeFloat tF32 b))

/-- Split a list into groups of `n`; `fuel` bounds their number. -/
def groups {α : Type} (n : Nat) : Nat → List α → List (List α)
  | 0, _ => []
  | _, [] => []
  | fuel + 1, l => l.take n :: groups n fuel (l.drop n)

/-- A dot product accumulated group by group onto an f32 code (R147, R148). -/
def dotOnto (acc g : Nat) (ps : List Exact) : Nat :=
  (groups g ps.length ps).foldl (fun a s => addF32 a (groupSum s)) acc

/-! ### Stochastic lanes (R143) -/

/-- The next state of a lane, which is also the value drawn. -/
def xorshift (x : BitVec 32) : BitVec 32 :=
  let x := x ^^^ (x <<< 13)
  let x := x ^^^ (x >>> 17)
  x ^^^ (x <<< 5)

/-- The state of lane j after seeding. -/
def seedLane (seed : BitVec 32) (j : Nat) : BitVec 32 :=
  let x := seed ^^^ BitVec.ofNat 32 (j * 0x85EBCA6B)
  if x = 0 then 0x6D2B79F5 else x

/-- The 256 lanes after seeding. -/
def seedLanes (seed : BitVec 32) : Tab (BitVec 32) :=
  (List.range 256).foldl (fun m j => Tab.put 0 m j (seedLane seed j)) []

end Sys2Proof.Machine
end

