-- ==== Sys2Proof/Machine/Operands.lean ====
section
/-! DEFINITION. Vector operands and results: lengths (R27, R32), reading an element of any operand form (R23, R48), the
result image and the l-file move (R22), and the element-wise step with its stop and resumption (R33, R34). -/

namespace Sys2Proof.Machine

/-! ### Lengths (R27, R28, R32) -/

/-- B: the bytes of a register of a hart with `lg` lane groups and `n` declared registers. -/
def regBytes (lg n : Nat) : Nat := lg * 64 * (1536 / (n + 10))

def Hart.bytes (t : Hart) : Nat := regBytes t.lg t.n

/-- vlmax of a type. -/
def Hart.vlmax (t : Hart) (ty : Nat) : Nat := t.bytes * 8 / width ty

/-- G of a type: the elements of an element group. -/
def Hart.group (t : Hart) (ty : Nat) : Nat := t.lg * 512 / width ty

/-- The number of mask bits (R20). -/
def Hart.maskBits (t : Hart) : Nat := 2 * t.bytes

/-- The element type, rounding and saturation in force. -/
abbrev Hart.ty (t : Hart) : Nat := mT t.mode
abbrev Hart.rnd (t : Hart) : Nat := mRnd t.mode
abbrev Hart.sat (t : Hart) : Bool := mSat t.mode

/-- Element i is active (R25). -/
def Hart.active (t : Hart) (i : Nat) : Bool := guard t.mode t.k i

/-! ### Elements -/

/-- Element i of width w of a register's bits (R32). -/
def elt (w d i : Nat) : Nat := d >>> (w * i) % 2 ^ w

/-- The bits with element i replaced. -/
def setElt (w d i v : Nat) : Nat := d ^^^ ((elt w d i ^^^ v % 2 ^ w) <<< (w * i))

/-- The place of an operand's register in the register table (State.Hart.v). -/
def vopIndex : VOp → Nat
  | .main n => n.toNat
  | .oper n => 32 + n.toNat
  | .last n => 40 + n.toNat
  | .repl _ n => n.toNat

def Hart.vreg (t : Hart) (n : Nat) : VReg := Tab.get {} t.v n
def Hart.setVreg (t : Hart) (n : Nat) (r : VReg) : Hart := { t with v := Tab.put {} t.v n r }

/-- The operand names no main register at or above the declared count (R23). -/
def vopOk (n : Nat) : VOp → Bool
  | .main r => r.toNat < n
  | .repl _ r => r.toNat < n
  | _ => true

/-- The number of elements a replicate names (R23). -/
def replSize (z : BitVec 2) : Nat := 4 ^ z.toNat

/-- The element of the register that element i of an operand reads (R23). -/
def vopElem (o : VOp) (i : Nat) : Nat := match o with | .repl z _ => i % replSize z | _ => i

/-- The register a source operand reads. An element-wise instruction resumed above element 0 has already moved the
l-file (R22), so its l0 is found in l1 and its l1 in the displaced register; a source of any other class that is the destination
is read as the elements before vstart have left it, a replicated one too. A vstart above 0 counts as a move made, also where a
handler has set it after a trap at element 0, which made none (R35, R140). The three are the model's reading (log 11). -/
def Hart.source (t : Hart) (resumed : Bool) (o : VOp) : VReg :=
  match o with
  | .last n => if resumed then (if n = 0 then t.vreg 41 else t.lold) else t.vreg (vopIndex o)
  | _ => t.vreg (vopIndex o)

/-- Element i of a source operand at width w. -/
def Hart.read (t : Hart) (resumed : Bool) (o : VOp) (w i : Nat) : Nat := elt w (t.source resumed o).data (vopElem o i)

/-! ### Results (R22, R36) -/

/-- The stochastic lanes of a hart (R143). -/
abbrev Lanes := Tab (BitVec 32)

/-- The rows that writing elements below `n` of width w reaches (R32, R36). -/
def Hart.rowsOf (t : Hart) (w n : Nat) : Nat :=
  if n = 0 || t.lg = 0 then 0 else ((w * n + 7) / 8 - 1) / 64 / t.lg + 1

/-- The bits of `a` with elements lo to hi − 1 taken from `b`. -/
def splice (w a b lo hi : Nat) : Nat :=
  let d := (a ^^^ b) >>> (w * lo) % 2 ^ (w * (hi - lo))
  a ^^^ (d <<< (w * lo))

/-- A register with new bits that reach up to element `n`. -/
def Hart.image (t : Hart) (r : VReg) (w n data : Nat) : VReg := { r with data := data, rows := max r.rows (t.rowsOf w n) }

/-- A register in which elements lo to hi − 1 have been written; where there are none, its rows are as they were. -/
def Hart.imageTo (t : Hart) (r : VReg) (w lo hi data : Nat) : VReg := t.image r w (if lo < hi then hi else 0) data

/-- The lanes after some draws. -/
def Hart.withRng (t : Hart) (g : Lanes) : Hart := { t with rng := g }

/-- The register that the move displaces is kept. -/
def Hart.withLold (t : Hart) (r : VReg) : Hart := { t with lold := r }

/-- Steps 3 and 4 of R22 for a result image: it goes to the named register, and the l-file moves unless the move has
been made before an earlier stop; then elements lo to hi − 1 are written into l0 in place. -/
def Hart.putResult (t : Hart) (d : VOp) (img : VReg) (w lo hi : Nat) (moved : Bool) : Hart :=
  let t := match d with
    | .main _ => t.setVreg (vopIndex d) img
    | .oper _ => t.setVreg (vopIndex d) img
    | _ => t
  if moved then
    let l := t.vreg 40
    t.setVreg 40 { l with data := splice w l.data img.data lo hi, rows := max l.rows (t.rowsOf w (if lo < hi then hi else 0)) }
  else ((t.setVreg 41 (t.vreg 40)).setVreg 40 img).withLold (t.vreg 41)

/-! ### Stochastic draws (R143) -/

/-- A draw from the lane of element i. -/
def draw (g : Lanes) (i : Nat) : Nat × Lanes :=
  let x := xorshift (Tab.get 0 g (i % 256))
  (x.toNat, Tab.put 0 g (i % 256) x)

/-- A result before rounding: bits that never round, an exact float, or an exact integer. -/
inductive Res where
  | bits (c : Nat)
  | float (x : Exact)
  | int (v : Int)
deriving DecidableEq, Repr

/-- An exact value rounded to a float type under the mode; a finite one draws under stoch (R143 step 4). -/
def roundDraw (t rnd : Nat) (sat : Bool) (x : Exact) (g : Lanes) (i : Nat) : Nat × Lanes :=
  match x with
  | .fin .. =>
    if rnd = stoch then
      let (u, g) := draw g i
      (roundFloat t rnd u sat x, g)
    else (roundFloat t rnd 0 sat x, g)
  | _ => (roundFloat t rnd 0 sat x, g)

/-- A result narrowed to the element type (R75, R76). -/
def Res.narrow (t rnd : Nat) (sat : Bool) (r : Res) (g : Lanes) (i : Nat) : Nat × Lanes :=
  match r with
  | .bits c => (c, g)
  | .float x => roundDraw t rnd false x g i
  | .int v => (Machine.narrow t sat v, g)

/-! ### The element-wise step (R33, R34, R77) -/

/-- Run a step for `n` elements from `i` upward. -/
def forElems {α : Type} (f : Nat → α → α) : Nat → Nat → α → α
  | 0, _, a => a
  | n + 1, i, a => forElems f n (i + 1) (f i a)

/-- What one element does to the image and the lanes: an active element takes its value, an inactive one is zeroed or
kept. -/
def elemStep (t : Hart) (w : Nat) (f : Nat → Nat → Lanes → Nat × Lanes) (i : Nat) (a : Nat × Lanes) : Nat × Lanes :=
  if t.active i then
    let (v, g) := f i (elt w a.1 i) a.2
    (setElt w a.1 i v, g)
  else if mZero t.mode then (setElt w a.1 i 0, a.2) else a

/-- Where a pre-emption or a halt that has been requested stops an element-wise instruction: at the element group
`cut`, when that lies inside it (R34, R274, R326). -/
def State.stopAt (s : State) (h : Nat) (vl : Nat) : Nat :=
  let t := s.hart h
  match s.cut with
  | some g =>
    let e := g * t.group t.ty
    if ((s.team (teamOf h)).request || t.haltReq) && t.vstart < e && e < vl then e else vl
  | none => vl

/-- The end of an element-wise instruction that has done every element below `e` of `n` (R33, R34): complete, it clears
vstart and goes on; stopped, vstart is left at `e`. -/
def State.endElems (s : State) (h e n : Nat) : State :=
  if e < n then s.modHart h (fun t => { t with vstart := e }) else (s.modHart h (fun t => { t with vstart := 0 })).advance

/-- An element-wise instruction with an element result, of length `n`: `f i prior lanes` is the value of element i. -/
def State.elementwise (s : State) (d : VOp) (n : Nat) (f : Nat → Nat → Lanes → Nat × Lanes) : State :=
  let h := s.me
  let t := s.hart h
  let w := width t.ty
  let lo := t.vstart
  let hi := s.stopAt h n
  let prior := t.vreg (vopIndex d)
  let r := forElems (elemStep t w f) (hi - lo) lo (prior.data, t.rng)
  (s.setHart h ((t.withRng r.2).putResult d (t.imageTo prior w lo hi r.1) w lo hi (lo ≠ 0))).endElems h hi n

/-- The checks of an instruction of the vector stream before it has any effect: the stream (reason 2), the element type
and other reserved values (reason 6), the named registers (reason 7). Where one fails, vstart stays as it was found, for a
whole-vector instruction too (the model's reading, log 98). -/
def onVectorIf (s : State) (ok : Hart → Bool) (regs : List VOp) (f : State → State) : Host.Outcome State Fault Refusal :=
  if !s.isVector then trapNow s (illegal .wrongStream)
  else if !ok (s.hart s.me) then trapNow s (illegal .reservedValue)
  else if !regs.all (vopOk (s.hart s.me).n) then trapNow s (illegal .register)
  else .next (f s)

/-- The same checks inside a meaning that may stop. -/
def vectorChecks (ok : Hart → Bool) (regs : List VOp) : M Unit := do
  let s ← get
  check s.isVector (illegal .wrongStream)
  check (ok (s.hart s.me)) (illegal .reservedValue)
  check (regs.all (vopOk (s.hart s.me).n)) (illegal .register)

end Sys2Proof.Machine
end

