-- ==== Sys2Proof/Machine/ScalarAlu.lean ====
section
/-! DEFINITION. Integer and address arithmetic of the control stream (R57, R60 to R63): opcodes 0x01 to 0x1E. -/

namespace Sys2Proof.Machine

abbrev Result := Host.Outcome State Fault Refusal

/-- x[rd] := f(x[rs1], x[rs2]) (R60). -/
def aluRR (f : W64 → W64 → W64) (d a b : BitVec 5) (s : State) : Result :=
  onControl s (fun s => s.putX d (f (s.getX a) (s.getX b)))

/-- x[rd] := f(x[rs1], i) (R62). -/
def aluRI (f : W64 → W64 → W64) (d a : BitVec 5) (i : BitVec 14) (s : State) : Result :=
  onControl s (fun s => s.putX d (f (s.getX a) (i.signExtend 64)))

/-- A shift by an immediate from 0 to 63; any other value is reserved (R62). -/
def aluShift (f : W64 → Nat → W64) (d a : BitVec 5) (i : BitVec 14) (s : State) : Result :=
  if !s.isControl then trapNow s (illegal .wrongStream)
  else if 63 < i.toNat then trapNow s (illegal .reservedValue)
  else onControl s (fun s => s.putX d (f (s.getX a) i.toNat))

/-- A truth value as a word. -/
def word (b : Bool) : W64 := if b then 1 else 0

/-- The shift amount b[5:0] (R60). -/
def amount (b : W64) : Nat := b.toNat % 64

/-- The operations of R60. -/
def fSll (a b : W64) : W64 := a <<< amount b
def fSrl (a b : W64) : W64 := a >>> amount b
def fSra (a b : W64) : W64 := a.sshiftRight (amount b)
def fSlt (a b : W64) : W64 := word (decide (a.toInt < b.toInt))
def fSltu (a b : W64) : W64 := word (decide (a.toNat < b.toNat))
def fMin (a b : W64) : W64 := if b.toInt < a.toInt then b else a
def fMinu (a b : W64) : W64 := if b.toNat < a.toNat then b else a
def fMax (a b : W64) : W64 := if a.toInt < b.toInt then b else a
def fMaxu (a b : W64) : W64 := if a.toNat < b.toNat then b else a
def fMulh (a b : W64) : W64 := BitVec.ofInt 64 (a.toInt * b.toInt / 2 ^ 64)
def fMulhu (a b : W64) : W64 := BitVec.ofNat 64 (a.toNat * b.toNat / 2 ^ 64)

/-- The divisions of R61: truncated toward zero, with defined results for zero and for the one overflow. -/
def fDiv (a b : W64) : W64 := if b = 0 then -1 else BitVec.ofInt 64 (Int.tdiv a.toInt b.toInt)
def fDivu (a b : W64) : W64 := if b = 0 then -1 else BitVec.ofNat 64 (a.toNat / b.toNat)
def fRem (a b : W64) : W64 := if b = 0 then a else BitVec.ofInt 64 (Int.tmod a.toInt b.toInt)
def fRemu (a b : W64) : W64 := if b = 0 then a else BitVec.ofNat 64 (a.toNat % b.toNat)

def execAdd (d a b : BitVec 5) (s : State) : Result := aluRR (· + ·) d a b s
def execSub (d a b : BitVec 5) (s : State) : Result := aluRR (· - ·) d a b s
def execAnd (d a b : BitVec 5) (s : State) : Result := aluRR (· &&& ·) d a b s
def execOr (d a b : BitVec 5) (s : State) : Result := aluRR (· ||| ·) d a b s
def execXor (d a b : BitVec 5) (s : State) : Result := aluRR (· ^^^ ·) d a b s
def execSll (d a b : BitVec 5) (s : State) : Result := aluRR fSll d a b s
def execSrl (d a b : BitVec 5) (s : State) : Result := aluRR fSrl d a b s
def execSra (d a b : BitVec 5) (s : State) : Result := aluRR fSra d a b s
def execSlt (d a b : BitVec 5) (s : State) : Result := aluRR fSlt d a b s
def execSltu (d a b : BitVec 5) (s : State) : Result := aluRR fSltu d a b s
def execMin (d a b : BitVec 5) (s : State) : Result := aluRR fMin d a b s
def execMinu (d a b : BitVec 5) (s : State) : Result := aluRR fMinu d a b s
def execMax (d a b : BitVec 5) (s : State) : Result := aluRR fMax d a b s
def execMaxu (d a b : BitVec 5) (s : State) : Result := aluRR fMaxu d a b s
def execMul (d a b : BitVec 5) (s : State) : Result := aluRR (· * ·) d a b s
def execMulh (d a b : BitVec 5) (s : State) : Result := aluRR fMulh d a b s
def execMulhu (d a b : BitVec 5) (s : State) : Result := aluRR fMulhu d a b s
def execDiv (d a b : BitVec 5) (s : State) : Result := aluRR fDiv d a b s
def execDivu (d a b : BitVec 5) (s : State) : Result := aluRR fDivu d a b s
def execRem (d a b : BitVec 5) (s : State) : Result := aluRR fRem d a b s
def execRemu (d a b : BitVec 5) (s : State) : Result := aluRR fRemu d a b s
def execAddi (d a : BitVec 5) (i : BitVec 14) (s : State) : Result := aluRI (· + ·) d a i s
def execAndi (d a : BitVec 5) (i : BitVec 14) (s : State) : Result := aluRI (· &&& ·) d a i s
def execOri (d a : BitVec 5) (i : BitVec 14) (s : State) : Result := aluRI (· ||| ·) d a i s
def execXori (d a : BitVec 5) (i : BitVec 14) (s : State) : Result := aluRI (· ^^^ ·) d a i s
def execSlli (d a : BitVec 5) (i : BitVec 14) (s : State) : Result := aluShift (fun x n => x <<< n) d a i s
def execSrli (d a : BitVec 5) (i : BitVec 14) (s : State) : Result := aluShift (fun x n => x >>> n) d a i s
def execSrai (d a : BitVec 5) (i : BitVec 14) (s : State) : Result := aluShift (fun x n => x.sshiftRight n) d a i s
def execSlti (d a : BitVec 5) (i : BitVec 14) (s : State) : Result := aluRI fSlt d a i s
def execSltui (d a : BitVec 5) (i : BitVec 14) (s : State) : Result := aluRI fSltu d a i s

/-- The immediate of lui and auipc (R63). -/
def upper (j : BitVec 19) : W64 := j.signExtend 64 <<< 14

def execLui (d : BitVec 5) (j : BitVec 19) (s : State) : Result := onControl s (fun s => s.putX d (upper j))
def execAuipc (d : BitVec 5) (j : BitVec 19) (s : State) : Result :=
  onControl s (fun s => s.putX d (s.pcOf s.cur + upper j))

end Sys2Proof.Machine
end

