-- ==== Sys2Proof/Machine/VArith.lean ====
section
/-! DEFINITION. Vector arithmetic, logic, selects and conversions (R74 to R82): opcodes 0x40 to 0x68. -/

namespace Sys2Proof.Machine

/-! ### What each operation computes (R77, R78): from the type, rounding mode, saturation, a, b and the prior value -/

abbrev ElemOp := Nat → Nat → Bool → Nat → Nat → Nat → Res

def opAdd : ElemOp := fun t r _ a b _ =>
  if isF t then .float ((decodeFloat t a).add r (decodeFloat t b)) else .int (intOf t a + intOf t b)
def opSub : ElemOp := fun t r _ a b _ =>
  if isF t then .float ((decodeFloat t a).add r (decodeFloat t b).negate) else .int (intOf t a - intOf t b)
def opMul : ElemOp := fun t _ _ a b _ =>
  if isF t then .float ((decodeFloat t a).mul (decodeFloat t b)) else .int (intOf t a * intOf t b)
def opMulh : ElemOp := fun t _ _ a b _ => .bits ((intOf t a * intOf t b / (2 ^ width t : Nat) % (2 ^ width t : Nat)).toNat)
def opDiv : ElemOp := fun t _ _ a b _ =>
  if isF t then .float ((decodeFloat t a).div (decodeFloat t b))
  else if intOf t b = 0 then .bits (2 ^ width t - 1)
  else .int (Int.tdiv (intOf t a) (intOf t b))
def opRem : ElemOp := fun t _ _ a b _ =>
  if intOf t b = 0 then .bits a else .int (Int.tmod (intOf t a) (intOf t b))

/-- minimumNumber and maximumNumber on codes (R78); `wantMax` picks the greater. -/
def pickFloat (wantMax : Bool) (t a b : Nat) : Nat :=
  match (decodeFloat t a).cmp (decodeFloat t b) with
  | none =>
    if decodeFloat t a = .nan then if decodeFloat t b = .nan then nanCode t else b else a
  | some .lt => if wantMax then b else a
  | some .gt => if wantMax then a else b
  | some .eq => if wantMax then min a b else max a b

/-- The lesser and the greater of two values (R78): one of the operands as it stands. Of two elements it is no rounded result, so
that under stoch it draws nothing (the model's reading, log 38). -/
def opMin : ElemOp := fun t _ _ a b _ =>
  if isF t then .bits (pickFloat false t a b) else .bits (if intOf t b < intOf t a then b else a)
def opMax : ElemOp := fun t _ _ a b _ =>
  if isF t then .bits (pickFloat true t a b) else .bits (if intOf t a < intOf t b then b else a)

/-- An operation as a step of a reduction, or of an indexed atomic, performs it: its value is rounded, so that under stoch a finite
one draws (R83, R114, R143). -/
def roundedStep (f : ElemOp) : ElemOp := fun t r sat a b p =>
  match f t r sat a b p with
  | .bits c => if isF t then .float (decodeFloat t c) else .bits c
  | x => x
def opFma : ElemOp := fun t r _ a b p =>
  if isF t then .float ((decodeFloat t p).add r ((decodeFloat t a).mul (decodeFloat t b)))
  else .int (intOf t p + intOf t a * intOf t b)
def opFms : ElemOp := fun t r _ a b p =>
  if isF t then .float ((decodeFloat t p).add r ((decodeFloat t a).mul (decodeFloat t b)).negate)
  else .int (intOf t p - intOf t a * intOf t b)
def opFnmaInt : ElemOp := fun t _ _ a b p => .int (-(intOf t p + intOf t a * intOf t b))
def opAbs : ElemOp := fun t _ _ a _ _ =>
  if isF t then .bits (a % 2 ^ (width t - 1)) else .int (intOf t a).natAbs
def opNeg : ElemOp := fun t _ _ a _ _ =>
  if isF t then .bits (a ^^^ 2 ^ (width t - 1)) else .int (-intOf t a)
def opSqrt : ElemOp := fun t _ _ a _ _ => .float (decodeFloat t a).sqrt
def opRcp : ElemOp := fun t _ _ a _ _ => .float (Exact.one.div (decodeFloat t a))
def opRsq : ElemOp := fun t _ _ a _ _ => .float (decodeFloat t a).rsqrt
def opAnd : ElemOp := fun _ _ _ a b _ => .bits (a &&& b)
def opOr : ElemOp := fun _ _ _ a b _ => .bits (a ||| b)
def opXor : ElemOp := fun _ _ _ a b _ => .bits (a ^^^ b)
def opNot : ElemOp := fun t _ _ a _ _ => .bits (2 ^ width t - 1 - a)
def opShl : ElemOp := fun t _ _ a b _ => .int (intOf t a * (2 ^ (b % width t) : Nat))
def opShr : ElemOp := fun t _ _ a b _ => .bits (a / 2 ^ (b % width t))

/-- An arithmetic shift of a pattern: copies of its top bit come in. -/
def sraBits (w a n : Nat) : Nat :=
  let v : Int := if 2 ^ (w - 1) ≤ a then (a : Int) - (2 ^ w : Nat) else a
  (v / (2 ^ n : Nat) % (2 ^ w : Nat)).toNat
def opSra : ElemOp := fun t _ _ a b _ => .bits (sraBits (width t) a (b % width t))
def opMv : ElemOp := fun _ _ _ a _ _ => .bits a

/-- Float or integer types; integer types; float types (R74). -/
def okFI (t : Hart) : Bool := isF t.ty || isI t.ty
def okI (t : Hart) : Bool := isI t.ty
def okF (t : Hart) : Bool := isF t.ty
def okB (t : Hart) : Bool := isB t.ty

/-- The element function of an operation on two sources. -/
def elemFn (t : Hart) (f : ElemOp) (a b : VOp) (i p : Nat) (g : Lanes) : Nat × Lanes :=
  let w := width t.ty
  let re := t.vstart ≠ 0
  (f t.ty t.rnd t.sat (t.read re a w i) (t.read re b w i) p).narrow t.ty t.rnd t.sat g i

/-- A binary element-wise instruction (R77). -/
def binary (ok : Hart → Bool) (f : ElemOp) (d a b : VOp) (s : State) : Result :=
  onVectorIf s (fun t => ok t && d.writable) [d, a, b] (fun s => s.elementwise d (s.hart s.me).vl (elemFn (s.hart s.me) f a b))

/-- A unary one. -/
def unary (ok : Hart → Bool) (f : ElemOp) (d a : VOp) (s : State) : Result :=
  onVectorIf s (fun t => ok t && d.writable) [d, a] (fun s => s.elementwise d (s.hart s.me).vl (elemFn (s.hart s.me) f a a))

def execVadd (d a b : VOp) (s : State) : Result := binary okFI opAdd d a b s
def execVsub (d a b : VOp) (s : State) : Result := binary okFI opSub d a b s
def execVmul (d a b : VOp) (s : State) : Result := binary okFI opMul d a b s
def execVmulh (d a b : VOp) (s : State) : Result := binary okI opMulh d a b s
def execVdiv (d a b : VOp) (s : State) : Result := binary okFI opDiv d a b s
def execVrem (d a b : VOp) (s : State) : Result := binary okI opRem d a b s
def execVmin (d a b : VOp) (s : State) : Result := binary okFI opMin d a b s
def execVmax (d a b : VOp) (s : State) : Result := binary okFI opMax d a b s
def execVfma (d a b : VOp) (s : State) : Result := binary okFI opFma d a b s
def execVfms (d a b : VOp) (s : State) : Result := binary okFI opFms d a b s

/-- vfnma (R78): a float sum is rounded as vfma rounds it and then negated, a NaN staying canonical. -/
def fnmaFn (t : Hart) (a b : VOp) (i p : Nat) (g : Lanes) : Nat × Lanes :=
  if isF t.ty then
    let (c, g) := elemFn t opFma a b i p g
    (if decodeFloat t.ty c = .nan then c else c ^^^ 2 ^ (width t.ty - 1), g)
  else elemFn t opFnmaInt a b i p g
def execVfnma (d a b : VOp) (s : State) : Result :=
  onVectorIf s (fun t => okFI t && d.writable) [d, a, b]
    (fun s => s.elementwise d (s.hart s.me).vl (fnmaFn (s.hart s.me) a b))

def execVabs (d a : VOp) (s : State) : Result := unary okFI opAbs d a s
def execVneg (d a : VOp) (s : State) : Result := unary okFI opNeg d a s
def execVsqrt (d a : VOp) (s : State) : Result := unary okF opSqrt d a s
def execVrcp (d a : VOp) (s : State) : Result := unary okF opRcp d a s
def execVrsq (d a : VOp) (s : State) : Result := unary okF opRsq d a s
def execVand (d a b : VOp) (s : State) : Result := binary okB opAnd d a b s
def execVor (d a b : VOp) (s : State) : Result := binary okB opOr d a b s
def execVxor (d a b : VOp) (s : State) : Result := binary okB opXor d a b s
def execVnot (d a : VOp) (s : State) : Result := unary okB opNot d a s
def execVshl (d a b : VOp) (s : State) : Result := binary okI opShl d a b s
def execVshr (d a b : VOp) (s : State) : Result := binary okI opShr d a b s
def execVsra (d a b : VOp) (s : State) : Result := binary okI opSra d a b s
def execVmv (d a : VOp) (s : State) : Result := unary okB opMv d a s

/-- An operation with b replaced by a constant pattern (R79). -/
def immediate (ok : Hart → Bool) (f : ElemOp) (d a : VOp) (b : Hart → Nat) (s : State) : Result :=
  onVectorIf s (fun t => ok t && d.writable) [d, a] (fun s =>
    s.elementwise d (s.hart s.me).vl (fun i p g =>
      elemFn (s.hart s.me) (fun t r st x _ q => f t r st x (b (s.hart s.me)) q) a a i p g))

/-- The shift immediate is below w (R79). -/
def okShift (i : BitVec 8) (t : Hart) : Bool := okI t && i.toNat < width t.ty

def execVaddi (d a : VOp) (i : BitVec 8) (s : State) : Result :=
  immediate okI opAdd d a (fun t => (i.signExtend 64).toNat % 2 ^ width t.ty) s
def execVshli (d a : VOp) (i : BitVec 8) (s : State) : Result := immediate (okShift i) opShl d a (fun _ => i.toNat) s
def execVshri (d a : VOp) (i : BitVec 8) (s : State) : Result := immediate (okShift i) opShr d a (fun _ => i.toNat) s
def execVsrai (d a : VOp) (i : BitVec 8) (s : State) : Result := immediate (okShift i) opSra d a (fun _ => i.toNat) s

/-- vsel (R80): every element below vl is written, by the guard; m is ignored. -/
def selStep (t : Hart) (w : Nat) (a b : VOp) (i : Nat) (img : Nat) : Nat :=
  let re := t.vstart ≠ 0
  setElt w img i (if t.active i then t.read re a w i else t.read re b w i)

def State.vselect (s : State) (d a b : VOp) : State :=
  let h := s.me
  let t := s.hart h
  let w := width t.ty
  let lo := t.vstart
  let hi := s.stopAt h t.vl
  let prior := t.vreg (vopIndex d)
  let data := forElems (selStep t w a b) (hi - lo) lo prior.data
  (s.setHart h (t.putResult d (t.imageTo prior w lo hi data) w lo hi (lo ≠ 0))).endElems h hi t.vl

def execVsel (d a b : VOp) (s : State) : Result :=
  onVectorIf s (fun t => okB t && d.writable) [d, a, b] (fun s => s.vselect d a b)

/-! ### Conversions (R81) -/

def isFloat (t : Nat) : Bool := t ≤ 4

/-- The conversion of one value that is not q4 (R81): from type `f` to type `t`; a result that never rounds does not
draw (R143). -/
def convert (f t rnd : Nat) (sat : Bool) (x : Exact) (c : Nat) (g : Lanes) (i : Nat) : Nat × Lanes :=
  if isFloat f || f = tQ4 then
    if isFloat t then
      let exactly := f = t || width f < width t && f ≠ tQ4 || (f = tQ4 && (t = tF32 || t = tBf16))
      if exactly then (roundFloat t 0 0 sat x, g) else roundDraw t rnd sat x g i
    else
      match x with
      | .nan => (if sat then 0 else 2 ^ (width t - 1), g)
      | .inf n => (if sat then wrapInt t (if n then minInt t else maxInt t) else 2 ^ (width t - 1), g)
      | .fin n q e k =>
        let (u, g) := if rnd = stoch then draw g i else (0, g)
        let v := roundInt rnd u n q e k
        (if minInt t ≤ v && v ≤ maxInt t then wrapInt t v
          else if sat then narrow t true v else 2 ^ (width t - 1), g)
  else
    let v := intOf f c
    if isFloat t then roundDraw t rnd sat (.fin (v < 0) v.natAbs 0 false) g i
    else (narrow t sat v, g)

/-- Element i of a conversion's source at the source type. A resumed vcvtw whose source is its destination reads what its wider
results have left of the source (the model's reading, log 11). -/
def cvtFn (t : Hart) (f : Nat) (a : VOp) (i : Nat) (_p : Nat) (g : Lanes) : Nat × Lanes :=
  let c := t.read (t.vstart ≠ 0) a (width f) i
  convert f t.ty t.rnd t.sat (decodeFloat f c) c g i

/-- The destination and source types of a conversion are legal, but for the width relation. -/
def okCvt (rel : Nat → Nat → Bool) (f : Nat) (t : Hart) : Bool := t.ty ≠ tQ4 && t.ty ≤ 13 && f ≤ 13 && rel (width f) (width t.ty)

def execVcvt (d a : VOp) (f : BitVec 4) (s : State) : Result :=
  onVectorIf s (fun t => okCvt (· == ·) f.toNat t && d.writable) [d, a]
    (fun s => s.elementwise d (s.hart s.me).vl (cvtFn (s.hart s.me) f.toNat a))
def execVcvtn (d a : VOp) (f : BitVec 4) (s : State) : Result :=
  onVectorIf s (fun t => okCvt (fun ws wt => wt < ws) f.toNat t && d.writable) [d, a]
    (fun s => s.elementwise d (min (s.hart s.me).vl ((s.hart s.me).vlmax f.toNat)) (cvtFn (s.hart s.me) f.toNat a))

/-- The scale byte of the block that element i of a q4 source belongs to (R139). -/
def Hart.scaleOf (t : Hart) (resumed : Bool) (a : VOp) (i : Nat) : Nat :=
  elt 8 (t.source resumed a).scale (vopElem a i / 32)

/-- What is wrong with the q4 element i of a source: 2 an ill-formed scale, 1 a reserved code, 0 nothing (R140). -/
def Hart.q4Bad (t : Hart) (resumed : Bool) (a : VOp) (i : Nat) : Nat :=
  let b := t.scaleOf resumed a i
  if scaleBad b then 2 else if codeBad b (t.read resumed a 4 i) then 1 else 0

/-- The lowest active element from i on, among `n`, that cannot be decoded (R140). -/
def Hart.q4Fail (t : Hart) (resumed : Bool) (a : VOp) : Nat → Nat → Option Nat
  | 0, _ => none
  | n + 1, i => if t.active i && t.q4Bad resumed a i ≠ 0 then some i else Hart.q4Fail t resumed a n (i + 1)

/-- Element i of a vcvtw from q4. -/
def cvtQ4Fn (t : Hart) (a : VOp) (i : Nat) (_p : Nat) (g : Lanes) : Nat × Lanes :=
  let re := t.vstart ≠ 0
  convert tQ4 t.ty t.rnd t.sat (decodeQ4 (t.scaleOf re a i) (t.read re a 4 i)) 0 g i

/-- An element-wise instruction that a trap stops at element `f` (R22, R34): the elements below have their effect, and
the l-file has moved if one of them was done now or the move was made before. -/
def State.stopElems (s : State) (d : VOp) (f : Nat) (fn : Nat → Nat → Lanes → Nat × Lanes) (tr : Trap) : State :=
  let h := s.me
  let t := s.hart h
  let w := width t.ty
  let lo := t.vstart
  let prior := t.vreg (vopIndex d)
  let (data, g) := forElems (elemStep t w fn) (f - lo) lo (prior.data, t.rng)
  let t' := if f = 0 then t else { t with rng := g, vstart := f }.putResult d (t.imageTo prior w lo f data) w lo f (lo ≠ 0)
  (s.setHart h t').takeTrap { tr with elem := f }

/-- The number-format trap of a vector source (R140, R288). -/
def formatTrap (kind block : Nat) : Trap := { cls := 0x0A, detail := BitVec.ofNat 64 (kind + block % 2 ^ 24 * 2 ^ 8) }

def execVcvtw (d a : VOp) (f : BitVec 4) (s : State) : Result :=
  onVectorIf s (fun t => okCvt (fun ws wt => ws < wt) f.toNat t && d.writable) [d, a] (fun s =>
    let t := s.hart s.me
    if f.toNat = tQ4 then
      let re := t.vstart ≠ 0
      let hi := s.stopAt s.me t.vl
      match t.q4Fail re a (hi - t.vstart) t.vstart with
      | some e => s.stopElems d e (cvtQ4Fn t a) (formatTrap (t.q4Bad re a e) (vopElem a e / 32))
      | none => s.elementwise d t.vl (cvtQ4Fn t a)
    else s.elementwise d t.vl (cvtFn t f.toNat a))

/-! ### Comparisons (R82) -/

/-- A comparison of two codes of a type: from the order, none for a NaN operand. -/
def compareAs (t : Nat) (f : Option Ordering → Bool) (a b : Nat) : Bool :=
  if isF t then f ((decodeFloat t a).cmp (decodeFloat t b))
  else f (some (if intOf t a < intOf t b then .lt else if intOf t a = intOf t b then .eq else .gt))

def cmpStep (t : Hart) (f : Option Ordering → Bool) (a b : VOp) (i : Nat) (m : Nat) : Nat :=
  let w := width t.ty
  if t.active i then setBit m i (compareAs t.ty f (t.read false a w i) (t.read false b w i))
  else if mZero t.mode then setBit m i false else m

/-- The mask after an element-wise comparison; l0 and l1 do not change. -/
def State.vcompare (s : State) (k : Nat) (f : Option Ordering → Bool) (a b : VOp) : State :=
  let h := s.me
  let t := s.hart h
  let hi := s.stopAt h t.vl
  let m := forElems (cmpStep t f a b) (hi - t.vstart) t.vstart (Tab.get 0 t.k k)
  (s.setHart h { t with k := Tab.put 0 t.k k m }).endElems h hi t.vl

def compareOp (f : Option Ordering → Bool) (k : BitVec 3) (a b : VOp) (s : State) : Result :=
  onVectorIf s okFI [a, b] (fun s => s.vcompare k.toNat f a b)

def execVceq (k : BitVec 3) (a b : VOp) (s : State) : Result := compareOp (fun o => o == some .eq) k a b s
def execVcne (k : BitVec 3) (a b : VOp) (s : State) : Result := compareOp (fun o => o != some .eq) k a b s
def execVclt (k : BitVec 3) (a b : VOp) (s : State) : Result := compareOp (fun o => o == some .lt) k a b s
def execVcle (k : BitVec 3) (a b : VOp) (s : State) : Result := compareOp (fun o => o == some .lt || o == some .eq) k a b s
def execVcgt (k : BitVec 3) (a b : VOp) (s : State) : Result := compareOp (fun o => o == some .gt) k a b s
def execVcge (k : BitVec 3) (a b : VOp) (s : State) : Result := compareOp (fun o => o == some .gt || o == some .eq) k a b s

end Sys2Proof.Machine
end

