-- ==== Sys2Proof/Machine/VWhole.lean ====
section
/-! DEFINITION. Reductions, permutes, single elements, masks, s registers, vmode, vlen, loops, replies and the end of a
block (R83 to R91): opcodes 0x69 to 0x8F. -/

namespace Sys2Proof.Machine

/-- A whole-vector instruction's result (R22, R33): it always runs from element 0 and leaves vstart 0. -/
def State.whole (s : State) (d : VOp) (n data : Nat) (g : Lanes) : State :=
  let h := s.me
  let t := s.hart h
  let w := width t.ty
  let prior := t.vreg (vopIndex d)
  (s.setHart h { (t.withRng g).putResult d (t.image prior w n data) w 0 n false with vstart := 0 }).advance

/-! ### Reductions and the scan (R83) -/

/-- The state of a reduction: accumulator, image and lanes. -/
structure Red where
  acc : Nat
  img : Nat
  g : Lanes

def redStep (t : Hart) (scan : Bool) (f : ElemOp) (a : VOp) (i : Nat) (r : Red) : Red :=
  let w := width t.ty
  if t.active i then
    let (c, g) := (f t.ty t.rnd t.sat r.acc (t.read false a w i) 0).narrow t.ty t.rnd t.sat r.g i
    ⟨c, if scan then setElt w r.img i c else r.img, g⟩
  else if scan && mZero t.mode then { r with img := setElt w r.img i 0 }
  else r

def State.reduce (s : State) (scan : Bool) (f : ElemOp) (d a b : VOp) : State :=
  let t := s.hart s.me
  let w := width t.ty
  let prior := (t.vreg (vopIndex d)).data
  let r := forElems (redStep t scan f a) t.vl 0 ⟨t.read false b w 0, prior, t.rng⟩
  if scan then s.whole d t.vl r.img r.g
  else s.whole d (if t.vl = 0 then 0 else 1) (if t.vl = 0 then prior else setElt w prior 0 r.acc) r.g

def reduction (ok : Hart → Bool) (scan : Bool) (f : ElemOp) (d a b : VOp) (s : State) : Result :=
  onVectorIf s (fun t => ok t && d.writable) [d, a, b] (fun s => s.reduce scan f d a b)

def execVredsum (d a b : VOp) (s : State) : Result := reduction okFI false opAdd d a b s
def execVredmax (d a b : VOp) (s : State) : Result := reduction okFI false (roundedStep opMax) d a b s
def execVredmin (d a b : VOp) (s : State) : Result := reduction okFI false (roundedStep opMin) d a b s
def execVredand (d a b : VOp) (s : State) : Result := reduction okI false opAnd d a b s
def execVredor (d a b : VOp) (s : State) : Result := reduction okI false opOr d a b s
def execVscan (d a b : VOp) (s : State) : Result := reduction okFI true opAdd d a b s

/-! ### Permutes and slides (R84) -/

/-- A whole-vector instruction whose active elements take `f i`; none keeps the prior value; inactive ones as R22. -/
def permStep (t : Hart) (w : Nat) (f : Nat → Option Nat) (i : Nat) (img : Nat) : Nat :=
  if t.active i then (match f i with | some v => setElt w img i v | none => img)
  else if mZero t.mode then setElt w img i 0 else img

def State.permute (s : State) (d : VOp) (f : Nat → Option Nat) : State :=
  let t := s.hart s.me
  let w := width t.ty
  s.whole d t.vl (forElems (permStep t w f) t.vl 0 (t.vreg (vopIndex d)).data) t.rng

def execVperm (d a b : VOp) (s : State) : Result :=
  onVectorIf s (fun t => okB t && d.writable) [d, a, b] (fun s =>
    let t := s.hart s.me
    let w := width t.ty
    s.permute d (fun i => let j := t.read false b w i; some (if j < t.vl then t.read false a w j else 0)))

def execVslup (d a : VOp) (k : BitVec 8) (s : State) : Result :=
  onVectorIf s (fun t => okB t && d.writable) [d, a] (fun s =>
    let t := s.hart s.me
    s.permute d (fun i => if i < k.toNat then none else some (t.read false a (width t.ty) (i - k.toNat))))

def execVsldn (d a : VOp) (k : BitVec 8) (s : State) : Result :=
  onVectorIf s (fun t => okB t && d.writable) [d, a] (fun s =>
    let t := s.hart s.me
    s.permute d (fun i => some (if i + k.toNat < t.vl then t.read false a (width t.ty) (i + k.toNat) else 0)))

/-! ### Single elements (R85) -/

def execVsplat (a : BitVec 4) (v : BitVec 5) (s : State) : Result :=
  onVectorIf s okB [.main v] (fun s =>
    let t := s.hart s.me
    s.elementwise (.main v) t.vl (fun _ _ g => ((s.getS a).toNat % 2 ^ width t.ty, g)))

/-- An element as a word: sign-extended for s types, else zero-extended. -/
def extend (t c : Nat) : W64 := if isS t then BitVec.ofInt 64 (intOf t c) else BitVec.ofNat 64 c

/-- A whole-vector instruction with no element result leaves vstart 0 and goes on. -/
def State.wholeDone (s : State) : State := (s.modHart s.me (fun t => { t with vstart := 0 })).advance

def execVextr (a b : BitVec 4) (v : BitVec 5) (s : State) : Result :=
  onVectorIf s okB [.main v] (fun s =>
    let t := s.hart s.me
    let j := (s.getS b).toNat
    (s.putS a (if j < t.vl then extend t.ty (t.read false (.main v) (width t.ty) j) else 0)).wholeDone)

def execVinsr (a b : BitVec 4) (v : BitVec 5) (s : State) : Result :=
  onVectorIf s okB [.main v] (fun s =>
    let t := s.hart s.me
    let w := width t.ty
    let j := (s.getS b).toNat
    let prior := (t.vreg v.toNat).data
    if j < t.vl then s.whole (.main v) (j + 1) (setElt w prior j (s.getS a).toNat) t.rng
    else s.whole (.main v) 0 prior t.rng)

def execVidx (d : VOp) (s : State) : Result :=
  onVectorIf s (fun t => okI t && d.writable) [d] (fun s =>
    s.elementwise d (s.hart s.me).vl (fun i _ g => (i % 2 ^ width (s.hart s.me).ty, g)))

/-! ### Masks (R86): bits 0 to vl − 1 only -/

/-- The low `n` bits of `new` over the rest of `old`. -/
def lowBits (old new n : Nat) : Nat := old ^^^ ((old ^^^ new) % 2 ^ n)

def maskOp (f : Nat → Nat → Nat) (d a b : BitVec 3) (s : State) : Result :=
  onVector s (fun s => s.modHart s.me (fun t =>
    { t with vstart := 0,
             k := Tab.put 0 t.k d.toNat (lowBits (Tab.get 0 t.k d.toNat)
               (f (Tab.get 0 t.k a.toNat) (Tab.get 0 t.k b.toNat)) t.vl) }))

def execKand (d a b : BitVec 3) (s : State) : Result := maskOp (· &&& ·) d a b s
def execKor (d a b : BitVec 3) (s : State) : Result := maskOp (· ||| ·) d a b s
def execKxor (d a b : BitVec 3) (s : State) : Result := maskOp (· ^^^ ·) d a b s
def execKandn (d a b : BitVec 3) (s : State) : Result := maskOp (fun x y => x ^^^ (x &&& y)) d a b s

/-- kset and its clearing form: bits 0 to vl − 1 all ones or all zero. -/
def fillMask (b : Bool) (d : BitVec 3) (s : State) : Result :=
  onVector s (fun s => s.modHart s.me (fun t =>
    { t with vstart := 0,
             k := Tab.put 0 t.k d.toNat (lowBits (Tab.get 0 t.k d.toNat) (if b then 2 ^ t.vl - 1 else 0) t.vl) }))

def execKset (d : BitVec 3) (s : State) : Result := fillMask true d s
def execKsetClear (d : BitVec 3) (s : State) : Result := fillMask false d s

def execKpop (a : BitVec 3) (d : BitVec 4) (s : State) : Result :=
  onVector s (fun s =>
    let t := s.hart s.me
    (s.putS d (BitVec.ofNat 64 (popBelow (Tab.get 0 t.k a.toNat) t.vl))).modHart s.me (fun t => { t with vstart := 0 }))

def execKfirst (a : BitVec 3) (d : BitVec 4) (s : State) : Result :=
  onVector s (fun s =>
    let t := s.hart s.me
    (s.putS d (BitVec.ofNat 64 (lowestFrom (Tab.get 0 t.k a.toNat) 0 t.vl))).modHart s.me (fun t => { t with vstart := 0 }))

/-! ### The s registers (R87) -/

def sOp (f : W64 → W64 → W64) (a b c : BitVec 4) (s : State) : Result :=
  onVector s (fun s => s.putS a (f (s.getS b) (s.getS c)))

def execSadd (a b c : BitVec 4) (s : State) : Result := sOp (· + ·) a b c s
def execSsub (a b c : BitVec 4) (s : State) : Result := sOp (· - ·) a b c s
def execSmin (a b c : BitVec 4) (s : State) : Result := sOp fMinu a b c s
def execSminS (a b c : BitVec 4) (s : State) : Result := sOp fMin a b c s
def execSmax (a b c : BitVec 4) (s : State) : Result := sOp fMaxu a b c s
def execSmaxS (a b c : BitVec 4) (s : State) : Result := sOp fMax a b c s
def execSand (a b c : BitVec 4) (s : State) : Result := sOp (· &&& ·) a b c s

def sShift (f : W64 → Nat → W64) (a b : BitVec 4) (n : BitVec 8) (s : State) : Result :=
  onVectorIf s (fun _ => n.toNat ≤ 63) [] (fun s => (s.putS a (f (s.getS b) n.toNat)).advance)

def execSshli (a b : BitVec 4) (n : BitVec 8) (s : State) : Result := sShift (fun x n => x <<< n) a b n s
def execSshri (a b : BitVec 4) (n : BitVec 8) (s : State) : Result := sShift (fun x n => x >>> n) a b n s
def execSli (a : BitVec 4) (i : BitVec 20) (s : State) : Result := onVector s (fun s => s.putS a (i.signExtend 64))

/-- The innermost nest held (R87). -/
def innerNest : List Loop → List W64
  | [] => []
  | l :: rest => match l.kind with | .nest _ is => is | _ => innerNest rest

/-- What svl reads (R87). -/
def svlValue (t : Hart) (f : Nat) : W64 :=
  match f with
  | 0 => BitVec.ofNat 64 t.vl
  | 1 => BitVec.ofNat 64 (t.vlmax t.ty)
  | 2 => BitVec.ofNat 64 (t.group t.ty)
  | 3 => BitVec.ofNat 64 t.lg
  | 4 => match t.loops with | [] => 0 | l :: _ => BitVec.ofNat 64 l.passes
  | n => (innerNest t.loops).getD (n - 8) 0

def execSvl (a : BitVec 4) (f : BitVec 8) (s : State) : Result :=
  onVectorIf s (fun _ => f.toNat ≤ 4 || (8 ≤ f.toNat && f.toNat ≤ 13)) []
    (fun s => (s.putS a (svlValue (s.hart s.me) f.toNat)).advance)

/-- The mode register replaced; vl is lowered to vlmax of a new type (R26). -/
def Hart.setMode (t : Hart) (m : BitVec 32) : Hart :=
  { t with mode := m, vl := if mT m = t.ty then t.vl else min t.vl (t.vlmax (mT m)) }

def execVmode (f : VModeFields) (s : State) : Result :=
  onVectorIf s (fun t => f.illFormed.isNone && !modeBad (applyMode f t.mode)) []
    (fun s => (s.modHart s.me (fun t => t.setMode (applyMode f t.mode))).advance)

/-- vl := min(vlmax, s) (R28). -/
def execVlen (a : BitVec 4) (s : State) : Result :=
  onVector s (fun s => s.modHart s.me (fun t => { t with vl := min (t.vlmax t.ty) (s.getS a).toNat }))

/-! ### Loops (R89, R90) -/

/-- The address a signed word offset names from the vector pc, modulo 2^48: it is the wrapped address that is compared with the enclosing
end (the model's choice, log 113). -/
def State.loopEnd (s : State) (o : BitVec 19) : W48 :=
  (s.hart s.me).vpc + BitVec.ofInt 48 (o.toInt * s.wordBytes s.cur)

/-- The loop's end is legal (R89): it lies after the loop, and not beyond the enclosing end. -/
def State.loopOk (s : State) (o : BitVec 19) : Bool :=
  decide (0 < o.toInt) && (match (s.hart s.me).loops with | [] => true | l :: _ => decide ((s.loopEnd o).toNat ≤ l.stop.toNat))

/-- Go to the end of a loop that is not entered; its end check is due if an enclosing loop ends there too. -/
def State.skipLoop (s : State) (o : BitVec 19) : State :=
  s.modHart s.me (fun t => { t with vpc := s.loopEnd o, check := !t.loops.isEmpty })

/-- Push a loop, or trap when four are held (R89). -/
def State.pushLoop (s : State) (o : BitVec 19) (k : LoopKind) : State :=
  let t := s.hart s.me
  if 4 ≤ t.loops.length then s.takeTrap { cls := 0x08 }
  else
    let body := t.vpc + BitVec.ofNat 48 (s.wordBytes s.cur)
    (s.modHart s.me (fun t => { t with loops := ⟨k, s.loopEnd o, body, 0⟩ :: t.loops })).advance

def loopOp (ok : Bool) (o : BitVec 19) (f : State → Option LoopKind) (s : State) : Result :=
  onVectorIf s (fun _ => ok && s.loopOk o) [] (fun s => match f s with | some k => s.pushLoop o k | none => s.skipLoop o)

def execVloop (n : BitVec 4) (o : BitVec 19) (s : State) : Result :=
  loopOp true o (fun s => if s.getS n = 0 then none else some (.count (s.getS n))) s
def execVloopnz (n : BitVec 4) (o : BitVec 19) (s : State) : Result :=
  loopOp true o (fun s => if s.getS n = 0 then none else some (.nz n.toNat)) s

/-- s[N] to s[N+5]. -/
def State.sixS (s : State) (n : Nat) : List W64 := (List.range 6).map (fun i => s.readS s.me (n + i))

def execVnest (n : BitVec 4) (o : BitVec 19) (s : State) : Result :=
  loopOp (n.toNat ≤ 10) o (fun s =>
    let cs := s.sixS n.toNat
    if cs.any (· == 0) then none else some (.nest cs (List.replicate 6 0))) s

/-- The indices of a nest after one more pass, with carry, and whether passes remain (R90). -/
def nestStep : List W64 → List W64 → List W64 × Bool
  | c :: cs, i :: is =>
    if i + 1 = c then let (js, more) := nestStep cs is; (0 :: js, more) else ((i + 1) :: is, true)
  | _, is => (is, false)

/-- One end check of the top entry (R90): go back to the body, or pop it. Answers whether it popped. -/
def Hart.endCheck (t : Hart) (l : Loop) (rest : List Loop) : Bool × Hart :=
  let back (k : LoopKind) : Bool × Hart := (false, { t with vpc := l.start, loops := { l with kind := k, passes := l.passes + 1 } :: rest })
  match l.kind with
  | .count r => if r - 1 = 0 then (true, { t with loops := rest }) else back (.count (r - 1))
  | .nz n => if Tab.get 0 t.s n = 0 then (true, { t with loops := rest }) else back (.nz n)
  | .nest cs is =>
    let (js, more) := nestStep cs is
    if more then back (.nest cs js) else (true, { t with loops := rest })

/-- The end checks due at the vector pc, repeated while the new top entry ends there too (R90). -/
def Hart.endChecks : Nat → Hart → Hart
  | 0, t => t
  | n + 1, t =>
    match t.loops with
    | [] => t
    | l :: rest =>
      if t.vpc = l.stop then
        let (popped, t) := t.endCheck l rest
        if popped then Hart.endChecks n t else t
      else t

/-- LOOP_END_CHECK (R90): the check that is due after the vector pc has moved. One that goes back to a body that begins at
the end it was made for has reached that end again, and is due again. -/
def State.loopCheck (s : State) (h : Nat) : State :=
  s.modHart h (fun t =>
    if t.check then
      let u := Hart.endChecks 4 t
      { u with check := match u.loops with | [] => false | l :: _ => u.vpc == l.stop }
    else t)

/-! ### Replies and the end of a block (R17, R91) -/

def execVreply (a : BitVec 4) (s : State) : Result :=
  if !s.isVector then trapNow s (illegal .wrongStream)
  else if 16 ≤ (s.hart s.me).replyQ.length then .next s
  else onVector s (fun s => s.modHart s.me (fun t => { t with replyQ := t.replyQ ++ [s.getS a] }))

def execVend (s : State) : Result :=
  if s.isVector then .next (s.modHart s.me (fun t => { t with block := none, loops := [], check := false }))
  else trapNow s (illegal .wrongStream)

end Sys2Proof.Machine
end

