-- ==== Sys2Proof/Machine/Dependence.lean ====
section
/-! DEFINITION. Conflicts, partitions, breaks, carried values, compress, expand, regrouping and the fault mask (R9, R10,
R12, R96 to R105): opcodes 0x90 to 0x9A. All are whole-vector. -/

namespace Sys2Proof.Machine

/-- The types of R96: width 16, 32 or 64. -/
def okWide (t : Hart) : Bool := t.ty ≤ 13 && 16 ≤ width t.ty

/-- The types of R103. -/
def okGrp (t : Hart) : Bool := isI t.ty && 16 ≤ width t.ty

/-- "None" at width w (R96). -/
def noneAt (w : Nat) : Nat := 2 ^ w - 1

/-- Source element i as bits. -/
def Hart.at_ (t : Hart) (a : VOp) (i : Nat) : Nat := t.read false a (width t.ty) i

/-- The active elements below `n` whose pattern equals element i's, ascending. -/
def Hart.twins (t : Hart) (a : VOp) (i n : Nat) : List Nat :=
  (List.range n).filter (fun j => t.active j && t.at_ a j == t.at_ a i)

/-- vconf of element i (R9): the greatest earlier active equal element, or none. -/
def Hart.conf (t : Hart) (a : VOp) (i : Nat) : Nat := (t.twins a i i).getLast?.getD (noneAt (width t.ty))

def execVconf (d a : VOp) (s : State) : Result :=
  onVectorIf s (fun t => okWide t && d.writable) [d, a] (fun s =>
    s.permute d (fun i => some ((s.hart s.me).conf a i)))

/-- The bit set of the elements below `n` that satisfy a condition. -/
def bitsWhere (p : Nat → Bool) : Nat → Nat
  | 0 => 0
  | n + 1 => bitsWhere p n + (if p n then 2 ^ n else 0)

/-- A mask with bits 0 to vl − 1 replaced. -/
def Hart.putMask (t : Hart) (k m : Nat) : Hart :=
  { t with k := Tab.put 0 t.k k (lowBits (Tab.get 0 t.k k) m t.vl) }

/-- vconfc (R12): the count of earlier duplicates; the mask of last occurrences. -/
def execVconfc (d a : VOp) (k : BitVec 3) (s : State) : Result :=
  onVectorIf s (fun t => okWide t && d.writable) [d, a] (fun s =>
    let t := s.hart s.me
    let last := bitsWhere (fun i => t.active i && (t.twins a i t.vl).all (· ≤ i)) t.vl
    let w := width t.ty
    (s.modHart s.me (fun t => t.putMask k.toNat last)).whole d t.vl
      (forElems (permStep t w (fun i => some (t.twins a i i).length)) t.vl 0 (t.vreg (vopIndex d)).data) t.rng)

/-- The run vpart chooses (R10): the pending set P, its lowest element p and the end q. -/
def Hart.run (t : Hart) (a : VOp) (p : Nat) : Nat :=
  let ps := (List.range t.vl).filter (fun i => t.active i && (Tab.get 0 t.k p).testBit i)
  match ps with
  | [] => 0
  | lo :: rest =>
    let q := (rest.find? (fun i => t.at_ a i ≠ noneAt (width t.ty) && lo ≤ t.at_ a i)).getD t.vl
    bitsWhere (fun i => t.active i && (Tab.get 0 t.k p).testBit i && i < q) t.vl

def execVpart (k : BitVec 3) (a : VOp) (p : BitVec 3) (s : State) : Result :=
  onVectorIf s okWide [a] (fun s =>
    (s.modHart s.me (fun t => t.putMask k.toNat (t.run a p.toNat))).wholeDone)

/-- The break element (R98): the lowest active element whose condition bit is set, else vl. -/
def Hart.breakAt (t : Hart) (a : Nat) : Nat :=
  ((List.range t.vl).find? (fun i => t.active i && (Tab.get 0 t.k a).testBit i)).getD t.vl

/-- kbefore and kthrough (R98). -/
def breakOp (keep : Nat → Nat → Bool) (d a : BitVec 3) (w : Bool) (r : BitVec 4) (s : State) : Result :=
  onVector s (fun s =>
    let t := s.hart s.me
    let e := t.breakAt a.toNat
    let s := s.modHart s.me (fun t => { t.putMask d.toNat (bitsWhere (fun i => t.active i && keep i e) t.vl) with vstart := 0 })
    if w then s.putS r (BitVec.ofNat 64 e) else s)

def execKbefore (d a : BitVec 3) (w : Bool) (r : BitVec 4) (s : State) : Result :=
  breakOp (fun i e => i < e) d a w r s
def execKthrough (d a : BitVec 3) (w : Bool) (r : BitVec 4) (s : State) : Result :=
  breakOp (fun i e => i ≤ e) d a w r s

/-- The active elements below vl, ascending. -/
def Hart.actives (t : Hart) : List Nat := (List.range t.vl).filter t.active

/-- vlast (R101). -/
def execVlast (a b : BitVec 4) (v : BitVec 5) (s : State) : Result :=
  onVectorIf s okB [.main v] (fun s =>
    let t := s.hart s.me
    (s.putS a (match t.actives.getLast? with
      | some j => extend t.ty (t.at_ (.main v) j)
      | none => s.getS b)).wholeDone)

/-- vcprop (R100): the carried value and the image. -/
def cpropStep (t : Hart) (w : Nat) (a : VOp) (i : Nat) (x : Nat × Nat) : Nat × Nat :=
  let acc := if t.active i then t.at_ a i else x.1
  (acc, setElt w x.2 i acc)

def execVcprop (d a b : VOp) (s : State) : Result :=
  onVectorIf s (fun t => okB t && d.writable) [d, a, b] (fun s =>
    let t := s.hart s.me
    let w := width t.ty
    let x := forElems (cpropStep t w a) t.vl 0 (t.at_ b 0, (t.vreg (vopIndex d)).data)
    s.whole d t.vl x.2 t.rng)

/-- An image with a list of values written from element i on. -/
def putElems (w : Nat) : Nat → List Nat → Nat → Nat
  | img, [], _ => img
  | img, v :: vs, i => putElems w (setElt w img i v) vs (i + 1)

/-- Elements lo to lo + n − 1 zeroed where the mode says so. -/
def zeroTail (t : Hart) (w lo n img : Nat) : Nat :=
  if mZero t.mode then forElems (fun i x => setElt w x i 0) n lo img else img

/-- vcomp (R102). -/
def execVcomp (d a : VOp) (s : State) : Result :=
  onVectorIf s (fun t => okB t && d.writable) [d, a] (fun s =>
    let t := s.hart s.me
    let w := width t.ty
    let vs := t.actives.map (t.at_ a)
    s.whole d t.vl (zeroTail t w vs.length (t.vl - vs.length) (putElems w (t.vreg (vopIndex d)).data vs 0)) t.rng)

/-- vexpand (R102): active element i takes the source element numbered by the active elements before it. -/
def execVexpand (d a : VOp) (s : State) : Result :=
  onVectorIf s (fun t => okB t && d.writable) [d, a] (fun s =>
    let t := s.hart s.me
    s.permute d (fun i => some (t.at_ a ((List.range i).filter t.active).length)))

/-- Insert an element into a list of elements in rising (key, number) order, after those that do not exceed it. -/
def insertKey (key : Nat → Int) (i : Nat) : List Nat → List Nat
  | [] => [i]
  | j :: rest => if key i < key j then i :: j :: rest else j :: insertKey key i rest

/-- The active elements sorted by (key, number) (R103). -/
def Hart.grouped (t : Hart) (a : VOp) : List Nat :=
  t.actives.foldl (fun l i => insertKey (fun j => intOf t.ty (t.at_ a j)) i l) []

/-- The positions that begin a run of equal keys. -/
def runStarts (t : Hart) (a : VOp) (l : List Nat) : Nat :=
  bitsWhere (fun k => k < l.length && (k = 0 || t.at_ a (l.getD k 0) ≠ t.at_ a (l.getD (k - 1) 0))) t.vl

/-- vgrp (R103). -/
def execVgrp (d a : VOp) (k : BitVec 3) (s : State) : Result :=
  onVectorIf s (fun t => okGrp t && d.writable) [d, a] (fun s =>
    let t := s.hart s.me
    let w := width t.ty
    let l := t.grouped a
    (s.modHart s.me (fun u => u.putMask k.toNat (runStarts t a l))).whole d t.vl
      (zeroTail t w l.length (t.vl - l.length) (putElems w (t.vreg (vopIndex d)).data l 0)) t.rng)

/-- The fault mask with the bits of a mask below vl cleared (R105). -/
def Hart.clearFm (t : Hart) (a : Nat) : Hart :=
  { t with fm := lowBits t.fm (t.fm ^^^ (t.fm &&& Tab.get 0 t.k a)) t.vl, vstart := 0 }

/-- vfchk, collecting (R105). -/
def execVfchk (d a : BitVec 3) (s : State) : Result :=
  onVector s (fun s => s.modHart s.me (fun t =>
    { t.clearFm a.toNat with k := (t.putMask d.toNat (t.fm &&& Tab.get 0 t.k a.toNat)).k }))

/-- vfchk.r (R105): the lowest covered bit raises the deferred-fault trap, which names the element in its detail and leaves vstart,
and with it the record's element, 0 (the model's reading, log 97). -/
def execVfchkR (a : BitVec 3) (s : State) : Result :=
  if !s.isVector then trapNow s (illegal .wrongStream) else
  let t := s.hart s.me
  match (List.range t.vl).find? (fun i => (t.fm &&& Tab.get 0 t.k a.toNat).testBit i) with
  | some i => .next ((s.modHart s.me (fun t => { t with vstart := 0 })).takeTrap { cls := 0x09, detail := BitVec.ofNat 64 i })
  | none => onVector s (fun s => s.modHart s.me (fun t => t.clearFm a.toNat))

end Sys2Proof.Machine
end

