-- ==== Sys2Proof/Machine/VMem.lean ====
section
/-! DEFINITION. Vector loads, stores, indexed atomics, first-fault and speculative loads and vappend (R108 to R123):
opcodes 0xA0 to 0xB3. -/

namespace Sys2Proof.Machine

/-! ### Interlock against the stream's own engine commands (R122, R224) -/

/-- Two ranges conflict: the same space, a byte in common, one of them a write. -/
def Range.hits (a b : Range) : Bool := a.mem == b.mem && a.lo ≤ b.hi && b.lo ≤ a.hi && (a.write || b.write)

/-- Ranges of a hart's new access conflict with an entry of one of its commands (R224). -/
def State.conflicts (s : State) (h : Nat) (rs : List Range) : Bool :=
  s.cmds.any (fun c => c.hart = h && c.ranges.any (fun e => rs.any e.hits))

/-- The range from the lowest to the highest of some addresses, `n` bytes each, in one space. -/
def spanOf (mem : Bool) (n : Nat) (write : Bool) : List Nat → List Range
  | [] => []
  | a :: l => [⟨mem, l.foldl min a, l.foldl max a + n - 1, write⟩]

/-- The ranges of accesses at some virtual addresses: window addresses are scratchpad offsets (R184). -/
def rangesOf (n : Nat) (write : Bool) (l : List W64) : List Range :=
  spanOf false n write ((l.filter (fun a => inWindow a.toNat)).map (fun a => a.toNat - windowBase))
    ++ spanOf true n write ((l.filter (fun a => !inWindow a.toNat)).map (fun a => a.toNat))

/-! ### One element -/

/-- Whether an element access must reach host memory now: not a store into the L1, nor a load that the L1 holds; an atomic
step always (R193). -/
def State.reachesHost (s : State) (core : Nat) (home : Bool) (a : Access) (n : Nat) : Place → Bool
  | .mem pa => isHost pa && (home || a == .atomic || (a != .store && !s.l1Has core pa n))
  | _ => false

/-- The checks of one element access (R110): the trap of the first that fails. -/
def State.elemCheck (s : State) (p : Party) (home : Bool) (ea : W64) (n : Nat) (a : Access) : Option Trap :=
  match s.resolve p ea n a with
  | .error t => some t
  | .ok (.mem pa) =>
    if a != .store && (s.meetsPoison (s.coreOf p) pa n || (s.reachesHost (s.coreOf p) home a n (.mem pa) && !s.linkUp))
    then some (poisonTrap ea n a) else none
  | .ok _ => none

/-- The place of an element access whose checks pass. -/
def State.placeOf (s : State) (ea : W64) (n : Nat) (a : Access) : Place :=
  match s.resolve s.cur ea n a with
  | .ok pl => pl
  | .error _ => .view 0

/-- Read one element at its place (R121, R184). -/
def State.loadPlace (s : State) (core : Nat) (home : Bool) (pl : Place) (n : Nat) : List Byte × State :=
  match pl with
  | .spad t o => (s.spadRead t o n, s)
  | .mem pa =>
    if home then let s := s.flush core pa n; (s.home pa n, s)
    else if s.l1Has core pa n then (s.l1Read core pa n, s)
    else let s := s.fill core (pa / 64 * 64) 64; (s.l1Read core pa n, s)
  | .view _ => ([], s)

/-- Write bytes at a place: the scratchpad, the home slice after the core's own line is cleared, or the L1 (R121). A
home write to host memory over a dead link is discarded (R304). -/
def State.storePlace (s : State) (core : Nat) (home : Bool) (pl : Place) (bs : List Byte) : State :=
  match pl with
  | .spad t o => s.spadWrite t o bs
  | .mem pa =>
    if home then
      if isHost pa && !s.linkUp then s else (s.flush core pa bs.length).homeWrite pa bs
    else s.l1Write core pa bs
  | .view _ => s

/-! ### Shared steps of vector memory instructions -/

/-- The active elements from `lo` to `hi` − 1. -/
def Hart.activesIn (t : Hart) (lo hi : Nat) : List Nat := ((List.range (hi - lo)).map (· + lo)).filter t.active

/-- The scope of the mode group is qd or wider: accesses are performed at the home slices (R121). -/
def Hart.home (t : Hart) : Bool := mSc t.mode ≠ 0

/-- The lowest of some elements whose checks fail, with its trap (R110). -/
def State.failing (s : State) (home : Bool) (n : Nat) (a : Access) (ea : Nat → W64) : List Nat → Option (Nat × Trap)
  | [] => none
  | i :: l =>
    match s.elemCheck s.cur home (ea i) n a with
    | some t => some (i, t)
    | none => State.failing s home n a ea l

/-- Some element must reach host memory while the link is down and has not been given up (R304). -/
def State.mustWait (s : State) (home : Bool) (n : Nat) (a : Access) (ea : Nat → W64) (l : List Nat) : Bool :=
  !s.linkUp && !s.linkDead && l.any (fun i => match s.resolve s.cur (ea i) n a with
    | .ok pl => s.reachesHost (s.coreOf s.cur) home a n pl
    | .error _ => false)

/-- A vector memory instruction that waits for the link (R304), where it is. -/
def waitLink (s : State) : Result := finish linkWait s

/-- A vector memory instruction held by an interlock entry has not started (R122, R224). -/
def hold (s : State) : Result := .next s

/-- What a load does to memory, the image and the fault mask at element i. Each element reads what stood before the
instruction (R112, R113). A `bad` element of a speculative load reads 0 and sets its bit of fm (R117). -/
def loadStep (s : State) (t : Hart) (bad : Nat → Bool) (core : Nat) (home : Bool) (n : Nat) (pl : Nat → Place) (i : Nat) (x : State × Nat × Nat) :
    State × Nat × Nat :=
  let w := 8 * n
  if t.active i then
    if bad i then (x.1, setElt w x.2.1 i 0, setBit x.2.2 i true)
    else ((x.1.loadPlace core home (pl i) n).2, setElt w x.2.1 i (leNat (s.loadPlace core home (pl i) n).1), x.2.2)
  else if mZero t.mode then (x.1, setElt w x.2.1 i 0, x.2.2) else x

/-- The kinds of load: plain (R111), first-fault (R116), speculative (R117). -/
inductive LoadKind where
  | plain | first | spec
deriving DecidableEq, Repr

/-- A vector load of `n` elements (R111, R116, R117), its register checks already passed. -/
def State.vload (s : State) (kind : LoadKind) (d : VOp) (n : Nat) (ea : Nat → W64) : Result :=
  let h := s.me
  let t := s.hart h
  let w := width t.ty
  let z := w / 8
  let home := t.home
  let lo := t.vstart
  let hi := s.stopAt h n
  let acts := t.activesIn lo hi
  if s.conflicts h (rangesOf z false ((t.activesIn lo n).map ea)) then hold s
  else if s.mustWait home z .load ea acts then waitLink s
  else
    let fail := if kind = .spec then none else s.failing home z .load ea acts
    let lower : Bool := match fail with
      | some (i, tr) => decide (kind = .first) && acts.head? ≠ some i && (tr.cls = 0x02 || tr.cls = 0x05)
      | none => false
    let e := match fail with | some (i, _) => i | none => hi
    let prior := t.vreg (vopIndex d)
    let bad (i : Nat) : Bool := kind = .spec && (s.elemCheck s.cur home (ea i) z .load).isSome
    let pl (i : Nat) : Place := s.placeOf (ea i) z .load
    let (s1, data, fm) := forElems (loadStep s t bad (s.coreOf s.cur) home z pl) (e - lo) lo (s, prior.data, t.fm)
    let s1 := s1.linkDone
    let t1 := { s1.hart h with fm := fm }
    let done := t1.putResult d (t.imageTo prior w lo e data) w lo e (lo ≠ 0)
    match fail with
    | some (i, tr) =>
      if lower then .next (s1.setHart h { done with vl := i, vstart := 0 }).advance
      else .next ((s1.setHart h (if i = 0 then t1 else { done with vstart := i })).takeTrap { tr with elem := i })
    | none => .next ((s1.setHart h done).endElems h hi n)

/-- One element of a store. -/
def storeStep (t : Hart) (core : Nat) (home : Bool) (n : Nat) (pl : Nat → Place) (val : Nat → Nat) (i : Nat) (s : State) : State :=
  if t.active i then s.storePlace core home (pl i) (leBytes n (val i)) else s

/-- A vector store of `n` elements (R111), its register checks passed: element i stores `val i`. -/
def State.vstore (s : State) (n : Nat) (ea : Nat → W64) (val : Nat → Nat) : Result :=
  let h := s.me
  let t := s.hart h
  let z := width t.ty / 8
  let home := t.home
  let lo := t.vstart
  let hi := s.stopAt h n
  let acts := t.activesIn lo hi
  if s.conflicts h (rangesOf z true ((t.activesIn lo n).map ea)) then hold s
  else if s.mustWait home z .store ea acts then waitLink s
  else
    let step := storeStep t (s.coreOf s.cur) home z (fun i => s.placeOf (ea i) z .store) val
    match s.failing home z .store ea acts with
    | some (i, tr) =>
      let s1 := forElems step (i - lo) lo s
      .next ((s1.linkDone.modHart h (fun t => { t with vstart := i })).takeTrap { tr with elem := i })
    | none => .next ((forElems step (hi - lo) lo s).linkDone.endElems h hi n)

/-! ### Addresses (R109, R110) -/

/-- Unit stride. -/
def unitAddr (s : State) (b : BitVec 4) (i : Nat) : W64 :=
  s.getS b + BitVec.ofNat 64 (i * (width (s.hart s.me).ty / 8))

/-- Strided. -/
def strideAddr (s : State) (b k : BitVec 4) (i : Nat) : W64 := s.getS b + BitVec.ofNat 64 i * s.getS k

/-- The index width of fn[1:0]. -/
def indexWidth (t : Hart) (f : BitVec 4) : Nat :=
  match (f.extractLsb' 0 2).toNat with | 0 => width t.ty | 1 => 16 | 2 => 32 | _ => 64

/-- Element i of an index vector, extended by isg. A replicated vector gives its elements at the index width (the model's reading,
log 99). `moves` says that the instruction moves the l-file (R22), so that a
resumed one finds its l0 in l1. -/
def indexElem (t : Hart) (moves : Bool) (o : VOp) (f : BitVec 4) (i : Nat) : W64 :=
  let w := indexWidth t f
  let x := t.read (moves && t.vstart ≠ 0) o w i
  if f.getLsbD 2 then BitVec.ofInt 64 (if 2 ^ (w - 1) ≤ x then (x : Int) - (2 ^ w : Nat) else x) else BitVec.ofNat 64 x

/-- Indexed; `scale` is the bytes per index. -/
def indexAddr (s : State) (moves : Bool) (b : BitVec 4) (o : VOp) (f : BitVec 4) (scale i : Nat) : W64 :=
  s.getS b + indexElem (s.hart s.me) moves o f i * BitVec.ofNat 64 scale

/-- The scale of an indexed load or store (R109): 1 with bsc, else w/8. -/
def indexScale (t : Hart) (f : BitVec 4) : Nat := if f.getLsbD 3 then 1 else width t.ty / 8

/-- The elements an indexed instruction covers (R109). -/
def indexLen (t : Hart) (f : BitVec 4) : Nat :=
  if width t.ty < indexWidth t f then min t.vl (t.bytes * 8 / indexWidth t f) else t.vl

/-- The checks of a vector memory instruction before any access: stream, type and written class, registers. -/
def vmemOp (s : State) (ok : Hart → Bool) (regs : List VOp) (f : State → Result) : Result :=
  if !s.isVector then trapNow s (illegal .wrongStream)
  else if !ok (s.hart s.me) then trapNow s (illegal .reservedValue)
  else if !regs.all (vopOk (s.hart s.me).n) then trapNow s (illegal .register)
  else f s

/-- An illegal-instruction trap of an engine command at issue: its record names it by the sequence number that it would
have taken (R286, R321). -/
def illegalCommand (r : Reason) : Trap := { illegal r with eng := true }

/-- A trap that leaves vstart 0 and no effect. -/
def State.trapWhole (s : State) (t : Trap) : Result :=
  .next ((s.modHart s.me (fun v => { v with vstart := 0 })).takeTrap t)

/-- A trap for an illegal engine command: of the instructions of `clearsStart` it leaves vstart 0, as R129, R158 and R174 say of any of
their traps; of others it leaves vstart as it was (R55). -/
def illegalEngine (clears : Bool) (s : State) (r : Reason) : Result :=
  if clears then s.trapWhole (illegalCommand r) else trapNow s (illegalCommand r)

/-- The same checks for an engine command. -/
def engineOp (clears : Bool) (s : State) (ok : Hart → Bool) (regs : List VOp) (f : State → Result) : Result :=
  if !s.isVector then trapNow s (illegal .wrongStream)
  else if !ok (s.hart s.me) then illegalEngine clears s .reservedValue
  else if !regs.all (vopOk (s.hart s.me).n) then illegalEngine clears s .register
  else f s

/-- A load by an address function. -/
def loadOp (kind : LoadKind) (d : VOp) (regs : List VOp) (len : Hart → Nat) (ea : State → Nat → W64) (s : State) : Result :=
  vmemOp s (fun t => okB t && d.writable) (d :: regs) (fun s => s.vload kind d (len (s.hart s.me)) (ea s))

/-- Element i of the data vector of a store, at the type's width. -/
def dataElem (s : State) (d : VOp) (i : Nat) : Nat :=
  let t := s.hart s.me
  t.read false d (width t.ty) i

/-- An ordered store by an address function: ascending element order, so the highest-numbered writer of an address stands
(R113). -/
def storeOp (d : VOp) (regs : List VOp) (len : Hart → Nat) (ea : State → Nat → W64) (s : State) : Result :=
  vmemOp s okB (d :: regs) (fun s => s.vstore (len (s.hart s.me)) (ea s) (dataElem s d))

/-- The element whose value stands at element i's place: among the elements that write there, the one a free value picks
(R112, R7; log 5). -/
def winner {α : Type} [DecidableEq α] (at_ : Nat → α) (acts : List Nat) (free : Nat → Nat) (i : Nat) : Nat :=
  let dups := acts.filter (fun j => at_ j == at_ i)
  dups.getD (free (dups.headD i) % dups.length) i

/-- After an instruction that has drawn `n` free values. -/
def drawn (n : Nat) : Result → Result
  | .next s => .next { s with fresh := s.fresh + n }
  | .fault r => .fault r
  | .refused r => .refused r

/-- An unordered store: of several writers of one place, one whole element stands, and which is unspecified (R112). -/
def scatterOp (d : VOp) (regs : List VOp) (len : Hart → Nat) (ea : State → Nat → W64) (s : State) : Result :=
  vmemOp s okB (d :: regs) (fun s =>
    let t := s.hart s.me
    let n := len t
    let z := width t.ty / 8
    let hi := s.stopAt s.me n
    let acts := t.activesIn t.vstart (match s.failing t.home z .store (ea s) (t.activesIn t.vstart hi) with
      | some (i, _) => i | none => hi)
    let at_ (i : Nat) : Place := s.placeOf (ea s i) z .store
    if (acts.map at_).Nodup then s.vstore n (ea s) (dataElem s d)
    else
      drawn n (s.vstore n (ea s) (fun i => dataElem s d (winner at_ acts (fun j => Config.freeNat (s.fresh + j)) i))))

def execVld (d : VOp) (b : BitVec 4) (s : State) : Result := loadOp .plain d [] Hart.vl (fun s => unitAddr s b) s
def execVst (d : VOp) (b : BitVec 4) (s : State) : Result := scatterOp d [] Hart.vl (fun s => unitAddr s b) s
def execVlds (d : VOp) (b k : BitVec 4) (s : State) : Result := loadOp .plain d [] Hart.vl (fun s => strideAddr s b k) s

/-- vsts: a stride of zero writes one location in order (R111, R113). -/
def execVsts (d : VOp) (b k : BitVec 4) (s : State) : Result :=
  if s.getS k = 0 then storeOp d [] Hart.vl (fun s => strideAddr s b k) s
  else scatterOp d [] Hart.vl (fun s => strideAddr s b k) s

/-- The address function of an indexed load or store. -/
def indexedAt (moves : Bool) (b : BitVec 4) (o : VOp) (f : BitVec 4) (s : State) (i : Nat) : W64 :=
  indexAddr s moves b o f (indexScale (s.hart s.me) f) i

def execVldx (d : VOp) (b : BitVec 4) (o : VOp) (f : BitVec 4) (s : State) : Result :=
  loadOp .plain d [o] (fun t => indexLen t f) (indexedAt true b o f) s
def execVldxo (d : VOp) (b : BitVec 4) (o : VOp) (f : BitVec 4) (s : State) : Result :=
  loadOp .plain d [o] (fun t => indexLen t f) (indexedAt true b o f) s
def execVldff (d : VOp) (b : BitVec 4) (s : State) : Result := loadOp .first d [] Hart.vl (fun s => unitAddr s b) s
def execVldsp (d : VOp) (b : BitVec 4) (s : State) : Result := loadOp .spec d [] Hart.vl (fun s => unitAddr s b) s
def execVldxff (d : VOp) (b : BitVec 4) (o : VOp) (f : BitVec 4) (s : State) : Result :=
  loadOp .first d [o] (fun t => indexLen t f) (indexedAt true b o f) s
def execVldxsp (d : VOp) (b : BitVec 4) (o : VOp) (f : BitVec 4) (s : State) : Result :=
  loadOp .spec d [o] (fun t => indexLen t f) (indexedAt true b o f) s

/-- vstx and vstxo. -/
def execVstx (d : VOp) (b : BitVec 4) (o : VOp) (f : BitVec 4) (s : State) : Result :=
  scatterOp d [o] (fun t => indexLen t f) (indexedAt false b o f) s
def execVstxo (d : VOp) (b : BitVec 4) (o : VOp) (f : BitVec 4) (s : State) : Result :=
  storeOp d [o] (fun t => indexLen t f) (indexedAt false b o f) s

/-! ### Indexed atomics (R114, R115) -/

/-- An atomic step on host memory is performed there, whatever the scope (R193), for an indexed atomic too, whose distinct addresses
R115 counts (the model's reading of the two rules, log 100). -/
def stepHome (home : Bool) : Place → Bool
  | .mem pa => home || isHost pa
  | _ => home

/-- The lanes after the step of element i. An indexed atomic draws for each active element when it issues (R143): one whose
result turns out never to round has drawn as well. -/
def stepLanes (t : Hart) (draws : Bool) (i : Nat) (g after : Lanes) : Lanes :=
  if draws && isFloat t.ty && t.rnd = stoch then (draw g i).2 else after

/-- One atomic step of element i: memory, the image and the lanes. -/
def amoStep (t : Hart) (op : ElemOp) (draws ret : Bool) (core : Nat) (home : Bool) (n : Nat) (pl : Nat → Place) (val : Nat → Nat) (i : Nat)
    (x : State × Nat × Lanes) : State × Nat × Lanes :=
  let w := 8 * n
  if t.active i then
    let home := stepHome home (pl i)
    let (bs, s) := x.1.loadPlace core home (pl i) n
    let old := leNat bs
    let (v, g) := (op t.ty t.rnd t.sat old (val i) 0).narrow t.ty t.rnd t.sat x.2.2 i
    (s.storePlace core home (pl i) (leBytes n v), if ret then setElt w x.2.1 i old else x.2.1, stepLanes t draws i x.2.2 g)
  else if ret && mZero t.mode then (x.1, setElt w x.2.1 i 0, x.2.2) else x

/-- How many different addresses a list holds. -/
def distinct : List W64 → Nat
  | [] => 0
  | a :: l => distinct l + (if l.contains a then 0 else 1)

/-- Where the steps run (R115): the L1 only at tm, while the distinct addresses are few. -/
def amoHome (t : Hart) (n : Nat) (ea : Nat → W64) (acts : List Nat) : Bool :=
  t.home || decide (n - t.vstart < 16 * distinct (acts.map ea))

/-- An indexed atomic (R114), its register checks passed. -/
def State.vamo (s : State) (op : ElemOp) (draws : Bool) (d : VOp) (ret : Bool) (n : Nat) (ea : Nat → W64) : Result :=
  let h := s.me
  let t := s.hart h
  let w := width t.ty
  let z := w / 8
  let lo := t.vstart
  let hi := s.stopAt h n
  let acts := t.activesIn lo hi
  let home := amoHome t n ea (t.activesIn lo n)
  if s.conflicts h (rangesOf z true ((t.activesIn lo n).map ea)) then hold s
  else if s.mustWait home z .atomic ea acts then waitLink s
  else
    let fail := s.failing home z .atomic ea acts
    let e := match fail with | some (i, _) => i | none => hi
    let prior := t.vreg (vopIndex d)
    let pl (i : Nat) : Place := s.placeOf (ea i) z .atomic
    let (s1, data, g) := forElems (amoStep t op draws ret (s.coreOf s.cur) home z pl (dataElem s d)) (e - lo) lo (s, prior.data, t.rng)
    let s1 := s1.linkDone
    let t1 := { s1.hart h with rng := g }
    let done := if ret then t1.putResult d (t.imageTo prior w lo e data) w lo e (lo ≠ 0) else t1
    match fail with
    | some (i, tr) => .next ((s1.setHart h (if i = 0 then t1 else { done with vstart := i })).takeTrap { tr with elem := i })
    | none => .next ((s1.setHart h done).endElems h hi n)

/-- The scale of an indexed atomic is w/8 (R109: fn[3] is ret). -/
def amoOp (ok : Hart → Bool) (op : ElemOp) (draws : Bool) (d : VOp) (b : BitVec 4) (o : VOp) (f : BitVec 4) (s : State) : Result :=
  vmemOp s (fun t => ok t && (!f.getLsbD 3 || d.writable)) [d, o] (fun s =>
    let t := s.hart s.me
    s.vamo op draws d (f.getLsbD 3) (indexLen t f) (indexAddr s (f.getLsbD 3) b o f (width t.ty / 8)))

def opSwap : ElemOp := fun _ _ _ _ b _ => .bits b

def execVamoadd (d : VOp) (b : BitVec 4) (o : VOp) (f : BitVec 4) (s : State) : Result := amoOp okFI opAdd true d b o f s
def execVamomin (d : VOp) (b : BitVec 4) (o : VOp) (f : BitVec 4) (s : State) : Result := amoOp okFI (roundedStep opMin) true d b o f s
def execVamomax (d : VOp) (b : BitVec 4) (o : VOp) (f : BitVec 4) (s : State) : Result := amoOp okFI (roundedStep opMax) true d b o f s
def execVamoand (d : VOp) (b : BitVec 4) (o : VOp) (f : BitVec 4) (s : State) : Result := amoOp okI opAnd false d b o f s
def execVamoor (d : VOp) (b : BitVec 4) (o : VOp) (f : BitVec 4) (s : State) : Result := amoOp okI opOr false d b o f s
def execVamoxor (d : VOp) (b : BitVec 4) (o : VOp) (f : BitVec 4) (s : State) : Result := amoOp okI opXor false d b o f s
def execVamoswp (d : VOp) (b : BitVec 4) (o : VOp) (f : BitVec 4) (s : State) : Result := amoOp okB opSwap false d b o f s

/-! ### vappend (R118) -/

/-- The elements per record of fn[1:0]. -/
def recordLen (q : BitVec 2) : Nat := 2 ^ q.toNat

/-- The active records of a vappend. -/
def Hart.records (t : Hart) (q : Nat) : List Nat := (List.range (t.vl / q)).filter (fun j => t.active (q * j))

/-- The position of a record among the active ones. -/
def recordRank (rs : List Nat) (j : Nat) : Nat := (rs.filter (· < j)).length

/-- The address of element e of the record in a slot, and whether the slot holds records. -/
def slotAddr (buf base : W64) (q z k e : Nat) : W64 := buf + BitVec.ofNat 64 (((base.toNat + k) % 2 ^ 64 * q + e) * z)
def slotStored (base cap : W64) (k : Nat) : Bool := (base + BitVec.ofNat 64 k).toNat < cap.toNat

/-- The element of the image of the slot form at i (R118). -/
def slotStep (t : Hart) (w q : Nat) (rs : List Nat) (base cap : W64) (i : Nat) (img : Nat) : Nat :=
  if i % q = 0 && rs.contains (i / q) then
    let k := recordRank rs (i / q)
    setElt w img i (if slotStored base cap k then (base.toNat + k) % 2 ^ w else 2 ^ w - 1)
  else if mZero t.mode then setElt w img i 0 else img

/-- The addresses that a vappend can touch in its buffer: the slots from the current tail to tail + c, whether or not they lie
below the capacity (R122). -/
def appendSpan (q z : Nat) (rs : List Nat) (buf base : W64) : List W64 :=
  (List.range rs.length).flatMap (fun k => (List.range q).map (slotAddr buf base q z k))

/-- The record stores of a vappend: the elements from vstart on that are stored, with their addresses. -/
def appendStores (t : Hart) (q z : Nat) (rs : List Nat) (buf base cap : W64) : List (Nat × W64) :=
  ((rs.filter (fun j => slotStored base cap (recordRank rs j))).flatMap (fun j =>
    (List.range q).map (fun e => (q * j + e, slotAddr buf base q z (recordRank rs j) e)))).filter (fun e => t.vstart ≤ e.1)

/-- Element i of the data vector of a vappend. One in the slot form that has stopped at a record has moved the l-file, so that
its l0 and l1 are found where the move left them (R22; the model's reading, log 11). -/
def recordElem (s : State) (d : VOp) (l : Bool) (i : Nat) : Nat :=
  let t := s.hart s.me
  t.read (l && t.vstart ≠ 0) d (width t.ty) i

/-- Store the listed elements at the home slices, below record element `f`; `s` is the state at the start. -/
def appendStore (s : State) (d : VOp) (slots : Bool) (z f : Nat) (s1 : State) (l : List (Nat × W64)) : State :=
  l.foldl (fun s' e =>
    if e.1 < f then s'.storePlace (s.coreOf s.cur) true (s.placeOf e.2 z .store) (leBytes z (recordElem s d slots e.1)) else s') s1

/-- The lowest of the listed elements whose store fails its checks. -/
def appendFail (s : State) (z : Nat) : List (Nat × W64) → Option (Nat × Trap)
  | [] => none
  | (i, ea) :: l => match s.elemCheck s.cur true ea z .store with | some t => some (i, t) | none => appendFail s z l

/-- The descriptor word at an offset, read where the descriptor lies. -/
def descWord (pl : Place) (s : State) (o : Nat) : W64 :=
  match pl with
  | .spad t a => BitVec.ofNat 64 (leNat (s.spadRead t (a + o) 8))
  | .mem pa => BitVec.ofNat 64 (leNat (s.home (pa + o) 8))
  | .view _ => 0

/-- The tail that an earlier stop of this vappend latched. -/
def Hart.latched (t : Hart) : Option W64 :=
  match t.latch with
  | some x => if x.pc = t.vpc then some x.base else none
  | none => none

/-- The tail a vappend of the executing hart counts its slots from (R118, log 27): the latch that an earlier stop of this
instruction left; else, from element 0, the tail as it stands; above element 0, where no stop has left a latch, a free value.
-/
def State.appendBase (s : State) (tail : W64) : W64 :=
  let t := s.hart s.me
  match t.latched with
  | some b => b
  | none => if t.vstart = 0 then tail else BitVec.ofNat 64 (Config.freeNat s.fresh)

/-- The slot image of a vappend, written as far as element e (R22, R118). -/
def Hart.withSlots (t : Hart) (slots : VOp) (l : Bool) (q : Nat) (rs : List Nat) (base cap : W64) (e : Nat) (v : Hart) : Hart :=
  let w := width t.ty
  let lo := t.vstart
  let prior := t.vreg (vopIndex slots)
  let data := forElems (slotStep t w q rs base cap) (e - lo) lo prior.data
  if l then v.putResult slots (t.imageTo prior w lo e data) w lo e (lo ≠ 0) else v

/-- The state in which a descriptor is read at its home slice (R118, R189). -/
def State.atDesc (s : State) (pl : Place) : State := match pl with | .mem pa => s.flush (s.coreOf s.cur) pa 32 | _ => s

/-- The tail step of a vappend (R118), where it is due: `c` records are counted at the place of the descriptor. -/
def State.tailStep (s : State) (pl : Place) (tail : W64) (c : Nat) : State :=
  let t := s.hart s.me
  if t.latched.isSome then s
  else if t.vstart = 0 then s.storePlace (s.coreOf s.cur) true pl (leBytes 8 (tail + BitVec.ofNat 64 c).toNat)
  else { s with fresh := s.fresh + 1 }

/-- vappend after its descriptor is found at `pl`: the tail step where it is due, then the record stores and the slots. -/
def State.append (s : State) (pl : Place) (desc : W64) (d slots : VOp) (l : Bool) (q : Nat) : Result :=
  let h := s.me
  let t := s.hart h
  let z := width t.ty / 8
  let s0 := s.atDesc pl
  let rs := t.records q
  let tail := descWord pl s0 0
  let cap := descWord pl s0 8
  let buf := descWord pl s0 16
  let base := s.appendBase tail
  let stores := appendStores t q z rs buf base cap
  let held := (rangesOf 32 true [desc]) ++ rangesOf z true (appendSpan q z rs buf base)
  if s.conflicts h held then hold s
  else if !s.linkUp && !s.linkDead && stores.any (fun e => match s.resolve s.cur e.2 z .store with
      | .ok (.mem pa) => isHost pa | _ => false) then waitLink s
  else
    let s1 := s0.tailStep pl tail rs.length
    let fail := appendFail s z stores
    let e := match fail with | some (i, _) => i / q * q | none => t.vl
    let s2 := (appendStore s d l z e s1 stores).linkDone
    let t1 := s2.hart h
    let done := t.withSlots slots l q rs base cap e t1
    match fail with
    | some (_, tr) =>
      let stopped := { (if e = 0 || e < t.vstart then t1 else done) with vstart := e }
      .next ((s2.setHart h { stopped with latch := some ⟨base, t.vpc⟩ }).takeTrap { tr with elem := e })
    | none => .next ((s2.setHart h { done with latch := none }).endElems h t.vl t.vl)

/-- Where the descriptor of a vappend lies (R118): the checks of R110 at size 8, the alignment being that of its 32 bytes. -/
def State.descPlace (s : State) (a : W64) : Except Trap Place :=
  match s.resolve s.cur a 8 .atomic with
  | .error t => if t.cls ≠ 0x02 && a.toNat % 32 ≠ 0 then .error { cls := 0x03, addr := a, acc := Access.atomic.code, sz := 3 } else .error t
  | .ok pl => if a.toNat % 32 ≠ 0 then .error { cls := 0x03, addr := a, acc := Access.atomic.code, sz := 3 } else .ok pl

/-- vappend. One whose descriptor an engine command of the stream holds has not started (R122). With no active element at or above vstart it performs no access (R28, R123): only its slots follow the mode. Its tail
step reads the descriptor's line and meets the poison of it, as a read of any byte does (R289; the model's reading, log 101). -/
def execVappend (d : VOp) (b : BitVec 4) (o : VOp) (l : Bool) (q : BitVec 2) (s : State) : Result :=
  vmemOp s (fun t => okB t && (!l || o.writable)) (if l then [d, o] else [d]) (fun s =>
    let a := s.getS b
    let t := s.hart s.me
    if (t.activesIn t.vstart t.vl).isEmpty then
      .next ((s.setHart s.me { t.withSlots o l (recordLen q) (t.records (recordLen q)) 0 0 t.vl t with latch := none }).endElems s.me t.vl t.vl)
    else if s.conflicts s.me (rangesOf 32 true [a]) then hold s
    else match s.descPlace a with
    | .error t => trapNow s { t with elem := (s.hart s.me).vstart }
    | .ok pl =>
      match pl with
      | .mem pa =>
        if isHost pa && !s.linkUp && !s.linkDead then waitLink s
        else if s.meetsPoison (s.coreOf s.cur) pa 32 || (isHost pa && !s.linkUp)
        then trapNow s { poisonTrap a 8 .atomic with elem := (s.hart s.me).vstart }
        else s.append pl a d o l (recordLen q)
      | _ => s.append pl a d o l (recordLen q))

end Sys2Proof.Machine
end

