-- ==== Sys2Proof/Machine/Engine.lean ====
section
/-! DEFINITION. Engine commands in general (R214, R217, R222 to R228): issue, the range interlock table, reading and
writing memory in aligned 64-byte pieces, parking and retiring, and the completion add. -/

namespace Sys2Proof.Machine

/-! ### The table of commands in flight -/

/-- A command in flight. -/
def State.cmd? (s : State) (h seq : Nat) : Option Cmd := s.cmds.find? (fun c => c.hart = h && c.seq.toNat = seq)

/-! ### Waiting for the host link (R304; log 22) -/

/-- What waits has met the link down, and has waited as long as R304 lets it. -/
def State.gaveUp (s : State) (w : Waiter) : Bool := s.hostWaits.any (fun e => e.1 = w && e.2 + linkLimit ≤ s.cycle)

/-- An access behind a link that is down must still wait. -/
def State.mustWaitFor (s : State) (w : Waiter) (pa : Nat) : Bool := isHost pa && !s.linkUp && !s.gaveUp w

/-- It begins to wait now, unless it waits already; and it waits no more. -/
def State.hostWait (s : State) (w : Waiter) : State :=
  if s.hostWaits.any (fun e => e.1 = w) then s else { s with hostWaits := s.hostWaits ++ [(w, s.cycle)] }
def State.hostDone (s : State) (w : Waiter) : State := { s with hostWaits := s.hostWaits.filter (fun e => e.1 ≠ w) }

/-- A command as one that waits for the link. -/
def Cmd.waiter (c : Cmd) : Waiter := .cmd c.hart c.seq

/-- A command replaced when it has moved on, or removed when it has ended: it waits for nothing then. -/
def State.putCmd (s : State) (c : Cmd) : State :=
  let s := s.hostDone c.waiter
  { s with cmds := s.cmds.map (fun d => if d.hart = c.hart && d.seq == c.seq then c else d) }
def State.endCmd (s : State) (c : Cmd) : State :=
  let s := s.hostDone c.waiter
  { s with
    cmds := s.cmds.filter (fun d => !(d.hart = c.hart && d.seq == c.seq)),
    pins := s.pins.filter (fun p => !(p.hart = c.hart && p.seq == c.seq)) }

/-- A command stands where it has come to, and waits there for the link. -/
def State.waitAt (s : State) (c : Cmd) : State :=
  (if s.cmd? c.hart c.seq.toNat = some c then s else s.putCmd c).hostWait c.waiter

/-- The team stands on a core: its commands may run (R229, R274). -/
def State.onCore (s : State) (h : Nat) : Bool :=
  (s.team (teamOf h)).st == .resident || (s.team (teamOf h)).st == .stopping

/-- A terminated team that lies saved: its begun commands still run to their ends (R230, R277). -/
def State.dying (s : State) (h : Nat) : Bool := (s.team (teamOf h)).st == .saved && (s.team (teamOf h)).killed

/-- A command that a save waits for: one that is never split or that has passed its probe, or an mcvt that has begun
(R130, R164, R178, R212). -/
def Cmd.mustEnd (c : Cmd) : Bool :=
  c.parked.isNone &&
  match c.op with
  | .desc .. => true
  | .mcvt .. => c.stage == .run && 0 < c.k
  | .klq .. => c.stage != .probe
  | .klu .. => c.stage != .probe
  | .gix .. => c.stage != .probe
  | .six .. => c.stage != .probe
  | .copy .. => false
  | .prod .. => false

/-- A kept command that the stop of its team has caught before its probe: it is kept again, and neither what the stop waits for nor a
product that goes before a descent on the tile rows waits for it (R178, R212, R273, R274, R280). -/
def State.keptAgain (s : State) (d c : Cmd) : Bool :=
  (s.team (teamOf d.hart)).st == .stopping && d.stage == .probe && (c.mustEnd || match c.op with | .prod .. => true | _ => false)

/-- A command may take its next step: its team stands on a core, its entries have been made, and the commands of its hart that
the last save kept go before it, in stream order (R164, R178, R229, R276). -/
def State.mayMove (s : State) (c : Cmd) : Bool :=
  (s.onCore c.hart || s.dying c.hart) && c.unmade.isEmpty && !(s.cmds.takeWhile (fun d => !(d.hart = c.hart && d.seq == c.seq))).any
    (fun d => d.hart = c.hart && d.kept && d.parked.isNone && !s.keptAgain d c)

/-- A team that has been placed again still makes the entries of the commands that its save kept, or runs them: its harts do not
issue yet (R276; log 102). -/
def State.restoring (s : State) (t : Nat) : Bool :=
  s.cmds.any (fun c => teamOf c.hart = t && ((c.kept && c.parked.isNone) || !c.unmade.isEmpty))

/-- The hart is not stopped: it stands on a core and is neither parked on a record, nor halted, nor held until its team's
kept commands have run (R19, R276, R326). -/
def State.running (s : State) (h : Nat) : Bool :=
  let t := s.hart h
  (s.team (teamOf h)).st == .resident && t.parkC.isNone && t.parkV.isNone && t.halted.isNone && !s.restoring (teamOf h)

/-- The interlock entries in use on a core (R223). -/
def State.ritUsed (s : State) (core : Nat) : Nat :=
  ((s.cmds.filter (fun c => s.onCore c.hart && s.coreOfTeam (teamOf c.hart) = core)).map (fun c => c.ranges.length)).sum

/-- The first command of a hart whose entries are still to be made again (R229). -/
def State.unmadeOf (s : State) (h : Nat) : Option Cmd := s.cmds.find? (fun c => c.hart = h && !c.unmade.isEmpty)

/-- The harts of a core that wait for entries, for a new command or for kept ones, in the order in which they began (R226, R229).
One that is stopped keeps its place and holds back no other. -/
def State.ritWaiters (s : State) (core : Nat) : List Nat :=
  (Tab.get [] s.ritQ core).filter (fun h => (s.unmadeOf h).isSome || ((s.hart h).stalled.isSome && s.running h))

/-- The harts that began to wait before a hart did; all of them where it does not wait. -/
def State.ritAhead (s : State) (core h : Nat) : List Nat := (s.ritWaiters core).takeWhile (· ≠ h)

/-- A hart leaves the waiting order of a core. -/
def State.ritLeave (s : State) (core h : Nat) : State :=
  if (Tab.get [] s.ritQ core).contains h then
    { s with ritQ := Tab.put [] s.ritQ core ((Tab.get [] s.ritQ core).filter (· ≠ h)) }
  else s

/-- Issue a command: it takes the next sequence number (R293, R321) and its entries, and the stream goes on. -/
def State.issued (s : State) (c : Cmd) : State :=
  let h := c.hart
  let s := { s with cmds := s.cmds ++ [{ c with seq := (s.hart h).engseq }] }
  s.modHart h (fun t => { t with engseq := t.engseq + 1, stalled := none })

/-- A new command of the executing hart, its operands latched. -/
def State.newCmd (s : State) (op : EngOp) (ranges : List Range) (cw : W64) (add : Nat) (stage : Stage) : Cmd :=
  let t := s.hart s.me
  { hart := s.me, seq := 0, cpc := t.vgo, vpc := t.vpc, op := op, cw := cw, add := add, ranges := ranges, stage := stage, k := 0,
    o := 0, parked := none }

/-- A hart stalls at a command for table entries: it joins the waiting order, or keeps its place there. -/
def State.ritStall (s : State) (core h need : Nat) : State :=
  let q := Tab.get [] s.ritQ core
  let q := if (s.hart h).stalled.isSome && q.contains h then q else q.filter (· ≠ h) ++ [h]
  { s.modHart h (fun t => { t with stalled := some ⟨need, false⟩ }) with ritQ := Tab.put [] s.ritQ core q }

/-- Issue a command, hold it behind a conflicting one (R224), or stall its stream for table entries (R226): a stall is an
instruction boundary, and the instruction is executed again, with all its checks, when its turn has come. -/
def State.issue (s : State) (c : Cmd) : State :=
  let core := s.coreOf s.cur
  if s.conflicts c.hart c.ranges then s
  else if s.ritUsed core + c.ranges.length ≤ 64 && ((s.ritAhead core c.hart).isEmpty || c.ranges.isEmpty) then
    ((s.ritLeave core c.hart).issued c).advance
  else s.ritStall core c.hart c.ranges.length

/-- The hart that has waited longest on a core makes the entries of its next kept command, if they are free (R226, R229). -/
def State.makeNext (s : State) (core : Nat) : Option State :=
  match s.ritWaiters core with
  | [] => none
  | h :: _ =>
    match s.unmadeOf h with
    | none => none
    | some c =>
      if 64 < s.ritUsed core + c.unmade.length then none
      else
        let s := s.putCmd { c with ranges := c.unmade, unmade := [] }
        some (if (s.unmadeOf h).isNone then s.ritLeave core h else s)

/-- Entries of kept commands made while they are free; `n` bounds the commands. -/
def State.makeEntries (core : Nat) : Nat → State → State
  | 0, s => s
  | n + 1, s => match s.makeNext core with | some s => s.makeEntries core n | none => s

/-- RIT_STALL_END (R226): the turn of the hart that has waited longest on a core comes once its entries are free; kept commands
take theirs then (R229). -/
def execRitStallEnd (core : Nat) (s : State) : Result :=
  match s.ritWaiters core with
  | [] => .next s
  | h :: _ =>
    match (s.hart h).stalled with
    | none => .next ((s.makeNext core).getD s)
    | some w =>
      if s.ritUsed core + w.need ≤ 64 then .next (s.modHart h (fun t => { t with stalled := some { w with ready := true } }))
      else .next s

/-! ### Reports of commands (R228, R286) -/

/-- An asynchronous report of a command. -/
def State.cmdReport (s : State) (c : Cmd) (cls acc sz rsn : Nat) (addr : W64) (elem : Nat) (detail : W64) (base size : Nat) :
    Park × State :=
  s.report {
    cls := cls, st := true, asy := true, rsn := rsn, ctx := s.ctxOf c.hart, eg := true, sz := sz, acc := acc, addr := addr,
    cpc := c.cpc, vpc := c.vpc, elem := elem, eng := c.seq, o := c.o, detail := detail, hart := (s.hart c.hart).num,
    base := base, size := size, core := some (s.coreOfTeam (teamOf c.hart)) }

/-- Park a command on the entry of a translation fault (R215, R228). A walk that read a poisoned line is reported as the
walk's read (R286; log 14), but for the completion add, whose kind and size R222 gives. -/
def State.park (s : State) (c : Cmd) (acc sz : Nat) (addr elem : Nat) (f : TFail) : State :=
  let walk := f.reason = 5 && acc ≠ 3
  let acc := if walk then 7 else acc
  let sz := if walk then 3 else sz
  let (pk, s) := s.cmdReport c 0x05 acc sz f.reason (BitVec.ofNat 64 addr) elem 0 f.base f.size
  s.putCmd { c with parked := some pk, kept := false }

/-- Retire a command with a record (R225, R228): its entries and pins go, and nothing is added to its word. -/
def State.retireCmd (s : State) (c : Cmd) (cls acc sz addr elem : Nat) (detail : W64) : State :=
  let (_, s) := s.cmdReport c cls acc sz 0 (BitVec.ofNat 64 addr) elem detail 0 0
  s.endCmd c

/-- A command's completion word can be added to as far as its translation goes (R222). -/
def State.wordReached (s : State) (c : Cmd) : Bool :=
  inWindow c.cw.toNat || (s.translate (s.coreOfTeam (teamOf c.hart)) (s.ctxOf c.hart) c.cw.toNat .atomic).isOk

/-- The payload is done (R222, R225): its last byte has been read and written, so its entries go, but for a command that
will park at its end point and holds them there; the word is to be added to, or the command has ended. -/
def State.payloadDone (s : State) (c : Cmd) : State :=
  if c.add = 0 then s.endCmd c
  else if s.wordReached c then s.putCmd { c with stage := .add, ranges := [], spare := c.ranges }
  else s.putCmd { c with stage := .add }

/-- A command parks at its end point, where it holds its entries (R222): those that it has given up since its payload ended are
made again, and it waits until they are free (R226). -/
def State.parkAtEnd (s : State) (c : Cmd) (f : TFail) : State :=
  let core := s.coreOfTeam (teamOf c.hart)
  if !c.spare.isEmpty && s.onCore c.hart && 64 < s.ritUsed core + c.spare.length then s
  else s.park { c with ranges := c.ranges ++ c.spare, spare := [] } 3 3 c.cw.toNat c.k f

/-! ### Memory as engines reach it: pieces of one aligned line -/

/-- How an engine access of one piece ends. -/
inductive Piece (α : Type) where
  | ok (v : α)
  | fault (f : TFail)
  | poison
  | wait

/-- The page of an address that a probe of the hart's commands has pinned (R283). -/
def State.pinned (s : State) (h va : Nat) : Option Page :=
  (s.pins.find? (fun p => p.hart = h && p.base ≤ va && va < p.base + p.size)).map (fun p => ⟨p.base, p.size, p.leaf⟩)

/-- The page that holds an address of a context, through a cached translation or by a walk (R283): a probe pass translates each
page once, so all its addresses of one cached page go one way. -/
def State.findPage (s : State) (core ctx va : Nat) : Except TFail Page :=
  let walk : Except TFail Page :=
    let root := s.rootOf ctx
    if s.tableOk root then s.walk va 4 root else .error ⟨3, va / 4096 * 4096, 4096⟩
  match s.held core ctx va with
  | some e => if Config.walksAgain s.fresh e.base then walk else .ok ⟨e.base, e.size, e.leaf⟩
  | none => walk

/-- Where a command's access goes: through a pinned page if there is one. Memory that has left a pinned page answers
none (R193). -/
def State.engineAt (s : State) (h va : Nat) (a : Access) : Except TFail (Option Nat) :=
  match s.pinned h va with
  | some p =>
    if s.mapped (entryPa p.leaf / p.size * p.size + va % p.size) then (s.useLeaf false p va a).map some else .ok none
  | none => (s.translate (s.coreOfTeam (teamOf h)) (s.ctxOf h) va a).map some

/-- Read `n` bytes inside one line at a virtual address, for a hart's command: what its own core has stored there since the command
began is written back first (R189). -/
def State.engineRead (s : State) (c : Cmd) (va n : Nat) : Piece (List Byte × State) :=
  let core := s.coreOfTeam (teamOf c.hart)
  match s.engineAt c.hart va .engRead with
  | .error f => .fault f
  | .ok none => .poison
  | .ok (some pa) =>
    if s.mustWaitFor c.waiter pa then .wait
    else
      let s := s.flush core pa n
      if s.anyPoison pa n || (isHost pa && !s.linkUp) then .poison else .ok (s.home pa n, s)

/-- Write bytes inside one line at a virtual address, for a hart's command. A write to memory that has left a pinned page is lost (the
model's reading, log 108). -/
def State.engineWrite (s : State) (c : Cmd) (va : Nat) (bs : List Byte) : Piece State :=
  let core := s.coreOfTeam (teamOf c.hart)
  match s.engineAt c.hart va .engWrite with
  | .error f => .fault f
  | .ok none => .ok s
  | .ok (some pa) =>
    if s.mustWaitFor c.waiter pa then .wait
    else if isHost pa && !s.linkUp then .ok s
    else .ok ((s.flush core pa bs.length).homeWrite pa bs)

/-- How much of the address space the entry covers at which a walk ends. -/
def State.walkReach (s : State) (va : Nat) : Nat → Nat → Nat
  | 0, _ => 4096
  | n + 1, table =>
    let e := s.entryAt (table + 8 * (va / 2 ^ (12 + 9 * n) % 512))
    if e.getLsbD 0 && !(e.getLsbD 1 || e.getLsbD 2 || e.getLsbD 3) then s.walkReach va n (entryPa e) else 2 ^ (12 + 9 * n)

/-- The lines of a span of memory that a core holds are written back and invalidated. -/
def State.flushSpan (s : State) (core pa n : Nat) : State :=
  (s.linesOf core).foldl (fun s l => if l * 64 < pa + n && pa < l * 64 + 64 then s.flushLine core l else s) s

/-- The same of the memory behind the addresses of a command from `va` to `hi`, page by page; `fuel` bounds the pages. -/
def State.flushFrom (c : Cmd) (hi : Nat) : Nat → Nat → State → State
  | 0, _, s => s
  | fuel + 1, va, s =>
    if hi < va then s
    else
      let core := s.coreOfTeam (teamOf c.hart)
      let ctx := s.ctxOf c.hart
      let page : Except TFail Page := match s.pinned c.hart va with | some p => .ok p | none => s.findPage core ctx va
      match page with
      | .ok p =>
        let pa := entryPa p.leaf / p.size * p.size + va % p.size
        (s.flushSpan core pa (min (hi + 1) (p.base + p.size) - va)).flushFrom c hi fuel (p.base + p.size)
      | .error _ =>
        let z := if s.tableOk (s.rootOf ctx) then s.walkReach va 4 (s.rootOf ctx) else 2 ^ 48
        s.flushFrom c hi fuel ((va / z + 1) * z)

/-- Before a command first reads or writes memory, its core's dirty bytes in all the command's ranges are written back and those lines
invalidated (R176, R189, R208). -/
def State.flushRanges (s : State) (c : Cmd) : State :=
  (c.ranges.filter (fun r => r.mem)).foldl (fun s r =>
    if (s.linesOf (s.coreOfTeam (teamOf c.hart))).isEmpty then s else s.flushFrom c r.hi ((r.hi - r.lo) / 4096 + 2) r.lo) s

/-- The bytes from a virtual address to the end of its line, at most `n`. -/
def pieceLen (va n : Nat) : Nat := min n (64 - va % 64)

/-- A read of any length as pieces, which names the piece that fails by its first byte; `fuel` bounds their number. -/
def State.engineReadAll (s : State) (c : Cmd) : Nat → Nat → Nat → Except (Nat × Piece Unit) (List Byte × State)
  | 0, _, _ => .ok ([], s)
  | fuel + 1, va, n =>
    if n = 0 then .ok ([], s)
    else
      let m := pieceLen va n
      match s.engineRead c va m with
      | .ok (bs, s) =>
        match s.engineReadAll c fuel (va + m) (n - m) with
        | .ok (rest, s) => .ok (bs ++ rest, s)
        | .error e => .error e
      | .fault f => .error (va, .fault f)
      | .poison => .error (va, .poison)
      | .wait => .error (va, .wait)

/-- The fuel a range of bytes needs. -/
def pieces (va n : Nat) : Nat := (va % 64 + n + 63) / 64

/-- A write of any length as pieces. -/
def State.engineWriteAll (s : State) (c : Cmd) : Nat → Nat → List Byte → Except (Nat × Piece Unit) State
  | 0, _, _ => .ok s
  | fuel + 1, va, bs =>
    if bs.isEmpty then .ok s
    else
      let m := pieceLen va bs.length
      match s.engineWrite c va (bs.take m) with
      | .ok s => s.engineWriteAll c fuel (va + m) (bs.drop m)
      | .fault f => .error (va, .fault f)
      | .poison => .error (va, .poison)
      | .wait => .error (va, .wait)

/-! ### The completion add (R222) -/

/-- COMPLETION_ADD: after every payload byte, the add runs once, indivisibly, at the home slice or the scratchpad. A
word that does not translate parks the command; a poisoned one ends it with a record. -/
def execCompletionAdd (h seq : Nat) (s : State) : Result :=
  match s.cmd? h seq with
  | none => .next s
  | some c =>
    if c.stage ≠ .add || c.parked.isSome || !s.mayMove c then .next s
    else
      let va := c.cw.toNat
      let plus (bs : List Byte) : List Byte := leBytes 8 ((leNat bs + c.add) % 2 ^ 64)
      if inWindow va then
        let t := teamOf h
        .next ((s.spadWrite t (va - windowBase) (plus (s.spadRead t (va - windowBase) 8))).endCmd c)
      else
        let core := s.coreOfTeam (teamOf h)
        match s.translate core (s.ctxOf h) va .atomic with
        | .error f => .next (s.parkAtEnd c f)
        | .ok pa =>
          if s.mustWaitFor c.waiter pa then .next (s.waitAt c)
          else
            let s := s.flush core pa 8
            if s.anyPoison pa 8 || (isHost pa && !s.linkUp) then .next (s.retireCmd c 0x06 3 3 va c.k 0)
            else .next ((s.homeWrite pa (plus (s.home pa 8))).endCmd c)

/-- The completion word is legal at issue (R174, R209, R221): a multiple of 8, below 2^48, and inside the declared
scratchpad if it lies in the window. -/
def State.wordOk (s : State) (h : Nat) (cw : W64) (add : Nat) : Bool :=
  add = 0 || (cw.toNat % 8 = 0 && cw.toNat < 2 ^ 48
    && (!inWindow cw.toNat || cw.toNat - windowBase + 8 ≤ (s.team (teamOf h)).bytes))

/-- A range of memory stays below 2^48 and off the scratchpad window (R184, R221). -/
def memRangeOk (lo hi : Int) : Bool :=
  0 ≤ lo && hi < 2 ^ 48 && (hi < windowBase || windowBase + 0x50000 ≤ lo)

/-- A scratchpad range lies in the team's declared bytes. -/
def State.spadRangeOk (s : State) (h : Nat) (lo hi : Int) : Bool := 0 ≤ lo && hi < (s.team (teamOf h)).bytes

/-- An older command of the same hart and engine that is not parked still has work: it goes first (R273). -/
def State.olderBusy (s : State) (c : Cmd) (same : EngOp → Bool) : Bool :=
  (s.cmds.takeWhile (fun d => !(d.hart = c.hart && d.seq == c.seq))).any
    (fun d => d.hart = c.hart && same d.op && d.stage ≠ .add && d.parked.isNone)

end Sys2Proof.Machine
end

