-- ==== Sys2Proof/Machine/Copy.lean ====
section
/-! DEFINITION. The copy engine and the loop-nest sequencer (R217 to R231): opcodes 0xD8 to 0xDA and the events
COPY_RUN and RIT_STALL_END. -/

namespace Sys2Proof.Machine

/-- The six levels of a hart (R219). -/
def Hart.levels (t : Hart) : List Level := (List.range 6).map (fun l => Tab.get {} t.nest l)

/-- The number of runs N (R220). -/
def runCount (ls : List Level) : Nat := (ls.map (fun l => l.count.toNat)).prod

/-- The offset of run k on one side: its digits, level 0 fastest, times the strides (R220). -/
def runOffset (stride : Level → W64) : List Level → Nat → W64
  | [], _ => 0
  | l :: ls, k =>
    let c := l.count.toNat
    BitVec.ofNat 64 (k % c) * stride l + runOffset stride ls (k / c)

/-- The exact hull of one side (R221): low and high end. -/
def hull (stride : Level → W64) (b : W64) (z : Nat) (ls : List Level) : Int × Int :=
  let ext := ls.map (fun l => ((l.count.toNat : Int) - 1) * (stride l).toInt)
  ((b.toNat : Int) + (ext.map (fun x => min 0 x)).sum, (b.toNat : Int) + (ext.map (fun x => max 0 x)).sum + z - 1)

/-- The destination and source of a direction are memory: 0 in, 1 out, 2 memory to memory, 3 scratchpad to scratchpad. -/
def dstMem (dir : Nat) : Bool := dir = 1 || dir = 2
def srcMem (dir : Nat) : Bool := dir = 0 || dir = 2

/-- The lowest-numbered failing condition of R221, or 0. -/
def State.copyFault (s : State) (dir : Nat) (dst src : W64) (z : Nat) (ls : List Level) (cw : W64) (add : Nat) : Nat :=
  let h := s.me
  let n := runCount ls
  let none' := n = 0 || z = 0
  let (sl, sh) := hull Level.ss src z ls
  let (dl, dh) := hull Level.ds dst z ls
  let memBad (m : Bool) (lo hi : Int) := m && !memRangeOk lo hi
  let spadBad (m : Bool) (lo hi : Int) := !m && !s.spadRangeOk h lo hi
  if ls.any (fun l => 2 ^ 32 - 1 < l.count.toNat) || 2 ^ 40 < n || 2 ^ 32 < z then 1
  else if !none' && (memBad (srcMem dir) sl sh || memBad (dstMem dir) dl dh) then 2
  else if !none' && (spadBad (srcMem dir) sl sh || spadBad (dstMem dir) dl dh) then 3
  else if !none' && srcMem dir == dstMem dir && sl ≤ dh && dl ≤ sh then 4
  else if !s.wordOk h cw add then 5
  else 0

/-- The two hulls as table ranges (R223); none for a command that moves no byte. -/
def copyRanges (dir : Nat) (dst src : W64) (z : Nat) (ls : List Level) : List Range :=
  if runCount ls = 0 || z = 0 then []
  else
    let (sl, sh) := hull Level.ss src z ls
    let (dl, dh) := hull Level.ds dst z ls
    [⟨srcMem dir, sl.toNat, sh.toNat, false⟩, ⟨dstMem dir, dl.toNat, dh.toNat, true⟩]

/-- cpy and cpyn at issue (R217, R221). -/
def copyOp (ls : Hart → List Level) (a b c d : BitVec 4) (dir : BitVec 2) (n : BitVec 6) (s : State) : Result :=
  if !s.isVector then trapNow s (illegal .wrongStream)
  else if n = 0 && d ≠ 0 then trapNow s (illegalCommand .reservedBit)
  else
    let levels := ls (s.hart s.me)
    let dst := s.getS a
    let src := s.getS b
    let z := (s.getS c).toNat
    let cw := if n = 0 then 0 else s.getS d
    let bad := s.copyFault dir.toNat dst src z levels cw n.toNat
    if bad ≠ 0 then
      .next ((s.modHart s.me (fun t => { t with vstart := 0 })).takeTrap { cls := 0x11, detail := BitVec.ofNat 64 bad, eng := true })
    else
      .next (s.issue (s.newCmd (.copy dir.toNat dst src z levels) (copyRanges dir.toNat dst src z levels) cw n.toNat .run))

def execCpy (a b c d : BitVec 4) (dir : BitVec 2) (n : BitVec 6) (s : State) : Result :=
  copyOp (fun _ => List.replicate 6 {}) a b c d dir n s
def execCpyn (a b c d : BitVec 4) (dir : BitVec 2) (n : BitVec 6) (s : State) : Result := copyOp Hart.levels a b c d dir n s

/-- lnset (R219). -/
def execLnset (a b c : BitVec 4) (l : BitVec 3) (s : State) : Result :=
  onVectorIf s (fun _ => l.toNat ≤ 5) [] (fun s =>
    (s.modHart s.me (fun t => { t with nest := Tab.put {} t.nest l.toNat ⟨s.getS a, s.getS b, s.getS c⟩ })).advance)
def execLnsetZ (s : State) : Result := onVector s (fun s => s.modHart s.me (fun t => { t with nest := [] }))

/-! ### Moving bytes (R220, R228) -/

/-- Read `n` bytes of a copy's source side, by pieces. -/
def State.copyRead (s : State) (c : Cmd) (mem : Bool) (a : W64) (n : Nat) : Except (Nat × Piece Unit) (List Byte × State) :=
  if mem then s.engineReadAll c 3 a.toNat n else .ok (s.spadRead (teamOf c.hart) a.toNat n, s)

/-- Write bytes that stay inside one 64-byte line of a copy's destination side. -/
def State.copyWrite (s : State) (c : Cmd) (mem : Bool) (a : W64) (bs : List Byte) : Except (Nat × Piece Unit) State :=
  if mem then s.engineWriteAll c 2 a.toNat bs else .ok (s.spadWrite (teamOf c.hart) a.toNat bs)

/-- Move the pieces of run `c.k` from offset `c.o`, each up to the next 64-byte boundary of the destination or the end of
the run, while they stay inside the turn's `room` bytes; `fuel` bounds them. The command stops at the resume point of a
piece that fails: at its source, where both sides do (the model's reading, log 110). -/
def State.copyPieces (s : State) (c : Cmd) (dir : Nat) (dst src : W64) (z room : Nat) : Nat → State
  | 0 => s.putCmd (if z ≤ c.o then { c with k := c.k + 1, o := 0 } else c)
  | fuel + 1 =>
    if z ≤ c.o then s.putCmd { c with k := c.k + 1, o := 0 }
    else if room < pieceLen (dst + BitVec.ofNat 64 c.o).toNat (z - c.o) then s.putCmd c
    else
      let d := dst + BitVec.ofNat 64 c.o
      let n := pieceLen d.toNat (z - c.o)
      let fails (s : State) (acc va : Nat) : Piece Unit → State
        | .fault f => s.park c acc 6 va c.k f
        | .poison => s.retireCmd c 0x06 acc 6 va c.k 0
        | _ => s.waitAt c
      match s.copyRead c (srcMem dir) (src + BitVec.ofNat 64 c.o) n with
      | .error (va, p) => fails s 5 va p
      | .ok (bs, s1) =>
        match s1.copyWrite c (dstMem dir) d bs with
        | .error (va, p) => fails s1 6 va p
        | .ok s2 => s2.copyPieces { c with o := c.o + n } dir dst src z (room - n) fuel

def EngOp.isCopy : EngOp → Bool | .copy .. => true | _ => false

/-- A copy command whose last run is done goes on to its completion add. -/
def State.copyDone (s : State) (h seq : Nat) : State :=
  match s.cmd? h seq with
  | some c =>
    match c.op with
    | .copy _ _ _ z ls => if c.stage = .run && c.parked.isNone && (runCount ls ≤ c.k || z = 0) then s.payloadDone c else s
    | _ => s
  | none => s

/-- COPY_RUN (R220, R273): one run, or at most 4 KiB of one, of a copy command. -/
def execCopyRun (h seq : Nat) (s : State) : Result :=
  match s.cmd? h seq with
  | none => .next s
  | some c =>
    match c.op with
    | .copy dir dst src z ls =>
      if c.stage ≠ .run || c.parked.isSome || !s.mayMove c || s.olderBusy c EngOp.isCopy then .next s
      else if runCount ls ≤ c.k || z = 0 then .next (s.payloadDone c)
      else
        let d := dst + runOffset Level.ds ls c.k
        let r := src + runOffset Level.ss ls c.k
        .next (((if c.k = 0 && c.o = 0 then s.flushRanges c else s).copyPieces c dir d r z 4096 65).copyDone h seq)
    | _ => .next s

end Sys2Proof.Machine
end

