-- ==== Sys2Proof/Machine/Matrix.lean ====
section
/-! DEFINITION. The matrix unit (R125 to R132, R151 to R168): opcodes 0xC0 to 0xCA and the events MATRIX_TILE and
DESCENT_EXECUTE. -/

namespace Sys2Proof.Machine

/-! ### Power classes (R269) -/

/-- Tile rows L, key lookup engines and descent issue of a power class. -/
def classRows (c : Nat) : Nat :=
  match c with | 1 => 1 | 3 => 2 | 4 => 4 | 5 => 8 | 6 => 1 | 7 => 4 | _ => 0
def classKle (c : Nat) : Nat :=
  match c with | 2 => 4 | 6 => 4 | 7 => 8 | 8 => 24 | _ => 0
def classDescent (c : Nat) : Bool := c = 1 || (3 ≤ c && c ≤ 7)

/-- The heavy units of a class. -/
def classUnits (c : Nat) : Nat := classRows c + classKle c

/-! ### Holding tile rows (R125, R126, R151) -/

/-- The teams that stand on a core, being saved included. -/
def State.teamsOn (s : State) : List Team :=
  ((List.range s.nteam).map s.team).filter (fun t => t.st == .resident || t.st == .stopping)

/-- The tile rows that the teams of a quad hold. -/
def State.rowsHeld (s : State) (quad : Nat) : Nat :=
  ((s.teamsOn.filter (fun t => t.core / 4 = quad)).map Team.rows).sum

/-- matt: raise the holding without waiting. -/
def execMatt (a b : BitVec 4) (s : State) : Result :=
  onVector s (fun s =>
    let t := s.team (teamOf s.me)
    let target := min (s.getS b).toNat (min 8 (classRows t.pclass))
    let h := max t.rows (min target (t.rows + (8 - s.rowsHeld (t.core / 4))))
    (s.modTeam (teamOf s.me) (fun t => { t with rows := h })).putS a (BitVec.ofNat 64 h))

/-- A command of the matrix unit. -/
def EngOp.isMatrix : EngOp → Bool
  | .prod .. => true
  | .mcvt .. => true
  | .desc .. => true
  | _ => false

/-- A command that tile rows serve. -/
def EngOp.onRows : EngOp → Bool
  | .prod .. => true
  | .desc .. => true
  | _ => false

/-- A matrix command waits for the older ones of its hart, and on the tile rows for the older ones of its team: each row
serves its holding team in issue order (R273). -/
def State.olderMatrix (s : State) (c : Cmd) : Bool :=
  (s.cmds.takeWhile (fun d => !(d.hart = c.hart && d.seq == c.seq))).any (fun d =>
    (d.hart = c.hart && d.op.isMatrix) || (teamOf d.hart = teamOf c.hart && d.op.onRows && c.op.onRows))

/-- mdet: wait for every matrix command of the team, then release its rows. -/
def execMdet (s : State) : Result :=
  if !s.isVector then trapNow s (illegal .wrongStream)
  else if s.cmds.any (fun c => teamOf c.hart = teamOf s.me && c.op.isMatrix) then .next s
  else onVector s (fun s => s.modTeam (teamOf s.me) (fun t => { t with rows := 0 }))

/-! ### Tiles (R153, R162) -/

/-- The tiles a command of a stream still reads or writes: first, count, and whether it writes. -/
def EngOp.tiles : EngOp → Option (Nat × Nat × Bool)
  | .prod _ _ _ c0 mt nt _ _ _ _ => some (c0, mt * nt, true)
  | .mcvt c _ n _ _ _ clr => some (c, n, clr)
  | _ => none

/-- An earlier command of the stream holds one of `n` tiles from `c` against a new reader or writer (R162). -/
def State.tileBusy (s : State) (c n : Nat) (write : Bool) : Bool :=
  s.cmds.any (fun d => d.hart = s.me && (match d.op.tiles with
    | some (c', n', w') => (write || w') && c < c' + n' && c' < c + n
    | none => false))

/-- An accumulator element by flat index (R153). -/
def State.accAt (s : State) (team e : Nat) : BitVec 32 := Tab.get 0 (s.team team).acc e
def State.putAcc (s : State) (team e : Nat) (v : BitVec 32) : State :=
  s.modTeam team (fun t => { t with acc := Tab.put 0 t.acc e v })

/-! ### Operand rows (R154) -/

/-- The positions of a group (R147). -/
def fmtGroup (f : Nat) : Nat := match f with | 0 => 4 | 1 => 16 | 2 => 16 | 3 => 32 | 4 => 32 | _ => 64

/-- Rc, Rs and R of a row of `n` values. -/
def codeBytes (f n : Nat) : Nat := (n * width f + 511) / 512 * 64
def scaleBytes (f n : Nat) : Nat := if f = tQ4 then ((n + 31) / 32 + 63) / 64 * 64 else 0
def rowBytes (f n : Nat) : Nat := codeBytes f n + scaleBytes f n

/-- The code and the scale byte of value k in a row's bytes. -/
def rowCode (f : Nat) (row : Nat) (k : Nat) : Nat := elt (width f) row k
def rowScale (f n row k : Nat) : Nat := elt 8 row (codeBytes f n + k / 32)

/-- A row of `n` values in a team's scratchpad, as one number. -/
def State.rowAt (s : State) (team off f n : Nat) : Nat := leNat (s.spadRead team off (rowBytes f n))

/-- The values of a row. -/
def State.rowValues (s : State) (team off f n : Nat) : List Exact :=
  let row := s.rowAt team off f n
  (List.range n).map (fun k => decodeOperand f (rowCode f row k) (rowScale f n row k))

/-- What is wrong with the first `n` values of a q4 row, in ascending order: the kind and the block (R140, R158). -/
def State.rowFormat (s : State) (team off n : Nat) : Option (Nat × Nat) :=
  let row := s.rowAt team off tQ4 n
  (List.range n).findSome? (fun k =>
    let b := rowScale tQ4 n row k
    if scaleBad b then some (2, k / 32) else if codeBad b (rowCode tQ4 row k) then some (1, k / 32) else none)

/-! ### The geometry word (R155) -/

def geoK (g : W64) : Nat := (g.extractLsb' 0 16).toNat
def geoMt (g : W64) : Nat := (g.extractLsb' 16 4).toNat
def geoNt (g : W64) : Nat := (g.extractLsb' 20 8).toNat
def geoC0 (g : W64) : Nat := (g.extractLsb' 28 12).toNat
def geoPa (g : W64) : Nat := (g.extractLsb' 40 12).toNat
def geoPb (g : W64) : Nat := (g.extractLsb' 52 12).toNat

/-- A pitch in bytes, and whether it is legal. -/
def pitchOf (p r : Nat) : Nat := if p = 0 then r else 64 * p
def pitchOk (p r : Nat) : Bool := p = 0 || r ≤ 64 * p

/-- The fields of a geometry word are in range. -/
def geoOk (gather : Bool) (g : W64) : Bool :=
  1 ≤ geoK g && geoK g ≤ 16384 && 1 ≤ geoNt g && geoNt g ≤ 64
    && (if gather then geoMt g = 0 else 1 ≤ geoMt g && geoMt g ≤ 8)

/-- The range from the lowest to the highest byte of some rows of `len` bytes; none when they hold no byte. -/
def rowSpan (len : Nat) (write : Bool) : List Nat → List Range
  | [] => []
  | a :: l => if len = 0 then [] else [⟨false, l.foldl min a, l.foldl max a + len - 1, write⟩]

/-- A range lies in a team's declared scratchpad. -/
def State.spanOk (s : State) (h : Nat) (rs : List Range) : Bool := rs.all (fun r => s.spadRangeOk h r.lo r.hi)

/-! ### Product instructions (R156 to R158) -/

/-- A matrix-operand trap that names no element, or element m (R288): the detail names it, and the record's element is the vstart
that the trap leaves, 0 (the model's reading, log 97). -/
def matrixOperand (m : Nat) : Trap := { cls := 0x0C, detail := BitVec.ofNat 64 m, eng := true }
def noElement : Nat := 0xFFFFFFFF
def matrixState : Trap := { cls := 0x0B, eng := true }

/-- The operands of a product as they are latched: format, z, the two offsets and the geometry word, the mask of mmas,
and the gathered row numbers of mmag, none for an inactive row. -/
structure Product where
  fmt : Nat
  z : Bool
  a : Nat
  b : Nat
  g : W64
  mask : Option Nat
  gather : Option (List (Option Nat))

/-- The number of values an A row stores (Ka). -/
def Product.ka (p : Product) : Nat := match p.mask with | some k => popBelow k (geoK p.g) | none => geoK p.g

/-- mt, the A pitch, the B pitch and the number of B rows. -/
def Product.mt (p : Product) : Nat := match p.gather with | some l => (l.length + 31) / 32 | none => geoMt p.g
def Product.pa (p : Product) : Nat := pitchOf (geoPa p.g) (rowBytes p.fmt p.ka)
def Product.pb (p : Product) : Nat := pitchOf (geoPb p.g) (rowBytes p.fmt (geoK p.g))

/-- The A row number of each output row. -/
def Product.rowNumbers (p : Product) : List (Option Nat) :=
  match p.gather with | some l => l | none => (List.range (32 * p.mt)).map some

/-- The offset of A row n and of B row n. -/
def Product.rowOff (p : Product) (n : Nat) : Nat := p.a + n * p.pa
def Product.colOff (p : Product) (n : Nat) : Nat := p.b + n * p.pb

/-- The A and B ranges. -/
def Product.aSpan (p : Product) : List Range :=
  rowSpan (rowBytes p.fmt p.ka) false ((p.rowNumbers.filterMap id).map p.rowOff)
def Product.bSpan (p : Product) : List Range :=
  rowSpan (rowBytes p.fmt (geoK p.g)) false [p.colOff 0, p.colOff (32 * geoNt p.g - 1)]

/-- The element named by step 3 of R158, when one of its checks fails. The checks that name no element come before the rows of
mmag (the model's reading, log 48). -/
def State.productFault (s : State) (p : Product) : Option Nat :=
  let h := s.me
  let t := s.hart h
  let row (n : Nat) := rowSpan (rowBytes p.fmt p.ka) false [p.rowOff n]
  if !geoOk p.gather.isSome p.g || !pitchOk (geoPa p.g) (rowBytes p.fmt p.ka) || !pitchOk (geoPb p.g) (rowBytes p.fmt (geoK p.g))
      || (s.team (teamOf h)).tiles < geoC0 p.g + p.mt * geoNt p.g || p.a % 64 ≠ 0 || p.b % 64 ≠ 0
      || !s.spanOk h p.bSpan || (p.gather.isNone && !s.spanOk h p.aSpan)
      || (p.mask.isSome && t.maskBits < geoK p.g) || (p.gather.isSome && 256 < t.vl) then some noElement
  else if p.gather.isSome then
    (List.range p.rowNumbers.length).find? (fun m => match p.rowNumbers.getD m none with
      | some n => !s.spanOk h (row n)
      | none => false)
  else none

/-- The number-format trap of step 4: operand, row and block (R288). Of several defects it names the first of the A rows in the order
of the output rows, then of the B rows, in ascending order of the values of a row (the model's reading, log 48). -/
def State.productFormat (s : State) (p : Product) : Option Trap :=
  let team := teamOf s.me
  let trap (op row : Nat) (e : Nat × Nat) : Trap :=
    { cls := 0x0A, eng := true, detail := BitVec.ofNat 64 (e.1 + op * 4 + e.2 % 2 ^ 24 * 2 ^ 8 + row % 2 ^ 32 * 2 ^ 32) }
  if p.fmt ≠ tQ4 then none
  else
    let inA := (p.rowNumbers.filterMap id).findSome? (fun n => (s.rowFormat team (p.rowOff n) p.ka).map (trap 0 n))
    match inA with
    | some t => some t
    | none => (List.range (32 * geoNt p.g)).findSome? (fun n => (s.rowFormat team (p.colOff n) (geoK p.g)).map (trap 1 n))

/-- The command of a product: the offset of each output row's A row. -/
def Product.op (p : Product) : EngOp :=
  .prod p.fmt p.z (geoK p.g) (geoC0 p.g) p.mt (geoNt p.g) (p.rowNumbers.map (fun r => r.map p.rowOff)) p.b p.pb p.mask

/-- A product instruction after its register checks: the checks of R158, the waits of R162, then issue. -/
def State.product (s : State) (p : Product) : Result :=
  if (s.team (teamOf s.me)).rows = 0 then s.trapWhole matrixState
  else if p.gather.isSome && p.rowNumbers.all Option.isNone then .next s.advance
  else match s.productFault p with
    | some m => s.trapWhole (matrixOperand m)
    | none =>
      let ranges := p.aSpan ++ p.bSpan
      if s.tileBusy (geoC0 p.g) (p.mt * geoNt p.g) true || s.conflicts s.me ranges then .next s
      else match s.productFormat p with
        | some t => s.trapWhole t
        | none => .next (s.issue (s.newCmd p.op ranges 0 0 .run))

/-- A product instruction: the stream, the format (reason 6), the named registers, then the product. -/
def productOp (ok : Hart → Bool) (regs : List VOp) (f : BitVec 3) (p : State → Product) (s : State) : Result :=
  engineOp true s (fun t => f.toNat ≤ 5 && ok t) regs (fun s => s.product (p s))

def execMma (a b c : BitVec 4) (z : Bool) (f : BitVec 3) (s : State) : Result :=
  productOp (fun _ => true) [] f (fun s =>
    ⟨f.toNat, z, (s.getS a).toNat, (s.getS b).toNat, s.getS c, none, none⟩) s

def execMmas (a b c : BitVec 4) (k : BitVec 3) (z : Bool) (f : BitVec 3) (s : State) : Result :=
  productOp (fun _ => true) [] f (fun s =>
    ⟨f.toNat, z, (s.getS a).toNat, (s.getS b).toNat, s.getS c, some (Tab.get 0 (s.hart s.me).k k.toNat), none⟩) s

def execMmag (a b c : BitVec 4) (v : BitVec 5) (z : Bool) (f : BitVec 3) (s : State) : Result :=
  productOp (fun t => t.ty = tN32) [.main v] f (fun s =>
    let t := s.hart s.me
    ⟨f.toNat, z, (s.getS a).toNat, (s.getS b).toNat, s.getS c, none,
      some ((List.range t.vl).map (fun i => if t.active i then some (t.read false (.main v) 32 i) else none))⟩) s

/-- The products of one output element (R146, R156): at a position that mmas leaves out, +0. -/
def dotTerms (mask : Option Nat) (kk : Nat) (a b : List Exact) : List Exact :=
  (List.range kk).map (fun k =>
    match mask with
    | none => groupProduct (a.getD k (.fin false 0 0 false)) (b.getD k (.fin false 0 0 false))
    | some m =>
      if m.testBit k then groupProduct (a.getD (popBelow m k) (.fin false 0 0 false)) (b.getD k (.fin false 0 0 false))
      else .fin false 0 0 false)

/-- One tile of a product (R156): tile column q, tile row p. -/
def State.productTile (s : State) (team fmt : Nat) (z : Bool) (k c : Nat) (rows : List (Option Nat)) (b pb : Nat)
    (mask : Option Nat) (p q : Nat) : State :=
  let ka := match mask with | some m => popBelow m k | none => k
  let cols := (List.range 32).map (fun j => s.rowValues team (b + (32 * q + j) * pb) fmt k)
  (List.range 32).foldl (fun s' r =>
    match rows.getD (32 * p + r) none with
    | none => s'
    | some off =>
      let a := s.rowValues team off fmt ka
      (List.range 32).foldl (fun s' j =>
        let e := 1024 * c + 32 * r + j
        let acc := if z then 0 else (s.accAt team e).toNat
        s'.putAcc team e (BitVec.ofNat 32 (dotOnto acc (fmtGroup fmt) (dotTerms mask k a (cols.getD j []))))) s') s

/-! ### mzero, mcvt, mrd, mwr (R159 to R161)

A matrix instruction that completes leaves vstart as it was found, also where it was not 0 (the model's reading, log 105). -/

/-- mzero: wait for the tiles, then clear them. -/
def execMzero (a b : BitVec 4) (s : State) : Result :=
  vmemOp s (fun _ => true) [] (fun s =>
    let c := (s.getS a).toNat
    let n := (s.getS b).toNat
    if n = 0 then .next s.advance
    else if (s.team (teamOf s.me)).tiles < c + n then s.trapWhole { matrixOperand noElement with eng := false }
    else if s.tileBusy c n true then .next s
    else .next (s.modTeam (teamOf s.me) (fun t =>
      { t with acc := Tab.keep (fun e => !(1024 * c ≤ e && e < 1024 * (c + n))) t.acc })).advance)

/-- mcvt: checks, waits, issue. -/
def execMcvt (a b c : BitVec 4) (l : Bool) (f : BitVec 3) (s : State) : Result :=
  engineOp false s (fun t => f.toNat ≤ 4 && t.rnd ≠ stoch) [] (fun s =>
    let t := s.hart s.me
    let tile := (s.getS a).toNat
    let off := (s.getS b).toNat
    let n := (s.getS c).toNat
    let out : List Range := [⟨false, off, off + 1024 * n * width f.toNat / 8 - 1, true⟩]
    if n = 0 then .next s.advance
    else if (s.team (teamOf s.me)).tiles < tile + n || off % 64 ≠ 0 || !s.spanOk s.me out then
      s.trapWhole (matrixOperand noElement)
    else if s.tileBusy tile n l then .next s
    else .next (s.issue (s.newCmd (.mcvt tile off n f.toNat t.rnd t.sat l) out 0 0 .run)))

/-- One tile of a conversion (R160). -/
def State.convertTile (s : State) (team c off fmt rnd : Nat) (sat clr : Bool) : State :=
  let z := width fmt / 8
  let vals := (List.range 1024).flatMap (fun e =>
    let x := (s.accAt team (1024 * c + e)).toNat
    leBytes z (convert tF32 fmt rnd sat (decodeFloat tF32 x) x [] 0).1)
  let s := s.spadWrite team off vals
  if clr then
    s.modTeam team (fun t => { t with acc := Tab.keep (fun e => !(1024 * c ≤ e && e < 1024 * (c + 1))) t.acc })
  else s

/-- The lowest active element from vstart, below `hi`, whose flat index is beyond the team's tiles (R161). -/
def State.accFail (s : State) (base hi : Nat) : Option Nat :=
  let t := s.hart s.me
  (t.activesIn t.vstart hi).find? (fun i => 1024 * (s.team (teamOf s.me)).tiles ≤ base + i)

/-- mrd and mwr wait for the tiles of their elements. -/
def State.elemsBusy (s : State) (base : Nat) (write : Bool) : Bool :=
  let t := s.hart s.me
  t.vstart < t.vl && s.tileBusy ((base + t.vstart) / 1024) ((base + t.vl - 1) / 1024 - (base + t.vstart) / 1024 + 1) write

def execMrd (a : BitVec 4) (v : BitVec 5) (s : State) : Result :=
  vmemOp s (fun t => t.ty = tF32) [.main v] (fun s =>
    let t := s.hart s.me
    let base := (s.getS a).toNat
    let f := fun i _ (g : Lanes) => ((s.accAt (teamOf s.me) (base + i)).toNat, g)
    if s.elemsBusy base false then .next s
    else match s.accFail base (s.stopAt s.me t.vl) with
      | some e => .next (s.stopElems (.main v) e f { matrixOperand e with eng := false })
      | none => .next (s.elementwise (.main v) t.vl f))

def execMwr (a : BitVec 4) (v : BitVec 5) (s : State) : Result :=
  vmemOp s (fun t => t.ty = tF32) [.main v] (fun s =>
    let t := s.hart s.me
    let base := (s.getS a).toNat
    let hi := s.stopAt s.me t.vl
    let put := fun i (s' : State) =>
      if t.active i then s'.putAcc (teamOf s.me) (base + i) (BitVec.ofNat 32 (t.read false (.main v) 32 i)) else s'
    if s.elemsBusy base true then .next s
    else match s.accFail base hi with
      | some e =>
        .next (((forElems put (e - t.vstart) t.vstart s).modHart s.me (fun t => { t with vstart := e })).takeTrap
          { matrixOperand e with eng := false, elem := e })
      | none => .next ((forElems put (hi - t.vstart) t.vstart s).endElems s.me hi t.vl))

/-! ### The events of the matrix unit -/

/-- A matrix command with its tile counter moved on, ended when all are done. -/
def State.nextTile (s : State) (c : Cmd) (total : Nat) : State :=
  if c.k + 1 < total then s.putCmd { c with k := c.k + 1 } else s.endCmd c

/-- MATRIX_TILE (R156, R160, R163, R273): one tile of the oldest matrix command of a stream. -/
def execMatrixTile (h seq : Nat) (s : State) : Result :=
  match s.cmd? h seq with
  | none => .next s
  | some c =>
    if !s.mayMove c || s.olderMatrix c then .next s
    else match c.op with
      | .prod fmt z k c0 mt nt rows b pb mask =>
        .next ((s.productTile (teamOf h) fmt z k (c0 + c.k) rows b pb mask (c.k / nt) (c.k % nt)).nextTile c (mt * nt))
      | .mcvt tile off n fmt rnd sat clr =>
        .next ((s.convertTile (teamOf h) (tile + c.k) (off + c.k * (128 * width fmt)) fmt rnd sat clr).nextTile c n)
      | _ => .next s

/-! ### The descent step (R127 to R131) -/

/-- mdsc's geometry word. -/
def descK (g : W64) : Nat := (g.extractLsb' 0 16).toNat
def descN (g : W64) : Nat := (g.extractLsb' 16 32).toNat
def descGeoOk (g : W64) : Bool :=
  1 ≤ descK g && descK g ≤ 4096 && 1 ≤ descN g && descN g ≤ 2 ^ 30 && g.extractLsb' 48 16 == 0

/-- The bytes of a token or node row. -/
def descRow (f : Nat) (g : W64) : Nat := codeBytes f (descK g)

def execMdsc (a b c : BitVec 4) (v : BitVec 5) (f : BitVec 3) (tr : Bool) (p : BitVec 2) (s : State) : Result :=
  engineOp true s (fun t => f.toNat ≤ 4 && !v.getLsbD 0 && (tr || p = 0) && t.ty = tN32) [.main v, .main (v + 1)] (fun s =>
    let t := s.hart s.me
    let ta := (s.getS a).toNat
    let na := (s.getS b).toNat
    let g := s.getS c
    let r := descRow f.toNat g
    let rows := (t.activesIn 0 t.vl).map (fun i => (i, t.read false (.main v) 32 i, t.read false (.main (v + 1)) 32 i))
    let bytes := (s.team (teamOf s.me)).bytes
    let bad := rows.find? (fun e => descN g ≤ e.2.1 || bytes < na + (e.2.1 + 1) * r || bytes < ta + (e.2.2 + 1) * r
      || (tr && 512 ≤ e.2.2))
    if (s.team (teamOf s.me)).rows = 0 || !classDescent (s.team (teamOf s.me)).pclass then s.trapWhole matrixState
    else if !descGeoOk g || ta % 64 ≠ 0 || na % 64 ≠ 0 then s.trapWhole (matrixOperand noElement)
    else match bad with
      | some e => s.trapWhole (matrixOperand e.1)
      | none =>
        let ranges := rowSpan r false (rows.map (fun e => ta + e.2.2 * r)) ++ rowSpan r false (rows.map (fun e => na + e.2.1 * r))
        .next (s.issue (s.newCmd (.desc ta na g f.toNat (if tr then some p.toNat else none) v.toNat t.vl rows) ranges 0 0 .run)))

/-- The dot of a step and its path bit (R128). -/
def State.descentDot (s : State) (team f : Nat) (g : W64) (ta na n r : Nat) : Nat :=
  let w := descRow f g
  dotOnto 0 (fmtGroup f) (dotTerms none (descK g) (s.rowValues team (ta + r * w) f (descK g)) (s.rowValues team (na + n * w) f (descK g)))
def pathBit (dot : Nat) : Nat := if 0 < dot && dot ≤ infCode tF32 then 1 else 0

/-- A path-trace record (R131). -/
def traceRecord (dot n b : Nat) : Nat := dot * 2 ^ 32 + 2 ^ 31 + n % 2 ^ 30 * 2 + b

/-- One element of a descent step: the hart's node vector and trace records. -/
def descentElem (trace : Option Nat) (v : Nat) (dot : Nat) (e : Nat × Nat × Nat) (t : Hart) : Hart :=
  let b := pathBit dot
  let x := t.vreg v
  let t := t.setVreg v { x with data := setElt 32 x.data e.1 (2 * e.2.1 + 1 + b) }
  match trace with
  | some p => { t with pt := putBytes t.pt (4096 * p + 8 * e.2.2) (leBytes 8 (traceRecord dot e.2.1 b)) }
  | none => t

/-- DESCENT_EXECUTE (R128): the whole step, in ascending element order. -/
def execDescentExecute (h seq : Nat) (s : State) : Result :=
  match s.cmd? h seq with
  | none => .next s
  | some c =>
    if !s.mayMove c || s.olderMatrix c then .next s
    else match c.op with
      | .desc ta na g f trace v vl rows =>
        let reach (t : Hart) : Hart := let x := t.vreg v; t.setVreg v { x with rows := max x.rows (t.rowsOf 32 vl) }
        .next ((s.modHart h (fun t =>
          reach (rows.foldl (fun t e => descentElem trace v (s.descentDot (teamOf h) f g ta na e.2.1 e.2.2) e t) t))).endCmd c)
      | _ => .next s

/-- A descent step of a hart is in flight: its vector stream waits for it (R130). -/
def State.descending (s : State) (h : Nat) : Bool :=
  s.cmds.any (fun c => c.hart = h && (match c.op with | .desc .. => true | _ => false))

/-- A field of a path-trace record (R132). -/
def traceField (f w : Nat) : Nat :=
  match f with | 0 => w / 2 ^ 32 | 1 => w % 2 | 2 => w / 2 % 2 ^ 30 | _ => w / 2 ^ 31 % 2

/-- ptrd (R132). The record number s[sa] + i is not reduced modulo 2^64: one beyond the path trace reads 0 (the model's reading,
log 49). -/
def execPtrd (a : BitVec 4) (v : BitVec 5) (f p : BitVec 2) (s : State) : Result :=
  onVectorIf s (fun t => t.ty = tF32 || t.ty = 8 || t.ty = tN32) [.main v] (fun s =>
    let t := s.hart s.me
    let base := (s.getS a).toNat
    s.permute (.main v) (fun i =>
      let r := base + i
      some (if r < 512 then
        traceField f.toNat (leNat ((List.range 8).map (fun j => Tab.get 0 t.pt (4096 * p.toNat + 8 * r + j)))) else 0)))

end Sys2Proof.Machine
end

