-- ==== Sys2Proof/Machine/Handles.lean ====
section
/-! DEFINITION. Handles and handle-typed loads and stores (R120, R169, R194 to R206): opcodes 0xB4, 0xB5 and 0xD0 to
0xD2. -/

namespace Sys2Proof.Machine

/-! ### Handle registers (R199 to R201) -/

/-- `n` bytes of a handle image from byte `b`, as a number (R5). -/
def hField (h : BitVec 512) (b n : Nat) : Nat := (h.extractLsb' (8 * b) (8 * n)).toNat

/-- Word w of an image replaced. -/
def hPut (h : BitVec 512) (w : Nat) (v : W64) : BitVec 512 :=
  (h &&& ~~~(BitVec.ofNat 512 ((2 ^ 64 - 1) * 2 ^ (64 * w)))) ||| BitVec.ofNat 512 (v.toNat * 2 ^ (64 * w))

def Hart.handle (t : Hart) (n : Nat) : BitVec 512 := Tab.get 0 t.hd n
def Hart.setHandle (t : Hart) (n : Nat) (v : BitVec 512) : Hart := { t with hd := Tab.put 0 t.hd n v }

def execHset (h b : BitVec 4) (w : BitVec 3) (s : State) : Result :=
  onVector s (fun s => s.modHart s.me (fun t => t.setHandle h.toNat (hPut (t.handle h.toNat) w.toNat (s.getS b))))

def execHsetZ (h : BitVec 4) (s : State) : Result :=
  onVector s (fun s => s.modHart s.me (fun t => t.setHandle h.toNat 0))

/-- One access of `n` bytes at sc = tm by the vector stream, as hld and hst make it (R201): held by the interlock table,
waiting for the link, trapping with no effect, or performed. -/
def State.oneElem (s : State) (ea : W64) (n : Nat) (a : Access) (f : State → State) : Result :=
  if s.conflicts s.me (rangesOf n (a == .store) [ea]) then hold s
  else if !s.linkUp && !s.linkDead && (match s.resolve s.cur ea n a with
      | .ok pl => s.reachesHost (s.coreOf s.cur) false a n pl
      | .error _ => false) then waitLink s
  else match s.elemCheck s.cur false ea n a with
    | some t => s.linkDone.trapWhole t
    | none => .next ((f s.linkDone).modHart s.me (fun t => { t with vstart := 0 })).advance

def execHld (h b : BitVec 4) (s : State) : Result :=
  vmemOp s (fun _ => true) [] (fun s =>
    s.oneElem (s.getS b) 64 .load (fun s =>
      let (bs, s') := s.loadPlace (s.coreOf s.cur) false (s.placeOf (s.getS b) 64 .load) 64
      s'.modHart s'.me (fun t => t.setHandle h.toNat (BitVec.ofNat 512 (leNat bs)))))

def execHst (h b : BitVec 4) (s : State) : Result :=
  vmemOp s (fun _ => true) [] (fun s =>
    s.oneElem (s.getS b) 64 .store (fun s =>
      s.storePlace (s.coreOf s.cur) false (s.placeOf (s.getS b) 64 .store) (leBytes 64 ((s.hart s.me).handle h.toNat).toNat)))

/-! ### Tensor images (R195 to R197) -/

def hKind (h : BitVec 512) : Nat := hField h 63 1
def hEt (h : BitVec 512) : Nat := hField h 62 1
def hLv (h : BitVec 512) : Nat := hField h 61 1
def hSl (h : BitVec 512) : Nat := hField h 60 1
def hUs (h : BitVec 512) : Nat := hField h 59 1
def hLd (h : BitVec 512) : Nat := hField h 44 4
def hNnz (h : BitVec 512) : Nat := hField h 40 4
def hDim1 (h : BitVec 512) : Nat := hField h 36 4
def hDim0 (h : BitVec 512) : Nat := hField h 32 4
def hCrd (h : BitVec 512) : Nat := hField h 24 8
def hPos (h : BitVec 512) : Nat := hField h 16 8
def hScl (h : BitVec 512) : Nat := hField h 8 8
def hVal (h : BitVec 512) : Nat := hField h 0 8

/-- The shapes of R196, read from lv: level 0 in [1:0], level 1 in [3:2], two in [4]. -/
inductive Shape where
  | vec | mat | rows | pairs | tiles
deriving DecidableEq, Repr

def hShape (h : BitVec 512) : Option Shape :=
  match hLv h with
  | 0x00 => some .vec
  | 0x10 => some .mat
  | 0x14 => some .rows
  | 0x19 => some .pairs
  | 0x1C => some .tiles
  | _ => none

/-- The shape walks the position and coordinate arrays. -/
def Shape.walks : Shape → Bool | .vec => false | .mat => false | _ => true

/-- An image is well-formed under R195 and R196. -/
def hOk (h : BitVec 512) : Bool :=
  match hShape h with
  | none => false
  | some sh =>
    hEt h ≤ 13 && hSl h ≤ 2 && (hEt h = tQ4) == decide (hSl h ≠ 0) && hField h 48 11 = 0 && hVal h % 64 = 0
      && (hSl h = 2 || hUs h = 0) && (hSl h = 1 || hScl h = 0)
      && (if sh = .mat then hDim1 h ≤ hLd h else hLd h = 0)
      && (sh ≠ .vec || hDim1 h = 0)
      && (sh.walks || (hCrd h = 0 && hPos h = 0))
      && (sh ≠ .tiles || (hDim0 h % 32 = 0 && hDim1 h % 32 = 0))

/-- The addresses of R203's last check lie below 2^48. -/
def hBelow (h : BitVec 512) (sh : Shape) : Bool :=
  hVal h < 2 ^ 48 && (!sh.walks || (hPos h < 2 ^ 48 && hCrd h < 2 ^ 48))

/-- The stored elements of a tensor: one past the highest entry that an element can lie in. -/
def hEntries (h : BitVec 512) (sh : Shape) : Nat :=
  match sh with
  | .vec => max (hNnz h) (hDim0 h)
  | .mat => max (hNnz h) (hDim0 h * hLd h)
  | .tiles => 1024 * hNnz h
  | _ => hNnz h

/-- The entries of the position and coordinate arrays. -/
def hPosLen (h : BitVec 512) (sh : Shape) : Nat :=
  match sh with | .rows => hDim0 h + 1 | .pairs => 2 | .tiles => hDim0 h / 32 + 1 | _ => 0
def hCrdLen (h : BitVec 512) (sh : Shape) : Nat :=
  match sh with | .rows => hNnz h | .pairs => 2 * hNnz h | .tiles => hNnz h | _ => 0

/-- The bytes of a range that lie from `lo` up to `hi`, as a range of one space, with `lo` at offset `base`. -/
def clip (mem : Bool) (a n lo hi base : Nat) (write : Bool) : List Range :=
  if max a lo < min (a + n) hi then [⟨mem, max a lo - lo + base, min (a + n) hi - 1 - lo + base, write⟩] else []

/-- The ranges of an array of `n` bytes at an address, in the spaces it lies in: bytes of the scratchpad window are scratchpad
bytes, those below and above it memory (R184). -/
def arrayRange (a n : Nat) (write : Bool) : List Range :=
  let top := windowBase + 0x50000
  clip true a n 0 windowBase 0 write ++ clip false a n windowBase top 0 write ++ clip true a n top (a + n) top write

/-- The ranges of vldh and vsth (R206). -/
def hRanges (h : BitVec 512) (sh : Shape) (store : Bool) : List Range :=
  arrayRange (hVal h) ((hEntries h sh * width (hEt h) + 7) / 8) store
    ++ arrayRange (hPos h) (4 * hPosLen h sh) false ++ arrayRange (hCrd h) (4 * hCrdLen h sh) false
    ++ (if hEt h = tQ4 && hSl h = 1 then arrayRange (hScl h) ((hEntries h sh + 31) / 32) store else [])

/-! ### Walking (R196, R203) -/

/-- How far a walk is: the machine as its accesses have left it and as it stood before the instruction, which is what every
element reads (R112), and the bytes that it has accessed. -/
structure Walked where
  now : State
  start : State
  seen : List (Place × Nat) := []

/-- What ends a walk before its end: the trap of its element, or an access that waits for the host link (R304). -/
inductive WalkStop where
  | trap (t : Trap)
  | link

/-- A walk reads memory, and may stop. -/
abbrev Walk := StateT Walked (Except WalkStop)

/-- A handle-operand trap (R205). -/
def handleTrap (d : Nat) : Trap := { cls := 0x0F, detail := BitVec.ofNat 64 d }
def handleFault (d : Nat) : WalkStop := .trap (handleTrap d)

/-- The checks of one access of a walk (R110), which stops where the access must wait for the link: what would come after it in its
element is not known before it has been performed. -/
def walkCheck (home : Bool) (ea : W64) (n : Nat) (a : Access) : Walk Unit := do
  let x ← get
  let s := x.now
  let host : Bool := match s.resolve s.cur ea n a with
    | .ok pl => s.reachesHost (s.coreOf s.cur) home a n pl
    | .error _ => false
  if host && !s.linkUp && !s.linkDead then throw .link
  match s.elemCheck s.cur home ea n a with
  | some t => throw (.trap t)
  | none => set { x with seen := (s.placeOf ea n a, n) :: x.seen }

/-- One checked read of a walk. -/
def walkRead (home : Bool) (ea : W64) (n : Nat) : Walk Nat := do
  walkCheck home ea n .load
  let x ← get
  let s := x.now
  let pl := s.placeOf ea n .load
  set { x with now := (s.loadPlace (s.coreOf s.cur) home pl n).2 }
  return leNat (x.start.loadPlace (s.coreOf s.cur) home pl n).1

/-- Entry x of an n32 array. -/
def walkWord (home : Bool) (base x : Nat) : Walk Nat := walkRead home (BitVec.ofNat 64 (base + 4 * x)) 4

/-- The lowest entry from p on, among `n`, whose coordinate is j. -/
def findOne (home : Bool) (crd j : Nat) : Nat → Nat → Walk (Option Nat)
  | 0, _ => pure none
  | n + 1, p => do
    if (← walkWord home crd p) = j then return some p else findOne home crd j n (p + 1)

/-- The lowest entry from p on, among `n`, whose coordinate pair is (i, j). -/
def findPair (home : Bool) (crd i j : Nat) : Nat → Nat → Walk (Option Nat)
  | 0, _ => pure none
  | n + 1, p => do
    let a ← walkWord home crd (2 * p)
    let b ← walkWord home crd (2 * p + 1)
    if a = i && b = j then return some p else findPair home crd i j n (p + 1)

/-- The span of row x of a position array, checked (R203, detail 4). -/
def posSpan (h : BitVec 512) (home : Bool) (x : Nat) : Walk (Nat × Nat) := do
  let a ← walkWord home (hPos h) x
  let b ← walkWord home (hPos h) (x + 1)
  if b < a || hNnz h < b then throw (handleFault 4) else return (a, b)

/-- The entry that holds a position, or none (R196), after the coordinate checks of R203. -/
def resolvePos (h : BitVec 512) (sh : Shape) (home : Bool) (i j : Nat) : Walk (Option Nat) := do
  if hDim0 h ≤ i || (if sh = .vec then j ≠ 0 else hDim1 h ≤ j) then throw (handleFault 3)
  match sh with
  | .vec => return some i
  | .mat => return some (i * hLd h + j)
  | .rows =>
    let (a, b) ← posSpan h home i
    findOne home (hCrd h) j (b - a) a
  | .pairs =>
    let a ← walkWord home (hPos h) 0
    let b ← walkWord home (hPos h) 1
    if a ≠ 0 || b ≠ hNnz h then throw (handleFault 4)
    findPair home (hCrd h) i j (hNnz h) 0
  | .tiles =>
    let (a, b) ← posSpan h home (i / 32)
    let p ← findOne home (hCrd h) (j / 32) (b - a) a
    return p.map (fun p => 1024 * p + 32 * (i % 32) + j % 32)

/-- The address of the byte or bytes of an entry. -/
def entryAddr (h : BitVec 512) (p : Nat) : W64 := BitVec.ofNat 64 (hVal h + p * width (hEt h) / 8)

/-- The bytes of an entry access: one byte holds two q4 codes. -/
def entryBytes (h : BitVec 512) : Nat := if hEt h = tQ4 then 1 else width (hEt h) / 8

/-- What an element resolves to: its entry, and for q4 the scale byte of the memory block (vldh) or of the register
block (vsth). -/
structure Found where
  entry : Option Nat
  scale : Nat
deriving DecidableEq, Repr, Inhabited

/-- The position of element i (R202). -/
def position (t : Hart) (moves : Bool) (p : VOp) (i : Nat) : Nat × Nat :=
  let x := t.read (moves && t.vstart ≠ 0) p 64 i
  (x % 2 ^ 32, x / 2 ^ 32)

/-- The address of the scale byte of an entry. -/
def scaleAddr (h : BitVec 512) (e : Nat) : W64 := BitVec.ofNat 64 (hScl h + e / 32)

/-- Resolve one element of a vldh; `done` are the elements below it (R203, R204). Its entry is accessed first, then its scale byte, and the
scale compared last (the model's reading, log 52). -/
def loadFind (t : Hart) (h : BitVec 512) (sh : Shape) (p : VOp) (done : List (Nat × Found)) (i : Nat) : Walk Found := do
  let (a, b) := position t true p i
  match ← resolvePos h sh t.home a b with
  | none => return ⟨none, 0⟩
  | some e =>
    walkCheck t.home (entryAddr h e) (entryBytes h) .load
    let sc ← if hSl h = 1 then walkRead t.home (scaleAddr h e) 1 else pure (hUs h)
    if hEt h = tQ4 && done.any (fun d => d.1 / 32 = i / 32 && d.2.entry.isSome && d.2.scale ≠ sc) then throw (handleFault 6)
    return ⟨some e, sc⟩

/-- A stored value is zero (R203: +0 or −0 for floats). -/
def storesZero (t : Hart) (d : VOp) (i : Nat) : Bool :=
  if t.ty = tQ4 then (match decodeQ4 (t.scaleOf false d i) (t.read false d 4 i) with | .fin _ q _ _ => q = 0 | _ => false)
  else
    let v := t.read false d (width t.ty) i
    v = 0 || (t.ty ≤ 4 && v = 2 ^ (width t.ty - 1))

/-- Resolve one element of a vsth. -/
def storeFind (t : Hart) (h : BitVec 512) (sh : Shape) (d p : VOp) (done : List (Nat × Found)) (i : Nat) : Walk Found := do
  let (a, b) := position t false p i
  let r ← resolvePos h sh t.home a b
  if t.ty = tQ4 && t.q4Bad false d i ≠ 0 then throw (.trap (formatTrap (t.q4Bad false d i) (vopElem d i / 32)))
  match r with
  | none => if storesZero t d i then return ⟨none, 0⟩ else throw (handleFault 5)
  | some e =>
    let sc := if t.ty = tQ4 then t.scaleOf false d i else 0
    if hSl h = 2 && sc ≠ hUs h then throw (handleFault 6)
    if hSl h = 1 && done.any (fun x => (match x.2.entry with
        | some e' => decide (e' / 32 = e / 32) && decide (x.2.scale ≠ sc)
        | none => false)) then throw (handleFault 6)
    walkCheck t.home (entryAddr h e) (entryBytes h) .store
    if hSl h = 1 then walkCheck t.home (scaleAddr h e) 1 .store
    return ⟨some e, sc⟩

/-- Resolve some elements in ascending order up to the first that stops. -/
def findAll (f : List (Nat × Found) → Nat → Walk Found) : List Nat → List (Nat × Found) → Walked →
    List (Nat × Found) × Option (Nat × WalkStop) × Walked
  | [], done, s => (done, none, s)
  | i :: l, done, s =>
    match (f done i).run s with
    | .ok (x, s') => findAll f l (done ++ [(i, x)]) s'
    | .error t => (done, some (i, t), s)

/-- The elements below vstart as they resolve now, which the scale checks of R204 look at; they have no effect. -/
def findEarlier (f : List (Nat × Found) → Nat → Walk Found) (s : State) (l : List Nat) : List (Nat × Except WalkStop Found) :=
  l.map (fun i => (i, (f [] i).run { now := s, start := s } |>.map Prod.fst))

/-- What the elements of an instruction have resolved to: those found, the first that fails, the machine after the walks, and the bytes
that they have accessed. -/
structure Search where
  found : List (Nat × Found)
  fail : Option (Nat × Trap)
  now : State
  seen : List (Place × Nat)

/-- The elements of an instruction from vstart on, resolved (R203), or none where it waits for the link (R304). -/
def State.findElems (s : State) (hi : Nat) (f : List (Nat × Found) → Nat → Walk Found) : Option Search :=
  let t := s.hart s.me
  let earlier := if t.ty = tQ4 then findEarlier f s (t.activesIn 0 t.vstart) else []
  if earlier.any (fun e => match e.2 with | .error .link => true | _ => false) then none
  else
    let done := earlier.filterMap (fun e => match e.2 with | .ok x => some (e.1, x) | .error _ => none)
    match findAll f (t.activesIn t.vstart hi) done { now := s, start := s } with
    | (_, some (_, .link), _) => none
    | (found, some (i, .trap tr), x) => some ⟨found, some (i, tr), x.now, x.seen⟩
    | (found, none, x) => some ⟨found, none, x.now, x.seen⟩

/-- The checks of R203 at issue: the detail of the first that fails. -/
def hCheck (t : Hart) (h : BitVec 512) : Option Nat :=
  match hShape h with
  | none => some 1
  | some sh =>
    if hKind h ≠ 1 || !hOk h then some 1 else if t.ty ≠ hEt h then some 2 else if !hBelow h sh then some 1 else none

/-- vldh and vsth after the register checks: the checks at issue, the interlock, then the element work. -/
def handleOp (store : Bool) (d : VOp) (hn : BitVec 4) (p : VOp) (f : State → BitVec 512 → Shape → Nat → Result) (s : State) :
    Result :=
  vmemOp s (fun t => (okB t || t.ty = tQ4) && (store || d.writable)) [d, p] (fun s =>
    let t := s.hart s.me
    let h := t.handle hn.toNat
    match hCheck t h with
    | some e => trapNow s { handleTrap e with elem := t.vstart }
    | none =>
      match hShape h with
      | none => trapNow s { handleTrap 1 with elem := t.vstart }
      | some sh => if s.conflicts s.me (hRanges h sh store) then hold s else f s h sh (min t.vl (t.bytes / 8)))

/-- The value of an entry. -/
def State.entryValue (s : State) (h : BitVec 512) (home : Bool) (e : Nat) : Nat × State :=
  let (bs, s') := s.loadPlace (s.coreOf s.cur) home (s.placeOf (entryAddr h e) (entryBytes h) .load) (entryBytes h)
  (if hEt h = tQ4 then elt 4 (leNat bs) (e % 2) else leNat bs, s')

/-- Element i of a vldh: memory and the image; `s` is the state before the instruction. -/
def loadHandleStep (s : State) (t : Hart) (h : BitVec 512) (found : List (Nat × Found)) (i : Nat) (x : State × Nat) : State × Nat :=
  let w := width t.ty
  if t.active i then
    match (found.find? (fun e => e.1 = i)).bind (fun e => e.2.entry) with
    | some e => ((x.1.entryValue h t.home e).2, setElt w x.2 i (s.entryValue h t.home e).1)
    | none => (x.1, setElt w x.2 i 0)
  else if mZero t.mode then (x.1, setElt w x.2 i 0) else x

/-- The scale store after a vldh of q4 (R139, R204): each block whose elements found an entry takes its scale. A written block with no
entry keeps its scale byte, for R204 names none (the model's choice, log 114). -/
def loadScales (found : List (Nat × Found)) (old : Nat) : Nat :=
  found.foldl (fun m e => if e.2.entry.isSome then setElt 8 m (e.1 / 32) e.2.scale else m) old

/-- The element work of a vldh. -/
def State.loadHandle (s : State) (d p : VOp) (h : BitVec 512) (sh : Shape) (n : Nat) : Result :=
  let m := s.me
  let t := s.hart m
  let w := width t.ty
  let lo := t.vstart
  let hi := s.stopAt m n
  match s.findElems hi (loadFind t h sh p) with
  | none => waitLink s
  | some ⟨found, fail, s0, _⟩ =>
    let e := match fail with | some (i, _) => i | none => hi
    let prior := t.vreg (vopIndex d)
    let (s1, data) := forElems (loadHandleStep s t h found) (e - lo) lo (s0, prior.data)
    let s1 := s1.linkDone
    let t1 := s1.hart m
    let took := if t.ty = tQ4 then found.filter (fun x => lo ≤ x.1) else []
    let img := { t.imageTo prior w lo e data with scale := loadScales took prior.scale }
    let done := t1.putResult d img w lo e (lo ≠ 0)
    let done := if lo = 0 then done else done.setVreg 40 { done.vreg 40 with scale := loadScales took (done.vreg 40).scale }
    match fail with
    | some (i, tr) => .next ((s1.setHart m (if i = 0 then t1 else { done with vstart := i })).takeTrap { tr with elem := i })
    | none => .next ((s1.setHart m done).endElems m hi n)

def execVldh (d : VOp) (hn : BitVec 4) (p : VOp) (s : State) : Result :=
  handleOp false d hn p (fun s h sh n => s.loadHandle d p h sh n) s

/-- The byte at a place that has passed its store check. -/
def State.byteAt (s : State) (home : Bool) (pl : Place) : Nat :=
  match pl with
  | .spad t o => leNat (s.spadRead t o 1)
  | .mem pa => if home then leNat ((s.flush (s.coreOf s.cur) pa 1).home pa 1) else leNat (s.l1Read (s.coreOf s.cur) pa 1)
  | .view _ => 0

/-- Store entry e: the whole entry, or its own nibble of a byte (R203). -/
def State.storeEntry (s : State) (h : BitVec 512) (home : Bool) (pl : Place) (e v : Nat) : State :=
  s.storePlace (s.coreOf s.cur) home pl (if hEt h = tQ4 then leBytes 1 (setElt 4 (s.byteAt home pl) (e % 2) v) else leBytes (entryBytes h) v)

/-- The element work of a vsth. Of several elements that write one place, be it under two page addresses, one stands, and which is
unspecified (R112); the two q4 entries of a byte are two places. -/
def State.storeHandle (s : State) (d p : VOp) (h : BitVec 512) (sh : Shape) (n : Nat) : Result :=
  let m := s.me
  let t := s.hart m
  let hi := s.stopAt m n
  match s.findElems hi (storeFind t h sh d p) with
  | none => waitLink s
  | some ⟨all, fail, s0, _⟩ =>
    let found := all.filter (fun x => t.vstart ≤ x.1)
    let entryOf (i : Nat) : Option Nat := (found.find? (fun x => x.1 = i)).bind (fun x => x.2.entry)
    let acts := (found.filter (fun x => x.2.entry.isSome)).map Prod.fst
    let free := fun i => Config.freeNat (s.fresh + i)
    let at_ (e : Nat) : Place := s0.placeOf (entryAddr h e) (entryBytes h) .store
    let scaleAt (e : Nat) : Place := s0.placeOf (scaleAddr h e) 1 .store
    let placeOf (i : Nat) : Option (Place × Nat) := (entryOf i).map (fun e => (at_ e, if hEt h = tQ4 then e % 2 else 0))
    let scaleOf (i : Nat) : Nat := ((found.find? (fun x => x.1 = i)).map (fun x => x.2.scale)).getD 0
    let put (s' : State) (x : Nat × Found) : State :=
      match x.2.entry with
      | some e =>
        let s' := s'.storeEntry h t.home (at_ e) e (t.read false d (width t.ty) (winner placeOf acts free x.1))
        if hSl h = 1 then
          s'.storePlace (s'.coreOf s'.cur) t.home (scaleAt e)
            (leBytes 1 (scaleOf (winner (fun i => (entryOf i).map scaleAt) acts free x.1)))
        else s'
      | none => s'
    let s1 := (found.foldl put { s0 with fresh := s0.fresh + n }).linkDone
    match fail with
    | some (i, tr) => .next ((s1.modHart m (fun t => { t with vstart := i })).takeTrap { tr with elem := i })
    | none => .next (s1.endElems m hi n)

def execVsth (d : VOp) (hn : BitVec 4) (p : VOp) (s : State) : Result :=
  handleOp true d hn p (fun s h sh n => s.storeHandle d p h sh n) s

end Sys2Proof.Machine
end

