-- ==== Sys2Proof/Machine/Lookup.lean ====
section
/-! DEFINITION. Product-key lookups (R170 to R178): opcodes 0xD3 and 0xD4 and the events LOOKUP_PROBE and
LOOKUP_EXECUTE. -/

namespace Sys2Proof.Machine

/-! ### Pages and pins (R175, R283) -/

/-- The pages of the addresses from `va` to `hi`, or the first address whose page does not translate. -/
def State.pagesFrom (s : State) (core ctx hi : Nat) (a : Access) : Nat → Nat → Except (Nat × TFail) (List Page)
  | 0, _ => .ok []
  | fuel + 1, va =>
    if hi < va then .ok []
    else match s.findPage core ctx va with
      | .error f => .error (va, f)
      | .ok p =>
        match s.useLeaf false p va a with
        | .error f => .error (va, f)
        | .ok _ => (s.pagesFrom core ctx hi a fuel (p.base + p.size)).map (fun l => p :: l)

/-- The pages of `n` bytes from `va`. -/
def State.pagesOf (s : State) (core ctx va n : Nat) (a : Access) : Except (Nat × TFail) (List Page) :=
  if n = 0 then .ok [] else s.pagesFrom core ctx (va + n - 1) a (n / 4096 + 2) va

/-- The pages of several ranges in turn. -/
def State.pagesAll (s : State) (core ctx : Nat) (a : Access) : List (Nat × Nat) → Except (Nat × TFail) (List Page)
  | [] => .ok []
  | (va, n) :: l =>
    match s.pagesOf core ctx va n a with
    | .error e => .error e
    | .ok ps => (s.pagesAll core ctx a l).map (fun qs => ps ++ qs)

/-- Pin pages for a command. -/
def State.pin (s : State) (c : Cmd) (ps : List Page) : State :=
  { s with pins := s.pins ++ ps.eraseDups.map (fun p => ⟨c.hart, c.seq, s.ctxOf c.hart, p.base, p.size, p.leaf⟩) }

/-! ### The table (R170, R171) -/

/-- The fields of a kind-4 image. -/
structure Table where
  key1 : Nat
  key2 : Nat
  val : Nat
  vpitch : Nat
  fv : Nat
  fk : Nat
  wm : Nat
  k : Nat
  vw : Nat
  dw : Nat
  n : Nat
deriving DecidableEq, Repr

def tableOf (h : BitVec 512) : Table :=
  let g := hField h 24 8
  { key1 := hField h 0 8, key2 := hField h 8 8, val := hField h 16 8, vpitch := hField h 32 8, fv := g / 2 ^ 52 % 16,
    fk := g / 2 ^ 48 % 16, wm := g / 2 ^ 47 % 2, k := g / 2 ^ 41 % 64, vw := g / 2 ^ 28 % 8192, dw := g / 2 ^ 16 % 4096,
    n := g % 65536 }

/-- Bytes of a sub-key row, of a query, of a gradient row (Rv), of an output record (RO). -/
def Table.keyBytes (t : Table) : Nat := codeBytes t.fk t.dw
def Table.queryBytes (t : Table) : Nat := codeBytes t.fk (2 * t.dw)
def Table.gradBytes (t : Table) : Nat := (t.vw + 15) / 16 * 64
def Table.recordBytes (t : Table) : Nat := t.gradBytes + (t.k + 7) / 8 * 64

/-- The bytes of the whole value table. -/
def Table.valueBytes (t : Table) : Nat := t.n * t.n * t.vpitch

/-- A table range lies below 2^48 and off the scratchpad window, which no engine may name (R174, R184). -/
def tableRangeOk (a n : Nat) : Bool := a + n ≤ 2 ^ 48 && (a + n ≤ windowBase || windowBase + 0x50000 ≤ a)

/-- The fields are those of R170 and every table range may be named (R174). -/
def tableBad (h : BitVec 512) : Bool :=
  let t := tableOf h
  !(hKind h = 4 && hField h 40 23 = 0 && hField h 31 1 = 0 && t.fv ≤ 2 && t.fk ≤ 4 && 1 ≤ t.k && t.k ≤ 32 && t.k ≤ t.n
    && 1 ≤ t.vw && t.vw ≤ 4096 && 1 ≤ t.dw && t.dw ≤ 2048 && 1 ≤ t.n && t.vpitch % 64 = 0 && codeBytes t.fv t.vw ≤ t.vpitch
    && t.key1 % 64 = 0 && t.key2 % 64 = 0 && t.val % 64 = 0
    && tableRangeOk t.key1 (t.n * t.keyBytes) && tableRangeOk t.key2 (t.n * t.keyBytes) && tableRangeOk t.val t.valueBytes)

/-! ### Issue (R172, R174, R176, R177) -/

/-- The range of `n` bytes of one space; none for no byte. -/
def byteRange (mem : Bool) (a n : Nat) (write : Bool) : List Range := if n = 0 then [] else [⟨mem, a, a + n - 1, write⟩]

/-- The latched operands of a lookup. -/
structure LookupArgs where
  h : BitVec 512
  a : Nat
  r : Nat
  m : Nat
  scale : Nat
  cw : W64
  add : Nat

/-- A check of step 3 of R174 fails. With m = 0 the two scratchpad ranges hold no byte: they lie nowhere and overlap nothing (the
model's reading, log 107). -/
def State.lookupFault (s : State) (update : Bool) (x : LookupArgs) : Bool :=
  let t := tableOf x.h
  let an := x.m * (if update then t.gradBytes else t.queryBytes)
  let rn := x.m * t.recordBytes
  let b := (s.team (teamOf s.me)).bytes
  tableBad x.h || 4096 < x.m || x.a % 64 ≠ 0 || x.r % 64 ≠ 0
    || (x.m ≠ 0 && (b < x.a + an || b < x.r + rn || (!update && x.a < x.r + rn && x.r < x.a + an)))
    || (update && 2 ^ 32 ≤ x.scale) || !s.wordOk s.me x.cw x.add

/-- The interlock ranges (R177). -/
def lookupRanges (update : Bool) (x : LookupArgs) : List Range :=
  let t := tableOf x.h
  if update then
    byteRange false x.a (x.m * t.gradBytes) false ++ byteRange false x.r (x.m * t.recordBytes) false
      ++ byteRange true t.val t.valueBytes true
  else
    byteRange false x.a (x.m * t.queryBytes) false ++ byteRange true t.key1 (t.n * t.keyBytes) false
      ++ byteRange true t.key2 (t.n * t.keyBytes) false ++ byteRange true t.val t.valueBytes false
      ++ byteRange false x.r (x.m * t.recordBytes) true

/-- A lookup instruction. -/
def lookupOp (update : Bool) (h b c d : BitVec 4) (n : BitVec 6) (s : State) : Result :=
  if !s.isVector then trapNow s (illegal .wrongStream)
  else if n = 0 && d ≠ 0 then illegalEngine true s .reservedBit
  else if b = 15 || (update && c = 15) then illegalEngine true s .reservedValue
  else
    let x : LookupArgs := {
      h := (s.hart s.me).handle h.toNat, a := (s.getS b).toNat, r := (s.getS (b + 1)).toNat, m := (s.getS c).toNat,
      scale := if update then (s.getS (c + 1)).toNat else 0, cw := if n = 0 then 0 else s.getS d, add := n.toNat }
    if classKle (s.team (teamOf s.me)).pclass = 0 then s.trapWhole { cls := 0x0D, eng := true }
    else if s.lookupFault update x then s.trapWhole { cls := 0x0E, detail := BitVec.ofNat 64 noElement, eng := true }
    else
      let op : EngOp := if update then .klu x.h x.a x.r x.m x.scale [] else .klq x.h x.a x.r x.m []
      .next (s.issue (s.newCmd op (lookupRanges update x) x.cw x.add .probe))

def execKlq (h b c d : BitVec 4) (n : BitVec 6) (s : State) : Result := lookupOp false h b c d n s
def execKlu (h b c d : BitVec 4) (n : BitVec 6) (s : State) : Result := lookupOp true h b c d n s

/-! ### Scoring, selection and weights (R173) -/

/-- x ranks before y: score descending, equal scores by lower index, a NaN after every number. -/
def ranksBefore (x y : Nat × Nat) : Bool :=
  let a := decodeFloat tF32 x.1
  let b := decodeFloat tF32 y.1
  match a.cmp b with
  | some .gt => true
  | some .lt => false
  | some .eq => x.2 < y.2
  | none => if a = .nan then b = .nan && x.2 < y.2 else true

/-- Insertion in rank order. -/
def rankInsert (x : Nat × Nat) : List (Nat × Nat) → List (Nat × Nat)
  | [] => [x]
  | y :: l => if ranksBefore x y then x :: y :: l else y :: rankInsert x l

/-- The first k of some (score, index) pairs in rank order. -/
def firstRanked (k : Nat) (l : List (Nat × Nat)) : List (Nat × Nat) := (l.foldr rankInsert []).take k

/-- The dot of R173. -/
def keyDot (f : Nat) (x y : List Exact) : Nat := dotOnto 0 (fmtGroup f) (List.zipWith groupProduct x y)

/-- The weights of the selected scores by wm. -/
def weights (wm : Nat) (scores : List Nat) : List Nat :=
  if wm = 0 then scores
  else
    let p := scores.map (fun x => if 0 < x && x ≤ infCode tF32 then x else 0)
    let total := match p with | [] => 0 | a :: l => l.foldl addF32 a
    if total = 0 then p.map (fun _ => 0)
    else p.map (fun x => roundFloat tF32 0 0 false ((decodeFloat tF32 x).div (decodeFloat tF32 total)))

/-- The selection of one query: (index, weight) pairs. -/
def selectOf (t : Table) (s1 s2 : List Nat) : List (Nat × Nat) :=
  let a := firstRanked t.k (s1.zipIdx)
  let b := firstRanked t.k (s2.zipIdx)
  let c := a.flatMap (fun x => b.map (fun y => (addF32 x.1 y.1, x.2 * t.n + y.2)))
  let sel := firstRanked t.k c
  (sel.map Prod.snd).zip (weights t.wm (sel.map Prod.fst))

/-- The values in a list of bytes of a float format, from byte `o`. -/
def valuesAt (f : Nat) (bs : List Byte) (o n : Nat) : List Exact :=
  let d := leNat (bs.drop o)
  (List.range n).map (fun i => decodeFloat f (elt (width f) d i))

/-- The sub-keys of a half, from its bytes. -/
def subKeys (t : Table) (bs : List Byte) : List (List Exact) :=
  (List.range t.n).map (fun a => valuesAt t.fk (bs.drop (a * t.keyBytes)) 0 t.dw)

/-- Every query's selection. -/
def State.selections (s : State) (team : Nat) (t : Table) (query m : Nat) (k1 k2 : List Byte) : List (List (Nat × Nat)) :=
  let a := subKeys t k1
  let b := subKeys t k2
  (List.range m).map (fun q =>
    let x := valuesAt t.fk (s.spadRead team (query + q * t.queryBytes) t.queryBytes) 0 (2 * t.dw)
    selectOf t (a.map (keyDot t.fk (x.take t.dw))) (b.map (keyDot t.fk (x.drop t.dw))))

/-! ### The probe (R175 to R178) -/

def EngOp.isLookup : EngOp → Bool
  | .klq .. => true
  | .klu .. => true
  | _ => false

/-- The controllers of the grade, and the key lookup engines of those that have a channel up (R192). -/
def State.controllers (s : State) : Nat := if s.a48 then 18 else 24
def State.kles (s : State) : Nat :=
  ((List.range s.controllers).filter (fun c => !(s.strec1.getLsbD (2 * c) && s.strec1.getLsbD (2 * c + 1)))).length

/-- A lookup may begin: the commands of its stream before it have been probed, and fewer than L of its team are in
execution (R177). -/
def State.lookupTurn (s : State) (c : Cmd) : Bool :=
  let team := teamOf c.hart
  let running := (s.cmds.filter (fun d => teamOf d.hart = team && d.op.isLookup && d.stage == .run)).length
  decide (running < min (classKle (s.team team).pclass) s.kles)
    && !(s.cmds.takeWhile (fun d => !(d.hart = c.hart && d.seq == c.seq))).any
      (fun d => d.hart = c.hart && d.op.isLookup && d.stage == .probe && d.parked.isNone)

/-- A probe has passed: its pages are pinned, the work is recorded, and the ranges that the command reads no more are
released (R225). -/
def State.probed (s : State) (c : Cmd) (op : EngOp) (pages : List Page) (ranges : List Range) : State :=
  (s.pin c pages).putCmd { c with op := op, stage := .run, k := 0, ranges := ranges }

/-- What a lookup's ranges are once the probe has passed: a klq has read its queries and sub-keys, a klu its records. -/
def Cmd.afterProbe (c : Cmd) : List Range :=
  match c.op with
  | .klq h _ rec m _ => byteRange true (tableOf h).val (tableOf h).valueBytes false ++ byteRange false rec (m * (tableOf h).recordBytes) true
  | .klu h grad _ m _ _ => byteRange false grad (m * (tableOf h).gradBytes) false ++ byteRange true (tableOf h).val (tableOf h).valueBytes true
  | _ => c.ranges

/-- The command holds pins: its sub-key pages were pinned before it parked (R175). -/
def State.hasPins (s : State) (c : Cmd) : Bool := s.pins.any (fun p => p.hart = c.hart && p.seq == c.seq)

/-- The bytes of some range of memory for a command, or the state after it has parked, retired or waited. -/
def State.fetchFor (s : State) (c : Cmd) (va n : Nat) : Except State (List Byte × State) :=
  match s.engineReadAll c (pieces va n) va n with
  | .ok r => .ok r
  | .error (a, .fault f) => .error (s.park c 5 6 a 0 f)
  | .error (a, .poison) => .error (s.retireCmd c 0x06 5 6 a 0 0)
  | .error _ => .error (s.waitAt c)

/-- The pages of the sub-key tables are pinned before the scoring, once: a klq that parked on a value row starts again
from scoring (R175). -/
def State.pinKeys (s : State) (c : Cmd) (t : Table) : Except (Nat × TFail) State :=
  let nk := t.n * t.keyBytes
  if s.hasPins c then .ok s
  else (s.pagesAll (s.coreOfTeam (teamOf c.hart)) (s.ctxOf c.hart) .engRead [(t.key1, nk), (t.key2, nk)]).map (s.pin c)

/-- The probe of a klq with m > 0 (R175). Of several pages that do not translate the entry names the first of key1, key2 and the value
rows, these in the order of the selections (the model's choice, log 116). -/
def State.probeKlq (s : State) (c : Cmd) (h : BitVec 512) (query rec m : Nat) : State :=
  let t := tableOf h
  let nk := t.n * t.keyBytes
  match s.pinKeys c t with
  | .error (a, f) => s.park c 5 6 a 0 f
  | .ok s0 =>
    match (s0.flushRanges c).fetchFor c t.key1 nk with
    | .error s' => s'
    | .ok (k1, s1) =>
      match s1.fetchFor c t.key2 nk with
      | .error s' => s'
      | .ok (k2, s2) =>
        let sel := s2.selections (teamOf c.hart) t query m k1 k2
        let rows := (sel.flatten.map Prod.fst).eraseDups
        match s2.pagesAll (s.coreOfTeam (teamOf c.hart)) (s.ctxOf c.hart) .engRead
            (rows.map (fun r => (t.val + r * t.vpitch, t.vw * width t.fv / 8))) with
        | .error (a, f) => s2.park c 5 6 a 0 f
        | .ok qs => s2.probed c (.klq h query rec m sel) qs c.afterProbe

/-- The row steps that the records of a klu name, in (q, j) order: query, row and weight. -/
def State.updateWork (s : State) (team : Nat) (t : Table) (rec m : Nat) : List (Nat × Nat × Nat) :=
  (List.range m).flatMap (fun q => (List.range t.k).map (fun j =>
    let x := leNat (s.spadRead team (rec + q * t.recordBytes + t.gradBytes + 8 * j) 8)
    (q, x % 2 ^ 32, x / 2 ^ 32)))

/-- The probe of a klu with m > 0. -/
def State.probeKlu (s : State) (c : Cmd) (h : BitVec 512) (grad rec m sc : Nat) : State :=
  let t := tableOf h
  let core := s.coreOfTeam (teamOf c.hart)
  let work := s.updateWork (teamOf c.hart) t rec m
  match work.zipIdx.find? (fun e => t.n * t.n ≤ e.1.2.1) with
  | some e => s.retireCmd c 0x0E 0 0 0 e.1.1 (BitVec.ofNat 64 (e.1.1 + e.2 % t.k * 2 ^ 32))
  | none =>
    let rows := (work.map (fun e => e.2.1)).eraseDups
    match s.pagesAll core (s.ctxOf c.hart) .engWrite (rows.map (fun r => (t.val + r * t.vpitch, t.vw * width t.fv / 8))) with
    | .error (a, f) => s.park c 6 6 a 0 f
    | .ok ps => s.probed c (.klu h grad rec m sc work) ps c.afterProbe

/-- LOOKUP_PROBE (R175, R176). -/
def execLookupProbe (h seq : Nat) (s : State) : Result :=
  match s.cmd? h seq with
  | none => .next s
  | some c =>
    if c.stage ≠ .probe || c.parked.isSome || (s.team (teamOf h)).st ≠ .resident || !s.mayMove c || !s.lookupTurn c then .next s
    else match c.op with
      | .klq hd query rec m _ => .next (if m = 0 then s.probed c c.op [] [] else s.probeKlq c hd query rec m)
      | .klu hd grad rec m sc _ => .next (if m = 0 then s.probed c c.op [] [] else s.probeKlu c hd grad rec m sc)
      | _ => .next s

/-! ### Execution -/

/-- The fused accumulation of R173. -/
def fusedF32 (acc w : Nat) (v : Exact) : Nat :=
  roundFloat tF32 0 0 false (((decodeFloat tF32 w).mul v).add 0 (decodeFloat tF32 acc))

/-- Some value rows of a table, in turn, or the piece that fails. -/
def State.readRows (s : State) (c : Cmd) (t : Table) : List Nat → Except (Nat × Piece Unit) (List (List Exact) × State)
  | [] => .ok ([], s)
  | r :: l =>
    let va := t.val + r * t.vpitch
    let n := t.vw * width t.fv / 8
    match s.engineReadAll c (pieces va n) va n with
    | .error e => .error e
    | .ok (bs, s1) =>
      match s1.readRows c t l with
      | .error e => .error e
      | .ok (rest, s2) => .ok (valuesAt t.fv bs 0 t.vw :: rest, s2)

/-- The bytes of an output record (R171, R173). -/
def recordBytesOf (t : Table) (sel : List (Nat × Nat)) (rows : List (List Exact)) : List Byte :=
  let outs := (List.range t.vw).map (fun e =>
    (sel.zip rows).foldl (fun acc x => fusedF32 acc x.1.2 (x.2.getD e (.fin false 0 0 false))) 0)
  let head := outs.flatMap (leBytes 4)
  let tail := sel.flatMap (fun x => leBytes 8 (x.1 % 2 ^ 32 + x.2 * 2 ^ 32))
  head ++ List.replicate (t.gradBytes - head.length) 0 ++ tail
    ++ List.replicate (t.recordBytes - t.gradBytes - tail.length) 0

/-- One row step of a klu: the new bytes of a value row (R176). -/
def stepRow (t : Table) (sc w : Nat) (grad : List Exact) (row : List Exact) : List Byte :=
  let m := roundFloat tF32 0 0 false ((decodeFloat tF32 sc).mul (decodeFloat tF32 w))
  (row.zip grad).flatMap (fun e =>
    leBytes (width t.fv / 8) (roundFloat t.fv 0 0 false (((decodeFloat tF32 m).mul e.2).add 0 e.1)))

/-! ### Poison met while a command runs: what is left is done or not done, as free values say (R7, R175, R176, R210; log 92) -/

/-- A step that is performed or left out. -/
def State.maybe (s : State) (f : State → State) : State :=
  let s' := { s with fresh := s.fresh + 1 }
  if Config.freeNat s.fresh % 2 = 1 then f s' else s'

/-- The records of a klq from query k on: each whole or unchanged; one whose rows meet poison is unchanged. -/
def State.looseRecords (s : State) (c : Cmd) (t : Table) (rec : Nat) (sel : List (List (Nat × Nat))) (k m : Nat) : State :=
  (List.range (m - k)).foldl (fun s i => s.maybe (fun s =>
    let mine := sel.getD (k + i) []
    match s.readRows c t (mine.map Prod.fst) with
    | .ok (rows, s1) => s1.spadWrite (teamOf c.hart) (rec + (k + i) * t.recordBytes) (recordBytesOf t mine rows)
    | .error _ => s)) s

/-- One element step: the bytes at an address become a function of what stands there, unless they meet poison. -/
def State.looseElement (s : State) (c : Cmd) (va n : Nat) (f : List Byte → List Byte) : State :=
  s.maybe (fun s => match s.engineRead c va n with
    | .ok (bs, s1) => match s1.engineWrite c va (f bs) with | .ok s2 => s2 | _ => s1
    | _ => s)

/-- The element steps of a klu from row step k on, each performed once or not at all. -/
def State.looseUpdates (s : State) (c : Cmd) (t : Table) (grad sc : Nat) (work : List (Nat × Nat × Nat)) : State :=
  let n := width t.fv / 8
  work.foldl (fun s x => (List.range t.vw).foldl (fun s e =>
    let g := valuesAt tF32 (s.spadRead (teamOf c.hart) (grad + x.1 * t.gradBytes + 4 * e) 4) 0 1
    s.looseElement c (t.val + x.2.1 * t.vpitch + e * n) n (fun bs => stepRow t sc x.2.2 g (valuesAt t.fv bs 0 1))) s) s

/-- A lookup command retired by poison at an address. -/
def State.lookupPoisoned (s : State) (c : Cmd) (va : Nat) : State :=
  match c.op with
  | .klq h _ rec m sel => (s.looseRecords c (tableOf h) rec sel c.k m).retireCmd c 0x06 5 6 va 0 0
  | .klu h grad _ _ sc work => (s.looseUpdates c (tableOf h) grad sc (work.drop c.k)).retireCmd c 0x06 3 6 va 0 0
  | _ => s

/-- The next query of a klq, or the next row step of a klu. -/
def State.lookupStep (s : State) (c : Cmd) : State :=
  let team := teamOf c.hart
  match c.op with
  | .klq h _ rec _ sel =>
    let t := tableOf h
    let mine := sel.getD c.k []
    match s.readRows c t (mine.map Prod.fst) with
    | .error (a, .fault f) => s.park c 5 6 a 0 f
    | .error (a, .poison) => s.lookupPoisoned c a
    | .error _ => s.waitAt c
    | .ok (rows, s1) =>
      (s1.spadWrite team (rec + c.k * t.recordBytes) (recordBytesOf t mine rows)).putCmd { c with k := c.k + 1 }
  | .klu h grad _ _ sc work =>
    let t := tableOf h
    let (q, r, w) := work.getD c.k (0, 0, 0)
    let va := t.val + r * t.vpitch
    match s.engineReadAll c (pieces va t.vpitch) va (t.vw * width t.fv / 8) with
    | .error (a, .fault f) => s.park c 6 6 a 0 f
    | .error (a, .poison) => s.lookupPoisoned c a
    | .error _ => s.waitAt c
    | .ok (bs, s1) =>
      let g := valuesAt tF32 (s1.spadRead team (grad + q * t.gradBytes) (4 * t.vw)) 0 t.vw
      match s1.engineWriteAll c (pieces va t.vpitch) va (stepRow t sc w g (valuesAt t.fv bs 0 t.vw)) with
      | .error (a, .fault f) => s1.park c 6 6 a 0 f
      | .error _ => s1.waitAt c
      | .ok s2 => s2.putCmd { c with k := c.k + 1 }
  | _ => s

/-- The steps of a lookup: queries of a klq, row steps of a klu. -/
def EngOp.steps : EngOp → Nat
  | .klq _ _ _ m _ => m
  | .klu _ _ _ _ _ work => work.length
  | .gix _ _ _ _ _ rows => rows.length
  | .six _ _ _ _ _ rows _ => rows.length
  | _ => 0

/-- A command whose steps are all done goes on to its completion add. -/
def State.stepsDone (s : State) (h seq : Nat) : State :=
  match s.cmd? h seq with
  | some c => if c.stage = .run && c.parked.isNone && c.op.steps ≤ c.k then s.payloadDone c else s
  | none => s

/-- LOOKUP_EXECUTE (R173, R176). -/
def execLookupExecute (h seq : Nat) (s : State) : Result :=
  match s.cmd? h seq with
  | none => .next s
  | some c =>
    if c.stage ≠ .run || c.parked.isSome || !s.mayMove c || !c.op.isLookup then .next s
    else if c.op.steps ≤ c.k then .next (s.payloadDone c)
    else .next (((if c.k = 0 then s.flushRanges c else s).lookupStep c).stepsDone h seq)

end Sys2Proof.Machine
end

