-- ==== Sys2Proof/Machine/Index.lean ====
section
/-! DEFINITION. The index engines (R207 to R213): opcodes 0xD5 to 0xD7 and the events INDEX_PROBE_PASS and
INDEX_MOVE. -/

namespace Sys2Proof.Machine

/-- The row size of a code, and the alignment it asks for (R207, R209). -/
def rowSize (z : BitVec 4) : Nat := 2 ^ z.toNat
def rowAlign (z : BitVec 4) : Nat := min (rowSize z) 64

/-- The index of element i (R207: t gives the index width). -/
def indexOfElem (t : Hart) (v : BitVec 5) (i : Nat) : Nat := t.read false (.main v) (width t.ty) i

/-- t is n32 or n64. -/
def okIndex (t : Hart) : Bool := t.ty = tN32 || t.ty = tN64

/-- The address of the row of an index. -/
def rowAddr (base pitch x : Nat) : Nat := base + x * pitch

/-- A bad index (R210): at or above the bound, or a row that leaves 0 to 2^48 − 1 or meets the scratchpad window. -/
def indexBad (base pitch bound z x : Nat) : Bool :=
  bound ≤ x || 2 ^ 48 < rowAddr base pitch x + z
    || (rowAddr base pitch x < windowBase + 0x50000 && windowBase < rowAddr base pitch x + z)

/-- The indices of the active elements below vl, numbered k (R207). -/
def Hart.rowsOfIndex (t : Hart) (v : BitVec 5) : List Nat := (t.activesIn 0 t.vl).map (indexOfElem t v)

/-- probe (R211). -/
def execProbe (a : BitVec 4) (kd : BitVec 3) (c : BitVec 4) (v : BitVec 5) (z : BitVec 4) (s : State) : Result :=
  onVectorIf s (fun t => okIndex t && a ≠ 15 && z.toNat ≤ 12) [.main v] (fun s =>
    let t := s.hart s.me
    let base := (s.getS a).toNat
    let bound := (s.getS (a + 1)).toNat
    let pitch := (s.getS c).toNat
    let core := s.coreOf s.cur
    let fails (x : Nat) : Bool := indexBad base pitch bound (rowSize z) x
      || !(s.pagesOf core (s.ctxOf s.me) (rowAddr base pitch x) (rowSize z) .engRead).isOk
    let bits := forElems (fun i m => setBit m i (t.active i && fails (indexOfElem t v i))) t.vl 0 (Tab.get 0 t.k kd.toNat)
    (s.modHart s.me (fun t => { t with k := Tab.put 0 t.k kd.toNat bits, vstart := 0 })).advance)

/-- A check of R209 fails. -/
def State.indexFault (s : State) (base pitch pack c : Nat) (z : BitVec 4) (cw : W64) (op : Nat) : Bool :=
  base % rowAlign z ≠ 0 || pitch % rowAlign z ≠ 0 || pack % rowAlign z ≠ 0
    || (c ≠ 0 && (s.team (teamOf s.me)).bytes < pack + c * rowSize z)
    || !s.wordOk s.me cw (if cw = 0 then 0 else 1)
    || (op = 1 && rowSize z < 4) || (op = 2 && rowSize z < 2)

/-- The memory hull and the packed range (R212). -/
def indexRanges (base pitch z pack : Nat) (rows : List Nat) (store : Bool) : List Range :=
  spanOf true z store (rows.map (rowAddr base pitch)) ++ byteRange false pack (rows.length * z) (!store)

/-- gix and six at issue. -/
def indexOp (store : Bool) (a b c : BitVec 4) (v : BitVec 5) (z : BitVec 4) (op : Nat) (s : State) : Result :=
  engineOp false s (fun t => okIndex t && a ≠ 15 && b ≠ 15 && z.toNat ≤ 12 && op ≤ 2) [.main v] (fun s =>
    let rows := (s.hart s.me).rowsOfIndex v
    let base := (s.getS a).toNat
    let bound := (s.getS (a + 1)).toNat
    let pitch := (s.getS c).toNat
    let pack := (s.getS b).toNat
    let cw := s.getS (b + 1)
    if s.indexFault base pitch pack rows.length z cw op then
      s.trapWhole { cls := 0x10, detail := BitVec.ofNat 64 noElement, eng := true }
    else
      let e : EngOp := if store then .six base pitch bound (rowSize z) pack rows op else .gix base pitch bound (rowSize z) pack rows
      .next (s.issue (s.newCmd e (indexRanges base pitch (rowSize z) pack rows store) cw (if cw = 0 then 0 else 1) .probe)))

def execGix (a b c : BitVec 4) (v : BitVec 5) (z : BitVec 4) (s : State) : Result := indexOp false a b c v z 0 s
def execSix (a b c : BitVec 4) (v : BitVec 5) (o : BitVec 2) (z : BitVec 4) (s : State) : Result :=
  indexOp true a b c v z o.toNat s

/-! ### The probe pass (R210) -/

/-- The pages of the rows from number k on; a row that does not translate names its k. -/
def State.rowPages (s : State) (core ctx base pitch z : Nat) (a : Access) : Nat → List Nat →
    Except (Nat × Nat × TFail) (List Page)
  | _, [] => .ok []
  | k, x :: l =>
    match s.pagesOf core ctx (rowAddr base pitch x) z a with
    | .error (va, f) => .error (k, va, f)
    | .ok ps => (s.rowPages core ctx base pitch z a (k + 1) l).map (fun qs => ps ++ qs)

/-- The probe pass of an index command. -/
def State.probeIndex (s : State) (c : Cmd) (base pitch bound z : Nat) (rows : List Nat) (a : Access) : State :=
  match rows.zipIdx.find? (fun e => indexBad base pitch bound z e.1) with
  | some e => s.retireCmd c 0x10 0 0 0 e.2 (BitVec.ofNat 64 e.2)
  | none =>
    match s.rowPages (s.coreOfTeam (teamOf c.hart)) (s.ctxOf c.hart) base pitch z a 0 rows with
    | .error (k, va, f) => s.park c a.code 6 va k f
    | .ok ps => s.probed c c.op ps c.ranges

def EngOp.isIndex : EngOp → Bool
  | .gix .. => true
  | .six .. => true
  | _ => false

/-- An older index command of the hart is still to be probed and is not parked. -/
def State.unprobed (s : State) (c : Cmd) : Bool :=
  (s.cmds.takeWhile (fun d => !(d.hart = c.hart && d.seq == c.seq))).any
    (fun d => d.hart = c.hart && d.op.isIndex && d.stage == .probe && d.parked.isNone)

/-- INDEX_PROBE_PASS (R210): the commands of a stream are probed in order (R178, R212). -/
def execIndexProbePass (h seq : Nat) (s : State) : Result :=
  match s.cmd? h seq with
  | none => .next s
  | some c =>
    if c.stage ≠ .probe || c.parked.isSome || (s.team (teamOf h)).st ≠ .resident || !s.mayMove c || s.unprobed c then .next s
    else match c.op with
      | .gix base pitch bound z _ rows => .next (s.probeIndex c base pitch bound z rows .engRead)
      | .six base pitch bound z _ rows _ => .next (s.probeIndex c base pitch bound z rows .engWrite)
      | _ => .next s

/-! ### Moving rows (R208) -/

/-- The bytes of a row after a scatter of the packed bytes. -/
def scatterBytes (op : Nat) (row pack : List Byte) : List Byte :=
  let n := row.length
  match op with
  | 0 => pack
  | 1 => (List.range (n / 4)).flatMap (fun i => leBytes 4 (addF32 (elt 32 (leNat row) i) (elt 32 (leNat pack) i)))
  | _ => (List.range (n / 2)).flatMap (fun i => leBytes 2 (roundFloat tBf16 0 0 false
      ((decodeFloat tBf16 (elt 16 (leNat row) i)).add 0 (decodeFloat tBf16 (elt 16 (leNat pack) i)))))

/-- The pieces of a gathered row from byte `o` of it on, each whole or unchanged; `fuel` bounds them. -/
def State.loosePieces (s : State) (c : Cmd) (va pack : Nat) : Nat → Nat → State
  | 0, _ => s
  | fuel + 1, n =>
    let m := pieceLen va n
    if n = 0 then s
    else
      (s.maybe (fun s => match s.engineRead c va m with
        | .ok (bs, s1) => s1.spadWrite (teamOf c.hart) pack bs
        | _ => s)).loosePieces c (va + m) (pack + m) fuel (n - m)

/-- The rows of a gather from row k on, piece by piece. -/
def State.looseRows (s : State) (c : Cmd) (base pitch z pack : Nat) (rows : List Nat) : State :=
  (rows.zipIdx.drop c.k).foldl (fun s e =>
    let va := rowAddr base pitch e.1
    s.loosePieces c va (pack + e.2 * z) (pieces va z) z) s

/-- The element steps of an adding scatter from row k on. -/
def State.looseAdds (s : State) (c : Cmd) (base pitch z pack op : Nat) (rows : List Nat) : State :=
  let n := if op = 1 then 4 else 2
  (rows.zipIdx.drop c.k).foldl (fun s e => (List.range (z / n)).foldl (fun s i =>
    let src := s.spadRead (teamOf c.hart) (pack + e.2 * z + i * n) n
    s.looseElement c (rowAddr base pitch e.1 + i * n) n (fun bs => scatterBytes op bs src)) s) s

/-- An index command retired by poison at an address of its row k. -/
def State.indexPoisoned (s : State) (c : Cmd) (k va : Nat) : State :=
  match c.op with
  | .gix base pitch _ z pack rows => (s.looseRows c base pitch z pack rows).retireCmd c 0x06 5 6 va k 0
  | .six base pitch _ z pack rows op => (s.looseAdds c base pitch z pack op rows).retireCmd c 0x06 3 6 va k 0
  | _ => s

/-- The memory that step i of a lookup or index command reads: addresses and lengths. -/
def EngOp.readsOf (o : EngOp) (i : Nat) : List (Nat × Nat) :=
  let row (h : BitVec 512) (r : Nat) : Nat × Nat :=
    let t := tableOf h
    (t.val + r * t.vpitch, t.vw * width t.fv / 8)
  match o with
  | .klq h _ _ _ sel => (sel.getD i []).map (fun x => row h x.1)
  | .klu h _ _ _ _ work => [row h (work.getD i (0, 0, 0)).2.1]
  | .gix base pitch _ z _ rows => [(rowAddr base pitch (rows.getD i 0), z)]
  | .six base pitch _ z _ rows op => if op = 0 then [] else [(rowAddr base pitch (rows.getD i 0), z)]
  | _ => []

/-- The first of the steps still to do that meets poison, with the address. -/
def State.poisonAhead (s : State) (c : Cmd) : Option (Nat × Nat) :=
  (List.range (c.op.steps - c.k)).findSome? (fun i => (c.op.readsOf (c.k + i)).findSome? (fun x =>
    match s.engineReadAll c (pieces x.1 x.2) x.1 x.2 with
    | .error (a, .poison) => some (c.k + i, a)
    | _ => none))

/-- A lookup or index command whose steps have no order among themselves meets poison ahead of its next step. -/
def State.meetAhead (s : State) (h seq : Nat) : State :=
  match s.cmd? h seq with
  | none => s
  | some c =>
    if c.stage ≠ .run || c.parked.isSome || !s.mayMove c then s
    else match s.poisonAhead c with
      | none => s
      | some (k, a) => if c.op.isLookup then s.lookupPoisoned c a else s.indexPoisoned c k a

/-- Row c.k of a gather or a scatter. -/
def State.indexStep (s : State) (c : Cmd) : State :=
  let team := teamOf c.hart
  match c.op with
  | .gix base pitch _ z pack rows =>
    let va := rowAddr base pitch (rows.getD c.k 0)
    match s.engineReadAll c (pieces va z) va z with
    | .error (a, .fault f) => s.park c 5 6 a c.k f
    | .error (a, .poison) => s.indexPoisoned c c.k a
    | .error _ => s.waitAt c
    | .ok (bs, s1) => (s1.spadWrite team (pack + c.k * z) bs).putCmd { c with k := c.k + 1 }
  | .six base pitch _ z pack rows op =>
    let va := rowAddr base pitch (rows.getD c.k 0)
    let src := s.spadRead team (pack + c.k * z) z
    let old := if op = 0 then .ok (src, s) else s.engineReadAll c (pieces va z) va z
    match old with
    | .error (a, .fault f) => s.park c 6 6 a c.k f
    | .error (a, .poison) => s.indexPoisoned c c.k a
    | .error _ => s.waitAt c
    | .ok (bs, s1) =>
      match s1.engineWriteAll c (pieces va z) va (scatterBytes op bs src) with
      | .error (a, .fault f) => s1.park c 6 6 a c.k f
      | .error _ => s1.waitAt c
      | .ok s2 => s2.putCmd { c with k := c.k + 1 }
  | _ => s

/-- INDEX_MOVE (R208). -/
def execIndexMove (h seq : Nat) (s : State) : Result :=
  match s.cmd? h seq with
  | none => .next s
  | some c =>
    if c.stage ≠ .run || c.parked.isSome || !s.mayMove c || !c.op.isIndex then .next s
    else if c.op.steps ≤ c.k then .next (s.payloadDone c)
    else .next (((if c.k = 0 then s.flushRanges c else s).indexStep c).stepsDone h seq)

end Sys2Proof.Machine
end

