-- ==== Sys2Proof/Machine/Stream.lean ====
section
/-! DEFINITION. Branches, jumps, the instructions that speak to the vector stream, and the start of a block (R14 to R18,
R29 to R31, R66 to R73, R277, R298, R299): opcodes 0x30 to 0x3B, 0xF2 to 0xF5 and 0xFA, and the events BLOCK_START,
LANE_GROUP_RETURN and YIELD_WAIT_END. -/

namespace Sys2Proof.Machine

/-! ### Branches and jumps (R58, R66, R67) -/

/-- One past the highest address a party may name (R58, R296). -/
def State.topOf (s : State) : Party → Nat
  | .verge n => if entryPa (s.verge n).vroot = 0 then 2 ^ 52 else 2 ^ 48
  | _ => 2 ^ 48

/-- Go to a target after its checks, with another effect; a target that fails them changes nothing. -/
def State.jumpTo (s : State) (t : W64) (f : State → State) : Result :=
  if s.topOf s.cur ≤ t.toNat then trapNow s { cls := 0x02, addr := t }
  else if t.toNat % s.wordBytes s.cur ≠ 0 then trapNow s { cls := 0x04, addr := t }
  else .next ((f s).setPc s.cur t)

/-- The address a signed word offset names from the pc. -/
def State.target (s : State) (o : Int) : W64 := s.pcOf s.cur + BitVec.ofInt 64 (o * s.wordBytes s.cur)

/-- A branch: taken, or on to the next word. -/
def branchOp (c : W64 → W64 → Bool) (a b : BitVec 5) (o : BitVec 14) (s : State) : Result :=
  if !s.isControl then trapNow s (illegal .wrongStream)
  else if c (s.getX a) (s.getX b) then s.jumpTo (s.target o.toInt) id
  else .next s.advance

def execBeq (a b : BitVec 5) (o : BitVec 14) (s : State) : Result := branchOp (fun x y => x == y) a b o s
def execBne (a b : BitVec 5) (o : BitVec 14) (s : State) : Result := branchOp (fun x y => x != y) a b o s
def execBlt (a b : BitVec 5) (o : BitVec 14) (s : State) : Result := branchOp (fun x y => decide (x.toInt < y.toInt)) a b o s
def execBge (a b : BitVec 5) (o : BitVec 14) (s : State) : Result := branchOp (fun x y => decide (y.toInt ≤ x.toInt)) a b o s
def execBltu (a b : BitVec 5) (o : BitVec 14) (s : State) : Result := branchOp (fun x y => decide (x.toNat < y.toNat)) a b o s
def execBgeu (a b : BitVec 5) (o : BitVec 14) (s : State) : Result := branchOp (fun x y => decide (y.toNat ≤ x.toNat)) a b o s

/-- The address of the next word. -/
def State.link (s : State) : W64 := s.pcOf s.cur + BitVec.ofNat 64 (s.wordBytes s.cur)

def execJal (d : BitVec 5) (o : BitVec 19) (s : State) : Result :=
  if s.isControl then s.jumpTo (s.target o.toInt) (fun s => s.putX d s.link) else trapNow s (illegal .wrongStream)

def execJalr (d a : BitVec 5) (i : BitVec 14) (s : State) : Result :=
  if s.isControl then s.jumpTo (s.getX a + i.signExtend 64) (fun s => s.putX d s.link) else trapNow s (illegal .wrongStream)

/-! ### Releases and acquires of a control stream (R234, R235) -/

/-- A command of a hart has not passed translation (R234 step 2). -/
def State.untranslated (s : State) (h : Nat) : Bool :=
  s.cmds.any (fun c => c.hart = h && (c.op.isCopy || c.stage == .probe))

/-- A release at a scope by the executing party (R234, R188): a wait ends when the earlier accesses have passed
translation and, at sy, when the host window's bytes are acknowledged. -/
def releaseM (sc : Scope) : M Unit := do
  let s ← get
  if s.isHartControl && s.untranslated s.me then waitHere
  modify fun s => s.release (s.coreOf s.cur) sc
  let s ← get
  if sc = .sy && s.linkPending then waitHere

/-- The acquire effect of R235. -/
def acquireM (sc : Scope) : M Unit := modify fun s => s.acquire (s.coreOf s.cur) sc

/-! ### The vector stream as the control stream sees it (R15, R17, R30) -/

/-- The vector stream of a hart is idle (R30). -/
def State.idle (s : State) (h : Nat) : Bool := (s.hart h).blockQ.isEmpty && (s.hart h).block.isNone && !s.descending h

/-- The image of a team's code has translated code (R317). -/
def State.translated (s : State) (team : Nat) : Bool :=
  match (s.team team).image with
  | some i => s.images.any (fun m => m.id = i && m.translated)
  | none => false

/-- vgo (R68): the fetch of the block's words sees the stores before it (R69). -/
def execVgo (o : BitVec 19) (s : State) : Result :=
  let b := s.target o.toInt
  if !s.isHartControl then trapNow s (illegal .wrongStream)
  else if 2 ^ 48 ≤ b.toNat then trapNow s { cls := 0x02, addr := b }
  else if b.toNat % 64 ≠ 0 then trapNow s (illegal .reservedValue)
  else if 16 ≤ (s.hart s.me).blockQ.length then .next s
  else
    let h := s.me
    let q : Block := ⟨b.setWidth 48, (List.range 8).map (fun i => s.readX s.cur (10 + i)), (s.hart h).cpc⟩
    .next ((s.dropCode (s.coreOf s.cur)).modHart h (fun t =>
      { t with blockQ := t.blockQ ++ [q], fastC := t.fastC || s.translated (teamOf h) })).advance

/-- rqpop (R70). -/
def execRqpop (d : BitVec 5) (s : State) : Result :=
  if !s.isHartControl then trapNow s (illegal .wrongStream)
  else match (s.hart s.me).replyQ with
    | [] => .next s
    | w :: rest => .next ((s.modHart s.me (fun t => { t with replyQ := rest })).putX d w).advance

/-! ### Lane groups (R29 to R31) -/

/-- The harts of the teams that stand on a core. -/
def State.hartsOn (s : State) (core : Nat) : List Nat :=
  (((List.range s.nteam).filter (fun t => s.onCore (8 * t) && (s.team t).core = core)).map
    (fun t => (List.range (s.team t).nharts).map (· + 8 * t))).flatten

/-- A hart that has exited and returned its groups (R29). -/
def Hart.returned (t : Hart) : Bool := t.exited && t.groups = 0

/-- The groups of a core that no hart but `h` holds. -/
def State.freeGroups (s : State) (core h : Nat) : List Nat :=
  let others := (s.hartsOn core).filter (· ≠ h)
  (List.range 16).filter (fun g => !others.any (fun j => (s.hart j).groups.testBit g))

/-- What is owed to the other harts of a core below their minimum. -/
def State.owedGroups (s : State) (core h : Nat) : Nat :=
  (((s.hartsOn core).filter (fun j => j ≠ h && !(s.hart j).returned)).map
    (fun j => (s.team (teamOf j)).lgmin - popBelow (s.hart j).groups 16)).sum

/-- A set of group numbers. -/
def groupSet (l : List Nat) : Nat := l.foldl (fun m g => setBit m g true) 0

/-- The groups that steps 2 to 4 of R29 leave for a hart. -/
def State.grantFor (s : State) (h : Nat) : Nat :=
  let core := s.coreOfTeam (teamOf h)
  min (s.team (teamOf h)).lgmax ((s.freeGroups core h).length - s.owedGroups core h)

/-- A hart with the grant of R29, its old groups returned first: never below the team's minimum, which a hart that has held its
minimum always finds free (the model's reading where what is owed would leave less, log 103). -/
def State.withGrant (s : State) (h : Nat) : State :=
  let got := (s.freeGroups (s.coreOfTeam (teamOf h)) h).take (max (s.team (teamOf h)).lgmin (s.grantFor h))
  s.modHart h (fun t => { t with groups := groupSet got, lg := got.length })

/-- A hart of a placed team that has had no start grant yet (R14, R29). -/
def Hart.awaitsGrant (t : Hart) : Bool := t.resident && t.lg = 0 && !t.exited

/-- The start grant of a hart, once R29 leaves it its minimum (log 103). -/
def State.startGrant (s : State) (h : Nat) : State :=
  if (s.hart h).awaitsGrant && (s.team (teamOf h)).lgmin ≤ s.grantFor h then s.withGrant h else s

/-- The vector-stream registers that R20 resets after vsetl. -/
def Hart.resetVector (t : Hart) : Hart :=
  { t with v := [], lold := {}, k := [], fm := 0, mode := 0, vl := 0, vstart := 0, blockQ := [], latch := none, loops := [],
           check := false }

/-- vsetl (R71). -/
def execVsetl (d a : BitVec 5) (i : BitVec 14) (s : State) : Result :=
  let c := s.getX a + i.signExtend 64
  if !s.isHartControl then trapNow s (illegal .wrongStream)
  else if c = 0 || 32 < c.toNat then trapNow s (illegal .reservedValue)
  else if !s.idle s.me then .next s
  else
    let h := s.me
    let s1 := (s.modHart h (fun t => { t.resetVector with n := 8 * ((c.toNat + 7) / 8) })).withGrant h
    .next (s1.putX d (BitVec.ofNat 64 (s1.hart h).lg)).advance

/-- What vdrain performs (R72). -/
def drainM (sc : Scope) : M Unit := do
  let s ← get
  if !s.idle s.me || s.cmds.any (fun c => c.hart = s.me) then waitHere
  releaseM sc
  acquireM sc

def execVdrain (sc : Scope) (s : State) : Result := hartOp s (drainM sc)

/-- BLOCK_START (R16, R317). -/
def State.blockStart (s : State) (h : Nat) : State :=
  let t := s.hart h
  if !s.running h || t.block.isSome then s
  else match t.blockQ with
    | [] => s
    | b :: rest =>
      s.setHart h { t with
        blockQ := rest, block := some b, vpc := b.addr, mode := 0, vl := 0, vstart := 0, latch := none, check := false,
        s := (List.range 8).foldl (fun m i => Tab.put 0 m i (b.args.getD i 0)) t.s,
        fastV := t.fastV || s.translated (teamOf h) }

def execBlockStart (h : Nat) (s : State) : Result := .next (s.blockStart h)

/-- LOOP_END_CHECK (R90): a stop lands before the check or after it, and a hart that has stopped stands where it has stopped. -/
def execLoopEndCheck (h : Nat) (s : State) : Result := if s.running h then .next (s.loopCheck h) else .next s

/-- LANE_GROUP_RETURN (R29). -/
def execLaneGroupReturn (h : Nat) (s : State) : Result :=
  if s.onCore h && (s.hart h).exited && s.idle h then .next (s.modHart h (fun t => { t with groups := 0, lg := 0 }))
  else .next s

/-! ### Calls, breakpoints, exit and yield (R298, R299) -/

def execEcall (s : State) : Result :=
  if s.isControl then trapNow s { cls := 0x16 } else trapNow s (illegal .wrongStream)

/-- A hart halts to the debug core, with a release at dv on its behalf (R326). -/
def State.haltHart (s : State) (h cause : Nat) : State :=
  (s.release (s.coreOfTeam (teamOf h)) .dv).modHart h (fun t => { t with halted := some cause, haltReq := false })

/-- A hart's control pc moved on past skipped instructions (R300); the breakpoint passed over there is behind it. -/
def Hart.skip (t : Hart) (word n : Nat) : Hart :=
  if n = 0 then t else { t with cpc := t.cpc + BitVec.ofNat 48 (word * n), bpSkipC := false }

/-- A halted hart that may issue again (R326, R327): after a halt at brk it goes on behind it, and a sleeping wait tests
again from the start (R242). -/
def Hart.resumed (t : Hart) (word : Nat) : Hart :=
  { t.skip word (t.halted == some 3).toNat with
    halted := none, resumeReq := false, wait := if t.wait = some .asleep then none else t.wait }

/-- A halt that has been asked for is taken (R326); one that stands already keeps its cause. -/
def Hart.takeHalt (t : Hart) : Hart :=
  { t with halted := if t.haltReq then some (t.halted.getD 1) else t.halted, haltReq := false }

/-- brk: a halt when the debug core has armed it, which waits for a descent step in flight (R130, R274), else a trap (R298,
R327). -/
def execBrk (s : State) : Result :=
  if !s.isControl then trapNow s (illegal .wrongStream)
  else if s.isHartControl && s.dbgctl.getLsbD 19 then .next (if s.descending s.me then s else s.haltHart s.me 3)
  else trapNow s { cls := 0x17 }

/-- eret: privileged; on a verge core it returns from the trap. -/
def execEret (s : State) : Result :=
  if s.isVerge then .next s.returnFromTrap
  else if s.isControl then trapNow s (illegal .privileged)
  else trapNow s (illegal .wrongStream)

/-- exit (R277): a reserved value on a verge core. -/
def execExit (s : State) : Result :=
  if s.isVerge then trapNow s (illegal .reservedValue)
  else hartOp s (modify fun s => s.modHart s.me (fun t => { t with exited := true }))

/-- yield (R299): on a hart until the cycles pass or a pre-emption is requested, on a verge core until they pass or a
fault record waits. -/
def execYield (a : BitVec 5) (s : State) : Result :=
  let c := min (s.getX a).toNat 65536
  onControl s (fun s =>
    match s.cur with
    | .verge n =>
      if c = 0 || s.fqhead < s.fqtail then s else s.modVerge n (fun v => { v with wait := some (.yield (s.cycle + c)) })
    | p =>
      let h := partyHart p
      if c = 0 || (s.team (teamOf h)).request then s
      else s.modHart h (fun t => { t with wait := some (.yield (s.cycle + c)) }))

/-- YIELD_WAIT_END (R299). -/
def execYieldWaitEnd (p : Party) (s : State) : Result :=
  match p with
  | .ctrl h =>
    match (s.hart h).wait with
    | some (.yield u) =>
      if u ≤ s.cycle || (s.team (teamOf h)).request then .next (s.modHart h (fun t => { t with wait := none })) else .next s
    | _ => .next s
  | .verge n =>
    match (s.verge n).wait with
    | some (.yield u) =>
      if u ≤ s.cycle || s.fqhead < s.fqtail then .next (s.modVerge n (fun v => { v with wait := none })) else .next s
    | _ => .next s
  | .vec _ => .next s

end Sys2Proof.Machine
end

