-- ==== Sys2Proof/Machine/Images.lean ====
section
/-! DEFINITION. Words that the device itself reads in a context (R283, R340), and code images (R312 to R320): the events
IMGADDR_WRITE, IMAGE_LOAD_DONE, NATIVE_TRANSLATION_DONE and IMGDROP_WRITE, and the form a team runs. -/

namespace Sys2Proof.Machine

/-! ### Reading in a context, by a walk of its tables -/

/-- Why a word cannot be read: a translation reason, or 0 for poison (R340); or the host link is down and the wait of
R304 is not over. -/
inductive Lost where
  | lost (rsn : Nat)
  | wait
deriving DecidableEq, Repr

/-- The physical address of a context's address, if memory can be reached there now on behalf of something that may have
to wait for the link. -/
def State.reach (s : State) (w : Waiter) (ctx va : Nat) (a : Access) : Except Lost Nat :=
  match s.translateRoot false (s.rootOf ctx) va a with
  | .error f => .error (.lost f.reason)
  | .ok pa =>
    if s.mustWaitFor w pa then .error .wait
    else if isHost pa && !s.linkUp then .error (.lost 0)
    else if s.poisoned (pa / 64) then .error (.lost 0)
    else .ok pa

/-- `n` bytes of a context from an address, at their home slices, line by line; `fuel` bounds the lines. -/
def State.ctxRead (s : State) (w : Waiter) (ctx : Nat) (a : Access) : Nat → Nat → Nat → Except Lost (List Byte)
  | 0, _, _ => .ok []
  | fuel + 1, va, n =>
    if n = 0 then .ok []
    else
      let m := pieceLen va n
      match s.reach w ctx va a with
      | .error e => .error e
      | .ok pa =>
        match s.ctxRead w ctx a fuel (va + m) (n - m) with
        | .error e => .error e
        | .ok bs => .ok (s.home pa m ++ bs)

/-- A word of a context (R340). -/
def State.ctxWord (s : State) (w : Waiter) (ctx va : Nat) (a : Access) : Except Lost W64 :=
  match s.ctxRead w ctx a (pieces va 8) va 8 with
  | .error e => .error e
  | .ok bs => .ok (BitVec.ofNat 64 (leNat bs))

/-! ### The image's tables (R312, R313) -/

/-- Little-endian words of a list of bytes. -/
def wordsOf (n : Nat) (bs : List Byte) : List W64 :=
  (List.range n).map (fun i => BitVec.ofNat 64 (leNat ((bs.drop (8 * i)).take 8)))

/-- The low and the high half of a word. -/
abbrev lo32 (w : W64) : Nat := (w.extractLsb' 0 32).toNat
abbrev hi32 (w : W64) : Nat := (w.extractLsb' 32 32).toNat

/-- The header as its eight words: ident, size, hash, nsec, jsec, ktab, errmask, reserved. -/
structure Header where
  ident : W64
  size : W64
  hash : W64
  nsec : W64
  jsec : W64
  ktab : W64
  errmask : W64
  rest : W64

def Header.of (bs : List Byte) : Header :=
  let w (i : Nat) := BitVec.ofNat 64 (leNat ((bs.drop (8 * i)).take 8))
  ⟨w 0, w 1, w 2, w 3, w 4, w 5, w 6, w 7⟩

/-- A range of the image lies inside its size. -/
def Header.holds (h : Header) (off n : Nat) : Bool := off + n ≤ h.size.toNat

/-- The header's format (R312): magic, reserved bits, sections and tables inside the size and at their multiples. -/
def Header.ok (h : Header) : Bool :=
  lo32 h.ident = 0x4A394349 && h.ident.extractLsb' 48 16 == 0 && h.size.extractLsb' 48 16 == 0 && h.rest == 0
    && 64 ≤ h.size.toNat
    && lo32 h.nsec % 64 = 0 && h.holds (lo32 h.nsec) (hi32 h.nsec)
    && lo32 h.jsec % 64 = 0 && h.holds (lo32 h.jsec) (hi32 h.jsec)
    && lo32 h.ktab % 32 = 0 && 1 ≤ hi32 h.ktab && hi32 h.ktab ≤ 4096 && h.holds (lo32 h.ktab) (32 * hi32 h.ktab)

/-- Kernel table entry `i` of an image's bytes: nctl, jctl, bmap, reserved (R313). -/
def Header.kernel (h : Header) (bs : List Byte) (i : Nat) : List W64 := wordsOf 4 ((bs.drop (lo32 h.ktab + 32 * i)).take 32)

/-- A kernel's entry and its block map are well formed (R313). -/
def Header.kernelOk (h : Header) (bs : List Byte) (i : Nat) : Bool :=
  let k := h.kernel bs i
  let nctl := k.getD 0 0
  let jctl := k.getD 1 0
  let bmap := k.getD 2 0
  let native := hi32 h.nsec ≠ 0
  k.getD 3 0 == 0 && nctl.extractLsb' 32 32 == 0 && lo32 nctl % 4 = 0 && (native || nctl == 0)
    && (!native || h.holds (lo32 nctl) (4 * hi32 jctl)) && lo32 jctl % 8 = 0 && h.holds (lo32 jctl) (8 * hi32 jctl)
    && h.holds (lo32 bmap) (16 * hi32 bmap)
    && (List.range (hi32 bmap)).all (fun b =>
      let m := wordsOf 2 ((bs.drop (lo32 bmap + 16 * b)).take 16)
      let n := (m.getD 0 0).toNat
      let j := (m.getD 1 0).toNat
      n % 64 = 0 && n < h.size.toNat && j % 64 = 0 && j < h.size.toNat)

/-- A kernel as it is registered. -/
def Header.kernelAt (h : Header) (bs : List Byte) (i : Nat) : Kernel :=
  let k := h.kernel bs i
  ⟨lo32 (k.getD 0 0), lo32 (k.getD 1 0), hi32 (k.getD 1 0)⟩

/-- The lowest erratum of a mask that the device has corrected, and reproduces or not (R319). -/
def State.corrected (s : State) (mask : W64) (reproducible : Bool) : Option Nat :=
  (List.range 64).find? (fun e => mask.getLsbD e && !Config.erratumPresent s.stepping e
    && Config.erratumReproducible s.stepping e == reproducible)

/-- The errata of a mask that translated code reproduces (R319). -/
def State.reproduced (s : State) (mask : W64) : Nat :=
  (List.range 64).foldl (fun m e =>
    setBit m e (mask.getLsbD e && !Config.erratumPresent s.stepping e && Config.erratumReproducible s.stepping e)) 0

/-- What the checks of a load find (R315): a code with an erratum number, or the header, or the link is awaited. -/
inductive LoadResult where
  | bad (code erratum : Nat)
  | good (h : Header) (kernels : List Kernel)
  | wait

/-- The checks of a load (R315, R318, R319), in the order: header bytes, format, the other bytes, tables, ISA version,
errata, overlap. -/
def State.checkImage (s : State) (ctx base : Nat) : LoadResult :=
  let lost : Lost → LoadResult
    | .wait => .wait
    | .lost 0 => .bad 7 0
    | .lost _ => .bad 6 0
  if !(Tab.get 0 s.ctxroot ctx).getLsbD 0 then .bad 6 0
  else if base % 4096 ≠ 0 then .bad 2 0
  else match s.ctxRead .image ctx .load 1 base 64 with
    | .error e => lost e
    | .ok hb =>
      let h := Header.of hb
      if !h.ok then .bad 2 0
      else match s.ctxRead .image ctx .load (pieces base h.size.toNat) base h.size.toNat with
        | .error e => lost e
        | .ok bs =>
          if !(List.range (hi32 h.ktab)).all (h.kernelOk bs) then .bad 2 0
          else if (h.ident.extractLsb' 32 8) != Config.isaMajor then .bad 3 0
          else if Config.isaMinor.toNat < (h.ident.extractLsb' 40 8).toNat then .bad 4 0
          else match s.corrected h.errmask false with
            | some e => .bad 5 e
            | none =>
              if 64 ≤ s.images.length
                  || s.images.any (fun m => m.ctx = ctx && m.base < base + h.size.toNat && base < m.base + m.size) then .bad 8 0
              else .good h ((List.range (hi32 h.ktab)).map (h.kernelAt bs))

/-! ### The events -/

/-- A write of imgaddr (R315): the address and, above it, the context of the load. -/
def State.writeImgaddr (s : State) (v : W64) : State :=
  if s.imgcode = 1 then s
  else { s with imgload := some (BitVec.ofNat 64 (v.toNat % 2 ^ 48 + s.imgctx * 2 ^ 48)), imgcode := 1, imgerr := 0, imgdone := false }

def execImgaddrWrite (v : W64) (s : State) : Result := .next (s.writeImgaddr v)

/-- The context and the address of the load that is under way. -/
def loadCtx (l : W64) : Nat := l.toNat / 2 ^ 48
def loadBase (l : W64) : Nat := l.toNat % 2 ^ 48

/-- The line where an address of a page lies. -/
def lineAt (size : Nat) (leaf : W64) (va : Nat) : Nat := (entryPa leaf / size * size + va % size) / 64

/-- The cached code of the line at an address of a context is discarded on every core, whatever the page allows and whether the
line is poisoned: where the tables place it, and where a cached translation does. Tables that are poisoned do not say which line it
is, and then all cached code goes. -/
def State.dropCodeAt (s : State) (ctx va : Nat) : State :=
  let held := (s.tlb.filter (fun e => e.ctx = ctx && e.base ≤ va && va < e.base + e.size)).map (fun e => lineAt e.size e.leaf va)
  let drop (ls : List Nat) : State := { s with icache := Tab.keep (fun e => !ls.any (fun l => l % 2 ^ 46 = e % 2 ^ 46)) s.icache }
  if s.tableOk (s.rootOf ctx) then
    match s.walk va 4 (s.rootOf ctx) with
    | .ok p => drop (lineAt p.size p.leaf va :: held)
    | .error f => if f.reason = 5 then { s with icache := [] } else drop held
  else drop held

/-- A load discards every cached line of its range (R320). -/
def State.dropCodeRange (s : State) (ctx base n : Nat) : State :=
  (linesIn base n).foldl (fun s l => s.dropCodeAt ctx (64 * l)) s

/-- The length of the range of a load that fails: the image's, or its header's where that cannot be read or is malformed. -/
def State.loadSize (s : State) (ctx base : Nat) : Nat :=
  match s.ctxRead .image ctx .load 1 base 64 with
  | .ok hb => if (Header.of hb).ok then (Header.of hb).size.toNat else 64
  | .error _ => 64

/-- A team that has not retired runs code of an image: it was started in it as R316 says, or one of its streams stands in
it, or a block queued there is still to run. -/
def State.runs (s : State) (t : Nat) (m : Image) : Bool :=
  let inside (a : W48) : Bool := m.base ≤ a.toNat && a.toNat < m.base + m.size
  let v := s.team t
  v.st ≠ .retired && (v.image == some m.id || (v.started && v.ctx = m.ctx && (List.range v.nharts).any (fun i =>
    let h := s.hart (8 * t + i)
    (!h.exited && inside h.cpc) || (h.block.isSome && inside h.vpc) || h.blockQ.any (fun b => inside b.addr))))

/-- Dropped images that no team runs are unregistered (R315). -/
def State.sweepImages (s : State) : State :=
  { s with images := s.images.filter (fun m => !m.dropped || (List.range s.nteam).any (fun t => s.runs t m)) }

/-- Register the image that is being loaded (R315). -/
def State.register (s : State) (ctx base : Nat) (h : Header) (kernels : List Kernel) (translated : Bool) : State :=
  let id := s.nimage + 1
  let native := hi32 h.nsec ≠ 0
  let m : Image := ⟨id, ctx, base, h.size.toNat, native, native && h.hash == s.cfghash h.errmask, kernels,
    s.reproduced h.errmask, translated, false⟩
  let s := s.dropCodeRange ctx base h.size.toNat
  { s with images := s.images ++ [m], nimage := id, imgid := id, imgcode := 0, imgerr := 0, imgdone := translated,
           imgload := none, hostWaits := s.hostWaits.filter (fun e => e.1 ≠ .image) }

/-- IMAGE_LOAD_DONE (R315, R319): an image that relies on a corrected, reproducible erratum stays busy until it is
translated. -/
def execImageLoadDone (s : State) : Result :=
  match s.imgload with
  | none => .next s
  | some l =>
    let s := s.sweepImages
    match s.checkImage (loadCtx l) (loadBase l) with
    | .wait => .next (s.hostWait .image)
    | .bad c e =>
      let s := s.dropCodeRange (loadCtx l) (loadBase l) (s.loadSize (loadCtx l) (loadBase l))
      .next { s.hostDone .image with imgload := none, imgcode := c, imgerr := e }
    | .good h ks =>
      if (s.corrected h.errmask true).isSome then .next s else .next (s.register (loadCtx l) (loadBase l) h ks false)

/-- NATIVE_TRANSLATION_DONE (R317, R319): of a registered image, or of the one whose load waits for it. -/
def execNativeTranslationDone (id : Nat) (s : State) : Result :=
  if s.images.any (fun m => m.id = id) then
    .next { s with
      images := s.images.map (fun m => if m.id = id then { m with translated := true } else m),
      imgdone := s.imgdone || (id = s.imgid && s.imgcode ≠ 1) }
  else
    match s.imgload with
    | none => .next s
    | some l =>
      match s.checkImage (loadCtx l) (loadBase l) with
      | .good h ks =>
        if id = s.nimage + 1 && (s.corrected h.errmask true).isSome then .next (s.register (loadCtx l) (loadBase l) h ks true)
        else .next s
      | _ => .next s

/-- A write of imgdrop (R315). -/
def State.writeImgdrop (s : State) (v : W64) : State :=
  let l := s.images.map (fun m => if m.id = v.toNat then { m with dropped := true } else m)
  State.sweepImages { s with images := l }

def execImgdropWrite (v : W64) (s : State) : Result := .next (s.writeImgdrop v)

/-- The value of imgstat. -/
def State.imgstat (s : State) : W64 :=
  BitVec.ofNat 64 (s.imgcode % 256 + s.imgerr % 256 * 2 ^ 8 + s.imgdone.toNat * 2 ^ 16 + s.imgid * 2 ^ 32)

/-! ### Which form runs (R316) -/

/-- How a team starts: its image, whether it runs JPF, and its first word. -/
structure Form where
  image : Option Nat
  jpf : Bool
  pc : Nat

/-- The word of a kernel that an offset names, in either form: its index. -/
def Kernel.wordAt (k : Kernel) (hasNative : Bool) (off : Nat) : Option Nat :=
  if hasNative && k.nctl ≤ off && off < k.nctl + 4 * k.words && (off - k.nctl) % 4 = 0 then some ((off - k.nctl) / 4)
  else if k.jctl ≤ off && off < k.jctl + 8 * k.words && (off - k.jctl) % 8 = 0 then some ((off - k.jctl) / 8)
  else none

/-- The registered image that holds an address of a context. -/
def State.imageAt (s : State) (ctx va : Nat) : Option Image :=
  s.images.find? (fun m => m.ctx = ctx && m.base ≤ va && va < m.base + m.size)

/-- The form for a launch's entry in a context. -/
def State.form (s : State) (ctx entry : Nat) : Form :=
  let plain : Form := ⟨none, false, entry⟩
  match s.imageAt ctx entry with
  | none => plain
  | some m =>
    match m.kernels.findSome? (fun k => (k.wordAt m.hasNative (entry - m.base)).map (fun w => (k, w))) with
    | none => plain
    | some (k, w) =>
      if m.native then ⟨some m.id, false, m.base + k.nctl + 4 * w⟩ else ⟨some m.id, true, m.base + k.jctl + 8 * w⟩

end Sys2Proof.Machine
end

