-- ==== Sys2Proof/Machine/Launch.lean ====
section
/-! DEFINITION. Launch records and queues (R257 to R268, R340): the checks of a record, launch (0xF6), taking a record
(TAKE_RECORD), and finishing a launch. -/

namespace Sys2Proof.Machine

/-! ### The record (R257 to R259) -/

/-- The eight words of a record. -/
abbrev recEntry (w : List W64) : Nat := (w.getD 0 0).toNat % 2 ^ 48
abbrev recCtx (w : List W64) : Nat := (w.getD 0 0).toNat / 2 ^ 48
abbrev recArgs (w : List W64) : W64 := w.getD 1 0
abbrev recWait (w : List W64) (i : Nat) : W64 := w.getD (2 + i) 0
abbrev recDone (w : List W64) : W64 := w.getD 4 0
abbrev recWork (w : List W64) : W64 := w.getD 5 0
abbrev recShape (w : List W64) : W64 := w.getD 6 0
abbrev recMisc (w : List W64) : W64 := w.getD 7 0
def recPer (w : List W64) : Nat := max 1 ((recMisc w).extractLsb' 0 16).toNat
def recLrb (w : List W64) : Nat := ((recMisc w).extractLsb' 16 4).toNat
def recSeed (w : List W64) : BitVec 32 := (recMisc w).extractLsb' 32 32
def recPrio (w : List W64) : Nat := ((recShape w).extractLsb' 14 2).toNat

/-- The checks of R259 other than the context's. -/
def recordOk (w : List W64) : Bool :=
  let sh := recShape w
  let high (x : W64) : Bool := x.extractLsb' 48 16 == 0
  let harts := (sh.extractLsb' 0 4).toNat
  (recMisc w).extractLsb' 20 12 == 0 && high (recArgs w) && high (recDone w) && high (recWork w) && sh.extractLsb' 45 19 == 0
    && 1 ≤ harts && harts ≤ 8
    && (sh.extractLsb' 4 4).toNat ≤ (sh.extractLsb' 8 4).toNat
    && (sh.extractLsb' 24 8).toNat ≤ 80 && (sh.extractLsb' 32 13).toNat ≤ 2048 && (sh.extractLsb' 16 8).toNat ≤ 8
    && recEntry w % 4 = 0 && (recArgs w).toNat % 8 = 0 && (recWait w 0).toNat % 8 = 0 && (recWait w 1).toNat % 8 = 0
    && (recDone w).toNat % 8 = 0 && (recWork w).toNat % 32 = 0 && recLrb w ≤ 6

/-- A context has been created (R295). -/
def State.created (s : State) (ctx : Nat) : Bool := ctx ≠ 0 && (Tab.get 0 s.ctxroot ctx).getLsbD 0

/-- The launch-operand trap. -/
def launchTrap : Trap := { cls := 0x15 }

/-! ### launch (R259, R299) -/

/-- 64 bytes at an address, read at their home slice; the register views hold no such record (log 30). -/
def read64 (ea : W64) : M (List Byte) := do
  match (← resolveM ea 64 .load) with
  | .spad t off => return (← get).spadRead t off 64
  | .mem pa => readHome ea ((← get).coreOf (← get).cur) pa 64 .load
  | .view _ => raise { cls := 0x05, addr := ea, acc := 1, sz := 6, rsn := 4, base := ea.toNat / 4096 * 4096, size := 4096 }

/-- The context a record of launch runs in, if the executing party may name it. -/
def State.launchCtx (s : State) (w : List W64) : Option Nat :=
  if s.isVerge then (if s.created (recCtx w) then some (recCtx w) else none)
  else if recCtx w = 0 || recCtx w = s.ctxOf s.me then some (s.ctxOf s.me) else none

/-- The global number that a record of launch names: 0xFFFF for a verge core (log 31). -/
def State.launcher (s : State) : Nat := if s.isVerge then 0xFFFF else (s.hart s.me).num

def launchM (a : BitVec 5) : M Unit := do
  let s ← get
  if s.isVerge then
    releaseM .dv
    acquireM .dv
  else drainM .dv
  let w := wordsOf 8 (← read64 (s.getX a))
  let s ← get
  match s.launchCtx w with
  | none => raise launchTrap
  | some ctx =>
    check (recordOk w) launchTrap
    let key := 4 * ctx + recPrio w
    let q := Tab.get [] s.dq key
    if 256 ≤ q.length then waitHere
    set { s with dq := Tab.put [] s.dq key (q ++ [DevRecord.mk w s.launcher ((s.pcOf s.cur).setWidth 48)]) }

def execLaunch (a : BitVec 5) (s : State) : Result := controlOp s (launchM a)

/-! ### Finishing a launch (R261, R266, R340) -/

def State.launch (s : State) (l : Nat) : Launch := Tab.get Launch.zero s.launches l
def State.setLaunch (s : State) (l : Nat) (v : Launch) : State := { s with launches := Tab.put Launch.zero s.launches l v }

/-- Host-queue registers (R265, R302): qring, qcring, qhead, qtail. -/
def State.hqReg (s : State) (q i : Nat) : W64 := Tab.get 0 s.hq (4 * q + i)
def State.setHq (s : State) (q i : Nat) (v : W64) : State := { s with hq := Tab.put 0 s.hq (4 * q + i) v }

/-- 2^lg, the entries of a queue's rings. -/
def State.hqSize (s : State) (q : Nat) : Nat := 2 ^ ((s.hqReg q 0).extractLsb' 48 4).toNat

/-- Where a ring lies: its base, in the host window when its bit says so (R265). -/
def ringAt (w : W64) (window : Bool) : Nat := (w.extractLsb' 0 48).toNat + (if window then 2 ^ 48 else 0)

/-- Write a completion entry (R266); it waits while the link is down (R304). It is a release at sy (R255): the releases of the
retirements and saves before it have written back what the launch's teams wrote, and what still waits for the link goes
before the entry. -/
def State.entry (s : State) (q : Nat) (i : W64) (teams status : Nat) : State :=
  let pa := ringAt (s.hqReg q 1) ((s.hqReg q 0).getLsbD 54) + 16 * (i.toNat % s.hqSize q)
  let bs := leBytes 8 (status + min teams 0xFFFF * 2 ^ 16) ++ leBytes 8 i.toNat
  if s.linkUp then s.homeWrite pa bs else { s with dueEntries := s.dueEntries ++ [(pa, bs)] }

/-- The record of R340 for a word of a launch: its kind (1 wait0, 2 wait1, 3 descriptor, 4 counter) and access. -/
def State.lostWord (s : State) (src : Source) (ctx word va rsn acc : Nat) : State :=
  let (g, pc) : Nat × W48 := match src with
    | .host _ _ => (0xFFFF, 0)
    | .device g pc => (g, pc)
  (s.report { cls := 0x15, st := false, asy := true, rsn := rsn, ctx := ctx, sz := 3, acc := acc, addr := BitVec.ofNat 64 va,
              cpc := pc, detail := BitVec.ofNat 64 word, hart := g }).2

/-- A launch is over with a status: its host queue gets the completion entry. -/
def State.close (s : State) (l status : Nat) : State :=
  let v := s.launch l
  let s := (s.setLaunch l { v with finished := true }).hostDone (.launch l)
  match v.src with
  | .host q i => s.entry q i v.started status
  | .device _ _ => s

/-- Finish a launch whose last team has retired: add 1 to its completion counter, then close it (R261, R277). The add
waits for the host link where the counter lies behind it. -/
def State.finishLaunch (s : State) (l : Nat) : State :=
  let v := s.launch l
  let status := if v.killed then 3 else 0
  let va := (recDone v.words).toNat
  if v.finished || v.retired < v.teams then s
  else if va = 0 then s.close l status
  else match s.reach (.launch l) v.ctx va .atomic with
    | .error .wait => s.hostWait (.launch l)
    | .error (.lost rsn) => (s.lostWord v.src v.ctx 4 va rsn 3).close l 5
    | .ok pa => (s.homeWrite pa (leBytes 8 ((leNat (s.home pa 8) + 1) % 2 ^ 64))).close l status

/-- Launches whose last team has retired but which still wait for the link. -/
def State.finishWaiting (s : State) : State := (List.range s.nlaunch).foldl State.finishLaunch s

/-- One more team of a launch has retired. -/
def State.teamRetired (s : State) (l : Nat) : State :=
  (s.setLaunch l { s.launch l with retired := (s.launch l).retired + 1 }).finishLaunch l

/-! ### Taking a record (R260, R264 to R268) -/

/-- A queue's head as Crossroads sees it: the round-robin index of the queue, its source, its words, its context, and a
status known at once (0 none). -/
structure Head where
  queue : Nat
  src : Source
  words : List W64
  ctx : Nat
  status : Nat

/-- The queue that waits when its head does (R304): each host queue, and each context's device queue of a priority. -/
def Head.waiter (h : Head) : Waiter := .queue (if h.queue < 64 then h.queue else 64 + 4 * (h.queue - 64) + recPrio h.words)

/-- A host queue has a record to take, and no overrun. -/
def State.hostReady (s : State) (q : Nat) : Bool :=
  (s.hqReg q 0).getLsbD 52 && s.hqReg q 2 != s.hqReg q 3 && (s.hqReg q 3 - s.hqReg q 2).toNat ≤ s.hqSize q

/-- The tail runs more than a ring ahead of the head (R265). -/
def State.overrun (s : State) (q : Nat) : Bool :=
  (s.hqReg q 0).getLsbD 52 && s.hqSize q < (s.hqReg q 3 - s.hqReg q 2).toNat

/-- The head record of a host queue (R264, R303). -/
def State.hostHead (s : State) (q : Nat) : Head :=
  let i := s.hqReg q 2
  let pa := ringAt (s.hqReg q 0) ((s.hqReg q 0).getLsbD 53) + 64 * (i.toNat % s.hqSize q)
  let w := wordsOf 8 (s.home pa 64)
  let ctx := if recCtx w = 0 then ((s.hqReg q 1).extractLsb' 48 16).toNat else recCtx w
  ⟨q, .host q i, w, ctx, if !recordOk w then 1 else if !s.created ctx then 2 else 0⟩

/-- The heads of all queues: host queues while the link is up, then device queues by context. A device record whose
context is no longer created finishes with no team (R264, R295). -/
def State.heads (s : State) : List Head :=
  (if s.linkUp then ((List.range 64).filter s.hostReady).map s.hostHead else [])
  ++ s.dq.filterMap (fun e => match e.2 with
    | [] => none
    | r :: _ => some ⟨64 + e.1 / 4, .device r.hart r.pc, r.words, e.1 / 4, if s.created (e.1 / 4) then 0 else 2⟩)

/-- What a head's wait counters say (R260 step 1, R268 step 1, R340): ready, not ready, or a word that cannot be
reached. -/
inductive Ready where
  | yes
  | no
  | lost (word va rsn : Nat)
deriving DecidableEq

def State.counter (s : State) (h : Head) (i : Nat) : Ready :=
  let va := (recWait h.words i).toNat % 2 ^ 48
  if va = 0 then .yes
  else match s.ctxWord h.waiter h.ctx va .load with
    | .error .wait => .no
    | .error (.lost rsn) => .lost (i + 1) va rsn
    | .ok v => if (recWait h.words i).toNat / 2 ^ 48 ≤ v.toNat then .yes else .no

/-- A head is ready when each counter holds its target; one that can never be read is taken to be finished. The second counter is read
only once the first holds its target, and the descriptor after both (the model's choice, log 119). The
team-list descriptor behind a link that is down is waited for. -/
def State.headReady (s : State) (h : Head) : Ready :=
  if h.status ≠ 0 then .yes
  else match s.counter h 0 with
    | .yes =>
      match s.counter h 1 with
      | .yes =>
        let wv := (recWork h.words).toNat
        if wv = 0 then .yes
        else match s.ctxRead h.waiter h.ctx .load 1 wv 24 with
          | .error .wait => .no
          | .error (.lost rsn) => .lost 3 wv rsn
          | .ok _ => .yes
      | r => r
    | r => r

/-- The head taken: of the ready ones of the highest priority, the first at or after the round robin's place. -/
def State.nextHead (s : State) : Option Head :=
  let ready := s.heads.filter (fun h => s.headReady h != .no)
  let top := ready.foldl (fun m h => max m (recPrio h.words)) 0
  let cands := ready.filter (fun h => recPrio h.words = top)
  match cands.find? (fun h => Tab.get 0 s.rr top ≤ h.queue) with
  | some h => some h
  | none => cands.head?

/-- A word or the descriptor of a head lies behind a link that is down, and is waited for (R304). -/
def State.headWaits (s : State) (h : Head) : Bool :=
  let lost {α : Type} (r : Except Lost α) : Bool := match r with | .error .wait => true | _ => false
  let word (i : Nat) : Bool :=
    let va := (recWait h.words i).toNat % 2 ^ 48
    va ≠ 0 && lost (s.ctxWord h.waiter h.ctx va .load)
  let wv := (recWork h.words).toNat
  h.status = 0 && (word 0 || word 1 || (wv ≠ 0 && lost (s.ctxRead h.waiter h.ctx .load 1 wv 24)))

/-- The heads that must wait for the link begin to. -/
def State.markHeads (s : State) : State :=
  s.heads.foldl (fun s h => if s.headWaits h then s.hostWait h.waiter else s) s

/-- The record leaves its queue (R268 step 3). -/
def State.unqueue (s : State) (h : Head) : State :=
  let s := s.hostDone h.waiter
  let s := { s with rr := Tab.put 0 s.rr (recPrio h.words) (h.queue + 1) }
  if h.queue < 64 then s.setHq h.queue 2 (s.hqReg h.queue 2 + 1)
  else
    let key := 4 * (h.queue - 64) + recPrio h.words
    { s with dq := Tab.put [] s.dq key ((Tab.get [] s.dq key).drop 1) }

/-- How many teams a record forms, the records of its team list, and the list's base (R260 steps 2 and 3). -/
def State.teamsOf (s : State) (h : Head) : Nat × Nat × W64 :=
  let wv := (recWork h.words).toNat
  if wv = 0 then (1, 0, 0)
  else match s.ctxRead h.waiter h.ctx .load 1 wv 24 with
    | .error _ => (0, 0, 0)
    | .ok bs =>
      let d := wordsOf 3 bs
      let n := min (d.getD 0 0).toNat (d.getD 1 0).toNat
      ((n + recPer h.words - 1) / recPer h.words, n, d.getD 2 0)

/-- The pending teams of a launch (R260, R268), each with x13 and x14 of its records. -/
def State.formTeam (s : State) (l age : Nat) (h : Head) (n : Nat) (buf : W64) (i : Nat) : State :=
  let t := s.nteam
  let per := recPer h.words
  let grouped := (recWork h.words) != 0
  let s := { s with nteam := t + 1 }
  let s := s.setTeam t { launch := l, index := i, shape := recShape h.words, ctx := h.ctx, age := age, since := s.cycle }
  if grouped then
    let x : Tab W64 := Tab.put 0 (Tab.put 0 [] 13 (buf + BitVec.ofNat 64 (i * per * 2 ^ recLrb h.words))) 14
      (BitVec.ofNat 64 (min per (n - i * per)))
    (List.range ((recShape h.words).extractLsb' 0 4).toNat).foldl (fun s j => s.setHart (8 * t + j) { x := x }) s
  else s

/-- Take a head: form its launch and teams, or finish it. -/
def State.take (s : State) (h : Head) : State :=
  let r := s.headReady h
  let l := s.nlaunch
  let (count, n, buf) := s.teamsOf h
  let s := s.unqueue h
  let s := { s with nlaunch := l + 1, nage := s.nage + 1 }
  let v : Launch := { src := h.src, words := h.words, ctx := h.ctx }
  if h.status ≠ 0 then (s.setLaunch l v).close l h.status
  else match r with
    | .lost word va rsn => ((s.setLaunch l v).lostWord h.src h.ctx word va rsn 1).close l 5
    | _ =>
      let s := s.setLaunch l { v with teams := count }
      ((List.range count).foldl (fun s i => s.formTeam l s.nage h n buf i) s).finishLaunch l

/-- An overrun queue gets its entry and is disabled (R265). -/
def State.endOverrun (s : State) (q : Nat) : State :=
  if s.linkUp && s.overrun q then
    let s := s.entry q (s.hqReg q 2) 0 4
    s.setHq q 0 (s.hqReg q 0 &&& ~~~((1 : W64) <<< 52))
  else s

/-- TAKE_RECORD (R268). -/
def execTakeRecord (s : State) : Result :=
  let s := ((List.range 64).foldl State.endOverrun s).finishWaiting
  match s.nextHead with
  | none => .next s.markHeads
  | some h => .next (s.take h).markHeads

end Sys2Proof.Machine
end

