-- ==== Sys2Proof/Machine/Sched.lean ====
section
/-! DEFINITION. Crossroads (R269 to R280, R341): placing teams, choosing victims, stopping, saving, resuming and retiring
teams. The events SCHEDULER_PASS, TEAM_AGEING, PREEMPT_STOP, TEAM_SAVE, TEAM_RETIRE, HCTL_PREEMPT and HCTL_TERMINATE. -/

namespace Sys2Proof.Machine

/-! ### Numbers and harts (R3, R341) -/

/-- The harts of a team. -/
def State.hartsOf (s : State) (t : Nat) : List Nat := (List.range (s.team t).nharts).map (· + 8 * t)

/-- Stopped on a precise report that awaits replay (hstat[0]). -/
def Hart.stoppedOnReport (t : Hart) : Bool := t.parkC.isSome || t.parkV.isSome

/-- A saved hart that keeps its number reserved (R341). -/
def State.keepsNumber (s : State) (h : Nat) : Bool :=
  (s.hart h).stoppedOnReport || (s.hart h).halted.isSome || (s.team (teamOf h)).held

/-- All teams, by number, that satisfy a condition. -/
def State.teamsWhere (s : State) (p : Nat → Team → Bool) : List Nat := (List.range s.nteam).filter (fun t => p t (s.team t))

/-- The local hart numbers of a core that are reserved for saved harts of teams other than `t` (R341). -/
def State.reservedOn (s : State) (core t : Nat) : List Nat :=
  let harts := ((s.teamsWhere (fun u v => u ≠ t && v.st == .saved)).map s.hartsOf).flatten
  ((harts.filter s.keepsNumber).map (fun h => (s.hart h).num)).filter (fun g => g / 8 = core) |>.map (· % 8)

/-- The hart that target 2 + g reaches (R341): the resident one, else the one saved last from g, while it is still saved. -/
def State.hartAt (s : State) (g : Nat) : Option Nat :=
  let here := ((s.teamsWhere (fun _ v => v.st == .resident || v.st == .stopping)).map s.hartsOf).flatten
  match here.find? (fun h => (s.hart h).num = g) with
  | some h => some h
  | none => (Tab.get none s.savedFrom g).filter (fun h => (s.team (teamOf h)).st == .saved && (s.hart h).num = g)

/-! ### Fit (R271) -/

/-- Cores of the grade (R1). -/
def State.ncores (s : State) : Nat := if s.a48 then 48 else 64

/-- The teams that stand on cores, being saved included. -/
def State.resident (s : State) : List Nat := s.teamsWhere (fun _ v => v.st == .resident || v.st == .stopping)

def State.sumOf (s : State) (ts : List Nat) (f : Team → Nat) : Nat := (ts.map (fun t => f (s.team t))).sum

/-- The heavy units of teams (R269). -/
def State.heavy (s : State) (ts : List Nat) : Nat := s.sumOf ts (fun t => classUnits t.pclass)

/-- The lowest start of `n` contiguous scratchpad units that no team listed holds (R182, R271; which of several runs a team
receives is the model's choice, log 104). -/
def State.freeUnits (s : State) (here : List Nat) (n : Nat) : Option Nat :=
  let used (u : Nat) : Bool := here.any (fun t => (s.team t).unit0 ≤ u && u < (s.team t).unit0 + (s.team t).units)
  (List.range (81 - n)).find? (fun u0 => (List.range n).all (fun i => !used (u0 + i)))

/-- The conditions of R271 that fail. -/
structure Misfit where
  core : Bool
  rows : Bool
  budget : Bool
deriving DecidableEq, Repr

def Misfit.any (m : Misfit) : Bool := m.core || m.rows || m.budget

/-- What keeps team `t` off core `c` when the teams in `res` are resident and those in `gone` have been saved (R271). -/
def State.misfit (s : State) (t c : Nat) (res gone : List Nat) : Misfit :=
  let v := s.team t
  let here := res.filter (fun u => (s.team u).core = c)
  let harts := (here.map s.hartsOf).flatten
  let kept := (s.reservedOn c t).length
    + (((gone.filter (fun u => (s.team u).core = c)).map s.hartsOf).flatten.filter (fun h => s.keepsNumber h || (s.hart h).haltReq)).length
  let active := harts.filter (fun h => !(s.hart h).returned)
  let minima := (active.map (fun h => (s.team (teamOf h)).lgmin)).sum
  let groups := (harts.map (fun h => popBelow (s.hart h).groups 16)).sum
  let owed := (active.map (fun h => (s.team (teamOf h)).lgmin - popBelow (s.hart h).groups 16)).sum
  let grants := ((s.hartsOf t).map (fun h => (s.hart h).lg)).sum
  let quad := res.filter (fun u => (s.team u).core / 4 = c / 4)
  { core := 8 < harts.length + kept + v.nharts
      || 16 < minima + v.nharts * v.lgmin
      || (v.st == .saved && 16 - groups - owed < grants)
      || (s.freeUnits here v.units).isNone
      || 2048 < s.sumOf here Team.tiles + v.tiles
    rows := 8 < s.sumOf quad (fun u => classRows u.pclass) + classRows v.pclass || 8 < s.sumOf quad Team.rows + v.rows
    budget := s.power < s.heavy res + classUnits v.pclass }

/-- The fitting core with the fewest resident harts, the lowest-numbered of equals (R272 step 1). -/
def State.bestCore (s : State) (t : Nat) : Option Nat :=
  let res := s.resident
  let load (c : Nat) : Nat := s.sumOf (res.filter (fun u => (s.team u).core = c)) Team.nharts
  ((List.range s.ncores).filter (fun c => !(s.misfit t c res []).any)).foldl (fun m c =>
    match m with
    | none => some c
    | some b => if load c < load b then some c else some b) none

/-! ### Order (R268, R272) -/

/-- The cycles after which a pending team ages. -/
def ageLimit : Nat := 2 ^ 24

/-- A pending team's effective priority. -/
def State.effective (s : State) (v : Team) : Nat :=
  if v.aged || ageLimit ≤ v.waited + (s.cycle - v.since) then min 3 (v.prio + 1) else v.prio

/-- Insert by an order, before the first that it precedes. -/
def insertBy (lt : Nat → Nat → Bool) (x : Nat) : List Nat → List Nat
  | [] => [x]
  | y :: l => if lt x y then x :: y :: l else y :: insertBy lt x l

def sortBy (lt : Nat → Nat → Bool) (l : List Nat) : List Nat := l.foldl (fun a x => insertBy lt x a) []

/-- Pending teams, in the order of R272; a team held for a dump is not placed (R328), nor one
whose launch has been terminated (R277). -/
def State.pendingTeams (s : State) : List Nat :=
  let lt (a b : Nat) : Bool :=
    let u := s.team a
    let v := s.team b
    let pu := s.effective u
    let pv := s.effective v
    pv < pu || (pu = pv && (u.age < v.age || (u.age = v.age && u.index < v.index)))
  sortBy lt (s.teamsWhere (fun _ v => v.st == .pending || (v.st == .saved && !v.held && !v.killed)))

/-- Candidate victims in the order in which they are taken: lowest priority, then most recently placed. -/
def State.candidates (s : State) (p : Team → Bool) : List Nat :=
  let lt (a b : Nat) : Bool :=
    let u := s.team a
    let v := s.team b
    u.prio < v.prio || (u.prio = v.prio && v.placed < u.placed)
  sortBy lt (s.teamsWhere (fun _ v => v.st == .resident && !v.request && p v))

/-! ### Placing (R14, R272 step 1, R276) -/

/-- The generator lanes of a seed (R143). -/
def laneStates (seed : BitVec 32) : Tab (BitVec 32) :=
  (List.range 256).map (fun j =>
    let x := seed ^^^ (BitVec.ofNat 32 j * 0x85EBCA6B)
    (j, if x = 0 then 0x6D2B79F5 else x))

/-- A hart at team start, its lane groups still to come (R14, R143, R316). -/
def State.startHart (s : State) (t i g : Nat) (f : Form) : State :=
  let v := s.team t
  let w := (s.launch v.launch).words
  let seed := recSeed w + 0x9E3779B9 * BitVec.ofNat 32 i
  let x := Tab.put 0 (Tab.put 0 (Tab.put 0 (s.hart (8 * t + i)).x 10 (recArgs w)) 11 (BitVec.ofNat 64 i)) 12
    (BitVec.ofNat 64 v.nharts)
  s.setHart (8 * t + i)
    { resident := true, num := g, x := x, cpc := BitVec.ofNat 48 f.pc, n := v.regs, rngseed := seed, rng := laneStates seed }

/-- A saved hart back on a core (R276, R300, R326, R341): a sleeping wait tests again, a yield has ended, and a halt, a
resumption or a skip asked for while it was away takes effect. Its groups are still to come. -/
def State.resumeHart (s : State) (h g : Nat) : State :=
  s.modHart h (fun t =>
    let t := if t.resumeReq then t.resumed (s.wordBytes (.ctrl h)) else t
    { (t.skip (s.wordBytes (.ctrl h)) t.skips).takeHalt with
      skips := 0,
      resident := true, num := g, wait := (match t.wait with | some (.host c) => some (.host c) | _ => none) })

/-- Exactly the saved number of groups, the lowest-numbered free ones (R31). -/
def State.withSaved (s : State) (h : Nat) : State :=
  s.modHart h (fun t => { t with groups := groupSet ((s.freeGroups (s.coreOfTeam (teamOf h)) h).take t.lg) })

/-- The commands that a save kept run before anything its harts issue; one that is parked waits for its service (R229, R276).
Their entries are made again first, in stream order, as far as the new core has room for them; the others wait in its order
(R226). -/
def State.keepFirst (s : State) (t core : Nat) : State :=
  let s : State := { s with cmds := s.cmds.map (fun c =>
    if teamOf c.hart = t then { c with kept := c.parked.isNone, ranges := [], unmade := c.ranges ++ c.unmade } else c) }
  let hs := (s.hartsOf t).filter (fun h => (s.unmadeOf h).isSome)
  State.makeEntries core s.cmds.length { s with ritQ := Tab.put [] s.ritQ core (Tab.get [] s.ritQ core ++ hs) }

/-- Place a team on a core (R272 step 1): a first placement starts it as R14 says, a later one resumes it (R276), with no
code line that the core cached for another hart before (R69, R291, R320). -/
def State.place (s : State) (t c : Nat) : State :=
  let v := s.team t
  let saved := v.st == .saved
  let here := s.resident.filter (fun u => (s.team u).core = c)
  let taken := ((here.map s.hartsOf).flatten.map (fun h => (s.hart h).num % 8)) ++ s.reservedOn c t
  let nums := ((List.range 8).filter (fun n => !taken.contains n)).map (· + 8 * c)
  let f := s.form v.ctx (recEntry (s.launch v.launch).words)
  let l := s.launch v.launch
  let s := s.setTeam t { v with
    st := .resident, core := c, unit0 := (s.freeUnits here v.units).getD 0, waited := v.waited + (s.cycle - v.since),
    placed := s.nplace + 1, started := true, request := false, held := false, victimOf := none, forPower := false,
    jpf := if saved then v.jpf else f.jpf, image := if saved then v.image else f.image }
  let s := { s with nplace := s.nplace + 1 }
  let idx := List.range v.nharts
  if saved then
    let s := idx.foldl (fun s i => s.resumeHart (8 * t + i) (nums.getD i 0)) s
    let s := idx.foldl (fun s i => s.withSaved (8 * t + i)) s
    ((s.keepFirst t c).acquire c .dv).dropCode c
  else
    let s := s.setLaunch v.launch { l with started := l.started + 1 }
    let s := idx.foldl (fun s i => s.startHart t i (nums.getD i 0) f) s
    let fast := s.translated t
    let s := idx.foldl (fun s i => s.modHart (8 * t + i) (fun h => { h with fastC := fast })) s
    s.acquire c (match l.src with | .host _ _ => .sy | .device _ _ => .dv)

/-! ### Victims (R272 step 2) -/

/-- The victims taken for core `c`, lowest priority and latest placed first over all the places that the failing
conditions name, until team `t` would fit (log 69); `fuel` bounds them. -/
def State.victimsOn (s : State) (t c : Nat) (cands : List Nat) : Nat → List Nat → Option (List Nat)
  | 0, _ => none
  | fuel + 1, gone =>
    let res := s.resident.filter (fun u => !gone.contains u)
    let m := s.misfit t c res gone
    if !m.any then some gone
    else
      let pool := cands.filter (fun u => !gone.contains u
        && ((m.core && (s.team u).core = c) || (m.rows && (s.team u).core / 4 = c / 4)
          || (m.budget && 0 < classUnits (s.team u).pclass)))
      match pool with
      | [] => none
      | u :: _ => s.victimsOn t c cands fuel (gone ++ [u])

/-- The victims for the core that needs the fewest. -/
def State.victims (s : State) (t : Nat) : List Nat :=
  let cands := s.candidates (fun v => v.prio < (s.team t).prio)
  let found := (List.range s.ncores).filterMap (fun c => s.victimsOn t c cands (cands.length + 1) [])
  (found.foldl (fun m l =>
    match m with
    | none => some l
    | some b => if l.length < b.length then some l else some b) none).getD []

/-- Ask a team to stop (R274). -/
def State.ask (s : State) (u : Nat) (t : Option Nat) : State :=
  s.modTeam u (fun v => { v with request := true, victimOf := t })

/-- A victim chosen for a team is still being saved. -/
def State.saving (s : State) (t : Nat) : Bool := s.resident.any (fun u => (s.team u).victimOf == some t)

/-- One team of a pass (R272); the flag is the budget's hold on the placing of later teams. -/
def State.consider (s : State) (held : Bool) (t : Nat) : Bool × State :=
  let units := classUnits (s.team t).pclass
  if s.power < units then (held, s)
  else match s.bestCore t with
    | some c => (held, if held && 0 < units then s else s.place t c)
    | none =>
      let excess := s.power < s.heavy s.resident + units
      (held || excess, if s.saving t then s else (s.victims t).foldl (fun s u => s.ask u (some t)) s)

/-- The start grants that are due, team by team in the order of their placement, hart by hart (R14, R29). -/
def State.startGrants (s : State) : State :=
  ((sortBy (fun a b => (s.team a).placed < (s.team b).placed) s.resident).map s.hartsOf).flatten.foldl State.startGrant s

/-- SCHEDULER_PASS (R272): the harts of the teams placed take their start grants when all have been placed, so that each counts what
the others are owed (R29); in power state 4 no hart issues (R335). -/
def execSchedulerPass (s : State) : Result :=
  if s.pstate = 4 then .next s
  else .next (s.pendingTeams.foldl (fun (p : Bool × State) t => p.2.consider p.1 t) (false, s)).2.startGrants

/-- TEAM_AGEING (R272). -/
def execTeamAgeing (t : Nat) (s : State) : Result :=
  let v := s.team t
  if (v.st == .pending || v.st == .saved) && t < s.nteam && ageLimit ≤ v.waited + (s.cycle - v.since) then
    .next (s.setTeam t { v with aged := true })
  else .next s

/-! ### Stopping and saving (R274, R275) -/

/-- PREEMPT_STOP: the streams stop at their boundaries. -/
def execPreemptStop (t : Nat) (s : State) : Result :=
  let v := s.team t
  if v.st == .resident && v.request then .next (s.setTeam t { v with st := .stopping }) else .next s

/-- The commands of a team. -/
def State.cmdsOf (s : State) (t : Nat) : List Cmd := s.cmds.filter (fun c => teamOf c.hart = t)

/-- A power state change is over once no team is being saved for it (R270). -/
def State.powerDone (s : State) : State :=
  { s with changing := s.changing && s.resident.any (fun u => (s.team u).forPower) }

/-- A team leaves its core: its harts, groups, rows, units and tiles are free (R274 step 6), and it waits for no
interlock entries of the core. -/
def State.leave (s : State) (t : Nat) : State :=
  (s.hartsOf t).foldl (fun s h =>
    (s.ritLeave (s.team t).core h).modHart h (fun v => { v with resident := false, groups := 0, stalled := none })) s

/-- A command has begun: some of its bytes or tiles have been written, or only its completion add is left. -/
def Cmd.begun (c : Cmd) : Bool := c.stage == .add || (c.stage == .run && (c.k ≠ 0 || c.o ≠ 0))

/-- A team that is not on a core has retired: its save area is released (R277). -/
def State.gone (s : State) (t : Nat) : State :=
  ((s.modTeam t (fun v => { v with st := .retired, held := false })).teamRetired (s.team t).launch).sweepImages

/-- A team of a terminated launch that is not on a core: its queued blocks are discarded, its commands that had not begun or
are parked retired with no further effect, and it retires once those that had begun are complete (R230, R277, R300). No core's table
holds its entries, so that none is waited for. -/
def State.dropTeam (s : State) (t : Nat) : State :=
  let s := ((s.cmdsOf t).filter (fun c => !c.begun || c.parked.isSome)).foldl State.endCmd s
  let s : State := { s with cmds := s.cmds.map (fun c =>
    if teamOf c.hart = t then { c with ranges := c.ranges ++ c.unmade, unmade := [] } else c) }
  let s := (s.hartsOf t).foldl (fun s h => s.modHart h (fun v =>
    { v with
      blockQ := [], block := none, loops := [], check := false, parkC := none, parkV := none, wait := none, vwait := none,
      halted := none, haltReq := false, exited := true })) s
  let s := s.modTeam t (fun v => { v with killed := true, held := false })
  if (s.cmdsOf t).isEmpty then s.gone t else s

/-- TEAM_SAVE: a release at dv, the save, and the resources freed. A halt that has been asked for is taken first, so that the
hart is saved as halted (R326). -/
def execTeamSave (t : Nat) (s : State) : Result :=
  let v := s.team t
  if v.st == .stopping && !(s.cmdsOf t).any Cmd.mustEnd then
    let s := (s.hartsOf t).foldl (fun s h => s.modHart h Hart.takeHalt) (s.release v.core .dv)
    let s := (s.hartsOf t).foldl (fun s h => { s with savedFrom := Tab.put none s.savedFrom (s.hart h).num (some h) }) (s.leave t)
    let s := State.powerDone (s.setTeam t { v with
      st := .saved, since := s.cycle, request := false, victimOf := none, forPower := false })
    .next (if v.killed then s.dropTeam t else s)
  else .next s

/-! ### Retiring (R277) -/

/-- TEAM_RETIRE: once every hart has exited, its blocks have run and its commands have ended, a release at dv and the
resources freed. A terminated team that lies saved retires there once its begun commands have ended. -/
def execTeamRetire (t : Nat) (s : State) : Result :=
  let v := s.team t
  if v.st == .resident && (s.cmdsOf t).isEmpty
      && (v.killed || (s.hartsOf t).all (fun h => (s.hart h).exited && s.idle h)) then
    let s := (s.release v.core .dv).leave t
    let s := State.powerDone (s.setTeam t { v with st := .retired, request := false, victimOf := none, forPower := false, rows := 0 })
    .next ((s.teamRetired v.launch).sweepImages)
  else if v.st == .saved && v.killed && (s.cmdsOf t).isEmpty then .next (s.gone t)
  else .next s

/-! ### Requests through hctl (R277, R294, R328) -/

/-- The team of the hart that answers at g. -/
def State.teamAt (s : State) (g : Nat) : Option Nat := (s.hartAt g).map teamOf

/-- The hart that dbgctl selects. -/
def State.hartsel (s : State) : Nat := (s.dbgctl.extractLsb' 0 9).toNat

/-- HCTL_PREEMPT: with hold set and hartsel naming a hart of the team, the team then stays saved. -/
def State.hctlPreempt (s : State) (g : Nat) : State :=
  match s.teamAt g with
  | none => s
  | some t =>
    let hold := s.dbgctl.getLsbD 18 && s.teamAt s.hartsel == some t
    s.modTeam t (fun v => { v with request := v.request || v.st == .resident, held := v.held || hold })

def execHctlPreempt (g : Nat) (s : State) : Result := .next (s.hctlPreempt g)

/-- A resident team of a terminated launch: its streams stop, its queued blocks are discarded, its parked harts released
and its parked commands retired; commands under way complete. -/
def State.killTeam (s : State) (t : Nat) : State :=
  let s := ((s.cmdsOf t).filter (fun c => c.parked.isSome)).foldl State.endCmd s
  let s := (s.hartsOf t).foldl (fun s h => s.modHart h (fun v =>
    { v with
      exited := true, blockQ := [], block := none, loops := [], check := false, parkC := none, parkV := none, wait := none,
      vwait := none, stalled := none, halted := none, haltReq := false })) s
  s.modTeam t (fun v => { v with killed := true })

/-- HCTL_TERMINATE: terminate a hart's launch. -/
def State.hctlTerminate (s : State) (g : Nat) : State :=
  match s.teamAt g with
  | none => s
  | some t0 =>
    let l := (s.team t0).launch
    if (s.launch l).finished then s
    else
      let s := s.setLaunch l { s.launch l with killed := true }
      (s.teamsWhere (fun _ v => v.launch = l && v.st != .retired)).foldl (fun s t =>
        match (s.team t).st with
        | .pending => s.dropTeam t
        | .saved => s.dropTeam t
        | _ => s.killTeam t) s

def execHctlTerminate (g : Nat) (s : State) : Result := .next (s.hctlTerminate g)

end Sys2Proof.Machine
end

