-- ==== Sys2Proof/Machine/Host.lean ====
section
/-! DEFINITION. What the device and the host do on their own: writing fault records (R285), the horizons of the L1
(R188), the Onistyan link (R302 to R304), host writes (R190) and expanders that leave (R193). -/

namespace Sys2Proof.Machine

/-! ### The fault-queue ring (R285) -/

/-- FAULT_RECORD_WRITE: the oldest waiting report enters the ring when the ring has room, as a release at dv by the party
that it is made for. -/
def execFaultRecordWrite (s : State) : Result :=
  match s.reports with
  | [] => .next s
  | r :: rest =>
    if s.ringUsable && s.fqtail - s.fqhead < s.ringSize then
      let s := match r.core with | some c => s.release c .dv | none => s
      let bs := (r.words.map (fun w => leBytes 8 w.toNat)).flatten
      .next { s.homeWrite (s.ringBase + 64 * (s.fqtail % s.ringSize)) bs with fqtail := s.fqtail + 1, reports := rest }
    else .next s

/-- FQRING_WRITE: the register takes what is written; a usable ring then lets reports enter, one FAULT_RECORD_WRITE each. -/
def execFqringWrite (v : W64) (s : State) : Result := .next { s with fqring := v }

/-! ### The L1's horizons (R188) -/

def horizon : Nat := 65536

/-- A byte that was filled or became dirty a horizon ago. -/
def State.due (s : State) (b : L1Byte) : Bool := b.at_ + horizon ≤ s.cycle

/-- L1_WRITEBACK_HORIZON: a line with a dirty byte that is due is written back. -/
def execL1WritebackHorizon (core line : Nat) (s : State) : Result :=
  let due := (List.range 64).any (fun i => match s.l1Byte core (line * 64 + i) with
    | some b => b.dirty && s.due b
    | none => false)
  .next (if due then s.writeBack core line else s)

/-- L1_INVALIDATE_HORIZON: the clean bytes of a line that are due are invalidated. -/
def execL1InvalidateHorizon (core line : Nat) (s : State) : Result :=
  .next ((List.range 64).foldl (fun s i => match s.l1Byte core (line * 64 + i) with
    | some b => if !b.dirty && s.due b then s.putL1 core (line * 64 + i) none else s
    | none => s) s)

/-! ### The Onistyan link (R302 to R304) -/

/-- QTAIL_WRITE: the tail-pointer write. -/
def execQtailWrite (q : Nat) (v : W64) (s : State) : Result := .next (if q < 64 then s.setHq q 3 v else s)

/-- The value of olink. -/
def State.olink (s : State) : W64 := BitVec.ofNat 64 (s.linkUp.toNat + 2 * s.linkDown.toNat)

/-- OLINK_READ: the read clears the link-down bit. -/
def execOlinkRead (s : State) : Result := .next { s with hostData := s.olink, linkDown := false }

/-- HOST_LINK_DOWN. -/
def execHostLinkDown (s : State) : Result :=
  .next (if s.linkUp then { s with linkUp := false, linkDown := true } else s)

/-- A wait for the host, ended. -/
def endHostWait : Option Wait → Option Wait
  | some (.host _) => none
  | w => w

def Hart.linkBack (t : Hart) : Hart :=
  { t with wait := endHostWait t.wait, vwait := endHostWait t.vwait, linkDeadC := false, linkDeadV := false }

/-- The link is up again: waiting accesses go on, writes that have not waited too long are made, then completion entries
that fell due. -/
def State.linkReturns (s : State) : State :=
  let s := { s with linkUp := true }
  let s := (s.linkQ.filter (fun w => s.cycle < w.since + linkLimit)).foldl (fun s w => s.homeWrite w.pa w.vals) s
  let s := s.dueEntries.foldl (fun s e => s.homeWrite e.1 e.2) s
  let s := { s with linkQ := [], dueEntries := [], hostWaits := [] }
  let s := ((s.teamsWhere (fun _ v => v.st != .retired)).map s.hartsOf).flatten.foldl (fun s h => s.modHart h Hart.linkBack) s
  let s := (List.range 9).foldl (fun s n => s.modVerge n (fun v => { v with wait := endHostWait v.wait, linkDead := false })) s
  s.finishWaiting

/-- HOST_LINK_UP. -/
def execHostLinkUp (s : State) : Result := .next (if s.linkUp then s else s.linkReturns)

/-- HOST_ACCESS_TIMEOUT (R304): after 2^20 cycles a party's access goes on without the host. -/
def execHostAccessTimeout (p : Party) (s : State) : Result :=
  let due : Option Wait → Bool
    | some (.host c) => c + linkLimit ≤ s.cycle
    | _ => false
  match p with
  | .ctrl h =>
    if due (s.hart h).wait then .next (s.modHart h (fun t => { t with wait := none, linkDeadC := true })) else .next s
  | .vec h =>
    if due (s.hart h).vwait then .next (s.modHart h (fun t => { t with vwait := none, linkDeadV := true })) else .next s
  | .verge n =>
    if due (s.verge n).wait then .next (s.modVerge n (fun v => { v with wait := none, linkDead := true })) else .next s

/-- CXL_EXPANDER_LEAVE (R193): the slot reads not present (R306). -/
def execCxlExpanderLeave (e : Nat) (s : State) : Result :=
  .next (if e < 4 then { s with cxlstat := Tab.put 0 s.cxlstat e (Tab.get 0 s.cxlstat e &&& ~~~(1 : W64)) } else s)

/-- HOST_WRITE (R190): a write to device memory over the link takes its place at the home slice; the host's own memory is
written without the link. -/
def execHostWrite (pa : Nat) (bs : List Byte) (s : State) : Result :=
  let last := pa + bs.length - 1
  if bs.isEmpty then .next s
  else if s.isDevice last && s.linkUp then .next (s.homeWrite pa bs)
  else if (isHost pa && isHost last) || 2 ^ 52 ≤ pa then .next (s.homeWrite pa bs)
  else .next s

end Sys2Proof.Machine
end

