-- ==== Sys2Proof/Machine/Fabric.lean ====
section
/-! DEFINITION. The fabric port (R307 to R311): sending, receiving into slots, permits and resets. What happens at another
device comes in as the operands of an event; what leaves for another device goes through the port's outbox. -/

namespace Sys2Proof.Machine

/-! ### Channel descriptors (R307) -/

/-- The address of a channel's descriptor. -/
def State.chanAt (s : State) (ch : Nat) : Nat := entryPa s.fchan + 64 * ch

/-- Word i of a channel's descriptor: 0 sring, 1 rring, 2 rhead, 3 rword, 4 peer, 5 shead, 6 rnext. -/
def State.chan (s : State) (ch i : Nat) : W64 := s.entryAt (s.chanAt ch + 8 * i)
def State.setChan (s : State) (ch i : Nat) (v : W64) : State := s.homeWrite (s.chanAt ch + 8 * i) (leBytes 8 v.toNat)

/-- The channel is enabled. -/
def State.chanOn (s : State) (ch : Nat) : Bool := ch < 256 && (s.chan ch 0).getLsbD 52

def State.chanCtx (s : State) (ch : Nat) : Nat := ((s.chan ch 4).extractLsb' 48 16).toNat
def State.chanPeer (s : State) (ch : Nat) : Nat := ((s.chan ch 4).extractLsb' 0 16).toNat
def State.peerChan (s : State) (ch : Nat) : Nat := ((s.chan ch 4).extractLsb' 16 8).toNat

/-- The port sends something. -/
def State.send (s : State) (p : Packet) : State := { s with outbox := s.outbox ++ [p] }

/-- An address field of a descriptor. -/
abbrev low48 (w : W64) : Nat := w.toNat % 2 ^ 48

/-- The page that a failed translation of an address concerns (R215). -/
def State.faultPage (s : State) (ctx va : Nat) : Nat × Nat :=
  let root := s.rootOf ctx
  match (if s.tableOk root then s.walk va 4 root else .error ⟨3, va / 4096 * 4096, 4096⟩) with
  | .ok p => (p.base, p.size)
  | .error f => (f.base, f.size)

/-- An asynchronous record of the port (R311): the hart field is 0xFFFF, for the port issues for no hart (log 33). -/
def State.portReport (s : State) (ch cls acc sz rsn va : Nat) : Nat × State :=
  let (base, size) := s.faultPage (s.chanCtx ch) va
  let (pk, s) := s.report {
    cls := cls, st := true, asy := true, rsn := rsn, ctx := s.chanCtx ch, sz := sz, acc := acc, addr := BitVec.ofNat 64 va,
    hart := 0xFFFF, base := base, size := size }
  (pk.rid, s)

/-! ### Sending (R308, R309) -/

/-- A channel parks on a record. -/
def State.parkChan (s : State) (ch acc sz rsn va : Nat) : State :=
  let (rid, s) := (s.hostDone (.send ch)).portReport ch 0x05 acc sz rsn va
  { s with sendPark := Tab.put none s.sendPark ch (some rid) }

/-- The first byte of a payload that cannot be read: its address and why. -/
def State.payloadLost (s : State) (w : Waiter) (ctx : Nat) : Nat → Nat → Nat → Option (Nat × Lost)
  | 0, _, _ => none
  | fuel + 1, va, n =>
    if n = 0 then none
    else match s.reach w ctx va .engRead with
      | .error e => some (va, e)
      | .ok _ => s.payloadLost w ctx fuel (va + pieceLen va n) (n - pieceLen va n)

/-- The cells of a message. -/
def cellCount (len : Nat) : Nat := (len + 255) / 256

/-- The rails of a channel's mask that are up. -/
def State.railsOf (s : State) (ch : Nat) : List Nat :=
  (List.range 16).filter (fun r => (s.chan ch 4).getLsbD (32 + r) && s.railstat.getLsbD r)

/-- Send one cell of a message: it takes any of the rails (R310), as a free value says. -/
def State.sendCell (s : State) (ch msg len : Nat) (tag : W64) (bs : List Byte) (idx : Nat) : State :=
  let rails := s.railsOf ch
  let rail := rails.getD (Config.freeNat s.fresh % rails.length) 0
  State.send { s with fresh := s.fresh + 1 }
    (.cell rail (s.chanPeer ch) ⟨s.peerChan ch, msg, idx, len, tag, (bs.drop (256 * idx)).take 256, rail⟩)

/-- Take the send descriptor in the ring at place `i`, its words given (R308): the payload is read and leaves as cells
(R310). -/
def State.sendOne (s : State) (ch : Nat) (i : W64) (d : List W64) : State :=
  let src := low48 (d.getD 0 0)
  let len := (d.getD 1 0).toNat
  let taken := { s.setChan ch 5 (i + 1) with permits := Tab.put 0 s.permits ch (Tab.get 0 s.permits ch - 1) }
  let read := s.ctxRead (.send ch) (s.chanCtx ch) .engRead (pieces src len) src len
  match s.payloadLost (.send ch) (s.chanCtx ch) (pieces src len) src len with
  | some (_, .wait) => s.hostWait (.send ch)
  | some (va, .lost 0) => ((taken.hostDone (.send ch)).portReport ch 0x06 5 6 0 va).2
  | some (va, .lost rsn) => s.parkChan ch 5 6 rsn va
  | none =>
    let msg := Tab.get 0 s.sendSeq ch
    let bs := match read with | .ok bs => bs | .error _ => []
    (List.range (cellCount len)).foldl (fun s i => s.sendCell ch msg len (d.getD 3 0) bs i)
      { taken with sends := s.sends ++ [⟨ch, msg, d.getD 0 0, len, d.getD 2 0, d.getD 3 0, none⟩],
                   sendSeq := Tab.put 0 s.sendSeq ch (msg + 1),
                   hostWaits := s.hostWaits.filter (fun e => e.1 ≠ .send ch) }

/-- FABRIC_SEND_TAKE: the channel's next descriptor is taken, in send order, once a permit is held and a rail of the mask
is up. -/
def execFabricSendTake (ch : Nat) (s : State) : Result :=
  let ring := s.chan ch 0
  let size := 2 ^ (ring.extractLsb' 48 4).toNat
  let ctx := s.chanCtx ch
  if !s.chanOn ch || (Tab.get none s.sendPark ch).isSome then .next s
  else match s.ctxWord (.send ch) ctx (low48 ring + 32 * size) .engRead with
    | .error .wait => .next (s.hostWait (.send ch))
    | .error (.lost rsn) => .next (if rsn = 0 then s.hostDone (.send ch) else s.parkChan ch 5 3 rsn (low48 ring + 32 * size))
    | .ok tail =>
      let i := s.chan ch 5
      let at_ := low48 ring + 32 * (i.toNat % size)
      if i == tail || Tab.get 0 s.permits ch = 0 || (s.railsOf ch).isEmpty then .next s
      else match s.ctxRead (.send ch) ctx .engRead 1 at_ 32 with
        | .error .wait => .next (s.hostWait (.send ch))
        | .error (.lost rsn) => .next (if rsn = 0 then s.hostDone (.send ch) else s.parkChan ch 5 6 rsn at_)
        | .ok bs => .next (s.sendOne ch i (wordsOf 4 bs))

/-- Add to a word of the channel's context, as a home-slice step; a word that is lost makes a record. -/
def State.addWord (s : State) (w : Waiter) (ch va n : Nat) : Except Lost State :=
  match s.reach w (s.chanCtx ch) va .atomic with
  | .error e => .error e
  | .ok pa => .ok (s.homeWrite pa (leBytes 8 ((leNat (s.home pa 8) + n) % 2 ^ 64)))

def State.putSend (s : State) (m : SendMsg) : State :=
  { s with sends := s.sends.map (fun d => if d.ch = m.ch && d.msg = m.msg then m else d) }

/-- The completion word of an acknowledged message is added to, and the message is done; where the word does not translate
the message alone parks, for a later descriptor of its channel does not wait for it (log 73). -/
def State.ackSend (s : State) (m : SendMsg) : State :=
  let w : Waiter := .ack m.ch m.msg
  let done (s : State) : State := { s with sends := s.sends.filter (fun d => !(d.ch = m.ch && d.msg = m.msg)) }
  let va := low48 m.cw
  if va = 0 then done s
  else match s.addWord w m.ch va (m.cw.extractLsb' 48 6).toNat with
    | .error .wait => (s.putSend m).hostWait w
    | .error (.lost 0) => done ((s.hostDone w).portReport m.ch 0x06 3 3 0 va).2
    | .error (.lost rsn) =>
      let (rid, s) := (s.hostDone w).portReport m.ch 0x05 3 3 rsn va
      s.putSend { m with parked := some rid }
    | .ok s => done (s.hostDone w)

/-- FABRIC_ACK (R310 step 4): the completion word of the message is added to. -/
def execFabricAck (ch msg : Nat) (s : State) : Result :=
  match s.sends.find? (fun m => m.ch = ch && m.msg = msg) with
  | none => .next s
  | some m => if m.parked.isSome then .next s else .next (s.ackSend m)

/-- A message released by fqreplay adds to its completion word (R311). -/
def State.resumeAck (s : State) (m : SendMsg) : State := s.ackSend { m with parked := none }

/-! ### Permits and resets (R309) -/

/-- The messages of the port that are parked. -/
def State.portParked (s : State) : Nat := (s.recvs.filter (fun m => m.parked.isSome)).length

/-- FABRIC_PERMIT_GRANT: this port grants the peer what the channel's rhead word has freed, while fewer than 16 messages are
parked; or permits arrive from the peer. -/
def execFabricPermitGrant (ch : Nat) (fromPeer : Option Nat) (s : State) : Result :=
  match fromPeer with
  | some n => .next { s with permits := Tab.put 0 s.permits ch (Tab.get 0 s.permits ch + n) }
  | none =>
    if !s.chanOn ch || 16 ≤ s.portParked then .next s
    else match s.ctxWord (.recv ch 0 0) (s.chanCtx ch) (low48 (s.chan ch 2)) .engRead with
      | .error _ => .next s
      | .ok freed =>
        let old := Tab.get 0 s.granted ch
        if freed.toNat ≤ old then .next s
        else .next (State.send { s with granted := Tab.put 0 s.granted ch freed.toNat }
          (.permits (s.chanPeer ch) (s.peerChan ch) (freed.toNat - old)))

/-- PORT_RESET: every permit held is lost, and the notice goes out. -/
def execPortReset (s : State) : Result := .next (State.send { s with permits := [] } .resetNotice)

/-! ### Receiving (R310, R311) -/

/-- The header of a message (R310 step 2). -/
def State.recvHeader (s : State) (m : RecvMsg) : List Byte :=
  leBytes 8 ((if m.aborted then 0 else m.len % 2 ^ 32) + s.chanPeer m.ch * 2 ^ 32 + m.aborted.toNat * 2 ^ 63)
    ++ leBytes 8 m.tag.toNat

/-- The same message: a number may come again after a reset of its sender (R309), but in a slot of its own. -/
def RecvMsg.same (m d : RecvMsg) : Bool := d.ch = m.ch && d.msg = m.msg && d.slot = m.slot

def State.putRecv (s : State) (m : RecvMsg) : State := { s with recvs := s.recvs.map (fun d => if m.same d then m else d) }

/-- A message parks on a record (R311). Where 16 others are parked already the port's fault queue holds no more: the message
waits with what it has, and is tried again. -/
def State.parkRecv (s : State) (m : RecvMsg) (acc sz rsn va : Nat) : State :=
  if 16 ≤ (s.putRecv { m with parked := none }).portParked then s.putRecv m
  else
    let (rid, s) := s.portReport m.ch 0x05 acc sz rsn va
    s.putRecv { m with parked := some rid }

/-- Write bytes in the channel's context by lines; the address of the first byte that does not translate. -/
def State.portWrite (s : State) (ctx : Nat) : Nat → Nat → List Byte → Except (Nat × Nat) State
  | 0, _, _ => .ok s
  | fuel + 1, va, bs =>
    if bs.isEmpty then .ok s
    else
      let n := pieceLen va bs.length
      match s.translateRoot false (s.rootOf ctx) va .engWrite with
      | .error f => .error (va, f.reason)
      | .ok pa => (s.outWrite pa (bs.take n)).portWrite ctx fuel (va + n) (bs.drop n)

/-- Close a message: its header, then the receive-done word, which must both translate first, then the acknowledgement to
its sender; one that the sender's reset has aborted is not acknowledged. -/
def State.closeRecv (s : State) (m : RecvMsg) : State :=
  let w : Waiter := .recv m.ch m.msg m.slot
  let ctx := s.chanCtx m.ch
  let word := low48 (s.chan m.ch 3)
  let gone (s : State) : State :=
    let s := { s.hostDone w with recvs := s.recvs.filter (fun d => !m.same d) }
    if m.aborted then s else s.send (.ack (s.chanPeer m.ch) (s.peerChan m.ch) m.msg)
  match s.reach w ctx word .atomic with
  | .error .wait => (s.putRecv m).hostWait w
  | .error (.lost (rsn + 1)) => s.parkRecv m 3 3 (rsn + 1) word
  | r =>
    match s.portWrite ctx 2 m.slot (s.recvHeader m) with
    | .error (va, rsn) => s.parkRecv m 6 6 rsn va
    | .ok s =>
      match r with
      | .ok _ =>
        match s.addWord w m.ch word 1 with
        | .ok s => gone s
        | .error _ => gone s
      | .error _ => gone (s.portReport m.ch 0x06 3 3 0 word).2

/-- Write the held cells of a message in turn; when all have been written, or the message is aborted, close it. -/
def State.writeCells (s : State) (m : RecvMsg) : List Cell → State
  | [] => if m.aborted || m.seen.length = cellCount m.len then (s.putRecv m).closeRecv m else s.putRecv m
  | c :: rest =>
    match s.portWrite (s.chanCtx m.ch) 6 (m.slot + 16 + 256 * c.idx) c.data with
    | .error (va, rsn) => s.parkRecv { m with held := c :: rest } 6 6 rsn va
    | .ok s => s.writeCells { m with seen := c.idx :: m.seen, held := rest } rest

/-- A cell that fits its message. -/
def cellOk (c : Cell) : Bool :=
  1 ≤ c.len && c.idx < cellCount c.len && c.data.length = min 256 (c.len - 256 * c.idx)

/-- The messages of a channel that were to be tried again go on; those of every channel, when a place in the port's fault queue has come
free. -/
def State.portRetry (s : State) (ch : Nat) : State :=
  (s.recvs.filter (fun m => m.ch = ch && m.parked.isNone && (!m.held.isEmpty || m.aborted || m.seen.length = cellCount m.len))).foldl
    (fun s m => s.writeCells m m.held) s

def State.portRetryAll (s : State) : State := (s.recvs.map RecvMsg.ch).eraseDups.foldl State.portRetry s

/-- FABRIC_CELL_ARRIVE: the first cell of a message assigns the next slot; a cell of a parked message is held. -/
def execFabricCellArrive (c : Cell) (s : State) : Result :=
  let s := s.portRetry c.ch
  let ring := s.chan c.ch 1
  let count := 2 ^ (ring.extractLsb' 48 4).toNat
  let size := 2 ^ ((ring.extractLsb' 52 4).toNat + 8)
  if !s.chanOn c.ch || !cellOk c || size - 16 < c.len then .next s
  else match s.recvs.find? (fun m => m.ch = c.ch && m.msg = c.msg && !m.aborted) with
    | some m =>
      if m.seen.contains c.idx || m.held.any (fun d => d.idx = c.idx) then .next s
      else if m.parked.isSome then .next (s.putRecv { m with held := m.held ++ [c] })
      else .next (s.writeCells { m with held := m.held ++ [c] } (m.held ++ [c]))
    | none =>
      let n := s.chan c.ch 6
      let m : RecvMsg := ⟨c.ch, c.msg, low48 ring + size * (n.toNat % count), c.len, c.tag, [], [c], none, false⟩
      .next ((State.setChan { s with recvs := s.recvs ++ [m] } c.ch 6 (n + 1)).writeCells m [c])

/-- A message released by fqreplay writes its remaining cells, its header and its done add (R311); an aborted one its header
as aborted (R309). -/
def State.resumeRecv (s : State) (m : RecvMsg) : State := s.writeCells { m with parked := none } m.held

/-- FABRIC_RESET_NOTICE: the permits granted to the peer are reclaimed, its partly received messages written as
aborted. -/
def execFabricResetNotice (peer : Nat) (s : State) : Result :=
  let chans := (List.range 256).filter (fun ch => s.chanOn ch && s.chanPeer ch = peer)
  let s := chans.foldl (fun s ch => { s with granted := Tab.put 0 s.granted ch (s.chan ch 6).toNat }) s
  let parked := s.portParked
  let s := (s.recvs.filter (fun m => chans.contains m.ch)).foldl
    (fun s m => s.closeRecv { m with parked := none, held := [], aborted := true }) s
  .next (if s.portParked < parked then s.portRetryAll else s)

end Sys2Proof.Machine
end

