-- ==== Sys2Proof/Machine/Files.lean ====
section
/-! DEFINITION. The files of a hart as the privileged view and the debug core reach them (R294, R325), eight bytes at a
time. -/

namespace Sys2Proof.Machine

/-- The length in bytes of register `r` of file `f` of a hart, or none where there is no such register (R294, R325). The
registers of file 3 are numbered as those of file 13 (log 40). -/
def State.fileLen (s : State) (h f r : Nat) : Option Nat :=
  let t := s.hart h
  let team := s.team (teamOf h)
  let vector (r : Nat) : Bool := r < t.n || (32 ≤ r && r < 42)
  let len (c : Bool) (n : Nat) : Option Nat := if c then some n else none
  match f with
  | 0 => len (r < t.n) t.bytes
  | 1 => len (r < 8) t.bytes
  | 2 => len (r < 2) t.bytes
  | 3 => len (vector r) (t.bytes / 16)
  | 4 => len (r < 8) (t.bytes / 4)
  | 5 => len (r = 0) (t.bytes / 4)
  | 6 => len (r < 16) 64
  | 7 => len (r < 4) 4096
  | 8 => len (r = 0) team.bytes
  | 9 => len (r = 0) (4096 * team.tiles)
  | 10 => len (r < 16) 8
  | 11 => len (r < 32) 8
  | 12 => len (r < 6) 8
  | 13 => len (r < 42) 8
  | 14 => len (r = 0) 128
  | 15 => len (r < 6) 24
  | 16 => len (r = 0) 1024
  | 17 => len (r < 2) (if r = 0 then 16 * 72 else 16 * 8)
  | _ => none

/-- The place of a file's register in the register table. -/
def fileReg (f r : Nat) : Nat := match f with | 1 => 32 + r | 2 => 40 + r | _ => r

/-- Eight bytes of a table of bytes. -/
def word8 (m : Tab Byte) (k : Nat) : W64 := BitVec.ofNat 64 (leNat ((List.range 8).map (fun i => Tab.get 0 m (k + i))))

/-- Word number i of a level (R219, R325). -/
def Level.word (l : Level) (i : Nat) : W64 := match i with | 0 => l.count | 1 => l.ss | _ => l.ds
def Level.setWord (l : Level) (i : Nat) (v : W64) : Level :=
  match i with | 0 => { l with count := v } | 1 => { l with ss := v } | _ => { l with ds := v }

/-- What a loop entry and a queued block hold, as numbers. -/
def Loop.contents (l : Loop) : List Nat :=
  let kind : List Nat := match l.kind with
    | .count r => [0, r.toNat]
    | .nz n => [1, n]
    | .nest c i => 2 :: (c ++ i).map BitVec.toNat
  kind ++ [l.stop.toNat, l.start.toNat, l.passes]
def Block.contents (b : Block) : List Nat := [b.addr.toNat, b.vgo.toNat] ++ b.args.map BitVec.toNat

/-- The eight bytes at an offset of a file's register, in the order of R5. Files 14 and 17 show the loop stack and the queues
in the layout of the save area, which the spec does not give (log 41). -/
def State.fileRead (s : State) (h f r off : Nat) : W64 :=
  let t := s.hart h
  let team := s.team (teamOf h)
  match f with
  | 3 => BitVec.ofNat 64 (elt 64 (t.vreg r).scale (off / 8))
  | 4 => BitVec.ofNat 64 (elt 64 (Tab.get 0 t.k r) (off / 8))
  | 5 => BitVec.ofNat 64 (elt 64 t.fm (off / 8))
  | 6 => BitVec.ofNat 64 (elt 64 (t.handle r).toNat (off / 8))
  | 7 => word8 t.pt (4096 * r + off)
  | 8 => word8 team.spad off
  | 9 => BitVec.ofNat 64 ((Tab.get 0 team.acc (off / 4)).toNat + (Tab.get 0 team.acc (off / 4 + 1)).toNat * 2 ^ 32)
  | 10 => Tab.get 0 t.s r
  | 11 => if r = 0 then 0 else Tab.get 0 t.x r
  | 12 =>
    match r with
    | 0 => t.cpc.setWidth 64
    | 1 => t.vpc.setWidth 64
    | 2 => BitVec.ofNat 64 t.vstart
    | 3 => BitVec.ofNat 64 t.vl
    | 4 => t.mode.setWidth 64
    | _ => BitVec.ofNat 64 (t.lg + 256 * t.n)
  | 13 => BitVec.ofNat 64 (t.vreg r).rows
  | 14 => Config.saveLayout 14 (t.loops.flatMap Loop.contents) off
  | 15 => (Tab.get {} t.nest r).word (off / 8)
  | 16 => BitVec.ofNat 64 ((Tab.get 0 t.rng (off / 4)).toNat + (Tab.get 0 t.rng (off / 4 + 1)).toNat * 2 ^ 32)
  | 17 =>
    if r = 0 then Config.saveLayout 17 (t.blockQ.flatMap Block.contents) off
    else Config.saveLayout 18 (t.replyQ.map BitVec.toNat) off
  | _ => BitVec.ofNat 64 (elt 64 (t.vreg (fileReg f r)).data (off / 8))

/-- Writing the program counters, vstart and the mode register of a stopped hart (R294, R35). A stream that is sent elsewhere
no longer stands at the command it was stalled at (R226) or at the instruction that it halted before (R327), and a new
vector pc is due the end check of R90. A new mode leaves vl as it is, which may then lie above vlmax of the new type: R26 lowers vl for
vmode alone (the model's choice, log 111). -/
def Hart.writePosition (t : Hart) (r : Nat) (v : W64) : Hart :=
  match r with
  | 0 => { t with cpc := (v.setWidth 48) &&& ~~~(3 : W48), bpSkipC := false }
  | 1 => { t with
      vpc := (v.setWidth 48) &&& ~~~(3 : W48), stalled := none, bpSkipV := false, check := !t.loops.isEmpty }
  | 2 => { t with vstart := v.toNat }
  | _ => if v.toNat < 2 ^ 32 && !modeBad (v.setWidth 32) then { t with mode := v.setWidth 32 } else t

/-- The eight bytes at an offset of a file's register written. A write to a vector register raises its highest written
row (R36); a write to x0 is ignored; of a scale store, whose length is a multiple of 4, only bytes inside it are written. -/
def State.fileWrite (s : State) (h f r off : Nat) (v : W64) : State :=
  let n := v.toNat
  let lo := BitVec.ofNat 32 n
  let hi := BitVec.ofNat 32 (n / 2 ^ 32)
  match f with
  | 3 => s.modHart h (fun t => t.setVreg r { t.vreg r with
      scale := setElt 64 (t.vreg r).scale (off / 8) (n % 2 ^ (8 * min 8 (t.bytes / 16 - off))) })
  | 4 => s.modHart h (fun t => { t with k := Tab.put 0 t.k r (setElt 64 (Tab.get 0 t.k r) (off / 8) n) })
  | 5 => s.modHart h (fun t => { t with fm := setElt 64 t.fm (off / 8) n })
  | 6 => s.modHart h (fun t => t.setHandle r (hPut (t.handle r) (off / 8) v))
  | 7 => s.modHart h (fun t => { t with pt := putBytes t.pt (4096 * r + off) (leBytes 8 n) })
  | 8 => s.spadWrite (teamOf h) off (leBytes 8 n)
  | 9 => s.modTeam (teamOf h) (fun t => { t with acc := Tab.put 0 (Tab.put 0 t.acc (off / 4) lo) (off / 4 + 1) hi })
  | 10 => s.modHart h (fun t => { t with s := Tab.put 0 t.s r v })
  | 11 => if r = 0 then s else s.modHart h (fun t => { t with x := Tab.put 0 t.x r v })
  | 12 => s.modHart h (fun t => t.writePosition r v)
  | 15 => s.modHart h (fun t => { t with nest := Tab.put {} t.nest r ((Tab.get {} t.nest r).setWord (off / 8) v) })
  | 16 => s.modHart h (fun t => { t with rng := Tab.put 0 (Tab.put 0 t.rng (off / 4) lo) (off / 4 + 1) hi })
  | _ => s.modHart h (fun t =>
      let g := fileReg f r
      t.setVreg g (t.image (t.vreg g) 8 (off + 8) (setElt 64 (t.vreg g).data (off / 8) n)))

/-- The register of a file may be written (R325). -/
def fileWritable (f r : Nat) : Bool :=
  match f with
  | 12 => r = 0 || r = 1 || r = 2 || r = 4
  | 13 => false
  | 14 => false
  | 17 => false
  | _ => true

/-- The place exists: a multiple of 8 below the register's length. -/
def State.fileHas (s : State) (h f r off : Nat) : Bool :=
  off % 8 = 0 && (match s.fileLen h f r with | some n => off < n | none => false)

/-! ### rfsel and rfdata (R294) -/

def rfFile (w : W64) : Nat := (w.extractLsb' 56 8).toNat
def rfReg (w : W64) : Nat := (w.extractLsb' 48 8).toNat
def rfOff (w : W64) : Nat := (w.extractLsb' 0 48).toNat

/-- The selector with its offset advanced by 8. -/
def rfNext (w : W64) : W64 := (w &&& 0xFFFF000000000000) ||| BitVec.ofNat 64 ((rfOff w + 8) % 2 ^ 48)

/-- A hart that the writes of R294 reach: stopped on a report, or saved. -/
def State.reachable (s : State) (h : Nat) : Bool :=
  (s.hart h).stoppedOnReport || (s.team (teamOf h)).st == .saved

/-- One access to rfdata: the value read, and the state after it. -/
def State.rfdata (s : State) (h : Nat) (w : Option W64) : W64 × State :=
  let sel := (s.hart h).rfsel
  let f := rfFile sel
  let r := rfReg sel
  let off := rfOff sel
  if s.reachable h && f ≤ 11 && s.fileHas h f r off then
    let v := s.fileRead h f r off
    let s := match w with | some x => s.fileWrite h f r off x | none => s
    (v, s.modHart h (fun t => { t with rfsel := rfNext t.rfsel }))
  else (0, s)

/-- RFDATA_ACCESS: an access from outside through target 2 + g. -/
def execRfdataAccess (g : Nat) (w : Option W64) (s : State) : Result :=
  match s.hartAt g with
  | none => .next { s with hostData := 0 }
  | some h =>
    let (v, s) := s.rfdata h w
    .next (if w.isNone then { s with hostData := v } else s)

/-- Reseed a hart's lanes (R143, R293). -/
def Hart.reseed (t : Hart) (v : W64) : Hart :=
  { t with rngseed := v.setWidth 32, rng := laneStates (v.setWidth 32) }

/-- RNGSEED_WRITE: a hart's own write waits until its vector stream is idle. -/
def execRngseedWrite (h : Nat) (v : W64) (s : State) : Result :=
  if s.onCore h && s.idle h then .next (s.modHart h (fun t => t.reseed v)) else .next s

end Sys2Proof.Machine
end

