-- ==== Sys2Proof/Machine/Debug.lean ====
section
/-! DEFINITION. Debug (R323 to R328): halting and resuming a hart, breakpoints, abstract commands; and the Milestone
stream (R329, R330). -/

namespace Sys2Proof.Machine

/-! ### dbgctl and halting (R323, R326) -/

/-- Stop the hart at g: at once when it is on a core, but behind a descent step in flight (R130, R274); when it is away, at
its placement. -/
def State.halt (s : State) (g : Nat) : State :=
  match s.hartAt g with
  | none => s
  | some h =>
    if (s.hart h).halted.isSome && s.onCore h then s
    else if s.onCore h && !s.descending h then s.haltHart h 1
    else s.modHart h (fun t => { t with haltReq := true })

/-- Let the hart at g issue again, after an acquire at dv; when it is away, at its placement. -/
def State.resumeAt (s : State) (g : Nat) : State :=
  match s.hartAt g with
  | none => s
  | some h =>
    if s.onCore h then
      if (s.hart h).halted.isSome then
        (s.acquire (s.coreOfTeam (teamOf h)) .dv).modHart h (fun t => t.resumed (s.wordBytes (.ctrl h)))
      else s
    else s.modHart h (fun t => { t with resumeReq := t.halted.isSome, haltReq := false })

/-- dbgctl with hartsel, and haltreq set or cleared. -/
def State.select (s : State) (g : Nat) (halt : Bool) : State :=
  { s with dbgctl := (s.dbgctl &&& ~~~(0x101FF : W64)) ||| BitVec.ofNat 64 (g % 512 + halt.toNat * 2 ^ 16) }

/-- HALTREQ. -/
def execHaltreq (g : Nat) (s : State) : Result := .next ((s.select g true).halt g)

/-- RESUMEREQ. -/
def execResumereq (g : Nat) (s : State) : Result := .next ((s.select g false).resumeAt g)

/-- Teams held for a dump may be placed again (R328). -/
def State.releaseHold (s : State) : State :=
  (s.teamsWhere (fun _ v => v.held)).foldl (fun s t => s.modTeam t (fun v => { v with held := false })) s

/-- HOLD_RELEASE: hold is written 0. -/
def execHoldRelease (s : State) : Result := .next (State.releaseHold { s with dbgctl := s.dbgctl &&& ~~~(0x40000 : W64) })

/-- A write of dbgctl: resumereq reads 0; its request is served before haltreq's; a halt stops the hart at its next
boundary (haltReq), where HALTREQ or the stream's next turn takes it. -/
def State.writeDbgctl (s : State) (v : W64) : State :=
  let s := { s with dbgctl := v &&& 0xD01FF }
  let s := if v.getLsbD 18 then s else s.releaseHold
  let s := if v.getLsbD 17 then s.resumeAt s.hartsel else s
  if v.getLsbD 16 then
    match s.hartAt s.hartsel with
    | none => s
    | some h => if (s.hart h).halted.isSome && !(s.hart h).resumeReq then s else s.modHart h (fun t => { t with haltReq := true })
  else s

/-- dbgstat: busy is 1 while a command that has been written is to be performed. -/
def State.dbgstat (s : State) : W64 :=
  let cause := match s.hartAt s.hartsel with
    | some h => (s.hart h).halted
    | none => none
  BitVec.ofNat 64 (s.dbgCmd.isSome.toNat + s.cmderr * 2 ^ 8 + (if cause.isSome then 2 ^ 16 else 0) + cause.getD 0 * 2 ^ 17)

/-- DBGSTAT_WRITE: ones clear bits of cmderr. -/
def State.writeDbgstat (s : State) (v : W64) : State :=
  { s with cmderr := s.cmderr &&& (7 - (v.extractLsb' 8 3).toNat) }

def execDbgstatWrite (v : W64) (s : State) : Result := .next (s.writeDbgstat v)

/-! ### Breakpoints (R327) -/

/-- A breakpoint register matches: its context, kind, and value. -/
def bpMatches (w : W64) (ctx kind val : Nat) : Bool :=
  (w.extractLsb' 0 2).toNat = kind
    && ((w.extractLsb' 48 16).toNat = 0 || (w.extractLsb' 48 16).toNat = ctx)
    && (if kind = 3 then (w.extractLsb' 2 32).toNat = val else (w.extractLsb' 2 46).toNat = val)

def State.anyBp (s : State) (ctx kind val : Nat) : Bool := (List.range 4).any (fun i => bpMatches (Tab.get 0 s.bp i) ctx kind val)

/-- The vector pc stands at the end of the top loop, which is due its check (R90). -/
def Hart.loopDue (t : Hart) : Bool :=
  t.check && (match t.loops with | [] => false | l :: _ => t.vpc == l.stop)

/-- The next instruction of a stream matches by its pc, and is not the one to execute after a resumption; a loop end that is
due comes first, and a control stream has no next instruction after exit (R277). -/
def State.bpHit (s : State) (p : Party) : Bool :=
  match p with
  | .ctrl h => !(s.hart h).bpSkipC && !(s.hart h).exited && s.anyBp (s.ctxOf h) 1 ((s.hart h).cpc.toNat / 4)
  | .vec h => !(s.hart h).bpSkipV && (s.hart h).block.isSome && !(s.hart h).loopDue && s.anyBp (s.ctxOf h) 2 ((s.hart h).vpc.toNat / 4)
  | .verge _ => false

/-- A hart halts before a matching instruction, which then executes once without halting again. -/
def State.bpHalt (s : State) (p : Party) : State :=
  match p with
  | .ctrl h => (s.haltHart h 2).modHart h (fun t => { t with bpSkipC := true })
  | .vec h => (s.haltHart h 2).modHart h (fun t => { t with bpSkipV := true })
  | .verge _ => s

/-- BREAKPOINT_HALT. -/
def execBreakpointHalt (p : Party) (s : State) : Result :=
  if s.running (partyHart p) && !s.descending (partyHart p) && s.bpHit p then .next (s.bpHalt p) else .next s

/-! ### Abstract commands (R324, R325) -/

/-- A command ends with an error, or without one. -/
def State.cmdError (s : State) (e : Nat) : State := { s with cmderr := e }

/-- The hart that dbgctl selects may be accessed. -/
def State.accessible (s : State) (h : Nat) : Bool := (s.hart h).halted.isSome || s.reachable h

/-- Access register. -/
def State.accessRegister (s : State) (c : BitVec 32) : State :=
  let f := (c.extractLsb' 8 8).toNat
  let r := (c.extractLsb' 0 8).toNat
  let write := c.getLsbD 16
  let off := s.data1.toNat
  if !(c.extractLsb' 24 8 == 0 && !c.getLsbD 23 && c.extractLsb' 20 3 == 3 && !c.getLsbD 18) then s.cmdError 2
  else if !c.getLsbD 17 then s
  else match s.hartAt s.hartsel with
    | none => s.cmdError 4
    | some h =>
      if !s.accessible h then s.cmdError 4
      else if !s.fileHas h f r off || (write && !fileWritable f r) then s.cmdError 2
      else
        let s := if write then s.fileWrite h f r off s.data0 else { s with data0 := s.fileRead h f r off }
        if c.getLsbD 19 && s.cmderr = 0 then { s with data1 := s.data1 + 8 } else s

/-- The physical address of an access-memory command: through the tables of the selected hart's context, or as given. R184
leaves window addresses untranslated for the accesses of harts only. -/
def State.debugPa (s : State) (virtual write : Bool) (va : Nat) : Option Nat :=
  if virtual then
    match s.hartAt s.hartsel with
    | none => none
    | some h =>
      match s.translateRoot false (s.rootOf (s.ctxOf h)) va (if write then .store else .load) with
      | .ok pa => some pa
      | .error _ => none
  else if s.mapped va && !isView va then some va else none

/-- An access-memory word whose size is legal and whose reserved bits are 0. -/
def memoryWordOk (c : BitVec 32) : Bool :=
  c.extractLsb' 24 8 == 2 && 3 ≥ (c.extractLsb' 20 3).toNat && c.extractLsb' 17 2 == 0 && c.extractLsb' 0 16 == 0

/-- Access memory: at the home slice, at its natural alignment (log 42). -/
def State.accessMemory (s : State) (c : BitVec 32) : State :=
  let n := 2 ^ (c.extractLsb' 20 3).toNat
  let write := c.getLsbD 16
  let va := s.data2.toNat % 2 ^ 48
  if !memoryWordOk c then s.cmdError 2
  else match s.debugPa (c.getLsbD 23) write va with
    | none => s.cmdError 3
    | some pa =>
      if va % n ≠ 0 then s.cmdError 3
      else if s.poisoned (pa / 64) || (isHost pa && !s.linkUp) then s.cmdError 5
      else
        let s := if write then s.homeWrite pa (leBytes n s.data0.toNat)
          else { s with data0 := BitVec.ofNat 64 (leNat (s.home pa n)) }
        if c.getLsbD 19 && s.cmderr = 0 then { s with data2 := BitVec.ofNat 64 ((va + n) % 2 ^ 48) } else s

/-- A write of command (R323, R324): while another is to be performed it is ignored; a command of no type is an error; else
busy is 1 until the command is performed. -/
def State.command (s : State) (c : BitVec 32) : State :=
  if s.dbgCmd.isSome then s.cmdError 1
  else if c.extractLsb' 24 8 == 0 || c.extractLsb' 24 8 == 2 then { s with dbgCmd := some c }
  else s.cmdError 2

/-- An access-memory word whose place lies behind a link that is down waits for it (R304). -/
def State.memoryWaits (s : State) (c : BitVec 32) : Bool :=
  memoryWordOk c && (match s.debugPa (c.getLsbD 23) (c.getLsbD 16) (s.data2.toNat % 2 ^ 48) with
    | none => false
    | some pa => (s.data2.toNat % 2 ^ 48) % 2 ^ (c.extractLsb' 20 3).toNat = 0 && s.mustWaitFor .debug pa)

/-- A word of type `ty` is performed, unless another one is to be performed: it is then a write that finds busy 1. A word of
another type is none of this event's. -/
def State.perform (s : State) (ty : BitVec 8) (c : BitVec 32) (f : State → State) : State :=
  if c.extractLsb' 24 8 != ty then s
  else if s.dbgCmd.any (· != c) then s.cmdError 1
  else { (f s).hostDone .debug with dbgCmd := none }

def execAccessRegister (c : BitVec 32) (s : State) : Result := .next (s.perform 0 c (fun s => s.accessRegister c))

/-- ACCESS_MEMORY: busy stays 1 while the access waits for the link. -/
def execAccessMemory (c : BitVec 32) (s : State) : Result :=
  .next (if s.memoryWaits c && !s.dbgCmd.any (· != c) then { s.hostWait .debug with dbgCmd := some c }
    else s.perform 2 c (fun s => s.accessMemory c))

/-! ### The Milestone stream (R329, R330) -/

/-- k, en and the ring of the Milestone registers. -/
def State.msK (s : State) : Nat := (s.msctl.extractLsb' 8 5).toNat
def State.msCount (s : State) : Nat := 2 ^ (s.msbase.extractLsb' 52 4).toNat

/-- A tick is due at this cycle: it is a multiple of 2^k, and has not been latched yet. -/
def State.tickDue (s : State) : Bool :=
  s.msctl.getLsbD 0 && s.cycle % 2 ^ s.msK = 0 && s.mstick ≠ s.cycle + 1

/-- Where the period's count of counter `c` of unit `u` of a kind stands: cores 0, matrix units 1, controllers 2, slices 3, links 4,
rails 5. -/
def countAt (kind u c : Nat) : Nat := 48 * u + 8 * kind + c

/-- The counters that the model counts (R330; log 6): all of a core's; the row-cycles busy and held and the descents of a matrix
unit; the busy cycles and the value rows weighted of a controller's key lookup engine; the atomic steps and the busy cycles of a
slice's index engine; the lines of a rail. -/
def counted (kind c : Nat) : Bool :=
  match kind with
  | 0 => true
  | 1 => c ≠ 1
  | 2 => 2 ≤ c
  | 3 => 2 ≤ c
  | 5 => true
  | _ => false

/-- A count of the period raised. -/
def State.tally (s : State) (key n : Nat) : State :=
  if n = 0 then s else { s with counts := Tab.put 0 s.counts key (Tab.get 0 s.counts key + n) }

/-- The value of a counter for the record of tick `j`; it saturates. -/
def State.msCounter (s : State) (kind u c j : Nat) : Nat :=
  if counted kind c then min (Tab.get 0 s.counts (countAt kind u c)) 0xFFFFFFFF else (Config.milestoneCount kind u c j).toNat

/-- The counters of one kind of unit, as bytes; a unit absent from the grade reads 0. -/
def State.msCounters (s : State) (kind units present n j : Nat) : List Byte :=
  ((List.range units).map (fun u => ((List.range n).map (fun c =>
    leBytes 4 (if u < present then s.msCounter kind u c j else 0))).flatten)).flatten

/-- The 4,096 bytes of record j (R330). -/
def State.msRecord (s : State) (j : Nat) : List Byte :=
  let cores := if s.a48 then 48 else 64
  leBytes 8 j ++ leBytes 8 s.cycle ++ leBytes 8 (s.msK + cores * 2 ^ 8 + s.msgap.toNat * 2 ^ 16) ++ List.replicate 40 0
    ++ s.msCounters 0 64 cores 8 j ++ s.msCounters 1 16 (cores / 4) 4 j ++ s.msCounters 2 24 (if s.a48 then 18 else 24) 4 j
    ++ s.msCounters 3 64 64 4 j ++ s.msCounters 4 1 1 6 j ++ s.msCounters 5 16 16 2 j ++ List.replicate 160 0 ++ leBytes 8 j

/-- MILESTONE_TICK: a record is written at the home slices and msptr raised, or the record is dropped; a new period begins. -/
def execMilestoneTick (s : State) : Result :=
  if !s.tickDue then .next s
  else
    let s := { s with mstick := s.cycle + 1 }
    if (s.msptr + 2 ^ 64 - s.msrd.toNat) % 2 ^ 64 = s.msCount then .next { s with msdrop := s.msdrop + 1, msgap := true, counts := [] }
    else
      let pa := entryPa s.msbase + 4096 * (s.msptr % s.msCount)
      .next { s.homeWrite pa (s.msRecord s.msptr) with msptr := s.msptr + 1, msgap := false, counts := [] }

/-- Reading msptr: an acquire at dv of the reading verge core for the records it counts. -/
def State.readMsptr (s : State) : W64 × State :=
  (BitVec.ofNat 64 s.msptr, match s.cur with | .verge n => s.acquire (64 + n) .dv | _ => s)

/-- MSPTR_READ. -/
def execMsptrRead (s : State) : Result :=
  let (v, s) := s.readMsptr
  .next { s with hostData := v }

/-- Writes of msctl and msbase (R329). -/
def State.writeMsctl (s : State) (v : W64) : State :=
  let k := (v.extractLsb' 8 5).toNat
  let keep := s.msctl.getLsbD 0 || k < 10 || 20 < k
  { s with msctl := if keep then (s.msctl &&& ~~~(1 : W64)) ||| (v &&& 1) else v &&& 0x1F01 }
def State.writeMsbase (s : State) (v : W64) : State :=
  if s.msctl.getLsbD 0 then s else { s with msbase := v &&& 0x00FFFFFFFFFFF000 }

end Sys2Proof.Machine
end

