-- ==== Sys2Proof/Machine/Slh.lean ====
section
/-! DEFINITION. SLH-DSA-SHAKE-256s (FIPS 205), which R334 and R337 name: verification of a signature, the public key that a secret
gives, and signing. n is 32, the hypertree has 8 layers of height 8, and FORS has 22 trees of height 14. The scheme is taken from
FIPS 205 itself (logs 7 and 45). -/

namespace Sys2Proof.Machine

/-- Big-endian bytes and the number they hold. -/
def beBytes (n v : Nat) : List Byte := (leBytes n v).reverse
def beNat (bs : List Byte) : Nat := leNat bs.reverse

/-- An address: layer, tree, type, key pair, chain or tree height, hash or tree index. -/
def slhAdrs (layer tree ty pair c h : Nat) : List Byte :=
  beBytes 4 layer ++ beBytes 12 tree ++ beBytes 4 ty ++ beBytes 4 pair ++ beBytes 4 c ++ beBytes 4 h

/-- `n` bytes of SHAKE256, and F, H and T, which are one function here. -/
def shakeBytes (m : List Byte) (n : Nat) : List Byte := (((shake256 m ((n + 7) / 8)).map (fun w => leBytes 8 w.toNat)).flatten).take n
def slhHash (seed adrs m : List Byte) : List Byte := shakeBytes (seed ++ adrs ++ m) 32

/-- Value `i` of 32 bytes of a signature. -/
def slhPart (sig : List Byte) (i : Nat) : List Byte := (sig.drop (32 * i)).take 32

/-- Digit `i` of `b` bits of a string, the first in its most significant bits. -/
def slhDigit (b : Nat) (bs : List Byte) (i : Nat) : Nat := beNat bs / 2 ^ (8 * bs.length - b * (i + 1)) % 2 ^ b

/-- From a node up a tree by its authentication path, from height `j` on; `adrs` gives the address of a node by its height and
index. -/
def slhClimb (seed : List Byte) (adrs : Nat → Nat → List Byte) (idx : Nat) : List (List Byte) → Nat → List Byte → List Byte
  | [], _, node => node
  | a :: path, j, node =>
    slhClimb seed adrs idx path (j + 1) (slhHash seed (adrs (j + 1) (idx / 2 ^ (j + 1))) (if idx / 2 ^ j % 2 = 0 then node ++ a else a ++ node))

/-- The public key of FORS that a signature and a digest give. -/
def slhFors (seed : List Byte) (tree leaf : Nat) (sig md : List Byte) : List Byte :=
  let root (i : Nat) : List Byte :=
    let idx := i * 2 ^ 14 + slhDigit 14 md i
    let path := (List.range 14).map (fun j => slhPart sig (15 * i + 1 + j))
    slhClimb seed (slhAdrs 0 tree 3 leaf) idx path 0 (slhHash seed (slhAdrs 0 tree 3 leaf 0 idx) (slhPart sig (15 * i)))
  slhHash seed (slhAdrs 0 tree 4 leaf 0 0) ((List.range 22).map root).flatten

/-- The digits that a chain of WOTS+ starts from: 64 of the message, and 3 of the checksum. -/
def wotsDigits (m : List Byte) : List Nat :=
  let ds := (List.range 64).map (slhDigit 4 m)
  let sum := (ds.map (fun d => 15 - d)).sum
  ds ++ [sum / 256 % 16, sum / 16 % 16, sum % 16]

/-- A value of chain `i` of WOTS+ after `n` steps from step `d` on. -/
def wotsChain (seed : List Byte) (layer tree leaf i d n : Nat) (x : List Byte) : List Byte :=
  (List.range' d n).foldl (fun x j => slhHash seed (slhAdrs layer tree 0 leaf i j) x) x

/-- The public key of WOTS+ that the ends of its 67 chains give. -/
def wotsKey (seed : List Byte) (layer tree leaf : Nat) (ends : Nat → List Byte) : List Byte :=
  slhHash seed (slhAdrs layer tree 1 leaf 0 0) ((List.range 67).map ends).flatten

/-- The public key of WOTS+ that a signature of a message gives. -/
def slhWots (seed : List Byte) (layer tree leaf : Nat) (sig m : List Byte) : List Byte :=
  wotsKey seed layer tree leaf (fun i =>
    let d := (wotsDigits m).getD i 0
    wotsChain seed layer tree leaf i d (15 - d) (slhPart sig i))

/-- The root of the hypertree from layer `layer` on; `n` counts the layers that are left. -/
def slhTree (seed : List Byte) : Nat → Nat → Nat → Nat → List Byte → List Byte → List Byte
  | 0, _, _, _, _, node => node
  | n + 1, layer, tree, leaf, sig, node =>
    let path := (List.range 8).map (fun j => slhPart sig (67 + j))
    let up := slhClimb seed (slhAdrs layer tree 2 0) leaf path 0 (slhWots seed layer tree leaf sig node)
    slhTree seed n (layer + 1) (tree / 2 ^ 8) (tree % 2 ^ 8) (sig.drop (32 * 75)) up

/-- The signature of a message, with an empty context string, verifies against a public key: its seed, then its root. -/
def slhVerify (key m sig : List Byte) : Bool :=
  sig.length = 29792 &&
    (let seed := key.take 32
     let digest := shakeBytes (sig.take 32 ++ key ++ ([0, 0] ++ m)) 47
     let tree := beNat ((digest.drop 39).take 7)
     let leaf := beNat (digest.drop 46)
     let fors := slhFors seed tree leaf (sig.drop 32) (digest.take 39)
     slhTree seed 8 0 tree leaf (sig.drop (32 * 331)) fors == key.drop 32)

/-! ### Keys and signing (R337) -/

/-- A secret: the seed of the secret values, the key of the randomiser, and the public seed, 32 bytes each. -/
structure SlhSecret where
  seed : List Byte
  prf : List Byte
  pub : List Byte

/-- A node of a tree by its height and index, over its leaves. -/
def slhNode (seed : List Byte) (adrs : Nat → Nat → List Byte) (leaf : Nat → List Byte) : Nat → Nat → List Byte
  | 0, i => leaf i
  | z + 1, i => slhHash seed (adrs (z + 1) i) (slhNode seed adrs leaf z (2 * i) ++ slhNode seed adrs leaf z (2 * i + 1))

/-- The authentication path of a leaf: the siblings of the nodes over it, below height `h`. -/
def slhPath (seed : List Byte) (adrs : Nat → Nat → List Byte) (leaf : Nat → List Byte) (idx h : Nat) : List (List Byte) :=
  (List.range h).map (fun j => slhNode seed adrs leaf j (if idx / 2 ^ j % 2 = 0 then idx / 2 ^ j + 1 else idx / 2 ^ j - 1))

/-- The start of a chain of WOTS+, and the leaf of its key in a tree of the hypertree. -/
def SlhSecret.chainStart (k : SlhSecret) (layer tree leaf i : Nat) : List Byte := slhHash k.pub (slhAdrs layer tree 5 leaf i 0) k.seed
def SlhSecret.wotsLeaf (k : SlhSecret) (layer tree leaf : Nat) : List Byte :=
  wotsKey k.pub layer tree leaf (fun i => wotsChain k.pub layer tree leaf i 0 15 (k.chainStart layer tree leaf i))

/-- A secret value of FORS and the leaf over it. -/
def SlhSecret.forsValue (k : SlhSecret) (tree leaf i : Nat) : List Byte := slhHash k.pub (slhAdrs 0 tree 6 leaf 0 i) k.seed
def SlhSecret.forsLeaf (k : SlhSecret) (tree leaf i : Nat) : List Byte :=
  slhHash k.pub (slhAdrs 0 tree 3 leaf 0 i) (k.forsValue tree leaf i)

/-- The public key: the public seed and the root of the top tree. -/
def SlhSecret.public (k : SlhSecret) : List Byte := k.pub ++ slhNode k.pub (slhAdrs 7 0 2 0) (k.wotsLeaf 7 0) 8 0

/-- A node signed in a tree of the hypertree: 67 values of chains and the path. -/
def SlhSecret.signNode (k : SlhSecret) (layer tree leaf : Nat) (m : List Byte) : List (List Byte) :=
  (List.range 67).map (fun i => wotsChain k.pub layer tree leaf i 0 ((wotsDigits m).getD i 0) (k.chainStart layer tree leaf i))
    ++ slhPath k.pub (slhAdrs layer tree 2 0) (k.wotsLeaf layer tree) leaf 8

/-- A node signed in the hypertree from layer `layer` on; `n` counts the layers that are left. Each tree's root is signed in the next. -/
def SlhSecret.signTree (k : SlhSecret) : Nat → Nat → Nat → Nat → List Byte → List (List Byte)
  | 0, _, _, _, _ => []
  | n + 1, layer, tree, leaf, m =>
    k.signNode layer tree leaf m
      ++ k.signTree n (layer + 1) (tree / 2 ^ 8) (tree % 2 ^ 8) (slhNode k.pub (slhAdrs layer tree 2 0) (k.wotsLeaf layer tree) 8 0)

/-- A digest signed by FORS: a secret value and a path of each tree; and the root that the trees give. -/
def SlhSecret.signFors (k : SlhSecret) (tree leaf : Nat) (md : List Byte) : List (List Byte) :=
  (List.range 22).flatMap (fun i =>
    let idx := i * 2 ^ 14 + slhDigit 14 md i
    k.forsValue tree leaf idx :: slhPath k.pub (slhAdrs 0 tree 3 leaf) (k.forsLeaf tree leaf) idx 14)
def SlhSecret.forsRoot (k : SlhSecret) (tree leaf : Nat) : List Byte :=
  slhHash k.pub (slhAdrs 0 tree 4 leaf 0 0)
    ((List.range 22).map (fun i => slhNode k.pub (slhAdrs 0 tree 3 leaf) (k.forsLeaf tree leaf) 14 i)).flatten

/-- The signature of a message with an empty context string; `random` is the signer's 32 random bytes. -/
def SlhSecret.sign (k : SlhSecret) (random m : List Byte) : List Byte :=
  let r := shakeBytes (k.prf ++ random ++ ([0, 0] ++ m)) 32
  let digest := shakeBytes (r ++ k.public ++ ([0, 0] ++ m)) 47
  let tree := beNat ((digest.drop 39).take 7)
  let leaf := beNat (digest.drop 46)
  (r :: k.signFors tree leaf (digest.take 39) ++ k.signTree 8 0 tree leaf (k.forsRoot tree leaf)).flatten

end Sys2Proof.Machine
end

