-- ==== Sys2Proof/Machine/Power.lean ====
section
/-! DEFINITION. Start, power states, the thermal trip and attestation (R331 to R337). -/

namespace Sys2Proof.Machine

/-! ### The start record (R331, R332) -/

/-- The outcome byte of step i, 1 to 7. -/
def outcome (w : W64) (i : Nat) : Nat := elt 8 w.toNat (i - 1)
def setOutcome (w : W64) (i v : Nat) : W64 := BitVec.ofNat 64 (setElt 8 w.toNat (i - 1) v)

/-- The start is complete. -/
def State.complete (s : State) : Bool := s.strec2.getLsbD 16

/-- What is left of the memory when power has been off: host memory is not the device's. -/
def State.hostOnly (s : State) : State :=
  { s with mem := Tab.keep (fun q => isHost q || 2 ^ 52 ≤ q) s.mem, poison := Tab.keep (fun e => isHost (e * 64)) s.poison }

/-- The device as power is applied: everything as after reset but for the module's make, the start record, host memory, and
the model's own fields. The record's cause byte is set and no step has been reached (R332), and the fabric port, reset with the device,
sends its notice (R309). -/
def State.powerOn (s : State) : State :=
  let causes := s.tripped.toNat + (if s.booted && !s.complete then 2 else 0)
  let old := s.hostOnly
  { State.reset with
    cur := s.cur, agenda := s.agenda, fresh := s.fresh, hostData := s.hostData, a48 := s.a48, stepping := s.stepping,
    qplace := s.qplace, mem := old.mem, poison := old.poison, strec0 := BitVec.ofNat 64 (causes * 2 ^ 56), strec1 := s.strec1,
    strec2 := s.strec2 &&& 0xFFFF, prevStart := s.strec0, booted := true, outbox := [.resetNotice] }

/-- Step i runs as its fallback: the previous start recorded it as failed. -/
def State.fallback (s : State) (i : Nat) : Bool := outcome s.prevStart i = 2

/-- What step i leaves when its work, or its fallback, has passed. -/
def State.stepDone (s : State) (r : StartRun) (i : Nat) : State :=
  let fb := s.fallback i
  match i with
  | 1 => { s with meas := (List.range 4).foldl (fun m j => Tab.put 0 m j ((shake256 r.firmware 4).getD j 0)) [] }
  | 2 => { s with halfRate := fb }
  | 3 => { s with slowMem := fb, strec1 := if fb then r.channels &&& BitVec.ofNat 64 (2 ^ (if s.a48 then 36 else 48) - 1) else 0 }
  | 4 => { s with linkUp := true }
  | 5 => { s with cxlstat := (List.range 4).foldl (fun m e => Tab.put 0 m e (r.cxl.getD e 0 &&& 0xFFFFFFF)) [] }
  | 6 =>
    let down := if fb then r.rails else 0
    { s with railstat := (~~~down).setWidth 64, strec2 := down.setWidth 64 }
  | _ => { s with strec2 := s.strec2 ||| 0x10000, pstate := 3, power := 0 }

/-- What remains when a thermal trip stops every clock (R336). -/
def State.tripNow (s : State) : State := { s.hostOnly with tripped := true, recovery := false }

/-- The key that firmware is verified against (R334). -/
def fusedKey : List Byte := (List.range 64).map Config.fusedKey

/-- The work of step i, or its fallback, passes: step 1 verifies the firmware (R334). -/
def stepPasses (r : StartRun) (i : Nat) : Bool :=
  if i = 1 then slhVerify fusedKey r.firmware r.signature else r.pass.getD (i - 1) false

/-- Run the steps from i on; a step that fails ends the start (log 45), and so does a trip that falls during a step, which is
then not reached (R336). -/
def State.runSteps (s : State) (r : StartRun) : Nat → Nat → State
  | 0, _ => s
  | n + 1, i =>
    if r.trip = some i then s.tripNow else
    let pass := stepPasses r i
    let code := if !pass then 2 else if s.fallback i && i ≠ 7 then 4 else 1
    let s := { s with strec0 := setOutcome s.strec0 i code }
    if pass then (s.stepDone r i).runSteps r n (i + 1) else s

/-- DEVICE_START: step 1 verifies the firmware, or waits for recovery; the other steps follow. -/
def execDeviceStart (r : StartRun) (s : State) : Result :=
  let s := s.powerOn
  if s.fallback 1 then .next { s with recovery := true }
  else
    let s := s.runSteps r 7 1
    .next { s with recovery := outcome s.strec0 1 = 2 }

/-- `n` bytes of host memory from a host physical address on, as they are fetched over the link. -/
def State.hostBytes (s : State) (a n : Nat) : List Byte := (List.range n).map (fun i => Tab.get 0 s.mem (hostPa (a + i)))

/-- A start with the recovery image, and its signature, that lie at a host physical address (R333, R334; log 45). -/
def State.recoveryRun (s : State) (a : W64) (r : StartRun) : StartRun :=
  let at_ := a.toNat % 2 ^ 52
  let head := s.hostBytes at_ 64
  { r with
    firmware := s.hostBytes at_ (Config.recoveryLength head)
    signature := s.hostBytes (at_ + Config.recoverySignature head) 29792 }

/-- A write to recaddr (R333, R334): while step 1 waits, a recovery image that verifies runs for this start; another leaves the
device waiting. -/
def State.recover (s : State) (a : W64) (r : StartRun) : State :=
  let r := s.recoveryRun a r
  if !s.recovery || s.tripped || !stepPasses r 1 then s
  else
    let s := { s with strec0 := setOutcome s.strec0 1 4, recovery := false }
    (s.stepDone r 1).runSteps r 6 2

/-- RECOVERY_IMAGE_FETCH. -/
def execRecoveryImageFetch (a : W64) (r : StartRun) (s : State) : Result := .next (s.recover a r)

/-- THERMAL_TRIP (R336): every clock stops; the contents of memory are lost; a step in progress was not reached. -/
def execThermalTrip (s : State) : Result :=
  .next { s.tripNow with strec0 := if s.recovery then setOutcome s.strec0 1 0 else s.strec0 }

/-! ### Power states (R270, R333, R335) -/

/-- The default budget of a state. -/
def defaultU (st : Nat) : Nat := match st with | 0 => 152 | 1 => 96 | 2 => 48 | _ => 0

/-- The victims of a lower budget: teams that hold heavy units, lowest priority and latest placed first, until the total
of the others fits; in state 4 every team. Teams already being saved count as gone. -/
def State.powerVictims (s : State) (u : Nat) : List Nat :=
  let cands := s.candidates (fun v => s.pstate = 4 || 0 < classUnits v.pclass)
  let pick (p : Nat × List Nat) (t : Nat) : Nat × List Nat :=
    if s.pstate ≠ 4 && p.1 ≤ u then p else (p.1 - classUnits (s.team t).pclass, p.2 ++ [t])
  (cands.foldl pick (s.heavy (s.candidates (fun _ => true)), [])).2

/-- PSTATE_WRITE: only the host sets power states (R335). While its victims, and the teams with heavy units whose stop is under way,
are being saved the new budget bounds what is placed, and the old state and budget are the ones in force (R270). -/
def State.writePstate (s : State) (v : W64) : State :=
  let st := (v.extractLsb' 0 3).toNat
  if !s.complete || 4 < st || s.changing then s
  else
    let u := if v.getLsbD 16 then defaultU st else min 152 (v.extractLsb' 8 8).toNat
    let s := { s with pstate := st, power := u, former := (s.pstate, s.power) }
    let vs := s.powerVictims u
    let going := s.resident.filter (fun t =>
      ((s.team t).request || (s.team t).st == .stopping) && (st = 4 || 0 < classUnits (s.team t).pclass))
    let s := vs.foldl (fun s t => s.modTeam t (fun w => { w with request := true, forPower := true })) s
    let s := if u < s.heavy s.resident || st = 4 then going.foldl (fun s t => s.modTeam t (fun w => { w with forPower := true })) s else s
    State.powerDone { s with changing := true }

def execPstateWrite (v : W64) (s : State) : Result := .next (s.writePstate v)

/-- The state and the budget in force (R333). -/
def State.inForce (s : State) : Nat × Nat := if s.changing then s.former else (s.pstate, s.power)

/-- The channels that are up: none before a start has trained them (R333). -/
def State.channelsUp (s : State) : Nat := if outcome s.strec0 3 = 1 || outcome s.strec0 3 = 4 then s.channels else 0

/-- pstate and pwrstat as read. -/
def State.readPstate (s : State) : W64 := BitVec.ofNat 64 (s.inForce.1 + s.inForce.2 * 2 ^ 8)
def State.pwrstat (s : State) : W64 :=
  BitVec.ofNat 64 (s.inForce.1 + s.changing.toNat * 2 ^ 3 + s.halfRate.toNat * 2 ^ 8 + s.slowMem.toNat * 2 ^ 9
    + s.channelsUp * 2 ^ 16)

/-! ### Attestation (R337) -/

/-- ATTESTATION_REQUEST: a write to attreq; ignored while one is busy. -/
def State.writeAttreq (s : State) (a : W64) : State :=
  if s.attstat.getLsbD 0 then s else { s with attaddr := BitVec.ofNat 64 (a.toNat % 2 ^ 48), attstat := 1 }

def execAttestationRequest (a : W64) (s : State) : Result := .next (s.writeAttreq a)

/-- The identity key pair, which was made when the module was built, and its public key (R337). -/
def deviceSecret : SlhSecret :=
  let bytes (i : Nat) : List Byte := (List.range 32).map (fun j => Config.deviceSecret (32 * i + j))
  ⟨bytes 0, bytes 1, bytes 2⟩
def deviceKey : List Byte := deviceSecret.public

/-- The bytes 64 to 223 of a report. -/
def State.report160 (s : State) (nonce : List Byte) : List Byte :=
  let words : List W64 := (List.range 4).map (fun j => Tab.get 0 s.meas j) ++ [s.cfghash 0, s.strec0, s.strec1, s.strec2]
  nonce ++ (words.map (fun w => leBytes 8 w.toNat)).flatten ++ deviceKey

/-- ATTESTATION_DONE: the report and its signature under the identity key are written, then attstat[1] is set; a bad request has none. -/
def execAttestationDone (s : State) : Result :=
  if !s.attstat.getLsbD 0 then .next s
  else
    let pa := s.attaddr.toNat
    let req := s.home pa 64
    if pa % 64 ≠ 0 || !s.isDevice (pa + 223 + 29792) || s.poisoned (pa / 64) || (req.drop 32).any (fun b => b != 0) then
      .next { s with attstat := 4 }
    else
      let body := s.report160 (req.take 32)
      let sig := deviceSecret.sign ((List.range 32).map (Config.signatureRandom s.fresh)) body
      .next { s.homeWrite (pa + 64) (body ++ sig) with attstat := 2, fresh := s.fresh + 1 }

end Sys2Proof.Machine
end

