-- ==== Sys2Proof/Machine/Views.lean ====
section
/-! DEFINITION. The system registers of every target (R292 to R296, R302, R306, R307, R314, R315, R323, R329, R333, R337):
one function that reads a register and one that writes it. A register that a target does not hold reads 0 and ignores
writes; reserved fields read 0 (R6). -/

namespace Sys2Proof.Machine

/-! ### Target 0 and the harts (R293, R294) -/

/-- The own-view registers of a hart. mgrant of a team that lies saved is the h that was saved (the model's reading, log 106). -/
def State.readOwn (s : State) (h n : Nat) : W64 :=
  let t := s.hart h
  let team := s.team (teamOf h)
  match n with
  | 0 => BitVec.ofNat 64 s.cycle
  | 1 => BitVec.ofNat 64 t.num
  | 2 => BitVec.ofNat 64 (indexOf h)
  | 3 => BitVec.ofNat 64 team.nharts
  | 4 => BitVec.ofNat 64 (t.num / 8)
  | 5 => BitVec.ofNat 64 team.ctx
  | 6 => BitVec.ofNat 64 team.rows
  | 7 => t.engseq.setWidth 64
  | 8 => t.rngseed.setWidth 64
  | 9 => BitVec.ofNat 64 ((if s.a48 then 48 else 64) + s.stepping.toNat * 2 ^ 8)
  | _ => 0

/-- hstat. -/
def State.hstat (s : State) (h : Nat) : W64 :=
  let t := s.hart h
  let saved := (s.team (teamOf h)).st == .saved
  let rid := match t.parkC with | some p => p.rid | none => match t.parkV with | some p => p.rid | none => 0
  BitVec.ofNat 64 (t.stoppedOnReport.toNat + 2 * t.resident.toNat + 4 * t.exited.toNat + 8 * saved.toNat
    + 16 * (s.cmds.any (fun c => c.hart = h)).toNat + rid % 2 ^ 32 * 2 ^ 32)

/-- The registers of target 2 + g for the hart that answers there. -/
def State.readHart (s : State) (h n : Nat) : W64 × State :=
  let t := s.hart h
  match n with
  | 0x100 => (s.hstat h, s)
  | 0x102 => (t.cpc.setWidth 64, s)
  | 0x103 => (t.vpc.setWidth 64, s)
  | 0x104 => (BitVec.ofNat 64 t.vstart, s)
  | 0x105 => (BitVec.ofNat 64 t.vl, s)
  | 0x106 => (t.mode.setWidth 64, s)
  | 0x108 => (t.rfsel, s)
  | 0x109 => s.rfdata h none
  | _ => (s.readOwn h n, s)

/-- Writes of 0x102 to 0x109 take effect only while the hart is stopped on a report or saved. -/
def State.writeHart (s : State) (g h n : Nat) (v : W64) : State :=
  let stopped (f : Hart → Hart) : State := if s.reachable h then s.modHart h f else s
  match n with
  | 0x101 => if v = 1 then s.hctlPreempt g else if v = 2 then s.hctlTerminate g else s
  | 0x102 => stopped (fun t => t.writePosition 0 v)
  | 0x103 => stopped (fun t => t.writePosition 1 v)
  | 0x104 => stopped (fun t => t.writePosition 2 v)
  | 0x106 => stopped (fun t => t.writePosition 4 v)
  | 0x108 => stopped (fun t => { t with rfsel := v })
  | 0x109 => (s.rfdata h (some v)).2
  | _ => s

/-! ### A verge core's own registers (R296) -/

def Verge.readOwn (v : Verge) (n : Nat) : W64 :=
  match n with
  | 0xF0 => v.tvec
  | 0xF1 => v.epc
  | 0xF2 => v.ecause
  | 0xF3 => v.evalue
  | 0xF4 => v.escratch
  | 0xF5 => v.vroot
  | _ => 0

def Verge.writeOwn (v : Verge) (n : Nat) (w : W64) : Verge :=
  match n with
  | 0xF0 => { v with tvec := w &&& ~~~(3 : W64) }
  | 0xF1 => { v with epc := w }
  | 0xF2 => { v with ecause := w &&& 0xFF }
  | 0xF3 => { v with evalue := w }
  | 0xF4 => { v with escratch := w }
  | 0xF5 => { v with vroot := w &&& 0x000FFFFFFFFFF000 }
  | _ => v

/-! ### The device-wide registers -/

/-- The registers of target 1. The reserved bits of fqring are kept, since they make the ring unusable (R285), and read
zero (R6). -/
def State.readDevice (s : State) (n : Nat) : W64 × State :=
  if 0x020 ≤ n && n < 0x030 then (Tab.get 0 s.qplace (n - 0x020), s)
  else if 0x040 ≤ n && n < 0x140 then (Tab.get 0 s.hq (n - 0x040), s)
  else if 0x141 ≤ n && n < 0x145 then (Tab.get 0 s.cxlstat (n - 0x141), s)
  else if 0x188 ≤ n && n < 0x18C then (Tab.get 0 s.bp (n - 0x188), s)
  else if 0x1A8 ≤ n && n < 0x1AC then (Tab.get 0 s.meas (n - 0x1A8), s)
  else match n with
  | 0x000 => (BitVec.ofNat 64 s.ctxsel, s)
  | 0x001 => (Tab.get 0 s.ctxroot s.ctxsel, s)
  | 0x010 => (s.fqring &&& 0x000FFFFFFFFFFFFF, s)
  | 0x011 => (BitVec.ofNat 64 s.fqhead, s)
  | 0x012 => (BitVec.ofNat 64 s.fqtail, s)
  | 0x140 => (s.olink, { s with linkDown := false })
  | 0x148 => (s.fabid, s)
  | 0x149 => (s.fchan, s)
  | 0x14A => (s.railstat, s)
  | 0x160 => (s.cfghash 0, s)
  | 0x161 => (BitVec.ofNat 64 s.imgctx, s)
  | 0x163 => (s.imgstat, s)
  | 0x180 => (s.dbgctl, s)
  | 0x181 => (s.dbgstat, s)
  | 0x183 => (s.data0, s)
  | 0x184 => (s.data1, s)
  | 0x185 => (s.data2, s)
  | 0x190 => (s.msctl, s)
  | 0x191 => (s.msbase, s)
  | 0x192 => s.readMsptr
  | 0x193 => (s.msrd, s)
  | 0x194 => (BitVec.ofNat 64 s.msdrop, s)
  | 0x1A0 => (s.readPstate, s)
  | 0x1A1 => (s.pwrstat, s)
  | 0x1A2 => (s.strec0, s)
  | 0x1A3 => (s.strec1, s)
  | 0x1A4 => (s.strec2, s)
  | 0x1AD => (s.attstat, s)
  | _ => (0, s)

/-- A host queue's register written (R265, R302, R303): head is read-only, and the rings hold while records wait. -/
def State.writeQueue (s : State) (q i : Nat) (v : W64) : State :=
  let busy := s.hqReg q 2 != s.hqReg q 3
  match i with
  | 0 => if busy then s else s.setHq q 0 (v &&& 0x007FFFFFFFFFFFFF)
  | 1 => if busy then s else s.setHq q 1 v
  | 3 => s.setHq q 3 v
  | _ => s

/-- ctxroot of the selected context written (R295). -/
def State.writeCtxroot (s : State) (v : W64) : State :=
  if s.ctxsel = 0 then s
  else
    let w := v &&& 0x000FFFFFFFFFF001
    { s with ctxroot := Tab.put 0 s.ctxroot s.ctxsel w, roots := if w.getLsbD 0 then Tab.put 0 s.roots s.ctxsel w else s.roots }

/-- A device-wide register written by a verge core, the debug core or through the view. Only the host sets power states
(R335), by PSTATE_WRITE. -/
def State.writeDevice (s : State) (n : Nat) (v : W64) : State :=
  let id16 : Bool := 1 ≤ v.toNat && v.toNat < 2 ^ 16
  if 0x040 ≤ n && n < 0x140 then s.writeQueue ((n - 0x040) / 4) ((n - 0x040) % 4) v
  else if 0x188 ≤ n && n < 0x18C then { s with bp := Tab.put 0 s.bp (n - 0x188) v }
  else match n with
  | 0x000 => if id16 then { s with ctxsel := v.toNat } else s
  | 0x001 => s.writeCtxroot v
  | 0x010 => { s with fqring := v }
  | 0x148 => { s with fabid := v &&& 0xFFFF }
  | 0x149 => { s with fchan := v &&& 0x000FFFFFFFFFF000 }
  | 0x14A => { s with railstat := v &&& 0xFFFF }
  | 0x161 => if id16 then { s with imgctx := v.toNat } else s
  | 0x162 => s.writeImgaddr v
  | 0x164 => s.writeImgdrop v
  | 0x180 => s.writeDbgctl v
  | 0x181 => s.writeDbgstat v
  | 0x182 => s.command (v.setWidth 32)
  | 0x183 => { s with data0 := v }
  | 0x184 => { s with data1 := v }
  | 0x185 => { s with data2 := v &&& 0x0000FFFFFFFFFFFF }
  | 0x190 => s.writeMsctl v
  | 0x191 => s.writeMsbase v
  | 0x193 => { s with msrd := v }
  | 0x1AC => s.writeAttreq v
  | 0x1AE => State.recover { s with fresh := s.fresh + 1 } v (Config.freeStart s.fresh)
  | _ => s

/-! ### Any register (R292) -/

/-- Register n of target t, as the executing party reads it. -/
def State.readReg (s : State) (t n : Nat) : W64 × State :=
  if t = 0 then
    match s.cur with
    | .ctrl h => (s.readOwn h n, s)
    | .vec h => (s.readOwn h n, s)
    | .verge k => ((s.verge k).readOwn n, s)
  else if t = 1 then s.readDevice n
  else match (if t - 2 < s.nharts then s.hartAt (t - 2) else none) with
    | some h => s.readHart h n
    | none => (0, s)

/-- Register n of target t written by the executing party; a hart's rngseed stands in the meaning of srw. -/
def State.writeReg (s : State) (t n : Nat) (v : W64) : State :=
  if t = 0 then
    match s.cur with
    | .verge k => s.modVerge k (fun w => w.writeOwn n v)
    | _ => s
  else if t = 1 then s.writeDevice n v
  else match (if t - 2 < s.nharts then s.hartAt (t - 2) else none) with
    | some h => s.writeHart (t - 2) h n v
    | none => s

/-- REGISTER_WRITE: a write of the host's through the register view, which reaches pstate too (R335). A target-0 register is
the executing party's own, so the host has none. -/
def execRegisterWrite (t n : Nat) (v : W64) (s : State) : Result :=
  .next (if t = 0 then s else if t = 1 && n = 0x1A0 then s.writePstate v else s.writeReg t n v)

/-- The target and number of an address in the register views. -/
def viewTarget (pa : Nat) : Nat := (pa - 15 * 2 ^ 48) / 4096
def viewNumber (pa : Nat) : Nat := pa % 4096 / 8

/-- A verge core's load from the register views: 8 bytes read the register; another size reads a free value (log 32). -/
def loadView (pa n : Nat) : M (List Byte) := do
  if n = 8 then
    let (v, s) := (← get).readReg (viewTarget pa) (viewNumber pa)
    set s
    return leBytes 8 v.toNat
  else
    let x ← drawFree
    return leBytes n x

/-- A verge core's store to the register views: 8 bytes write the register; another size has no effect there (log 32). -/
def storeView (pa : Nat) (bs : List Byte) : M Unit := do
  if bs.length = 8 then modify fun s => s.writeReg (viewTarget pa) (viewNumber pa) (BitVec.ofNat 64 (leNat bs))

end Sys2Proof.Machine
end

