-- ==== Sys2Proof/Machine/Scalar.lean ====
section
/-! DEFINITION. The memory accesses of the control stream: loads and stores (R64, 0x20 to 0x2A), and atomics, ordered
accesses, fences, waits and barriers (R179, R232 to R244, 0xE0 to 0xEF), with the event WAIT_RETEST. -/

namespace Sys2Proof.Machine

/-! ### One access at its place (R184, R224, R232) -/

/-- An access in the window is held while a command of the hart holds a conflicting scratchpad range (R224). -/
def holdWindow (off n : Nat) (write : Bool) : M Unit := do
  let s ← get
  if s.conflicts s.me [⟨false, off, off + n - 1, write⟩] then waitHere

/-- The core whose L1 the executing party uses. -/
def myCore : M Nat := do return (← get).coreOf (← get).cur

/-- Read `n` bytes at a place: through the L1, or at the home slice. -/
def readPlace (ea : W64) (p : Place) (n : Nat) (home : Bool) (a : Access) : M (List Byte) := do
  match p with
  | .spad team off =>
    holdWindow off n (a == .atomic)
    return (← get).spadRead team off n
  | .mem pa => if home then readHome ea (← myCore) pa n a else readL1 ea (← myCore) pa n a
  | .view pa => loadView pa n

/-- Write bytes at a place. -/
def writePlace (p : Place) (bs : List Byte) (home : Bool) : M Unit := do
  match p with
  | .spad team off =>
    holdWindow off bs.length true
    modify fun s => s.spadWrite team off bs
  | .mem pa =>
    let core ← myCore
    if home then writeHome core pa bs else modify fun s => s.l1Write core pa bs
  | .view pa => storeView pa bs

/-! ### Loads and stores (R64) -/

/-- A value of `n` bytes extended to 64 bits. -/
def extendBytes (signed : Bool) (n v : Nat) : W64 :=
  if signed then (BitVec.ofInt 64 ((BitVec.ofNat (8 * n) v).toInt)) else BitVec.ofNat 64 v

def State.eaOf (s : State) (a : BitVec 5) (i : BitVec 14) : W64 := s.getX a + i.signExtend 64

def scalarLoad (n : Nat) (signed : Bool) (d a : BitVec 5) (i : BitVec 14) (s : State) : Result :=
  controlOp s (do
    let ea := s.eaOf a i
    let p ← resolveM ea n .load
    let bs ← readPlace ea p n false .load
    modify fun s => s.putX d (extendBytes signed n (leNat bs)))

def scalarStore (n : Nat) (x a : BitVec 5) (i : BitVec 14) (s : State) : Result :=
  controlOp s (do
    let p ← resolveM (s.eaOf a i) n .store
    writePlace p (leBytes n (s.getX x).toNat) false)

def execLd (d a : BitVec 5) (i : BitVec 14) (s : State) : Result := scalarLoad 8 false d a i s
def execLw (d a : BitVec 5) (i : BitVec 14) (s : State) : Result := scalarLoad 4 true d a i s
def execLwu (d a : BitVec 5) (i : BitVec 14) (s : State) : Result := scalarLoad 4 false d a i s
def execLh (d a : BitVec 5) (i : BitVec 14) (s : State) : Result := scalarLoad 2 true d a i s
def execLhu (d a : BitVec 5) (i : BitVec 14) (s : State) : Result := scalarLoad 2 false d a i s
def execLb (d a : BitVec 5) (i : BitVec 14) (s : State) : Result := scalarLoad 1 true d a i s
def execLbu (d a : BitVec 5) (i : BitVec 14) (s : State) : Result := scalarLoad 1 false d a i s
def execStd (x a : BitVec 5) (i : BitVec 14) (s : State) : Result := scalarStore 8 x a i s
def execStw (x a : BitVec 5) (i : BitVec 14) (s : State) : Result := scalarStore 4 x a i s
def execSth (x a : BitVec 5) (i : BitVec 14) (s : State) : Result := scalarStore 2 x a i s
def execStb (x a : BitVec 5) (i : BitVec 14) (s : State) : Result := scalarStore 1 x a i s

/-! ### Atomics (R236, R237) -/

/-- An access is performed at the home slice: at any scope but tm, and always at host memory (R193, R232). -/
def atHome (p : Place) (sc : Scope) : Bool :=
  match p with
  | .mem pa => sc ≠ .tm || isHost pa
  | _ => false

/-- A scalar atomic: `f` gives the new value of the old one and the operand, none where nothing is written. -/
def scalarAmo (f : Nat → Nat → Nat → Option Nat) (signed : Bool) (d a b : BitVec 5) (o : BitVec 2) (w : Bool) (sc : Scope) (s : State) :
    Result :=
  controlOp s (do
    let n := if w then 4 else 8
    let ea := s.getX a
    let p ← resolveM ea n .atomic
    if o.getLsbD 1 then releaseM sc
    let bs ← readPlace ea p n (atHome p sc) .atomic
    let old := leNat bs
    match f n old ((s.getX b).toNat % 2 ^ (8 * n)) with
    | some v => writePlace p (leBytes n v) (atHome p sc)
    | none => pure ()
    modify fun s => s.putX d (extendBytes (signed && w) n old)
    if o.getLsbD 0 then acquireM sc)

/-- The functions of R237 on values of `n` bytes. -/
def stepOfSigned (n v : Nat) : Int := (BitVec.ofNat (8 * n) v).toInt
def stepOfAdd (n old v : Nat) : Option Nat := some ((old + v) % 2 ^ (8 * n))
def stepOfAnd (_ old v : Nat) : Option Nat := some (old &&& v)
def stepOfOr (_ old v : Nat) : Option Nat := some (old ||| v)
def stepOfXor (_ old v : Nat) : Option Nat := some (old ^^^ v)
def stepOfMin (n old v : Nat) : Option Nat := some (if stepOfSigned n v < stepOfSigned n old then v else old)
def stepOfMinu (_ old v : Nat) : Option Nat := some (min old v)
def stepOfMax (n old v : Nat) : Option Nat := some (if stepOfSigned n old < stepOfSigned n v then v else old)
def stepOfMaxu (_ old v : Nat) : Option Nat := some (max old v)
def stepOfSwp (_ _ v : Nat) : Option Nat := some v
def stepOfCas (x n old v : Nat) : Option Nat := if old = x % 2 ^ (8 * n) then some v else none

def execAmoAdd (d a b : BitVec 5) (o : BitVec 2) (w : Bool) (sc : Scope) (s : State) : Result := scalarAmo stepOfAdd false d a b o w sc s
def execAmoAnd (d a b : BitVec 5) (o : BitVec 2) (w : Bool) (sc : Scope) (s : State) : Result := scalarAmo stepOfAnd false d a b o w sc s
def execAmoOr (d a b : BitVec 5) (o : BitVec 2) (w : Bool) (sc : Scope) (s : State) : Result := scalarAmo stepOfOr false d a b o w sc s
def execAmoXor (d a b : BitVec 5) (o : BitVec 2) (w : Bool) (sc : Scope) (s : State) : Result := scalarAmo stepOfXor false d a b o w sc s
def execAmoMin (d a b : BitVec 5) (o : BitVec 2) (w : Bool) (sc : Scope) (s : State) : Result := scalarAmo stepOfMin true d a b o w sc s
def execAmoMinu (d a b : BitVec 5) (o : BitVec 2) (w : Bool) (sc : Scope) (s : State) : Result := scalarAmo stepOfMinu false d a b o w sc s
def execAmoMax (d a b : BitVec 5) (o : BitVec 2) (w : Bool) (sc : Scope) (s : State) : Result := scalarAmo stepOfMax true d a b o w sc s
def execAmoMaxu (d a b : BitVec 5) (o : BitVec 2) (w : Bool) (sc : Scope) (s : State) : Result := scalarAmo stepOfMaxu false d a b o w sc s
def execAmoSwp (d a b : BitVec 5) (o : BitVec 2) (w : Bool) (sc : Scope) (s : State) : Result := scalarAmo stepOfSwp false d a b o w sc s
def execAmoCas (d a b : BitVec 5) (o : BitVec 2) (w : Bool) (sc : Scope) (s : State) : Result :=
  scalarAmo (stepOfCas (s.getX d).toNat) false d a b o w sc s

/-! ### ldacq, strel and fence (R239, R240) -/

/-- ldacq reads at home at every scope (R232). -/
def execLdacq (d a : BitVec 5) (x : Bool) (z : BitVec 2) (sc : Scope) (s : State) : Result :=
  if s.isControl && x && z = 3 then trapNow s (illegal .reservedValue)
  else controlOp s (do
    let n := 2 ^ z.toNat
    let p ← resolveM (s.getX a) n .load
    let bs ← readPlace (s.getX a) p n true .load
    modify fun s => s.putX d (extendBytes x n (leNat bs))
    acquireM sc)

def execStrel (a b : BitVec 5) (z : BitVec 2) (sc : Scope) (s : State) : Result :=
  controlOp s (do
    let n := 2 ^ z.toNat
    let p ← resolveM (s.getX a) n .store
    releaseM sc
    writePlace p (leBytes n (s.getX b).toNat) (atHome p sc))

def execFence (sc : Scope) (s : State) : Result := controlOp s (do releaseM sc; acquireM sc)
def execFenceRl (sc : Scope) (s : State) : Result := controlOp s (releaseM sc)
def execFenceAq (sc : Scope) (s : State) : Result := controlOp s (acquireM sc)

/-! ### Waits (R179, R241, R242) -/

/-- The executing party sleeps until WAIT_RETEST. -/
def sleep : M Unit := do
  modify fun s => match s.cur with
    | .ctrl h => s.modHart h (fun t => { t with wait := some .asleep })
    | .vec _ => s
    | .verge n => s.modVerge n (fun v => { v with wait := some .asleep })
  waitHere

def waitOp (c : W64 → W64 → Bool) (a b : BitVec 5) (sc : Scope) (s : State) : Result :=
  controlOp s (do
    let p ← resolveM (s.getX a) 8 .load
    let bs ← readPlace (s.getX a) p 8 true .load
    if c (BitVec.ofNat 64 (leNat bs)) (s.getX b) then acquireM sc else sleep)

def execWaitge (a b : BitVec 5) (sc : Scope) (s : State) : Result := waitOp (fun m v => decide (v.toNat ≤ m.toNat)) a b sc s
def execWaitne (a b : BitVec 5) (sc : Scope) (s : State) : Result := waitOp (fun m v => m != v) a b sc s

/-- WAIT_RETEST (R242): a sleeping party tests its word again at its next turn. -/
def execWaitRetest (p : Party) (s : State) : Result :=
  let wake : Option Wait → Option Wait
    | some .asleep => none
    | w => w
  match p with
  | .ctrl h => .next (s.modHart h (fun t => { t with wait := wake t.wait }))
  | .vec _ => .next s
  | .verge n => .next (s.modVerge n (fun v => { v with wait := wake v.wait }))

/-! ### Barriers (R243, R244) -/

/-- A barrier object's place: a bad alignment or the host window is a barrier-operand trap, before any access. So is a register view, which
only a verge core can name, and which R243 does not list among the places of an object (the model's choice, log 118). -/
def barrierPlace (ea : W64) (a : Access) : M Place := do
  let s ← get
  let bad : Trap := { cls := 0x12, addr := ea, acc := a.code, sz := 4 }
  match s.resolve s.cur ea 16 a with
  | .error t => if t.cls = 0x03 then raise bad else raise t
  | .ok (.mem pa) => if isHost pa then raise bad else return .mem pa
  | .ok (.spad t off) => return .spad t off
  | .ok (.view _) => raise bad

/-- A barrier object's fields. -/
structure Barrier where
  pending : Nat
  phase : Nat
  reload : Nat

/-- Read the object at its place; reserved bytes must be zero. -/
def barrierRead (ea : W64) (p : Place) (a : Access) : M Barrier := do
  let bs ← readPlace ea p 16 true a
  let v := leNat bs
  check (v / 2 ^ 96 = 0) { cls := 0x12, addr := ea, acc := a.code, sz := 4 }
  return ⟨v % 2 ^ 32, v / 2 ^ 32 % 2 ^ 32, v / 2 ^ 64 % 2 ^ 32⟩

def barrierWrite (p : Place) (b : Barrier) : M Unit :=
  writePlace p (leBytes 16 (b.pending + b.phase * 2 ^ 32 + b.reload * 2 ^ 64)) true

def execExpect (a b : BitVec 5) (sc : Scope) (s : State) : Result :=
  controlOp s (do
    let ea := s.getX a
    let p ← barrierPlace ea .atomic
    releaseM sc
    let o ← barrierRead ea p .atomic
    let n := o.pending + (s.getX b).toNat
    check (n < 2 ^ 32) { cls := 0x13, addr := ea, acc := 3, sz := 4 }
    barrierWrite p { o with pending := n })

/-- The object after an arrival of `c`. -/
def Barrier.arrived (o : Barrier) (c : Nat) : Barrier :=
  if 0 < c && o.pending = c then { o with pending := o.reload, phase := (o.phase + 1) % 2 ^ 32 }
  else { o with pending := o.pending - c }

def execArrive (d a b : BitVec 5) (sc : Scope) (s : State) : Result :=
  controlOp s (do
    let ea := s.getX a
    let c := popBelow (s.getX b).toNat 64
    let p ← barrierPlace ea .atomic
    releaseM sc
    let o ← barrierRead ea p .atomic
    check (c ≤ o.pending) { cls := 0x14, addr := ea, acc := 3, sz := 4 }
    barrierWrite p (o.arrived c)
    modify fun s => s.putX d (BitVec.ofNat 64 o.phase))

/-- The barrier-operand trap of bwait, which reads its object by words of 8 bytes (R242). -/
def bwaitBad (ea : W64) : Trap := { cls := 0x12, addr := ea, acc := 1, sz := 3 }

/-- The place that bwait reads: the checks of R58 at 8 bytes come first (R242), then those of the object (R243); a register view is a
barrier-operand trap (log 118). -/
def bwaitPlace (ea : W64) : M Place := do
  let p ← resolveM ea 8 .load
  check (ea.toNat % 16 = 0) (bwaitBad ea)
  match p with
  | .mem pa => if isHost pa then raise (bwaitBad ea) else return p
  | .spad _ _ => return p
  | .view _ => raise (bwaitBad ea)

/-- The place 8 bytes on. -/
def Place.upper : Place → Place
  | .spad t off => .spad t (off + 8)
  | .mem pa => .mem (pa + 8)
  | .view pa => .view (pa + 8)

def execBwait (a b : BitVec 5) (sc : Scope) (s : State) : Result :=
  controlOp s (do
    let ea := s.getX a
    let p ← bwaitPlace ea
    let lo ← readPlace ea p 8 true .load
    let hi ← readPlace (ea + 8) p.upper 8 true .load
    check (leNat hi / 2 ^ 32 = 0) (bwaitBad ea)
    if leNat lo / 2 ^ 32 ≠ (s.getX b).toNat % 2 ^ 32 then acquireM sc else sleep)

end Sys2Proof.Machine
end

