-- ==== Sys2Proof/Machine/System.lean ====
section
/-! DEFINITION. System registers from the control stream (R297, 0xF0 and 0xF1) and the privileged instructions of the
fault path (R283, R300, 0xF7 to 0xF9). -/

namespace Sys2Proof.Machine

/-! ### srr and srw (R297) -/

/-- srr: on a hart its own view, with rs1 reserved; else any target. -/
def execSrr (d t : BitVec 5) (n : BitVec 9) (s : State) : Result :=
  if s.isHartControl && t ≠ 0 then trapNow s (illegal .reservedBit)
  else if s.isHartControl && 9 < n.toNat then trapNow s (illegal .reservedValue)
  else onControl s (fun s =>
    let (v, s) := s.readReg (if s.isHartControl then 0 else (s.getX t).toNat) n.toNat
    s.putX d v)

/-- srw: a hart may write rngseed alone, and waits until its vector stream is idle (R293). -/
def execSrw (t v : BitVec 5) (n : BitVec 9) (s : State) : Result :=
  if s.isHartControl then
    if t ≠ 0 then trapNow s (illegal .reservedBit)
    else if n ≠ 8 then trapNow s (illegal .reservedValue)
    else hartOp s (do
      if !s.idle s.me then waitHere
      modify fun s => s.modHart s.me (fun h => h.reseed (s.getX v)))
  else onControl s (fun s => s.writeReg (s.getX t).toNat n.toNat (s.getX v))

/-! ### Privileged instructions (R54, R300) -/

/-- A meaning that only a verge core or the debug core may run. -/
def vergeOp (s : State) (m : M Unit) : Result :=
  if s.isVerge then finish (do m; modify State.advance) s
  else if s.isControl then trapNow s (illegal .privileged)
  else trapNow s (illegal .wrongStream)

/-- A tinv of an extent covers a page of a context (R283). -/
def covers (e ctx va pctx base size : Nat) : Bool :=
  match e with
  | 0 => pctx = ctx && base ≤ va && va < base + size
  | 1 => pctx = ctx
  | _ => true

/-- tinv waits for the pins it covers, then no cached translation it covers remains. -/
def execTinv (a b : BitVec 5) (e : BitVec 2) (s : State) : Result :=
  let va := (s.getX a).toNat
  let ctx := (s.getX b).toNat
  vergeOp s (do
    if e = 3 then raise (illegal .reservedValue)
    if s.pins.any (fun p => covers e.toNat ctx va p.ctx p.base p.size) then waitHere
    modify fun s => { s with tlb := s.tlb.filter (fun t => !covers e.toNat ctx va t.ctx t.base t.size) })

/-- Write 64 bytes at an address, as one write at the home slice (log 30). -/
def write64 (p : Place) (bs : List Byte) : M Unit := do
  match p with
  | .spad t off => modify fun s => s.spadWrite t off bs
  | .mem pa => writeHome (← myCore) pa bs
  | .view _ => pure ()

/-- The register views hold no 64-byte record (log 30): the check comes with those of R58, whatever the queue holds. -/
def noView (ea : W64) : Place → M Unit
  | .view _ => raise { cls := 0x05, addr := ea, acc := 2, sz := 6, rsn := 4, base := ea.toNat / 4096 * 4096, size := 4096 }
  | _ => pure ()

/-- fqpop: the head record is copied out and stops merging. -/
def execFqpop (d a : BitVec 5) (s : State) : Result :=
  vergeOp s (do
    let p ← resolveM (s.getX a) 64 .store
    noView (s.getX a) p
    if s.fqhead = s.fqtail then modify fun s => s.putX d 0
    else
      write64 p (s.home (s.ringBase + 64 * (s.fqhead % s.ringSize)) 64)
      modify fun s => { s with fqhead := s.fqhead + 1, live := s.live.filter (fun e => e.rid ≠ s.fqhead) }
      modify fun s => s.putX d 1
      acquireM .dv)

/-- The record that something is parked on is the one fqreplay names. -/
def Park.is (p : Option Park) (rid : Nat) : Bool := match p with | some q => q.rid % 2 ^ 32 = rid | none => false

/-- A park on a record that fqreplay may skip: the record has st 0. -/
def Park.skippable (p : Option Park) (rid : Nat) : Bool := Park.is p rid && !(p.any Park.st)

/-- Release one hart from a record: a skip moves its control pc on, at once or at its resumption; a hart parked on nothing
else goes on after an acquire at dv, fetches its line again (R291), and tests a wait again (R215). -/
def State.replayHart (s : State) (rid : Nat) (skip : Bool) (h : Nat) : State :=
  let t := s.hart h
  let n := (skip && (Park.skippable t.parkC rid || Park.skippable t.parkV rid)).toNat
  let t := { t with
    parkC := if Park.is t.parkC rid then none else t.parkC,
    parkV := if Park.is t.parkV rid then none else t.parkV }
  if !s.onCore h then s.setHart h { t with skips := t.skips + n }
  else
    let t := t.skip (s.wordBytes (.ctrl h)) n
    if t.stoppedOnReport then s.setHart h t
    else
      let core := s.coreOfTeam (teamOf h)
      ((s.setHart h { t with wait := if t.wait = some .asleep then none else t.wait }).acquire core .dv).dropCode core

/-- The harts parked on a record. -/
def State.parkedHarts (s : State) (rid : Nat) : List Nat :=
  ((s.teamsWhere (fun _ v => v.st != .retired)).map s.hartsOf).flatten.filter
    (fun h => Park.is (s.hart h).parkC rid || Park.is (s.hart h).parkV rid)

/-- fqreplay's effect: how many were released, and the state after it. Commands, sending channels and fabric messages
parked on the record go on too, each once, and the messages that found the port's fault queue full are tried again (R228, R311). -/
def State.replay (s : State) (rid : Nat) (skip : Bool) : Nat × State :=
  let harts := s.parkedHarts rid
  let mine (c : Cmd) : Bool := Park.is c.parked rid
  let chans := s.sendPark.filter (fun e => match e.2 with | some r => r % 2 ^ 32 = rid | none => false)
  let msgs := s.recvs.filter (fun m => match m.parked with | some r => r % 2 ^ 32 = rid | none => false)
  let acks := s.sends.filter (fun m => match m.parked with | some r => r % 2 ^ 32 = rid | none => false)
  let n := harts.length + (s.cmds.filter mine).length + chans.length + msgs.length + acks.length
  let s := harts.foldl (fun s h => s.replayHart rid skip h) s
  let s := { s with cmds := s.cmds.map (fun c => if mine c then { c with parked := none } else c) }
  let s := chans.foldl (fun s e => { s with sendPark := Tab.put none s.sendPark e.1 none }) s
  let s := msgs.foldl State.resumeRecv s
  let s := if msgs.isEmpty then s else s.portRetryAll
  (n, acks.foldl State.resumeAck s)

/-- fqreplay. -/
def execFqreplay (d a b : BitVec 5) (s : State) : Result :=
  vergeOp s (do
    if 2 ≤ (s.getX b).toNat then modify fun s => s.putX d 0
    else
      releaseM .dv
      modify fun s =>
        let (n, s) := s.replay ((s.getX a).toNat % 2 ^ 32) ((s.getX b).getLsbD 0)
        s.putX d (BitVec.ofNat 64 n))

end Sys2Proof.Machine
end

