-- ==== Sys2Proof/Machine/Dispatch.lean ====
section
/-! DEFINITION. Which meaning belongs to which instruction: one arm for each constructor of Instr. -/

namespace Sys2Proof.Machine

def exec (i : Instr) (s : State) : Host.Outcome State Fault Refusal :=
  match i with
  | .add d a b => Sys2Proof.Machine.execAdd d a b s
  | .sub d a b => Sys2Proof.Machine.execSub d a b s
  | .and d a b => Sys2Proof.Machine.execAnd d a b s
  | .or d a b => Sys2Proof.Machine.execOr d a b s
  | .xor d a b => Sys2Proof.Machine.execXor d a b s
  | .sll d a b => Sys2Proof.Machine.execSll d a b s
  | .srl d a b => Sys2Proof.Machine.execSrl d a b s
  | .sra d a b => Sys2Proof.Machine.execSra d a b s
  | .slt d a b => Sys2Proof.Machine.execSlt d a b s
  | .sltu d a b => Sys2Proof.Machine.execSltu d a b s
  | .min d a b => Sys2Proof.Machine.execMin d a b s
  | .minu d a b => Sys2Proof.Machine.execMinu d a b s
  | .max d a b => Sys2Proof.Machine.execMax d a b s
  | .maxu d a b => Sys2Proof.Machine.execMaxu d a b s
  | .mul d a b => Sys2Proof.Machine.execMul d a b s
  | .mulh d a b => Sys2Proof.Machine.execMulh d a b s
  | .mulhu d a b => Sys2Proof.Machine.execMulhu d a b s
  | .div d a b => Sys2Proof.Machine.execDiv d a b s
  | .divu d a b => Sys2Proof.Machine.execDivu d a b s
  | .rem d a b => Sys2Proof.Machine.execRem d a b s
  | .remu d a b => Sys2Proof.Machine.execRemu d a b s
  | .addi d a imm => Sys2Proof.Machine.execAddi d a imm s
  | .andi d a imm => Sys2Proof.Machine.execAndi d a imm s
  | .ori d a imm => Sys2Proof.Machine.execOri d a imm s
  | .xori d a imm => Sys2Proof.Machine.execXori d a imm s
  | .slli d a imm => Sys2Proof.Machine.execSlli d a imm s
  | .srli d a imm => Sys2Proof.Machine.execSrli d a imm s
  | .srai d a imm => Sys2Proof.Machine.execSrai d a imm s
  | .slti d a imm => Sys2Proof.Machine.execSlti d a imm s
  | .sltui d a imm => Sys2Proof.Machine.execSltui d a imm s
  | .lui d j => Sys2Proof.Machine.execLui d j s
  | .auipc d j => Sys2Proof.Machine.execAuipc d j s
  | .ld d a imm => Sys2Proof.Machine.execLd d a imm s
  | .lw d a imm => Sys2Proof.Machine.execLw d a imm s
  | .lwu d a imm => Sys2Proof.Machine.execLwu d a imm s
  | .lh d a imm => Sys2Proof.Machine.execLh d a imm s
  | .lhu d a imm => Sys2Proof.Machine.execLhu d a imm s
  | .lb d a imm => Sys2Proof.Machine.execLb d a imm s
  | .lbu d a imm => Sys2Proof.Machine.execLbu d a imm s
  | .std r a imm => Sys2Proof.Machine.execStd r a imm s
  | .stw r a imm => Sys2Proof.Machine.execStw r a imm s
  | .sth r a imm => Sys2Proof.Machine.execSth r a imm s
  | .stb r a imm => Sys2Proof.Machine.execStb r a imm s
  | .beq a b o => Sys2Proof.Machine.execBeq a b o s
  | .bne a b o => Sys2Proof.Machine.execBne a b o s
  | .blt a b o => Sys2Proof.Machine.execBlt a b o s
  | .bge a b o => Sys2Proof.Machine.execBge a b o s
  | .bltu a b o => Sys2Proof.Machine.execBltu a b o s
  | .bgeu a b o => Sys2Proof.Machine.execBgeu a b o s
  | .jal d o => Sys2Proof.Machine.execJal d o s
  | .jalr d a imm => Sys2Proof.Machine.execJalr d a imm s
  | .vgo o => Sys2Proof.Machine.execVgo o s
  | .rqpop d => Sys2Proof.Machine.execRqpop d s
  | .vsetl d a imm => Sys2Proof.Machine.execVsetl d a imm s
  | .vdrain r => Sys2Proof.Machine.execVdrain r s
  | .vadd d a b => Sys2Proof.Machine.execVadd d a b s
  | .vsub d a b => Sys2Proof.Machine.execVsub d a b s
  | .vmul d a b => Sys2Proof.Machine.execVmul d a b s
  | .vmulh d a b => Sys2Proof.Machine.execVmulh d a b s
  | .vdiv d a b => Sys2Proof.Machine.execVdiv d a b s
  | .vrem d a b => Sys2Proof.Machine.execVrem d a b s
  | .vmin d a b => Sys2Proof.Machine.execVmin d a b s
  | .vmax d a b => Sys2Proof.Machine.execVmax d a b s
  | .vfma d a b => Sys2Proof.Machine.execVfma d a b s
  | .vfms d a b => Sys2Proof.Machine.execVfms d a b s
  | .vfnma d a b => Sys2Proof.Machine.execVfnma d a b s
  | .vabs d a => Sys2Proof.Machine.execVabs d a s
  | .vneg d a => Sys2Proof.Machine.execVneg d a s
  | .vsqrt d a => Sys2Proof.Machine.execVsqrt d a s
  | .vrcp d a => Sys2Proof.Machine.execVrcp d a s
  | .vrsq d a => Sys2Proof.Machine.execVrsq d a s
  | .vand d a b => Sys2Proof.Machine.execVand d a b s
  | .vor d a b => Sys2Proof.Machine.execVor d a b s
  | .vxor d a b => Sys2Proof.Machine.execVxor d a b s
  | .vnot d a => Sys2Proof.Machine.execVnot d a s
  | .vshl d a b => Sys2Proof.Machine.execVshl d a b s
  | .vshr d a b => Sys2Proof.Machine.execVshr d a b s
  | .vsra d a b => Sys2Proof.Machine.execVsra d a b s
  | .vaddi d a imm => Sys2Proof.Machine.execVaddi d a imm s
  | .vshli d a imm => Sys2Proof.Machine.execVshli d a imm s
  | .vshri d a imm => Sys2Proof.Machine.execVshri d a imm s
  | .vsrai d a imm => Sys2Proof.Machine.execVsrai d a imm s
  | .vmv d a => Sys2Proof.Machine.execVmv d a s
  | .vsel d a b => Sys2Proof.Machine.execVsel d a b s
  | .vcvt d a t => Sys2Proof.Machine.execVcvt d a t s
  | .vcvtw d a t => Sys2Proof.Machine.execVcvtw d a t s
  | .vcvtn d a t => Sys2Proof.Machine.execVcvtn d a t s
  | .vceq k a b => Sys2Proof.Machine.execVceq k a b s
  | .vcne k a b => Sys2Proof.Machine.execVcne k a b s
  | .vclt k a b => Sys2Proof.Machine.execVclt k a b s
  | .vcle k a b => Sys2Proof.Machine.execVcle k a b s
  | .vcgt k a b => Sys2Proof.Machine.execVcgt k a b s
  | .vcge k a b => Sys2Proof.Machine.execVcge k a b s
  | .vredsum d a b => Sys2Proof.Machine.execVredsum d a b s
  | .vredmax d a b => Sys2Proof.Machine.execVredmax d a b s
  | .vredmin d a b => Sys2Proof.Machine.execVredmin d a b s
  | .vredand d a b => Sys2Proof.Machine.execVredand d a b s
  | .vredor d a b => Sys2Proof.Machine.execVredor d a b s
  | .vscan d a b => Sys2Proof.Machine.execVscan d a b s
  | .vperm d a b => Sys2Proof.Machine.execVperm d a b s
  | .vslup d a k => Sys2Proof.Machine.execVslup d a k s
  | .vsldn d a k => Sys2Proof.Machine.execVsldn d a k s
  | .vsplat a v => Sys2Proof.Machine.execVsplat a v s
  | .vextr a b v => Sys2Proof.Machine.execVextr a b v s
  | .vinsr a b v => Sys2Proof.Machine.execVinsr a b v s
  | .vidx d => Sys2Proof.Machine.execVidx d s
  | .kand d a b => Sys2Proof.Machine.execKand d a b s
  | .kor d a b => Sys2Proof.Machine.execKor d a b s
  | .kxor d a b => Sys2Proof.Machine.execKxor d a b s
  | .kandn d a b => Sys2Proof.Machine.execKandn d a b s
  | .kset d => Sys2Proof.Machine.execKset d s
  | .ksetClear d => Sys2Proof.Machine.execKsetClear d s
  | .kpop a r => Sys2Proof.Machine.execKpop a r s
  | .kfirst a r => Sys2Proof.Machine.execKfirst a r s
  | .sadd a b c => Sys2Proof.Machine.execSadd a b c s
  | .ssub a b c => Sys2Proof.Machine.execSsub a b c s
  | .smin a b c => Sys2Proof.Machine.execSmin a b c s
  | .sminS a b c => Sys2Proof.Machine.execSminS a b c s
  | .smax a b c => Sys2Proof.Machine.execSmax a b c s
  | .smaxS a b c => Sys2Proof.Machine.execSmaxS a b c s
  | .sand a b c => Sys2Proof.Machine.execSand a b c s
  | .sshli a b n => Sys2Proof.Machine.execSshli a b n s
  | .sshri a b n => Sys2Proof.Machine.execSshri a b n s
  | .sli a imm => Sys2Proof.Machine.execSli a imm s
  | .svl a f => Sys2Proof.Machine.execSvl a f s
  | .vmode f => Sys2Proof.Machine.execVmode f s
  | .vlen a => Sys2Proof.Machine.execVlen a s
  | .vloop n o => Sys2Proof.Machine.execVloop n o s
  | .vloopnz n o => Sys2Proof.Machine.execVloopnz n o s
  | .vnest n o => Sys2Proof.Machine.execVnest n o s
  | .vreply a => Sys2Proof.Machine.execVreply a s
  | .vend => Sys2Proof.Machine.execVend s
  | .vconf d a => Sys2Proof.Machine.execVconf d a s
  | .vconfc d a k => Sys2Proof.Machine.execVconfc d a k s
  | .vpart k a p => Sys2Proof.Machine.execVpart k a p s
  | .kbefore d a w r => Sys2Proof.Machine.execKbefore d a w r s
  | .kthrough d a w r => Sys2Proof.Machine.execKthrough d a w r s
  | .vlast a b v => Sys2Proof.Machine.execVlast a b v s
  | .vcprop d a b => Sys2Proof.Machine.execVcprop d a b s
  | .vcomp d a => Sys2Proof.Machine.execVcomp d a s
  | .vexpand d a => Sys2Proof.Machine.execVexpand d a s
  | .vfchk d a => Sys2Proof.Machine.execVfchk d a s
  | .vfchkR a => Sys2Proof.Machine.execVfchkR a s
  | .vgrp d a k => Sys2Proof.Machine.execVgrp d a k s
  | .vld d b => Sys2Proof.Machine.execVld d b s
  | .vst d b => Sys2Proof.Machine.execVst d b s
  | .vlds d b k => Sys2Proof.Machine.execVlds d b k s
  | .vsts d b k => Sys2Proof.Machine.execVsts d b k s
  | .vldx d b imm f => Sys2Proof.Machine.execVldx d b imm f s
  | .vstx d b imm f => Sys2Proof.Machine.execVstx d b imm f s
  | .vldxo d b imm f => Sys2Proof.Machine.execVldxo d b imm f s
  | .vstxo d b imm f => Sys2Proof.Machine.execVstxo d b imm f s
  | .vldff d b => Sys2Proof.Machine.execVldff d b s
  | .vldsp d b => Sys2Proof.Machine.execVldsp d b s
  | .vldxff d b imm f => Sys2Proof.Machine.execVldxff d b imm f s
  | .vldxsp d b imm f => Sys2Proof.Machine.execVldxsp d b imm f s
  | .vamoadd d b imm f => Sys2Proof.Machine.execVamoadd d b imm f s
  | .vamomin d b imm f => Sys2Proof.Machine.execVamomin d b imm f s
  | .vamomax d b imm f => Sys2Proof.Machine.execVamomax d b imm f s
  | .vamoand d b imm f => Sys2Proof.Machine.execVamoand d b imm f s
  | .vamoor d b imm f => Sys2Proof.Machine.execVamoor d b imm f s
  | .vamoxor d b imm f => Sys2Proof.Machine.execVamoxor d b imm f s
  | .vamoswp d b imm f => Sys2Proof.Machine.execVamoswp d b imm f s
  | .vappend d b imm l q => Sys2Proof.Machine.execVappend d b imm l q s
  | .vldh d h p => Sys2Proof.Machine.execVldh d h p s
  | .vsth d h p => Sys2Proof.Machine.execVsth d h p s
  | .matt a b => Sys2Proof.Machine.execMatt a b s
  | .mdet => Sys2Proof.Machine.execMdet s
  | .mzero a b => Sys2Proof.Machine.execMzero a b s
  | .mma a b c z f => Sys2Proof.Machine.execMma a b c z f s
  | .mmas a b c k z f => Sys2Proof.Machine.execMmas a b c k z f s
  | .mmag a b c v z f => Sys2Proof.Machine.execMmag a b c v z f s
  | .mdsc a b c v f t p => Sys2Proof.Machine.execMdsc a b c v f t p s
  | .ptrd a v f p => Sys2Proof.Machine.execPtrd a v f p s
  | .mrd a v => Sys2Proof.Machine.execMrd a v s
  | .mwr a v => Sys2Proof.Machine.execMwr a v s
  | .mcvt a b c l f => Sys2Proof.Machine.execMcvt a b c l f s
  | .hset h b w => Sys2Proof.Machine.execHset h b w s
  | .hsetZ h => Sys2Proof.Machine.execHsetZ h s
  | .hld h b => Sys2Proof.Machine.execHld h b s
  | .hst h b => Sys2Proof.Machine.execHst h b s
  | .klq h b c d n => Sys2Proof.Machine.execKlq h b c d n s
  | .klu h b c d n => Sys2Proof.Machine.execKlu h b c d n s
  | .probe a k c v z => Sys2Proof.Machine.execProbe a k c v z s
  | .gix a b c v z => Sys2Proof.Machine.execGix a b c v z s
  | .six a b c v o z => Sys2Proof.Machine.execSix a b c v o z s
  | .cpy a b c d r n => Sys2Proof.Machine.execCpy a b c d r n s
  | .cpyn a b c d r n => Sys2Proof.Machine.execCpyn a b c d r n s
  | .lnset a b c l => Sys2Proof.Machine.execLnset a b c l s
  | .lnsetZ => Sys2Proof.Machine.execLnsetZ s
  | .amoAdd d a b o w r => Sys2Proof.Machine.execAmoAdd d a b o w r s
  | .amoAnd d a b o w r => Sys2Proof.Machine.execAmoAnd d a b o w r s
  | .amoOr d a b o w r => Sys2Proof.Machine.execAmoOr d a b o w r s
  | .amoXor d a b o w r => Sys2Proof.Machine.execAmoXor d a b o w r s
  | .amoMin d a b o w r => Sys2Proof.Machine.execAmoMin d a b o w r s
  | .amoMinu d a b o w r => Sys2Proof.Machine.execAmoMinu d a b o w r s
  | .amoMax d a b o w r => Sys2Proof.Machine.execAmoMax d a b o w r s
  | .amoMaxu d a b o w r => Sys2Proof.Machine.execAmoMaxu d a b o w r s
  | .amoSwp d a b o w r => Sys2Proof.Machine.execAmoSwp d a b o w r s
  | .amoCas d a b o w r => Sys2Proof.Machine.execAmoCas d a b o w r s
  | .ldacq d a x z r => Sys2Proof.Machine.execLdacq d a x z r s
  | .strel a b z r => Sys2Proof.Machine.execStrel a b z r s
  | .fence r => Sys2Proof.Machine.execFence r s
  | .fenceRl r => Sys2Proof.Machine.execFenceRl r s
  | .fenceAq r => Sys2Proof.Machine.execFenceAq r s
  | .waitge a b r => Sys2Proof.Machine.execWaitge a b r s
  | .waitne a b r => Sys2Proof.Machine.execWaitne a b r s
  | .expect a b r => Sys2Proof.Machine.execExpect a b r s
  | .arrive d a b r => Sys2Proof.Machine.execArrive d a b r s
  | .bwait a b r => Sys2Proof.Machine.execBwait a b r s
  | .srr d t n => Sys2Proof.Machine.execSrr d t n s
  | .srw t v n => Sys2Proof.Machine.execSrw t v n s
  | .ecall => Sys2Proof.Machine.execEcall s
  | .eret => Sys2Proof.Machine.execEret s
  | .exit => Sys2Proof.Machine.execExit s
  | .yield a => Sys2Proof.Machine.execYield a s
  | .launch a => Sys2Proof.Machine.execLaunch a s
  | .tinv a b e => Sys2Proof.Machine.execTinv a b e s
  | .fqpop d a => Sys2Proof.Machine.execFqpop d a s
  | .fqreplay d a b => Sys2Proof.Machine.execFqreplay d a b s
  | .brk => Sys2Proof.Machine.execBrk s
  | .blockStart h => Sys2Proof.Machine.execBlockStart h s
  | .loopEndCheck h => Sys2Proof.Machine.execLoopEndCheck h s
  | .faultRecordWrite => Sys2Proof.Machine.execFaultRecordWrite s
  | .fqringWrite v => Sys2Proof.Machine.execFqringWrite v s
  | .copyRun h seq => Sys2Proof.Machine.execCopyRun h seq s
  | .ritStallEnd core => Sys2Proof.Machine.execRitStallEnd core s
  | .completionAdd h seq => Sys2Proof.Machine.execCompletionAdd h seq s
  | .matrixTile h seq => Sys2Proof.Machine.execMatrixTile h seq s
  | .descentExecute h seq => Sys2Proof.Machine.execDescentExecute h seq s
  | .lookupProbe h seq => Sys2Proof.Machine.execLookupProbe h seq s
  | .lookupExecute h seq => Sys2Proof.Machine.execLookupExecute h seq s
  | .indexProbePass h seq => Sys2Proof.Machine.execIndexProbePass h seq s
  | .indexMove h seq => Sys2Proof.Machine.execIndexMove h seq s
  | .l1WritebackHorizon core line => Sys2Proof.Machine.execL1WritebackHorizon core line s
  | .l1InvalidateHorizon core line => Sys2Proof.Machine.execL1InvalidateHorizon core line s
  | .waitRetest p => Sys2Proof.Machine.execWaitRetest p s
  | .laneGroupReturn h => Sys2Proof.Machine.execLaneGroupReturn h s
  | .takeRecord => Sys2Proof.Machine.execTakeRecord s
  | .schedulerPass => Sys2Proof.Machine.execSchedulerPass s
  | .teamAgeing team => Sys2Proof.Machine.execTeamAgeing team s
  | .preemptStop team => Sys2Proof.Machine.execPreemptStop team s
  | .teamSave team => Sys2Proof.Machine.execTeamSave team s
  | .teamRetire team => Sys2Proof.Machine.execTeamRetire team s
  | .hctlPreempt g => Sys2Proof.Machine.execHctlPreempt g s
  | .hctlTerminate g => Sys2Proof.Machine.execHctlTerminate g s
  | .rfdataAccess g w => Sys2Proof.Machine.execRfdataAccess g w s
  | .rngseedWrite h v => Sys2Proof.Machine.execRngseedWrite h v s
  | .qtailWrite q v => Sys2Proof.Machine.execQtailWrite q v s
  | .olinkRead => Sys2Proof.Machine.execOlinkRead s
  | .hostLinkDown => Sys2Proof.Machine.execHostLinkDown s
  | .hostLinkUp => Sys2Proof.Machine.execHostLinkUp s
  | .hostAccessTimeout p => Sys2Proof.Machine.execHostAccessTimeout p s
  | .cxlExpanderLeave e => Sys2Proof.Machine.execCxlExpanderLeave e s
  | .fabricSendTake ch => Sys2Proof.Machine.execFabricSendTake ch s
  | .fabricCellArrive c => Sys2Proof.Machine.execFabricCellArrive c s
  | .fabricAck ch msg => Sys2Proof.Machine.execFabricAck ch msg s
  | .fabricPermitGrant ch fromPeer => Sys2Proof.Machine.execFabricPermitGrant ch fromPeer s
  | .fabricResetNotice peer => Sys2Proof.Machine.execFabricResetNotice peer s
  | .imgaddrWrite v => Sys2Proof.Machine.execImgaddrWrite v s
  | .imageLoadDone => Sys2Proof.Machine.execImageLoadDone s
  | .nativeTranslationDone id => Sys2Proof.Machine.execNativeTranslationDone id s
  | .imgdropWrite v => Sys2Proof.Machine.execImgdropWrite v s
  | .haltreq g => Sys2Proof.Machine.execHaltreq g s
  | .resumereq g => Sys2Proof.Machine.execResumereq g s
  | .holdRelease => Sys2Proof.Machine.execHoldRelease s
  | .breakpointHalt p => Sys2Proof.Machine.execBreakpointHalt p s
  | .accessRegister cmd => Sys2Proof.Machine.execAccessRegister cmd s
  | .accessMemory cmd => Sys2Proof.Machine.execAccessMemory cmd s
  | .dbgstatWrite v => Sys2Proof.Machine.execDbgstatWrite v s
  | .milestoneTick => Sys2Proof.Machine.execMilestoneTick s
  | .msptrRead => Sys2Proof.Machine.execMsptrRead s
  | .pstateWrite v => Sys2Proof.Machine.execPstateWrite v s
  | .deviceStart r => Sys2Proof.Machine.execDeviceStart r s
  | .recoveryImageFetch a r => Sys2Proof.Machine.execRecoveryImageFetch a r s
  | .thermalTrip => Sys2Proof.Machine.execThermalTrip s
  | .attestationRequest a => Sys2Proof.Machine.execAttestationRequest a s
  | .attestationDone => Sys2Proof.Machine.execAttestationDone s
  | .registerWrite t n v => Sys2Proof.Machine.execRegisterWrite t n v s
  | .yieldWaitEnd p => Sys2Proof.Machine.execYieldWaitEnd p s
  | .hostWrite pa bytes => Sys2Proof.Machine.execHostWrite pa bytes s
  | .portReset => Sys2Proof.Machine.execPortReset s

end Sys2Proof.Machine
end

