-- ==== Sys2Proof/Decode.lean ====
section
/-! DEFINITION. The decoder of the 32-bit instruction words (R46 to R54) and the encoder written from the same
tables. A word is a Nat below 2 ^ 32, bit 0 its least significant bit. -/

namespace Sys2Proof

/-- The `n` bits of a word from bit `lo` upward. -/
def fld (w lo n : Nat) : BitVec n := BitVec.ofNat n (w / 2 ^ lo)

/-- One bit of a word. -/
def flag (w lo : Nat) : Bool := w / 2 ^ lo % 2 == 1

/-- The `n` bits from `lo` are reserved or belong to a field the instruction does not use (R54, reason 5). -/
def reserved (w lo n : Nat) : Except Reason Unit :=
  if w / 2 ^ lo % 2 ^ n = 0 then .ok () else .error .reservedBit

/-- The fn bits from `lo` hold the one value the entry defines (R52; R54, reason 6). -/
def fnIs (w lo n v : Nat) : Except Reason Unit :=
  if w / 2 ^ lo % 2 ^ n = v then .ok () else .error .reservedValue

/-- The vector operand of an 8-bit field (R48); reserved payload bits are reason 5. -/
def VOp.ofByte (b : Nat) : Except Reason VOp :=
  match b / 64 % 4 with
  | 0 => if b / 32 % 2 = 0 then .ok (.main (BitVec.ofNat 5 b)) else .error .reservedBit
  | 1 => if b / 8 % 8 = 0 then .ok (.oper (BitVec.ofNat 3 b)) else .error .reservedBit
  | 2 => if b / 2 % 32 = 0 then .ok (.last (BitVec.ofNat 1 b)) else .error .reservedBit
  | _ => .ok (.repl (BitVec.ofNat 2 (b / 16)) (BitVec.ofNat 4 b))

/-- The byte of a vector operand (R48). -/
def VOp.toNat : VOp → Nat
  | .main n => n.toNat
  | .oper n => 64 + n.toNat
  | .last n => 128 + n.toNat
  | .repl z n => 192 + z.toNat * 16 + n.toNat

/-- The vector operand field whose low bit is `lo`. -/
def vop (w lo : Nat) : Except Reason VOp := VOp.ofByte (w / 2 ^ lo % 256)

/-- A scope code of R38; 5 to 7 are reserved values. -/
def Scope.ofCode : Nat → Except Reason Scope
  | 0 => .ok .tm
  | 1 => .ok .qd
  | 2 => .ok .di
  | 3 => .ok .dv
  | 4 => .ok .sy
  | _ => .error .reservedValue

/-- The code of a scope (R38). -/
def Scope.code : Scope → Nat
  | .tm => 0
  | .qd => 1
  | .di => 2
  | .dv => 3
  | .sy => 4

/-- The scope field in fn[2:0]. -/
def scope (w : Nat) : Except Reason Scope := Scope.ofCode (w % 8)

/-- A field placed at bit `lo` of a word. -/
def put (x lo : Nat) : Nat := x * 2 ^ lo

/-- Opcodes 0x00 to 0x0F (R52). -/
def decode0 (w : Nat) : Except Reason Instr :=
  match w / 2 ^ 24 % 16 with
  | 1 => do
    fnIs w 0 9 0
    return .add (fld w 19 5) (fld w 14 5) (fld w 9 5)
  | 2 => do
    fnIs w 0 9 0
    return .sub (fld w 19 5) (fld w 14 5) (fld w 9 5)
  | 3 => do
    fnIs w 0 9 0
    return .and (fld w 19 5) (fld w 14 5) (fld w 9 5)
  | 4 => do
    fnIs w 0 9 0
    return .or (fld w 19 5) (fld w 14 5) (fld w 9 5)
  | 5 => do
    fnIs w 0 9 0
    return .xor (fld w 19 5) (fld w 14 5) (fld w 9 5)
  | 6 => do
    fnIs w 0 9 0
    return .sll (fld w 19 5) (fld w 14 5) (fld w 9 5)
  | 7 => do
    fnIs w 0 9 0
    return .srl (fld w 19 5) (fld w 14 5) (fld w 9 5)
  | 8 => do
    fnIs w 0 9 0
    return .sra (fld w 19 5) (fld w 14 5) (fld w 9 5)
  | 9 => do
    fnIs w 0 9 0
    return .slt (fld w 19 5) (fld w 14 5) (fld w 9 5)
  | 10 => do
    fnIs w 0 9 0
    return .sltu (fld w 19 5) (fld w 14 5) (fld w 9 5)
  | 11 => do
    match w / 2 ^ 0 % 2 ^ 9 with
    | 0 =>
      return .min (fld w 19 5) (fld w 14 5) (fld w 9 5)
    | 1 =>
      return .minu (fld w 19 5) (fld w 14 5) (fld w 9 5)
    | _ =>
      .error .reservedValue
  | 12 => do
    match w / 2 ^ 0 % 2 ^ 9 with
    | 0 =>
      return .max (fld w 19 5) (fld w 14 5) (fld w 9 5)
    | 1 =>
      return .maxu (fld w 19 5) (fld w 14 5) (fld w 9 5)
    | _ =>
      .error .reservedValue
  | 13 => do
    fnIs w 0 9 0
    return .mul (fld w 19 5) (fld w 14 5) (fld w 9 5)
  | 14 => do
    fnIs w 0 9 0
    return .mulh (fld w 19 5) (fld w 14 5) (fld w 9 5)
  | 15 => do
    fnIs w 0 9 0
    return .mulhu (fld w 19 5) (fld w 14 5) (fld w 9 5)
  | _ => .error .unassigned

/-- Opcodes 0x10 to 0x1F (R52). -/
def decode1 (w : Nat) : Except Reason Instr :=
  match w / 2 ^ 24 % 16 with
  | 0 => do
    fnIs w 0 9 0
    return .div (fld w 19 5) (fld w 14 5) (fld w 9 5)
  | 1 => do
    fnIs w 0 9 0
    return .divu (fld w 19 5) (fld w 14 5) (fld w 9 5)
  | 2 => do
    fnIs w 0 9 0
    return .rem (fld w 19 5) (fld w 14 5) (fld w 9 5)
  | 3 => do
    fnIs w 0 9 0
    return .remu (fld w 19 5) (fld w 14 5) (fld w 9 5)
  | 4 => do
    return .addi (fld w 19 5) (fld w 14 5) (fld w 0 14)
  | 5 => do
    return .andi (fld w 19 5) (fld w 14 5) (fld w 0 14)
  | 6 => do
    return .ori (fld w 19 5) (fld w 14 5) (fld w 0 14)
  | 7 => do
    return .xori (fld w 19 5) (fld w 14 5) (fld w 0 14)
  | 8 => do
    return .slli (fld w 19 5) (fld w 14 5) (fld w 0 14)
  | 9 => do
    return .srli (fld w 19 5) (fld w 14 5) (fld w 0 14)
  | 10 => do
    return .srai (fld w 19 5) (fld w 14 5) (fld w 0 14)
  | 11 => do
    return .slti (fld w 19 5) (fld w 14 5) (fld w 0 14)
  | 12 => do
    return .sltui (fld w 19 5) (fld w 14 5) (fld w 0 14)
  | 13 => do
    return .lui (fld w 19 5) (fld w 0 19)
  | 14 => do
    return .auipc (fld w 19 5) (fld w 0 19)
  | _ => .error .unassigned

/-- Opcodes 0x20 to 0x2F (R52). -/
def decode2 (w : Nat) : Except Reason Instr :=
  match w / 2 ^ 24 % 16 with
  | 0 => do
    return .ld (fld w 19 5) (fld w 14 5) (fld w 0 14)
  | 1 => do
    return .lw (fld w 19 5) (fld w 14 5) (fld w 0 14)
  | 2 => do
    return .lwu (fld w 19 5) (fld w 14 5) (fld w 0 14)
  | 3 => do
    return .lh (fld w 19 5) (fld w 14 5) (fld w 0 14)
  | 4 => do
    return .lhu (fld w 19 5) (fld w 14 5) (fld w 0 14)
  | 5 => do
    return .lb (fld w 19 5) (fld w 14 5) (fld w 0 14)
  | 6 => do
    return .lbu (fld w 19 5) (fld w 14 5) (fld w 0 14)
  | 7 => do
    return .std (fld w 19 5) (fld w 14 5) (fld w 0 14)
  | 8 => do
    return .stw (fld w 19 5) (fld w 14 5) (fld w 0 14)
  | 9 => do
    return .sth (fld w 19 5) (fld w 14 5) (fld w 0 14)
  | 10 => do
    return .stb (fld w 19 5) (fld w 14 5) (fld w 0 14)
  | _ => .error .unassigned

/-- Opcodes 0x30 to 0x3F (R52). -/
def decode3 (w : Nat) : Except Reason Instr :=
  match w / 2 ^ 24 % 16 with
  | 0 => do
    return .beq (fld w 19 5) (fld w 14 5) (fld w 0 14)
  | 1 => do
    return .bne (fld w 19 5) (fld w 14 5) (fld w 0 14)
  | 2 => do
    return .blt (fld w 19 5) (fld w 14 5) (fld w 0 14)
  | 3 => do
    return .bge (fld w 19 5) (fld w 14 5) (fld w 0 14)
  | 4 => do
    return .bltu (fld w 19 5) (fld w 14 5) (fld w 0 14)
  | 5 => do
    return .bgeu (fld w 19 5) (fld w 14 5) (fld w 0 14)
  | 6 => do
    return .jal (fld w 19 5) (fld w 0 19)
  | 7 => do
    return .jalr (fld w 19 5) (fld w 14 5) (fld w 0 14)
  | 8 => do
    reserved w 19 5
    return .vgo (fld w 0 19)
  | 9 => do
    reserved w 0 19
    return .rqpop (fld w 19 5)
  | 10 => do
    return .vsetl (fld w 19 5) (fld w 14 5) (fld w 0 14)
  | 11 => do
    reserved w 9 15
    fnIs w 3 6 0
    return .vdrain (← scope w)
  | _ => .error .unassigned

/-- Opcodes 0x40 to 0x4F (R52). -/
def decode4 (w : Nat) : Except Reason Instr :=
  match w / 2 ^ 24 % 16 with
  | 0 => do
    return .vadd (← vop w 16) (← vop w 8) (← vop w 0)
  | 1 => do
    return .vsub (← vop w 16) (← vop w 8) (← vop w 0)
  | 2 => do
    return .vmul (← vop w 16) (← vop w 8) (← vop w 0)
  | 3 => do
    return .vmulh (← vop w 16) (← vop w 8) (← vop w 0)
  | 4 => do
    return .vdiv (← vop w 16) (← vop w 8) (← vop w 0)
  | 5 => do
    return .vrem (← vop w 16) (← vop w 8) (← vop w 0)
  | 6 => do
    return .vmin (← vop w 16) (← vop w 8) (← vop w 0)
  | 7 => do
    return .vmax (← vop w 16) (← vop w 8) (← vop w 0)
  | 8 => do
    return .vfma (← vop w 16) (← vop w 8) (← vop w 0)
  | 9 => do
    return .vfms (← vop w 16) (← vop w 8) (← vop w 0)
  | 10 => do
    return .vfnma (← vop w 16) (← vop w 8) (← vop w 0)
  | 11 => do
    reserved w 0 8
    return .vabs (← vop w 16) (← vop w 8)
  | 12 => do
    reserved w 0 8
    return .vneg (← vop w 16) (← vop w 8)
  | 13 => do
    reserved w 0 8
    return .vsqrt (← vop w 16) (← vop w 8)
  | 14 => do
    reserved w 0 8
    return .vrcp (← vop w 16) (← vop w 8)
  | 15 => do
    reserved w 0 8
    return .vrsq (← vop w 16) (← vop w 8)
  | _ => .error .unassigned

/-- Opcodes 0x50 to 0x5F (R52). -/
def decode5 (w : Nat) : Except Reason Instr :=
  match w / 2 ^ 24 % 16 with
  | 0 => do
    return .vand (← vop w 16) (← vop w 8) (← vop w 0)
  | 1 => do
    return .vor (← vop w 16) (← vop w 8) (← vop w 0)
  | 2 => do
    return .vxor (← vop w 16) (← vop w 8) (← vop w 0)
  | 3 => do
    reserved w 0 8
    return .vnot (← vop w 16) (← vop w 8)
  | 4 => do
    return .vshl (← vop w 16) (← vop w 8) (← vop w 0)
  | 5 => do
    return .vshr (← vop w 16) (← vop w 8) (← vop w 0)
  | 6 => do
    return .vsra (← vop w 16) (← vop w 8) (← vop w 0)
  | 7 => do
    return .vaddi (← vop w 16) (← vop w 8) (fld w 0 8)
  | 8 => do
    return .vshli (← vop w 16) (← vop w 8) (fld w 0 8)
  | 9 => do
    return .vshri (← vop w 16) (← vop w 8) (fld w 0 8)
  | 10 => do
    return .vsrai (← vop w 16) (← vop w 8) (fld w 0 8)
  | 11 => do
    reserved w 0 8
    return .vmv (← vop w 16) (← vop w 8)
  | 12 => do
    return .vsel (← vop w 16) (← vop w 8) (← vop w 0)
  | _ => .error .unassigned

/-- Opcodes 0x60 to 0x6F (R52). -/
def decode6 (w : Nat) : Except Reason Instr :=
  match w / 2 ^ 24 % 16 with
  | 0 => do
    reserved w 4 4
    return .vcvt (← vop w 16) (← vop w 8) (fld w 0 4)
  | 1 => do
    reserved w 4 4
    return .vcvtw (← vop w 16) (← vop w 8) (fld w 0 4)
  | 2 => do
    reserved w 4 4
    return .vcvtn (← vop w 16) (← vop w 8) (fld w 0 4)
  | 3 => do
    reserved w 19 5
    return .vceq (fld w 16 3) (← vop w 8) (← vop w 0)
  | 4 => do
    reserved w 19 5
    return .vcne (fld w 16 3) (← vop w 8) (← vop w 0)
  | 5 => do
    reserved w 19 5
    return .vclt (fld w 16 3) (← vop w 8) (← vop w 0)
  | 6 => do
    reserved w 19 5
    return .vcle (fld w 16 3) (← vop w 8) (← vop w 0)
  | 7 => do
    reserved w 19 5
    return .vcgt (fld w 16 3) (← vop w 8) (← vop w 0)
  | 8 => do
    reserved w 19 5
    return .vcge (fld w 16 3) (← vop w 8) (← vop w 0)
  | 9 => do
    return .vredsum (← vop w 16) (← vop w 8) (← vop w 0)
  | 10 => do
    return .vredmax (← vop w 16) (← vop w 8) (← vop w 0)
  | 11 => do
    return .vredmin (← vop w 16) (← vop w 8) (← vop w 0)
  | 12 => do
    return .vredand (← vop w 16) (← vop w 8) (← vop w 0)
  | 13 => do
    return .vredor (← vop w 16) (← vop w 8) (← vop w 0)
  | 14 => do
    return .vscan (← vop w 16) (← vop w 8) (← vop w 0)
  | _ => .error .unassigned

/-- Opcodes 0x70 to 0x7F (R52). -/
def decode7 (w : Nat) : Except Reason Instr :=
  match w / 2 ^ 24 % 16 with
  | 0 => do
    return .vperm (← vop w 16) (← vop w 8) (← vop w 0)
  | 1 => do
    return .vslup (← vop w 16) (← vop w 8) (fld w 0 8)
  | 2 => do
    return .vsldn (← vop w 16) (← vop w 8) (fld w 0 8)
  | 3 => do
    reserved w 0 7; reserved w 12 8
    return .vsplat (fld w 20 4) (fld w 7 5)
  | 4 => do
    reserved w 0 7; reserved w 12 4
    return .vextr (fld w 20 4) (fld w 16 4) (fld w 7 5)
  | 5 => do
    reserved w 0 7; reserved w 12 4
    return .vinsr (fld w 20 4) (fld w 16 4) (fld w 7 5)
  | 6 => do
    reserved w 0 16
    return .vidx (← vop w 16)
  | 7 => do
    reserved w 0 15
    return .kand (fld w 21 3) (fld w 18 3) (fld w 15 3)
  | 8 => do
    reserved w 0 15
    return .kor (fld w 21 3) (fld w 18 3) (fld w 15 3)
  | 9 => do
    reserved w 0 15
    return .kxor (fld w 21 3) (fld w 18 3) (fld w 15 3)
  | 10 => do
    reserved w 0 15
    return .kandn (fld w 21 3) (fld w 18 3) (fld w 15 3)
  | 11 => do
    match w / 2 ^ 0 % 2 ^ 15 with
    | 0 =>
      reserved w 15 6
      return .kset (fld w 21 3)
    | 1 =>
      reserved w 15 6
      return .ksetClear (fld w 21 3)
    | _ =>
      reserved w 15 6
      .error .reservedValue
  | 12 => do
    reserved w 4 14; reserved w 21 3
    return .kpop (fld w 18 3) (fld w 0 4)
  | 13 => do
    reserved w 4 14; reserved w 21 3
    return .kfirst (fld w 18 3) (fld w 0 4)
  | _ => .error .unassigned

/-- Opcodes 0x80 to 0x8F (R52). -/
def decode8 (w : Nat) : Except Reason Instr :=
  match w / 2 ^ 24 % 16 with
  | 0 => do
    reserved w 8 4
    fnIs w 0 8 0
    return .sadd (fld w 20 4) (fld w 16 4) (fld w 12 4)
  | 1 => do
    reserved w 8 4
    fnIs w 0 8 0
    return .ssub (fld w 20 4) (fld w 16 4) (fld w 12 4)
  | 2 => do
    match w / 2 ^ 0 % 2 ^ 8 with
    | 0 =>
      reserved w 8 4
      return .smin (fld w 20 4) (fld w 16 4) (fld w 12 4)
    | 1 =>
      reserved w 8 4
      return .sminS (fld w 20 4) (fld w 16 4) (fld w 12 4)
    | _ =>
      reserved w 8 4
      .error .reservedValue
  | 3 => do
    match w / 2 ^ 0 % 2 ^ 8 with
    | 0 =>
      reserved w 8 4
      return .smax (fld w 20 4) (fld w 16 4) (fld w 12 4)
    | 1 =>
      reserved w 8 4
      return .smaxS (fld w 20 4) (fld w 16 4) (fld w 12 4)
    | _ =>
      reserved w 8 4
      .error .reservedValue
  | 4 => do
    reserved w 8 4
    fnIs w 0 8 0
    return .sand (fld w 20 4) (fld w 16 4) (fld w 12 4)
  | 5 => do
    reserved w 8 8
    return .sshli (fld w 20 4) (fld w 16 4) (fld w 0 8)
  | 6 => do
    reserved w 8 8
    return .sshri (fld w 20 4) (fld w 16 4) (fld w 0 8)
  | 7 => do
    return .sli (fld w 20 4) (fld w 0 20)
  | 8 => do
    reserved w 8 12
    return .svl (fld w 20 4) (fld w 0 8)
  | 9 => do
    reserved w 0 1
    return .vmode ⟨flag w 23, flag w 22, flag w 21, flag w 20, flag w 19, flag w 18, fld w 14 4, fld w 11 3, flag w 10, flag w 9, flag w 8, fld w 5 3, flag w 4, fld w 1 3⟩
  | 10 => do
    reserved w 0 20
    return .vlen (fld w 20 4)
  | 11 => do
    reserved w 23 1
    return .vloop (fld w 19 4) (fld w 0 19)
  | 12 => do
    reserved w 23 1
    return .vloopnz (fld w 19 4) (fld w 0 19)
  | 13 => do
    reserved w 23 1
    return .vnest (fld w 19 4) (fld w 0 19)
  | 14 => do
    reserved w 0 20
    return .vreply (fld w 20 4)
  | 15 => do
    reserved w 0 24
    return .vend
  | _ => .error .unassigned

/-- Opcodes 0x90 to 0x9F (R52). -/
def decode9 (w : Nat) : Except Reason Instr :=
  match w / 2 ^ 24 % 16 with
  | 0 => do
    reserved w 0 8
    return .vconf (← vop w 16) (← vop w 8)
  | 1 => do
    reserved w 3 5
    return .vconfc (← vop w 16) (← vop w 8) (fld w 0 3)
  | 2 => do
    reserved w 3 5; reserved w 19 5
    return .vpart (fld w 16 3) (← vop w 8) (fld w 0 3)
  | 3 => do
    reserved w 5 13
    return .kbefore (fld w 21 3) (fld w 18 3) (flag w 4) (fld w 0 4)
  | 4 => do
    reserved w 5 13
    return .kthrough (fld w 21 3) (fld w 18 3) (flag w 4) (fld w 0 4)
  | 5 => do
    reserved w 0 7; reserved w 12 4
    return .vlast (fld w 20 4) (fld w 16 4) (fld w 7 5)
  | 6 => do
    return .vcprop (← vop w 16) (← vop w 8) (← vop w 0)
  | 7 => do
    reserved w 0 8
    return .vcomp (← vop w 16) (← vop w 8)
  | 8 => do
    reserved w 0 8
    return .vexpand (← vop w 16) (← vop w 8)
  | 9 => do
    match w / 2 ^ 0 % 2 ^ 1 with
    | 0 =>
      reserved w 1 17
      return .vfchk (fld w 21 3) (fld w 18 3)
    | 1 =>
      reserved w 1 17; reserved w 21 3
      return .vfchkR (fld w 18 3)
    | _ =>
      reserved w 1 17
      .error .reservedValue
  | 10 => do
    reserved w 3 5
    return .vgrp (← vop w 16) (← vop w 8) (fld w 0 3)
  | _ => .error .unassigned

/-- Opcodes 0xA0 to 0xAF (R52). -/
def decodeA (w : Nat) : Except Reason Instr :=
  match w / 2 ^ 24 % 16 with
  | 0 => do
    reserved w 0 12
    return .vld (← vop w 16) (fld w 12 4)
  | 1 => do
    reserved w 0 12
    return .vst (← vop w 16) (fld w 12 4)
  | 2 => do
    reserved w 4 8
    return .vlds (← vop w 16) (fld w 12 4) (fld w 0 4)
  | 3 => do
    reserved w 4 8
    return .vsts (← vop w 16) (fld w 12 4) (fld w 0 4)
  | 4 => do
    return .vldx (← vop w 16) (fld w 12 4) (← vop w 4) (fld w 0 4)
  | 5 => do
    return .vstx (← vop w 16) (fld w 12 4) (← vop w 4) (fld w 0 4)
  | 6 => do
    return .vldxo (← vop w 16) (fld w 12 4) (← vop w 4) (fld w 0 4)
  | 7 => do
    return .vstxo (← vop w 16) (fld w 12 4) (← vop w 4) (fld w 0 4)
  | 8 => do
    reserved w 0 12
    return .vldff (← vop w 16) (fld w 12 4)
  | 9 => do
    reserved w 0 12
    return .vldsp (← vop w 16) (fld w 12 4)
  | 10 => do
    return .vldxff (← vop w 16) (fld w 12 4) (← vop w 4) (fld w 0 4)
  | 11 => do
    return .vldxsp (← vop w 16) (fld w 12 4) (← vop w 4) (fld w 0 4)
  | 12 => do
    return .vamoadd (← vop w 16) (fld w 12 4) (← vop w 4) (fld w 0 4)
  | 13 => do
    return .vamomin (← vop w 16) (fld w 12 4) (← vop w 4) (fld w 0 4)
  | 14 => do
    return .vamomax (← vop w 16) (fld w 12 4) (← vop w 4) (fld w 0 4)
  | 15 => do
    return .vamoand (← vop w 16) (fld w 12 4) (← vop w 4) (fld w 0 4)
  | _ => .error .unassigned

/-- Opcodes 0xB0 to 0xBF (R52). -/
def decodeB (w : Nat) : Except Reason Instr :=
  match w / 2 ^ 24 % 16 with
  | 0 => do
    return .vamoor (← vop w 16) (fld w 12 4) (← vop w 4) (fld w 0 4)
  | 1 => do
    return .vamoxor (← vop w 16) (fld w 12 4) (← vop w 4) (fld w 0 4)
  | 2 => do
    return .vamoswp (← vop w 16) (fld w 12 4) (← vop w 4) (fld w 0 4)
  | 3 => do
    reserved w 3 1
    return .vappend (← vop w 16) (fld w 12 4) (← vop w 4) (flag w 2) (fld w 0 2)
  | 4 => do
    reserved w 0 4
    return .vldh (← vop w 16) (fld w 12 4) (← vop w 4)
  | 5 => do
    reserved w 0 4
    return .vsth (← vop w 16) (fld w 12 4) (← vop w 4)
  | _ => .error .unassigned

/-- Opcodes 0xC0 to 0xCF (R52). -/
def decodeC (w : Nat) : Except Reason Instr :=
  match w / 2 ^ 24 % 16 with
  | 0 => do
    reserved w 0 16
    return .matt (fld w 20 4) (fld w 16 4)
  | 1 => do
    reserved w 0 24
    return .mdet
  | 2 => do
    reserved w 0 16
    return .mzero (fld w 20 4) (fld w 16 4)
  | 3 => do
    reserved w 0 3; reserved w 7 5
    return .mma (fld w 20 4) (fld w 16 4) (fld w 12 4) (flag w 6) (fld w 3 3)
  | 4 => do
    reserved w 0 3; reserved w 7 1; reserved w 11 1
    return .mmas (fld w 20 4) (fld w 16 4) (fld w 12 4) (fld w 8 3) (flag w 6) (fld w 3 3)
  | 5 => do
    reserved w 0 3
    return .mmag (fld w 20 4) (fld w 16 4) (fld w 12 4) (fld w 7 5) (flag w 6) (fld w 3 3)
  | 6 => do
    reserved w 6 1
    return .mdsc (fld w 20 4) (fld w 16 4) (fld w 12 4) (fld w 7 5) (fld w 3 3) (flag w 2) (fld w 0 2)
  | 7 => do
    reserved w 4 3; reserved w 12 8
    return .ptrd (fld w 20 4) (fld w 7 5) (fld w 2 2) (fld w 0 2)
  | 8 => do
    reserved w 0 7; reserved w 12 8
    return .mrd (fld w 20 4) (fld w 7 5)
  | 9 => do
    reserved w 0 7; reserved w 12 8
    return .mwr (fld w 20 4) (fld w 7 5)
  | 10 => do
    reserved w 0 3; reserved w 7 5
    return .mcvt (fld w 20 4) (fld w 16 4) (fld w 12 4) (flag w 6) (fld w 3 3)
  | _ => .error .unassigned

/-- Opcodes 0xD0 to 0xDF (R52). -/
def decodeD (w : Nat) : Except Reason Instr :=
  match w / 2 ^ 24 % 16 with
  | 0 => do
    match w / 2 ^ 3 % 2 ^ 1 with
    | 0 =>
      reserved w 4 12
      return .hset (fld w 20 4) (fld w 16 4) (fld w 0 3)
    | 1 =>
      reserved w 0 3; reserved w 4 16
      return .hsetZ (fld w 20 4)
    | _ =>
      reserved w 4 12
      .error .reservedValue
  | 1 => do
    reserved w 0 16
    return .hld (fld w 20 4) (fld w 16 4)
  | 2 => do
    reserved w 0 16
    return .hst (fld w 20 4) (fld w 16 4)
  | 3 => do
    reserved w 6 2
    return .klq (fld w 20 4) (fld w 16 4) (fld w 12 4) (fld w 8 4) (fld w 0 6)
  | 4 => do
    reserved w 6 2
    return .klu (fld w 20 4) (fld w 16 4) (fld w 12 4) (fld w 8 4) (fld w 0 6)
  | 5 => do
    reserved w 4 3; reserved w 19 1
    return .probe (fld w 20 4) (fld w 16 3) (fld w 12 4) (fld w 7 5) (fld w 0 4)
  | 6 => do
    reserved w 4 3
    return .gix (fld w 20 4) (fld w 16 4) (fld w 12 4) (fld w 7 5) (fld w 0 4)
  | 7 => do
    reserved w 6 1
    return .six (fld w 20 4) (fld w 16 4) (fld w 12 4) (fld w 7 5) (fld w 4 2) (fld w 0 4)
  | 8 => do
    return .cpy (fld w 20 4) (fld w 16 4) (fld w 12 4) (fld w 8 4) (fld w 6 2) (fld w 0 6)
  | 9 => do
    return .cpyn (fld w 20 4) (fld w 16 4) (fld w 12 4) (fld w 8 4) (fld w 6 2) (fld w 0 6)
  | 10 => do
    match w / 2 ^ 3 % 2 ^ 1 with
    | 0 =>
      reserved w 4 8
      return .lnset (fld w 20 4) (fld w 16 4) (fld w 12 4) (fld w 0 3)
    | 1 =>
      reserved w 0 3; reserved w 4 20
      return .lnsetZ
    | _ =>
      reserved w 4 8
      .error .reservedValue
  | _ => .error .unassigned

/-- Opcodes 0xE0 to 0xEF (R52). -/
def decodeE (w : Nat) : Except Reason Instr :=
  match w / 2 ^ 24 % 16 with
  | 0 => do
    reserved w 7 2
    fnIs w 4 1 0
    return .amoAdd (fld w 19 5) (fld w 14 5) (fld w 9 5) (fld w 5 2) (flag w 3) (← scope w)
  | 1 => do
    reserved w 7 2
    fnIs w 4 1 0
    return .amoAnd (fld w 19 5) (fld w 14 5) (fld w 9 5) (fld w 5 2) (flag w 3) (← scope w)
  | 2 => do
    reserved w 7 2
    fnIs w 4 1 0
    return .amoOr (fld w 19 5) (fld w 14 5) (fld w 9 5) (fld w 5 2) (flag w 3) (← scope w)
  | 3 => do
    reserved w 7 2
    fnIs w 4 1 0
    return .amoXor (fld w 19 5) (fld w 14 5) (fld w 9 5) (fld w 5 2) (flag w 3) (← scope w)
  | 4 => do
    match w / 2 ^ 4 % 2 ^ 1 with
    | 0 =>
      reserved w 7 2
      return .amoMin (fld w 19 5) (fld w 14 5) (fld w 9 5) (fld w 5 2) (flag w 3) (← scope w)
    | 1 =>
      reserved w 7 2
      return .amoMinu (fld w 19 5) (fld w 14 5) (fld w 9 5) (fld w 5 2) (flag w 3) (← scope w)
    | _ =>
      reserved w 7 2
      .error .reservedValue
  | 5 => do
    match w / 2 ^ 4 % 2 ^ 1 with
    | 0 =>
      reserved w 7 2
      return .amoMax (fld w 19 5) (fld w 14 5) (fld w 9 5) (fld w 5 2) (flag w 3) (← scope w)
    | 1 =>
      reserved w 7 2
      return .amoMaxu (fld w 19 5) (fld w 14 5) (fld w 9 5) (fld w 5 2) (flag w 3) (← scope w)
    | _ =>
      reserved w 7 2
      .error .reservedValue
  | 6 => do
    reserved w 7 2
    fnIs w 4 1 0
    return .amoSwp (fld w 19 5) (fld w 14 5) (fld w 9 5) (fld w 5 2) (flag w 3) (← scope w)
  | 7 => do
    reserved w 7 2
    fnIs w 4 1 0
    return .amoCas (fld w 19 5) (fld w 14 5) (fld w 9 5) (fld w 5 2) (flag w 3) (← scope w)
  | 8 => do
    reserved w 6 8
    return .ldacq (fld w 19 5) (fld w 14 5) (flag w 5) (fld w 3 2) (← scope w)
  | 9 => do
    reserved w 5 4; reserved w 19 5
    return .strel (fld w 14 5) (fld w 9 5) (fld w 3 2) (← scope w)
  | 10 => do
    match w / 2 ^ 3 % 2 ^ 2 with
    | 0 =>
      reserved w 5 19
      return .fence (← scope w)
    | 1 =>
      reserved w 5 19
      return .fenceRl (← scope w)
    | 2 =>
      reserved w 5 19
      return .fenceAq (← scope w)
    | _ =>
      reserved w 5 19
      .error .reservedValue
  | 11 => do
    reserved w 3 6; reserved w 19 5
    return .waitge (fld w 14 5) (fld w 9 5) (← scope w)
  | 12 => do
    reserved w 3 6; reserved w 19 5
    return .waitne (fld w 14 5) (fld w 9 5) (← scope w)
  | 13 => do
    reserved w 3 6; reserved w 19 5
    return .expect (fld w 14 5) (fld w 9 5) (← scope w)
  | 14 => do
    reserved w 3 6
    return .arrive (fld w 19 5) (fld w 14 5) (fld w 9 5) (← scope w)
  | 15 => do
    reserved w 3 6; reserved w 19 5
    return .bwait (fld w 14 5) (fld w 9 5) (← scope w)
  | _ => .error .unassigned

/-- Opcodes 0xF0 to 0xFF (R52). -/
def decodeF (w : Nat) : Except Reason Instr :=
  match w / 2 ^ 24 % 16 with
  | 0 => do
    reserved w 9 5
    return .srr (fld w 19 5) (fld w 14 5) (fld w 0 9)
  | 1 => do
    reserved w 19 5
    return .srw (fld w 14 5) (fld w 9 5) (fld w 0 9)
  | 2 => do
    reserved w 0 24
    return .ecall
  | 3 => do
    reserved w 0 24
    return .eret
  | 4 => do
    reserved w 0 24
    return .exit
  | 5 => do
    reserved w 0 14; reserved w 19 5
    return .yield (fld w 14 5)
  | 6 => do
    reserved w 0 14; reserved w 19 5
    return .launch (fld w 14 5)
  | 7 => do
    reserved w 2 7; reserved w 19 5
    return .tinv (fld w 14 5) (fld w 9 5) (fld w 0 2)
  | 8 => do
    reserved w 0 14
    return .fqpop (fld w 19 5) (fld w 14 5)
  | 9 => do
    reserved w 0 9
    return .fqreplay (fld w 19 5) (fld w 14 5) (fld w 9 5)
  | 10 => do
    reserved w 0 24
    return .brk
  | _ => .error .unassigned

/-- The instruction fields of a word, before the checks of WellFormed (R46 to R48, R52). -/
def decodeFields (w : Nat) : Except Reason Instr :=
  match w / 2 ^ 28 with
  | 0 => decode0 w
  | 1 => decode1 w
  | 2 => decode2 w
  | 3 => decode3 w
  | 4 => decode4 w
  | 5 => decode5 w
  | 6 => decode6 w
  | 7 => decode7 w
  | 8 => decode8 w
  | 9 => decode9 w
  | 10 => decodeA w
  | 11 => decodeB w
  | 12 => decodeC w
  | 13 => decodeD w
  | 14 => decodeE w
  | 15 => decodeF w
  | _ => .error .unassigned

/-- The instruction a 32-bit word stands for, or the reason of R54 for which it is illegal as a word: reserved bits
before reserved values. -/
def decode (w : Nat) : Except Reason Instr := do
  let i ← decodeFields w
  match i.illFormed with
  | none => return i
  | some r => .error r

/-- The word of four bytes, lowest address first (R5). -/
def wordOfBytes (bs : List Byte) : Nat :=
  bs.foldr (fun b n => b.toNat + 256 * n) 0

/-- Decode the instruction at the front of a list of bytes; the rest of the list follows it. -/
def decodeBytes : List Byte → Except Reason (Instr × List Byte)
  | a :: b :: c :: d :: rest => do
    let i ← decode (wordOfBytes [a, b, c, d])
    return (i, rest)
  | _ => .error .unassigned

/-- The decoder on an instruction numbered as spec/opcode_table.json numbers its bits: bit 0 is the least
significant bit of the word. Every word has 32 bits; bits above `nbits` are 0. -/
def decodeTableWord (nbits w : Nat) : Option Instr :=
  let v := w % 2 ^ nbits % 2 ^ 32
  match decodeBytes [BitVec.ofNat 8 v, BitVec.ofNat 8 (v / 2 ^ 8), BitVec.ofNat 8 (v / 2 ^ 16), BitVec.ofNat 8 (v / 2 ^ 24)] with
  | .ok (i, _) => some i
  | .error _ => none

/-- The word of an instruction (R46 to R48), written from the encoding tables; an event has none. -/
def encode : Instr → Option Nat
  | .add d a b => some (put 0x01 24 + put d.toNat 19 + put a.toNat 14 + put b.toNat 9)
  | .sub d a b => some (put 0x02 24 + put d.toNat 19 + put a.toNat 14 + put b.toNat 9)
  | .and d a b => some (put 0x03 24 + put d.toNat 19 + put a.toNat 14 + put b.toNat 9)
  | .or d a b => some (put 0x04 24 + put d.toNat 19 + put a.toNat 14 + put b.toNat 9)
  | .xor d a b => some (put 0x05 24 + put d.toNat 19 + put a.toNat 14 + put b.toNat 9)
  | .sll d a b => some (put 0x06 24 + put d.toNat 19 + put a.toNat 14 + put b.toNat 9)
  | .srl d a b => some (put 0x07 24 + put d.toNat 19 + put a.toNat 14 + put b.toNat 9)
  | .sra d a b => some (put 0x08 24 + put d.toNat 19 + put a.toNat 14 + put b.toNat 9)
  | .slt d a b => some (put 0x09 24 + put d.toNat 19 + put a.toNat 14 + put b.toNat 9)
  | .sltu d a b => some (put 0x0A 24 + put d.toNat 19 + put a.toNat 14 + put b.toNat 9)
  | .min d a b => some (put 0x0B 24 + put d.toNat 19 + put a.toNat 14 + put b.toNat 9)
  | .minu d a b => some (put 0x0B 24 + put d.toNat 19 + put a.toNat 14 + put b.toNat 9 + 1)
  | .max d a b => some (put 0x0C 24 + put d.toNat 19 + put a.toNat 14 + put b.toNat 9)
  | .maxu d a b => some (put 0x0C 24 + put d.toNat 19 + put a.toNat 14 + put b.toNat 9 + 1)
  | .mul d a b => some (put 0x0D 24 + put d.toNat 19 + put a.toNat 14 + put b.toNat 9)
  | .mulh d a b => some (put 0x0E 24 + put d.toNat 19 + put a.toNat 14 + put b.toNat 9)
  | .mulhu d a b => some (put 0x0F 24 + put d.toNat 19 + put a.toNat 14 + put b.toNat 9)
  | .div d a b => some (put 0x10 24 + put d.toNat 19 + put a.toNat 14 + put b.toNat 9)
  | .divu d a b => some (put 0x11 24 + put d.toNat 19 + put a.toNat 14 + put b.toNat 9)
  | .rem d a b => some (put 0x12 24 + put d.toNat 19 + put a.toNat 14 + put b.toNat 9)
  | .remu d a b => some (put 0x13 24 + put d.toNat 19 + put a.toNat 14 + put b.toNat 9)
  | .addi d a i => some (put 0x14 24 + put d.toNat 19 + put a.toNat 14 + i.toNat)
  | .andi d a i => some (put 0x15 24 + put d.toNat 19 + put a.toNat 14 + i.toNat)
  | .ori d a i => some (put 0x16 24 + put d.toNat 19 + put a.toNat 14 + i.toNat)
  | .xori d a i => some (put 0x17 24 + put d.toNat 19 + put a.toNat 14 + i.toNat)
  | .slli d a i => some (put 0x18 24 + put d.toNat 19 + put a.toNat 14 + i.toNat)
  | .srli d a i => some (put 0x19 24 + put d.toNat 19 + put a.toNat 14 + i.toNat)
  | .srai d a i => some (put 0x1A 24 + put d.toNat 19 + put a.toNat 14 + i.toNat)
  | .slti d a i => some (put 0x1B 24 + put d.toNat 19 + put a.toNat 14 + i.toNat)
  | .sltui d a i => some (put 0x1C 24 + put d.toNat 19 + put a.toNat 14 + i.toNat)
  | .lui d j => some (put 0x1D 24 + put d.toNat 19 + j.toNat)
  | .auipc d j => some (put 0x1E 24 + put d.toNat 19 + j.toNat)
  | .ld d a i => some (put 0x20 24 + put d.toNat 19 + put a.toNat 14 + i.toNat)
  | .lw d a i => some (put 0x21 24 + put d.toNat 19 + put a.toNat 14 + i.toNat)
  | .lwu d a i => some (put 0x22 24 + put d.toNat 19 + put a.toNat 14 + i.toNat)
  | .lh d a i => some (put 0x23 24 + put d.toNat 19 + put a.toNat 14 + i.toNat)
  | .lhu d a i => some (put 0x24 24 + put d.toNat 19 + put a.toNat 14 + i.toNat)
  | .lb d a i => some (put 0x25 24 + put d.toNat 19 + put a.toNat 14 + i.toNat)
  | .lbu d a i => some (put 0x26 24 + put d.toNat 19 + put a.toNat 14 + i.toNat)
  | .std s a i => some (put 0x27 24 + put s.toNat 19 + put a.toNat 14 + i.toNat)
  | .stw s a i => some (put 0x28 24 + put s.toNat 19 + put a.toNat 14 + i.toNat)
  | .sth s a i => some (put 0x29 24 + put s.toNat 19 + put a.toNat 14 + i.toNat)
  | .stb s a i => some (put 0x2A 24 + put s.toNat 19 + put a.toNat 14 + i.toNat)
  | .beq a b o => some (put 0x30 24 + put a.toNat 19 + put b.toNat 14 + o.toNat)
  | .bne a b o => some (put 0x31 24 + put a.toNat 19 + put b.toNat 14 + o.toNat)
  | .blt a b o => some (put 0x32 24 + put a.toNat 19 + put b.toNat 14 + o.toNat)
  | .bge a b o => some (put 0x33 24 + put a.toNat 19 + put b.toNat 14 + o.toNat)
  | .bltu a b o => some (put 0x34 24 + put a.toNat 19 + put b.toNat 14 + o.toNat)
  | .bgeu a b o => some (put 0x35 24 + put a.toNat 19 + put b.toNat 14 + o.toNat)
  | .jal d o => some (put 0x36 24 + put d.toNat 19 + o.toNat)
  | .jalr d a i => some (put 0x37 24 + put d.toNat 19 + put a.toNat 14 + i.toNat)
  | .vgo o => some (put 0x38 24 + o.toNat)
  | .rqpop d => some (put 0x39 24 + put d.toNat 19)
  | .vsetl d a i => some (put 0x3A 24 + put d.toNat 19 + put a.toNat 14 + i.toNat)
  | .vdrain s => some (put 0x3B 24 + s.code)
  | .vadd d a b => some (put 0x40 24 + put d.toNat 16 + put a.toNat 8 + b.toNat)
  | .vsub d a b => some (put 0x41 24 + put d.toNat 16 + put a.toNat 8 + b.toNat)
  | .vmul d a b => some (put 0x42 24 + put d.toNat 16 + put a.toNat 8 + b.toNat)
  | .vmulh d a b => some (put 0x43 24 + put d.toNat 16 + put a.toNat 8 + b.toNat)
  | .vdiv d a b => some (put 0x44 24 + put d.toNat 16 + put a.toNat 8 + b.toNat)
  | .vrem d a b => some (put 0x45 24 + put d.toNat 16 + put a.toNat 8 + b.toNat)
  | .vmin d a b => some (put 0x46 24 + put d.toNat 16 + put a.toNat 8 + b.toNat)
  | .vmax d a b => some (put 0x47 24 + put d.toNat 16 + put a.toNat 8 + b.toNat)
  | .vfma d a b => some (put 0x48 24 + put d.toNat 16 + put a.toNat 8 + b.toNat)
  | .vfms d a b => some (put 0x49 24 + put d.toNat 16 + put a.toNat 8 + b.toNat)
  | .vfnma d a b => some (put 0x4A 24 + put d.toNat 16 + put a.toNat 8 + b.toNat)
  | .vabs d a => some (put 0x4B 24 + put d.toNat 16 + put a.toNat 8)
  | .vneg d a => some (put 0x4C 24 + put d.toNat 16 + put a.toNat 8)
  | .vsqrt d a => some (put 0x4D 24 + put d.toNat 16 + put a.toNat 8)
  | .vrcp d a => some (put 0x4E 24 + put d.toNat 16 + put a.toNat 8)
  | .vrsq d a => some (put 0x4F 24 + put d.toNat 16 + put a.toNat 8)
  | .vand d a b => some (put 0x50 24 + put d.toNat 16 + put a.toNat 8 + b.toNat)
  | .vor d a b => some (put 0x51 24 + put d.toNat 16 + put a.toNat 8 + b.toNat)
  | .vxor d a b => some (put 0x52 24 + put d.toNat 16 + put a.toNat 8 + b.toNat)
  | .vnot d a => some (put 0x53 24 + put d.toNat 16 + put a.toNat 8)
  | .vshl d a b => some (put 0x54 24 + put d.toNat 16 + put a.toNat 8 + b.toNat)
  | .vshr d a b => some (put 0x55 24 + put d.toNat 16 + put a.toNat 8 + b.toNat)
  | .vsra d a b => some (put 0x56 24 + put d.toNat 16 + put a.toNat 8 + b.toNat)
  | .vaddi d a i => some (put 0x57 24 + put d.toNat 16 + put a.toNat 8 + i.toNat)
  | .vshli d a i => some (put 0x58 24 + put d.toNat 16 + put a.toNat 8 + i.toNat)
  | .vshri d a i => some (put 0x59 24 + put d.toNat 16 + put a.toNat 8 + i.toNat)
  | .vsrai d a i => some (put 0x5A 24 + put d.toNat 16 + put a.toNat 8 + i.toNat)
  | .vmv d a => some (put 0x5B 24 + put d.toNat 16 + put a.toNat 8)
  | .vsel d a b => some (put 0x5C 24 + put d.toNat 16 + put a.toNat 8 + b.toNat)
  | .vcvt d a t => some (put 0x60 24 + put d.toNat 16 + put a.toNat 8 + t.toNat)
  | .vcvtw d a t => some (put 0x61 24 + put d.toNat 16 + put a.toNat 8 + t.toNat)
  | .vcvtn d a t => some (put 0x62 24 + put d.toNat 16 + put a.toNat 8 + t.toNat)
  | .vceq k a b => some (put 0x63 24 + put k.toNat 16 + put a.toNat 8 + b.toNat)
  | .vcne k a b => some (put 0x64 24 + put k.toNat 16 + put a.toNat 8 + b.toNat)
  | .vclt k a b => some (put 0x65 24 + put k.toNat 16 + put a.toNat 8 + b.toNat)
  | .vcle k a b => some (put 0x66 24 + put k.toNat 16 + put a.toNat 8 + b.toNat)
  | .vcgt k a b => some (put 0x67 24 + put k.toNat 16 + put a.toNat 8 + b.toNat)
  | .vcge k a b => some (put 0x68 24 + put k.toNat 16 + put a.toNat 8 + b.toNat)
  | .vredsum d a b => some (put 0x69 24 + put d.toNat 16 + put a.toNat 8 + b.toNat)
  | .vredmax d a b => some (put 0x6A 24 + put d.toNat 16 + put a.toNat 8 + b.toNat)
  | .vredmin d a b => some (put 0x6B 24 + put d.toNat 16 + put a.toNat 8 + b.toNat)
  | .vredand d a b => some (put 0x6C 24 + put d.toNat 16 + put a.toNat 8 + b.toNat)
  | .vredor d a b => some (put 0x6D 24 + put d.toNat 16 + put a.toNat 8 + b.toNat)
  | .vscan d a b => some (put 0x6E 24 + put d.toNat 16 + put a.toNat 8 + b.toNat)
  | .vperm d a b => some (put 0x70 24 + put d.toNat 16 + put a.toNat 8 + b.toNat)
  | .vslup d a k => some (put 0x71 24 + put d.toNat 16 + put a.toNat 8 + k.toNat)
  | .vsldn d a k => some (put 0x72 24 + put d.toNat 16 + put a.toNat 8 + k.toNat)
  | .vsplat a v => some (put 0x73 24 + put a.toNat 20 + put v.toNat 7)
  | .vextr a b v => some (put 0x74 24 + put a.toNat 20 + put b.toNat 16 + put v.toNat 7)
  | .vinsr a b v => some (put 0x75 24 + put a.toNat 20 + put b.toNat 16 + put v.toNat 7)
  | .vidx d => some (put 0x76 24 + put d.toNat 16)
  | .kand d a b => some (put 0x77 24 + put d.toNat 21 + put a.toNat 18 + put b.toNat 15)
  | .kor d a b => some (put 0x78 24 + put d.toNat 21 + put a.toNat 18 + put b.toNat 15)
  | .kxor d a b => some (put 0x79 24 + put d.toNat 21 + put a.toNat 18 + put b.toNat 15)
  | .kandn d a b => some (put 0x7A 24 + put d.toNat 21 + put a.toNat 18 + put b.toNat 15)
  | .kset d => some (put 0x7B 24 + put d.toNat 21)
  | .ksetClear d => some (put 0x7B 24 + put d.toNat 21 + 1)
  | .kpop a s => some (put 0x7C 24 + put a.toNat 18 + s.toNat)
  | .kfirst a s => some (put 0x7D 24 + put a.toNat 18 + s.toNat)
  | .sadd a b c => some (put 0x80 24 + put a.toNat 20 + put b.toNat 16 + put c.toNat 12)
  | .ssub a b c => some (put 0x81 24 + put a.toNat 20 + put b.toNat 16 + put c.toNat 12)
  | .smin a b c => some (put 0x82 24 + put a.toNat 20 + put b.toNat 16 + put c.toNat 12)
  | .sminS a b c => some (put 0x82 24 + put a.toNat 20 + put b.toNat 16 + put c.toNat 12 + 1)
  | .smax a b c => some (put 0x83 24 + put a.toNat 20 + put b.toNat 16 + put c.toNat 12)
  | .smaxS a b c => some (put 0x83 24 + put a.toNat 20 + put b.toNat 16 + put c.toNat 12 + 1)
  | .sand a b c => some (put 0x84 24 + put a.toNat 20 + put b.toNat 16 + put c.toNat 12)
  | .sshli a b n => some (put 0x85 24 + put a.toNat 20 + put b.toNat 16 + n.toNat)
  | .sshri a b n => some (put 0x86 24 + put a.toNat 20 + put b.toNat 16 + n.toNat)
  | .sli a i => some (put 0x87 24 + put a.toNat 20 + i.toNat)
  | .svl a f => some (put 0x88 24 + put a.toNat 20 + f.toNat)
  | .vmode f => some (put 0x89 24 + put f.selT.toNat 23 + put f.selRnd.toNat 22 + put f.selSat.toNat 21 + put f.selM.toNat 20 + put f.selG.toNat 19 + put f.selSc.toNat 18 + put f.t.toNat 14 + put f.rnd.toNat 11 + put f.sat.toNat 10 + put f.m.toNat 9 + put f.gen.toNat 8 + put f.gk.toNat 5 + put f.gneg.toNat 4 + put f.sc.toNat 1)
  | .vlen a => some (put 0x8A 24 + put a.toNat 20)
  | .vloop n o => some (put 0x8B 24 + put n.toNat 19 + o.toNat)
  | .vloopnz n o => some (put 0x8C 24 + put n.toNat 19 + o.toNat)
  | .vnest n o => some (put 0x8D 24 + put n.toNat 19 + o.toNat)
  | .vreply a => some (put 0x8E 24 + put a.toNat 20)
  | .vend => some (put 0x8F 24)
  | .vconf d a => some (put 0x90 24 + put d.toNat 16 + put a.toNat 8)
  | .vconfc d a k => some (put 0x91 24 + put d.toNat 16 + put a.toNat 8 + k.toNat)
  | .vpart k a p => some (put 0x92 24 + put k.toNat 16 + put a.toNat 8 + p.toNat)
  | .kbefore d a w s => some (put 0x93 24 + put d.toNat 21 + put a.toNat 18 + put w.toNat 4 + s.toNat)
  | .kthrough d a w s => some (put 0x94 24 + put d.toNat 21 + put a.toNat 18 + put w.toNat 4 + s.toNat)
  | .vlast a b v => some (put 0x95 24 + put a.toNat 20 + put b.toNat 16 + put v.toNat 7)
  | .vcprop d a b => some (put 0x96 24 + put d.toNat 16 + put a.toNat 8 + b.toNat)
  | .vcomp d a => some (put 0x97 24 + put d.toNat 16 + put a.toNat 8)
  | .vexpand d a => some (put 0x98 24 + put d.toNat 16 + put a.toNat 8)
  | .vfchk d a => some (put 0x99 24 + put d.toNat 21 + put a.toNat 18)
  | .vfchkR a => some (put 0x99 24 + put a.toNat 18 + 1)
  | .vgrp d a k => some (put 0x9A 24 + put d.toNat 16 + put a.toNat 8 + k.toNat)
  | .vld d b => some (put 0xA0 24 + put d.toNat 16 + put b.toNat 12)
  | .vst d b => some (put 0xA1 24 + put d.toNat 16 + put b.toNat 12)
  | .vlds d b k => some (put 0xA2 24 + put d.toNat 16 + put b.toNat 12 + k.toNat)
  | .vsts d b k => some (put 0xA3 24 + put d.toNat 16 + put b.toNat 12 + k.toNat)
  | .vldx d b i f => some (put 0xA4 24 + put d.toNat 16 + put b.toNat 12 + put i.toNat 4 + f.toNat)
  | .vstx d b i f => some (put 0xA5 24 + put d.toNat 16 + put b.toNat 12 + put i.toNat 4 + f.toNat)
  | .vldxo d b i f => some (put 0xA6 24 + put d.toNat 16 + put b.toNat 12 + put i.toNat 4 + f.toNat)
  | .vstxo d b i f => some (put 0xA7 24 + put d.toNat 16 + put b.toNat 12 + put i.toNat 4 + f.toNat)
  | .vldff d b => some (put 0xA8 24 + put d.toNat 16 + put b.toNat 12)
  | .vldsp d b => some (put 0xA9 24 + put d.toNat 16 + put b.toNat 12)
  | .vldxff d b i f => some (put 0xAA 24 + put d.toNat 16 + put b.toNat 12 + put i.toNat 4 + f.toNat)
  | .vldxsp d b i f => some (put 0xAB 24 + put d.toNat 16 + put b.toNat 12 + put i.toNat 4 + f.toNat)
  | .vamoadd d b i f => some (put 0xAC 24 + put d.toNat 16 + put b.toNat 12 + put i.toNat 4 + f.toNat)
  | .vamomin d b i f => some (put 0xAD 24 + put d.toNat 16 + put b.toNat 12 + put i.toNat 4 + f.toNat)
  | .vamomax d b i f => some (put 0xAE 24 + put d.toNat 16 + put b.toNat 12 + put i.toNat 4 + f.toNat)
  | .vamoand d b i f => some (put 0xAF 24 + put d.toNat 16 + put b.toNat 12 + put i.toNat 4 + f.toNat)
  | .vamoor d b i f => some (put 0xB0 24 + put d.toNat 16 + put b.toNat 12 + put i.toNat 4 + f.toNat)
  | .vamoxor d b i f => some (put 0xB1 24 + put d.toNat 16 + put b.toNat 12 + put i.toNat 4 + f.toNat)
  | .vamoswp d b i f => some (put 0xB2 24 + put d.toNat 16 + put b.toNat 12 + put i.toNat 4 + f.toNat)
  | .vappend d b i l q => some (put 0xB3 24 + put d.toNat 16 + put b.toNat 12 + put i.toNat 4 + put l.toNat 2 + q.toNat)
  | .vldh d h p => some (put 0xB4 24 + put d.toNat 16 + put h.toNat 12 + put p.toNat 4)
  | .vsth d h p => some (put 0xB5 24 + put d.toNat 16 + put h.toNat 12 + put p.toNat 4)
  | .matt a b => some (put 0xC0 24 + put a.toNat 20 + put b.toNat 16)
  | .mdet => some (put 0xC1 24)
  | .mzero a b => some (put 0xC2 24 + put a.toNat 20 + put b.toNat 16)
  | .mma a b c z f => some (put 0xC3 24 + put a.toNat 20 + put b.toNat 16 + put c.toNat 12 + put z.toNat 6 + put f.toNat 3)
  | .mmas a b c k z f => some (put 0xC4 24 + put a.toNat 20 + put b.toNat 16 + put c.toNat 12 + put k.toNat 8 + put z.toNat 6 + put f.toNat 3)
  | .mmag a b c v z f => some (put 0xC5 24 + put a.toNat 20 + put b.toNat 16 + put c.toNat 12 + put v.toNat 7 + put z.toNat 6 + put f.toNat 3)
  | .mdsc a b c v f t p => some (put 0xC6 24 + put a.toNat 20 + put b.toNat 16 + put c.toNat 12 + put v.toNat 7 + put f.toNat 3 + put t.toNat 2 + p.toNat)
  | .ptrd a v f p => some (put 0xC7 24 + put a.toNat 20 + put v.toNat 7 + put f.toNat 2 + p.toNat)
  | .mrd a v => some (put 0xC8 24 + put a.toNat 20 + put v.toNat 7)
  | .mwr a v => some (put 0xC9 24 + put a.toNat 20 + put v.toNat 7)
  | .mcvt a b c l f => some (put 0xCA 24 + put a.toNat 20 + put b.toNat 16 + put c.toNat 12 + put l.toNat 6 + put f.toNat 3)
  | .hset h b w => some (put 0xD0 24 + put h.toNat 20 + put b.toNat 16 + w.toNat)
  | .hsetZ h => some (put 0xD0 24 + put h.toNat 20 + put 1 3)
  | .hld h b => some (put 0xD1 24 + put h.toNat 20 + put b.toNat 16)
  | .hst h b => some (put 0xD2 24 + put h.toNat 20 + put b.toNat 16)
  | .klq h b c d n => some (put 0xD3 24 + put h.toNat 20 + put b.toNat 16 + put c.toNat 12 + put d.toNat 8 + n.toNat)
  | .klu h b c d n => some (put 0xD4 24 + put h.toNat 20 + put b.toNat 16 + put c.toNat 12 + put d.toNat 8 + n.toNat)
  | .probe a k c v z => some (put 0xD5 24 + put a.toNat 20 + put k.toNat 16 + put c.toNat 12 + put v.toNat 7 + z.toNat)
  | .gix a b c v z => some (put 0xD6 24 + put a.toNat 20 + put b.toNat 16 + put c.toNat 12 + put v.toNat 7 + z.toNat)
  | .six a b c v o z => some (put 0xD7 24 + put a.toNat 20 + put b.toNat 16 + put c.toNat 12 + put v.toNat 7 + put o.toNat 4 + z.toNat)
  | .cpy a b c d r n => some (put 0xD8 24 + put a.toNat 20 + put b.toNat 16 + put c.toNat 12 + put d.toNat 8 + put r.toNat 6 + n.toNat)
  | .cpyn a b c d r n => some (put 0xD9 24 + put a.toNat 20 + put b.toNat 16 + put c.toNat 12 + put d.toNat 8 + put r.toNat 6 + n.toNat)
  | .lnset a b c l => some (put 0xDA 24 + put a.toNat 20 + put b.toNat 16 + put c.toNat 12 + l.toNat)
  | .lnsetZ => some (put 0xDA 24 + put 1 3)
  | .amoAdd d a b o w s => some (put 0xE0 24 + put d.toNat 19 + put a.toNat 14 + put b.toNat 9 + put o.toNat 5 + put w.toNat 3 + s.code)
  | .amoAnd d a b o w s => some (put 0xE1 24 + put d.toNat 19 + put a.toNat 14 + put b.toNat 9 + put o.toNat 5 + put w.toNat 3 + s.code)
  | .amoOr d a b o w s => some (put 0xE2 24 + put d.toNat 19 + put a.toNat 14 + put b.toNat 9 + put o.toNat 5 + put w.toNat 3 + s.code)
  | .amoXor d a b o w s => some (put 0xE3 24 + put d.toNat 19 + put a.toNat 14 + put b.toNat 9 + put o.toNat 5 + put w.toNat 3 + s.code)
  | .amoMin d a b o w s => some (put 0xE4 24 + put d.toNat 19 + put a.toNat 14 + put b.toNat 9 + put o.toNat 5 + put w.toNat 3 + s.code)
  | .amoMinu d a b o w s => some (put 0xE4 24 + put d.toNat 19 + put a.toNat 14 + put b.toNat 9 + put o.toNat 5 + put w.toNat 3 + s.code + put 1 4)
  | .amoMax d a b o w s => some (put 0xE5 24 + put d.toNat 19 + put a.toNat 14 + put b.toNat 9 + put o.toNat 5 + put w.toNat 3 + s.code)
  | .amoMaxu d a b o w s => some (put 0xE5 24 + put d.toNat 19 + put a.toNat 14 + put b.toNat 9 + put o.toNat 5 + put w.toNat 3 + s.code + put 1 4)
  | .amoSwp d a b o w s => some (put 0xE6 24 + put d.toNat 19 + put a.toNat 14 + put b.toNat 9 + put o.toNat 5 + put w.toNat 3 + s.code)
  | .amoCas d a b o w s => some (put 0xE7 24 + put d.toNat 19 + put a.toNat 14 + put b.toNat 9 + put o.toNat 5 + put w.toNat 3 + s.code)
  | .ldacq d a x z s => some (put 0xE8 24 + put d.toNat 19 + put a.toNat 14 + put x.toNat 5 + put z.toNat 3 + s.code)
  | .strel a b z s => some (put 0xE9 24 + put a.toNat 14 + put b.toNat 9 + put z.toNat 3 + s.code)
  | .fence s => some (put 0xEA 24 + s.code)
  | .fenceRl s => some (put 0xEA 24 + s.code + put 1 3)
  | .fenceAq s => some (put 0xEA 24 + s.code + put 2 3)
  | .waitge a b s => some (put 0xEB 24 + put a.toNat 14 + put b.toNat 9 + s.code)
  | .waitne a b s => some (put 0xEC 24 + put a.toNat 14 + put b.toNat 9 + s.code)
  | .expect a b s => some (put 0xED 24 + put a.toNat 14 + put b.toNat 9 + s.code)
  | .arrive d a b s => some (put 0xEE 24 + put d.toNat 19 + put a.toNat 14 + put b.toNat 9 + s.code)
  | .bwait a b s => some (put 0xEF 24 + put a.toNat 14 + put b.toNat 9 + s.code)
  | .srr d t n => some (put 0xF0 24 + put d.toNat 19 + put t.toNat 14 + n.toNat)
  | .srw t v n => some (put 0xF1 24 + put t.toNat 14 + put v.toNat 9 + n.toNat)
  | .ecall => some (put 0xF2 24)
  | .eret => some (put 0xF3 24)
  | .exit => some (put 0xF4 24)
  | .yield a => some (put 0xF5 24 + put a.toNat 14)
  | .launch a => some (put 0xF6 24 + put a.toNat 14)
  | .tinv a b e => some (put 0xF7 24 + put a.toNat 14 + put b.toNat 9 + e.toNat)
  | .fqpop d a => some (put 0xF8 24 + put d.toNat 19 + put a.toNat 14)
  | .fqreplay d a b => some (put 0xF9 24 + put d.toNat 19 + put a.toNat 14 + put b.toNat 9)
  | .brk => some (put 0xFA 24)
  | .blockStart _ => none
  | .loopEndCheck _ => none
  | .faultRecordWrite => none
  | .fqringWrite _ => none
  | .copyRun _ _ => none
  | .ritStallEnd _ => none
  | .completionAdd _ _ => none
  | .matrixTile _ _ => none
  | .descentExecute _ _ => none
  | .lookupProbe _ _ => none
  | .lookupExecute _ _ => none
  | .indexProbePass _ _ => none
  | .indexMove _ _ => none
  | .l1WritebackHorizon _ _ => none
  | .l1InvalidateHorizon _ _ => none
  | .waitRetest _ => none
  | .laneGroupReturn _ => none
  | .takeRecord => none
  | .schedulerPass => none
  | .teamAgeing _ => none
  | .preemptStop _ => none
  | .teamSave _ => none
  | .teamRetire _ => none
  | .hctlPreempt _ => none
  | .hctlTerminate _ => none
  | .rfdataAccess _ _ => none
  | .rngseedWrite _ _ => none
  | .qtailWrite _ _ => none
  | .olinkRead => none
  | .hostLinkDown => none
  | .hostLinkUp => none
  | .hostAccessTimeout _ => none
  | .cxlExpanderLeave _ => none
  | .fabricSendTake _ => none
  | .fabricCellArrive _ => none
  | .fabricAck _ _ => none
  | .fabricPermitGrant _ _ => none
  | .fabricResetNotice _ => none
  | .imgaddrWrite _ => none
  | .imageLoadDone => none
  | .nativeTranslationDone _ => none
  | .imgdropWrite _ => none
  | .haltreq _ => none
  | .resumereq _ => none
  | .holdRelease => none
  | .breakpointHalt _ => none
  | .accessRegister _ => none
  | .accessMemory _ => none
  | .dbgstatWrite _ => none
  | .milestoneTick => none
  | .msptrRead => none
  | .pstateWrite _ => none
  | .deviceStart _ => none
  | .recoveryImageFetch _ _ => none
  | .thermalTrip => none
  | .attestationRequest _ => none
  | .attestationDone => none
  | .registerWrite _ _ _ => none
  | .yieldWaitEnd _ => none
  | .hostWrite _ _ => none
  | .portReset => none

end Sys2Proof
end

