-- ==== Sys2Proof/Machine/Fetch.lean ====
section
/-! DEFINITION. Who may run (R19, R273), fetching the words of an instruction (R58, R69, R291, R296, R320), and decoding
them for the party that fetched them (R49, R50, R53, R54). -/

namespace Sys2Proof.Machine

/-! ### Who may run -/

/-- A party may take a turn: it stands on a core and is neither stopped nor waiting, and a stall for interlock entries has come
to its end, and its hart has had its start grant (R13, R19, R29, R226, R242, R273, R277, R326); a verge core runs unless it waits. -/
def State.canRun (s : State) : Party → Bool
  | .ctrl h => s.running h && !(s.hart h).exited && (s.hart h).wait.isNone && !(s.hart h).awaitsGrant
  | .vec h => s.running h && (s.hart h).vwait.isNone && (s.hart h).stalled.all RitStall.ready && !s.descending h
  | .verge n => n ≤ 8 && (s.verge n).wait.isNone

/-- A halt that has been asked for can be taken: the hart stands on a core, whether it runs, waits or is parked, and has no
descent step in flight (R130, R274, R326). -/
def State.haltDue (s : State) (p : Party) : Bool :=
  let h := partyHart p
  p.isHart && (s.hart h).haltReq && (s.hart h).halted.isNone && s.onCore h && !s.descending h

/-! ### The bytes -/

/-- A byte of code as a core fetches it: from its cached line, else from memory as the core's own stores left it. -/
def State.codeByte (s : State) (core pa : Nat) : Byte :=
  match Tab.get none s.icache (codeKey core (pa / 64)) with
  | some l => l.bytes.getD (pa % 64) 0
  | none =>
    match s.l1Byte core pa with
    | some b => if b.dirty then b.val else Tab.get 0 s.mem pa
    | none => Tab.get 0 s.mem pa

/-- The line of an address as a core fetches it is poisoned (R291). -/
def State.codePoisoned (s : State) (core pa : Nat) : Bool :=
  match Tab.get none s.icache (codeKey core (pa / 64)) with
  | some l => l.poisoned
  | none => s.poisoned (pa / 64)

/-- The physical address of a fetch, or its trap. -/
def State.fetchAt (s : State) (p : Party) (va n : Nat) : Except Trap Nat :=
  let trap (cls : Nat) : Trap := { cls := cls, addr := BitVec.ofNat 64 va, acc := 4, sz := log2 n }
  let tf (f : TFail) : Trap := { trap 0x05 with rsn := f.reason, base := f.base, size := f.size }
  if s.topOf p ≤ va then .error (trap 0x02)
  else if va % n ≠ 0 then .error (trap 0x04)
  else
    let r := if inWindow va then .error ⟨4, va / 4096 * 4096, 4096⟩ else match p with
      | .verge k => s.translateVerge k va .fetch
      | _ => s.translate (s.coreOf p) (s.ctxOf (partyHart p)) va .fetch
    match r with
    | .error f => .error (tf f)
    | .ok pa => .ok pa

/-- The registered image whose JPF a party stands in. JPF outside every registered image is never executed (R316): the stream
stays there (log 65). -/
def State.imageOf (s : State) (p : Party) : Option Image := s.imageAt (s.ctxOf (partyHart p)) (s.pcOf p).toNat

/-- What a word executes as: translated code of an image that relies on corrected errata reproduces them (R319; log 91). -/
def State.translatedWord (s : State) (p : Party) (v : Nat) : Nat :=
  let fast := match p with
    | .ctrl h => (s.hart h).fastC
    | .vec h => (s.hart h).fastV
    | .verge _ => false
  match s.imageOf p with
  | some m => if s.wordBytes p = 8 && fast && m.errata ≠ 0 then Config.reproducedWord m.errata v else v
  | none => v

/-- The word at the executing party's pc, of 4 or 8 bytes. -/
def fetchWord : M Nat := do
  let s ← get
  let n := s.wordBytes s.cur
  let va := (s.pcOf s.cur).toNat
  let core := s.coreOf s.cur
  match s.fetchAt s.cur va n with
  | .error t => raise t
  | .ok pa =>
    if n = 8 && (s.imageOf s.cur).isNone then waitHere
    let cached := (Tab.get none s.icache (codeKey core (pa / 64))).isSome
    let dead ← if cached then pure false else needLink pa
    check (!dead && !s.codePoisoned core pa) { cls := 0x07, addr := BitVec.ofNat 64 va, acc := 4, sz := log2 n }
    return leNat ((List.range n).map (fun i => s.codeByte core (pa + i)))

/-! ### Decoding for a party (R53, R54) -/

/-- The opcode is assigned (R52). -/
def assigned (w : Nat) : Bool := match decode w with | .error .unassigned => false | _ => true

/-- The opcode may be executed by a party (R53). -/
def executable (p : Party) (jpf : Bool) (op : Nat) : Bool :=
  let vector := 0x40 ≤ op && op ≤ 0xDF
  match p with
  | .ctrl _ => !vector
  | .vec _ => vector && !(jpf && op = 0x89)
  | .verge _ => !vector && !(0x38 ≤ op && op ≤ 0x3B)

/-- A privileged opcode (R53). -/
def privilegedOp (op : Nat) : Bool := op = 0xF3 || op = 0xF7 || op = 0xF8 || op = 0xF9

/-- The instruction that a fetched value is for a party, with the reasons of R54 in their order; the mode half of JPF
stands above the word (R49). -/
def decodeFor (p : Party) (jpf : Bool) (v : Nat) : Except Reason Instr :=
  let w := v % 2 ^ 32
  let half := BitVec.ofNat 32 (v / 2 ^ 32)
  let op := w / 2 ^ 24
  let hart := match p with | .verge _ => false | _ => true
  let vec := match p with | .vec _ => true | _ => false
  if !assigned w then .error .unassigned
  else if !executable p jpf op then .error .wrongStream
  else if hart && privilegedOp op then .error .privileged
  else if jpf && (if vec then modeBad half else half != 0) then .error .jpfMode
  else decode w

/-- In JPF the mode half is placed in the mode register as a vector instruction issues (R50). A word that then stands where it stood,
because it waits, is halted or traps, has not issued: State.settled takes the mode register and vl back (the model's reading,
log 96). -/
def State.placeMode (s : State) (v : Nat) : State :=
  match s.cur with
  | .vec h => if s.wordBytes s.cur = 8 then s.modHart h (fun t => t.setMode (BitVec.ofNat 32 (v / 2 ^ 32))) else s
  | _ => s

/-- The opcodes of the engine commands. -/
def engineOpcode (op : Nat) : Bool :=
  (0xC3 ≤ op && op ≤ 0xC6) || op = 0xCA || op = 0xD3 || op = 0xD4 || (0xD6 ≤ op && op ≤ 0xD9)

/-- The trap of a word that is illegal for a party; an engine command's names the command (R286, R321). -/
def illegalFor (p : Party) (v : Nat) (r : Reason) : Trap :=
  let vec := match p with | .vec _ => true | _ => false
  { illegal r with eng := vec && engineOpcode (v % 2 ^ 32 / 2 ^ 24) && r ≠ .unassigned && r ≠ .wrongStream }

/-- mma, mmas, mmag, mdsc, klq and klu: any of their traps leaves vstart 0, that of an illegal one too (R129, R158, R174, R176); R55 leaves
it as it was for every other illegal word (log 98). -/
def clearsStart (op : Nat) : Bool := (0xC3 ≤ op && op ≤ 0xC6) || op = 0xD3 || op = 0xD4

/-- The state in which a word that is illegal for a party traps. -/
def State.illegalAt (s : State) (p : Party) (v : Nat) (r : Reason) : State :=
  match p with
  | .vec h =>
    if clearsStart (v % 2 ^ 32 / 2 ^ 24) && r ≠ .unassigned && r ≠ .wrongStream then s.modHart h (fun t => { t with vstart := 0 }) else s
  | _ => s

/-- Fetch and decode the executing party's next instruction; the fetched value goes with it. -/
def fetchInstr : M (Nat × Instr) := do
  let w ← fetchWord
  let s ← get
  let v := s.translatedWord s.cur w
  match decodeFor s.cur (s.wordBytes s.cur = 8) v with
  | .error r => fun s => .error (.trap (illegalFor s.cur v r)) (s.illegalAt s.cur v r)
  | .ok i => return (v, i)

/-- The engine commands of R321, which take a sequence number when they issue. -/
def isEngineOp : Instr → Bool
  | .cpy .. => true
  | .cpyn .. => true
  | .mma .. => true
  | .mmas .. => true
  | .mmag .. => true
  | .mdsc .. => true
  | .mcvt .. => true
  | .klq .. => true
  | .klu .. => true
  | .gix .. => true
  | .six .. => true
  | _ => false

/-- A breakpoint on the sequence number the next command would take (R327). -/
def State.bpSeq (s : State) (p : Party) (i : Instr) : Bool :=
  match p with
  | .vec h => isEngineOp i && !(s.hart h).bpSkipV && s.anyBp (s.ctxOf h) 3 (s.hart h).engseq.toNat
  | _ => false

/-! ### Caches and time -/

/-- A translation of a core's harts is cached (R283). -/
def State.fillTlb (s : State) (core ctx va : Nat) : State :=
  if (s.held core ctx va).isSome || !s.tableOk (s.rootOf ctx) then s
  else match s.walk va 4 (s.rootOf ctx) with
    | .error _ => s
    | .ok p =>
      -- a page that is not wholly in memory fails for every access, and no failed translation is kept
      match s.useLeaf false p va .load with
      | .error ⟨4, _, _⟩ => s
      | _ => { s with tlb := s.tlb ++ [⟨core, ctx, p.base, p.size, p.leaf⟩] }

/-- A code line of a core is cached (R291). -/
def State.fillCode (s : State) (core line : Nat) : State :=
  let pa := line * 64
  if !s.mapped pa || isView pa || (isHost pa && !s.linkUp) then s
  else
    let bytes := (List.range 64).map (fun i => s.codeByte core (pa + i))
    { s with icache := Tab.put none s.icache (codeKey core line) (some ⟨bytes, s.codePoisoned core pa⟩) }

/-- Sixteen lines of one set is what an L1 holds (R2, R186): the lines of the first set of a core that holds more. -/
def State.crowded (s : State) (core : Nat) : List Nat :=
  let lines := s.linesOf core
  let peers (l : Nat) : List Nat := lines.filter (fun m => Config.l1Set m == Config.l1Set l)
  match lines.find? (fun l => 16 < (peers l).length) with
  | some l => peers l
  | none => []

/-- Lines are evicted from the sets of a core that hold too many (R187), a free choice of the set's lines each time (log 18);
the fuel is one for each line. -/
def State.evictFrom (core : Nat) : Nat → State → State
  | 0, s => s
  | n + 1, s =>
    match s.crowded core with
    | [] => s
    | l :: ls =>
      let line := (l :: ls).getD (Config.freeNat s.fresh % (ls.length + 1)) l
      State.evictFrom core n ({ s with fresh := s.fresh + 1 }.flushLine core line)

/-- Every L1 brought back to its capacity. -/
def State.settleL1 (s : State) : State :=
  ((s.l1.map (fun e => e.1 / 2 ^ 52)).eraseReps).foldl (fun s core =>
    if (s.linesOf core).length ≤ 16 then s else State.evictFrom core (s.linesOf core).length s) s

/-- The cycles that may pass before a byte of an L1 is due or a Milestone tick is (R188, R329). -/
def State.timeLeft (s : State) (n : Nat) : Nat :=
  let l1 := s.l1.foldl (fun m e => match e.2 with | some b => min m (b.at_ + horizon - s.cycle) | none => m) n
  if s.tickDue then 0
  else if s.msctl.getLsbD 0 then min l1 (2 ^ s.msK - s.cycle % 2 ^ s.msK) else l1

end Sys2Proof.Machine
end

