-- ==== Sys2Proof/Machine/Count.lean ====
section
/-! DEFINITION. What the Milestone stream counts (R190, R192, R330; log 6): home slices and controllers, the cycles in which harts
stand still or units work, and what an instruction or an event adds. -/

namespace Sys2Proof.Machine

/-! ### Home slices and controllers (R190, R192) -/

/-- The home slice of a physical address. -/
def sliceOf (pa : Nat) : Nat := (pa / 2 ^ 8 % 64) ^^^ (pa / 2 ^ 14 % 64) ^^^ (pa / 2 ^ 20 % 64)

/-- The physical channels that are up, from 0 upward: logical channel c is the c-th of them. -/
def State.upChannels (s : State) : List Nat := (List.range (if s.a48 then 36 else 48)).filter (fun p => !s.strec1.getLsbD p)

/-- The controller of a device-memory address. -/
def State.controllerOf (s : State) (pa : Nat) : Nat := s.upChannels.getD (pa / 256 % s.upChannels.length) 0 / 2

/-! ### Cycles (R330) -/

/-- The physical places of the lines of `n` bytes that a command accesses. -/
def State.linePas (s : State) (h : Nat) : Nat → Nat → Nat → List Nat
  | 0, _, _ => []
  | fuel + 1, va, n =>
    if n = 0 then []
    else
      let rest := s.linePas h fuel (va + pieceLen va n) (n - pieceLen va n)
      match s.engineAt h va .engRead with
      | .ok (some pa) => pa :: rest
      | _ => rest

/-- The memory rows that a lookup or index command has still to read or write from its step k on (R171, R208). -/
def EngOp.rowsFrom (o : EngOp) (k : Nat) : List (Nat × Nat) :=
  let row (h : BitVec 512) (r : Nat) : Nat × Nat :=
    let t := tableOf h
    (t.val + r * t.vpitch, t.vw * width t.fv / 8)
  match o with
  | .klq h _ _ _ sel => (sel.drop k).flatten.map (fun x => row h x.1)
  | .klu h _ _ _ _ work => (work.drop k).map (fun x => row h x.2.1)
  | .gix base pitch _ z _ rows => (rows.drop k).map (fun x => (rowAddr base pitch x, z))
  | .six base pitch _ z _ rows _ => (rows.drop k).map (fun x => (rowAddr base pitch x, z))
  | _ => []

/-- The hart's stream stands at an instruction that does not complete as the machine stands. -/
def State.stands (s : State) (p : Party) (which : Instr → Bool) : Bool :=
  s.canRun p && !s.bpHit p &&
    match fetchInstr { s with cur := p } with
    | .ok (_, i) _ => which i && (match exec i { s with cur := p } with
      | .next t => t.pcOf p == s.pcOf p && (t.hart (partyHart p)).parkC.isNone && (t.hart (partyHart p)).parkV.isNone
      | _ => false)
    | .error _ _ => false

def atVgo : Instr → Bool | .vgo _ => true | _ => false
def atRqpop : Instr → Bool | .rqpop _ => true | _ => false
def atVreply : Instr → Bool | .vreply _ => true | _ => false
def atVdrain : Instr → Bool | .vdrain _ => true | _ => false

/-- The vector stream of a hart is at an instruction. -/
def State.inBlock (s : State) (h : Nat) : Bool := (s.hart h).block.isSome && !(s.hart h).loopDue

/-- What `n` cycles add for a hart that stands on a core: they are cycles stalled on the block queue, on the reply queue, for
interlock entries, at vdrain or in a wait, or parked on a fault. -/
def State.tallyHart (core n : Nat) (s : State) (h : Nat) : State :=
  let t := s.hart h
  let full := 16 ≤ t.blockQ.length && s.stands (.ctrl h) atVgo
  let reply := (t.replyQ.isEmpty && s.stands (.ctrl h) atRqpop) || (s.inBlock h && s.stands (.vec h) atVreply)
  let waits := t.wait == some .asleep || s.stands (.ctrl h) atVdrain
  let s := s.tally (countAt 0 core 2) (n * full.toNat)
  let s := s.tally (countAt 0 core 3) (n * reply.toNat)
  let s := s.tally (countAt 0 core 4) (n * t.stalled.isSome.toNat)
  let s := s.tally (countAt 0 core 5) (n * waits.toNat)
  s.tally (countAt 0 core 6) (n * t.stoppedOnReport.toNat)

/-- A command that works: it has passed its probe, is not parked, and may move. -/
def State.works (s : State) (op : EngOp → Bool) (c : Cmd) : Bool := op c.op && c.stage == .run && c.parked.isNone && s.mayMove c

/-- The units at whose lines working commands have rows left: the slices whose index engines are busy (R191), or the controllers whose
key lookup engines are. -/
def State.unitsBusy (s : State) (op : EngOp → Bool) (unit : Nat → Nat) : List Nat :=
  ((s.cmds.filter (s.works op)).flatMap (fun c => (c.op.rowsFrom c.k).flatMap (fun x =>
    ((s.linePas c.hart (pieces x.1 x.2) x.1 x.2).filter s.isDevice).map unit))).eraseDups

def EngOp.usesTiles : EngOp → Bool
  | .prod .. => true
  | .mcvt .. => true
  | _ => false
def EngOp.isDescent : EngOp → Bool | .desc .. => true | _ => false

/-- What `n` cycles add (R330): for every hart that stands on a core, those in which it stands still; for every core, those in
which its copy engine works; for every matrix unit, those of the rows that its teams hold, of the rows whose team has a product or
a conversion under way, and those with a descent under way; for every controller and slice, those in which its key lookup engine or
index engine has rows to work on. -/
def State.tallyTime (s : State) (n : Nat) : State :=
  let ts := s.resident
  let any (us : List Nat) (op : EngOp → Bool) : Nat := (s.cmds.any (fun c => us.contains (teamOf c.hart) && s.works op c)).toNat
  let t := ts.foldl (fun u t => (s.hartsOf t).foldl (State.tallyHart (s.coreOfTeam t) n) u) s
  let t := (s.unitsBusy EngOp.isLookup s.controllerOf).foldl (fun u m => u.tally (countAt 2 m 2) n) t
  let t := (s.unitsBusy EngOp.isIndex sliceOf).foldl (fun u x => u.tally (countAt 3 x 3) n) t
  let t := (ts.map s.coreOfTeam).eraseDups.foldl (fun u core =>
    u.tally (countAt 0 core 7) (n * any (ts.filter (fun t => s.coreOfTeam t = core)) EngOp.isCopy)) t
  (ts.map (fun t => s.coreOfTeam t / 4)).eraseDups.foldl (fun u quad =>
    let us := ts.filter (fun t => s.coreOfTeam t / 4 = quad)
    let u := u.tally (countAt 1 quad 0) (n * (us.map (fun t => (s.team t).rows * any [t] EngOp.usesTiles)).sum)
    let u := u.tally (countAt 1 quad 2) (n * any us EngOp.isDescent)
    u.tally (countAt 1 quad 3) (n * s.sumOf us Team.rows)) t

/-! ### Atomic steps at the slices (R114, R118, R176, R190, R208, R222, R236, R238, R244) -/

/-- The atomic steps of an instruction that executed in s and left t: where each was performed, in the order of the elements. -/
def State.atomicPlaces (s t : State) (i : Instr) : List Place :=
  let went := t.pcOf s.cur ≠ s.pcOf s.cur
  let scalar (a : BitVec 5) (w : Bool) (sc : Scope) : List Place :=
    match s.resolve s.cur (s.getX a) (if w then 4 else 8) .atomic with
    | .ok p => if went && atHome p sc then [p] else []
    | .error _ => []
  let barrier (a : BitVec 5) : List Place :=
    match s.resolve s.cur (s.getX a) 16 .atomic with
    | .ok p => if went then [p] else []
    | .error _ => []
  let vector (b : BitVec 4) (o : VOp) (f : BitVec 4) : List Place :=
    let u := s.hart s.me
    let n := indexLen u f
    let ea := indexAddr s (f.getLsbD 3) b o f (width u.ty / 8)
    let home := amoHome u n ea (u.activesIn u.vstart n)
    let stop := if went then n else (t.hart s.me).vstart
    ((u.activesIn u.vstart stop).map (fun i => s.placeOf (ea i) (width u.ty / 8) .atomic)).filter (stepHome home)
  match i with
  | .amoAdd _ a _ _ w sc => scalar a w sc
  | .amoAnd _ a _ _ w sc => scalar a w sc
  | .amoOr _ a _ _ w sc => scalar a w sc
  | .amoXor _ a _ _ w sc => scalar a w sc
  | .amoMin _ a _ _ w sc => scalar a w sc
  | .amoMinu _ a _ _ w sc => scalar a w sc
  | .amoMax _ a _ _ w sc => scalar a w sc
  | .amoMaxu _ a _ _ w sc => scalar a w sc
  | .amoSwp _ a _ _ w sc => scalar a w sc
  | .amoCas _ a _ _ w sc => scalar a w sc
  | .expect a _ _ => barrier a
  | .arrive _ a _ _ => barrier a
  | .vamoadd _ b o f => vector b o f
  | .vamomin _ b o f => vector b o f
  | .vamomax _ b o f => vector b o f
  | .vamoand _ b o f => vector b o f
  | .vamoor _ b o f => vector b o f
  | .vamoxor _ b o f => vector b o f
  | .vamoswp _ b o f => vector b o f
  | .vappend _ b _ _ _ =>
    let u := s.hart s.me
    let steps := u.latched.isNone && u.vstart = 0 && !(u.activesIn 0 u.vl).isEmpty && (went || (t.hart s.me).latch.isSome)
    if steps then [s.placeOf (s.getS b) 8 .atomic] else []
  | _ => []

/-- The atomic steps that slices have performed, counted; steps on host memory and in a scratchpad are not theirs (R193). -/
def State.tallySteps (s : State) (l : List Place) : State :=
  l.foldl (fun s p => match p with
    | .mem pa => if isHost pa then s else s.tally (countAt 3 (sliceOf pa) 2) 1
    | _ => s) s

/-- The element steps of a klu, or of a scatter that adds, from its step k on: addresses and sizes (R176, R208). -/
def EngOp.elementSteps (o : EngOp) (k : Nat) : List (Nat × Nat) :=
  match o with
  | .klu h _ _ _ _ work =>
    let t := tableOf h
    let n := width t.fv / 8
    (work.drop k).flatMap (fun x => (List.range t.vw).map (fun e => (t.val + x.2.1 * t.vpitch + e * n, n)))
  | .six base pitch _ z _ rows op =>
    let n := if op = 1 then 4 else 2
    if op = 0 then [] else (rows.drop k).flatMap (fun x => (List.range (z / n)).map (fun i => (rowAddr base pitch x + i * n, n)))
  | _ => []

/-- The element steps that a command has performed between s and t: those before its new step, all of them where its rows are done,
and where poison has ended it those that it did by free values (log 92). -/
def State.stepsBetween (s t : State) (h seq : Nat) : List (Nat × Nat) :=
  match s.cmd? h seq with
  | none => []
  | some c =>
    let todo := c.op.elementSteps c.k
    if c.stage ≠ .run then []
    else match t.cmd? h seq with
      | some d => if d.stage = .run then todo.take (todo.length - (c.op.elementSteps d.k).length) else todo
      | none =>
        if t.reports.length = s.reports.length then todo
        else (todo.zipIdx.filter (fun e => Config.freeNat (s.fresh + e.2) % 2 = 1
          && (match s.engineRead c e.1.1 e.1.2 with | .ok _ => true | _ => false))).map Prod.fst

/-- Those steps counted at their slices. -/
def State.tallyElements (s : State) (h seq : Nat) (t : State) : State :=
  t.tallySteps ((s.stepsBetween t h seq).filterMap (fun x => match s.engineAt h x.1 .engWrite with
    | .ok (some pa) => some (.mem pa)
    | _ => none))

/-- A completion add that has been made, counted at its slice (R222). -/
def State.tallyAdd (s : State) (h seq : Nat) (t : State) : State :=
  match s.cmd? h seq with
  | none => t
  | some c =>
    if (t.cmd? h seq).isSome || t.reports.length ≠ s.reports.length || inWindow c.cw.toNat then t
    else match s.translate (s.coreOfTeam (teamOf h)) (s.ctxOf h) c.cw.toNat .atomic with
      | .ok pa => t.tallySteps [.mem pa]
      | .error _ => t

/-! ### Events -/

/-- The controllers that weight a part of each value row of the next query of a klq, once for each row. -/
def State.weighted (s : State) (h seq : Nat) : List Nat :=
  match s.cmd? h seq with
  | none => []
  | some c =>
    match c.op with
    | .klq hd _ _ m sel =>
      let t := tableOf hd
      let rows := (sel.getD c.k []).map Prod.fst
      let size := t.vw * width t.fv / 8
      if s.works EngOp.isLookup c && c.k < m && (s.readRows c t rows).toBool then
        rows.flatMap (fun r =>
          (((s.linePas h (pieces (t.val + r * t.vpitch) size) (t.val + r * t.vpitch) size).filter s.isDevice).map s.controllerOf).eraseDups)
      else []
    | _ => []

/-- The lines of 64 bytes that some bytes fill. -/
def linesFor (n : Nat) : Nat := (n + 63) / 64

/-- What an event adds that takes s to t: the cells that leave or arrive over the rails, the value rows that a lookup step has
weighted, and the atomic steps of commands. -/
def State.tallyEvent (s : State) (i : Instr) (t : State) : State :=
  match i with
  | .fabricSendTake _ =>
    (t.outbox.drop s.outbox.length).foldl (fun t p => match p with
      | .cell rail _ c => t.tally (countAt 5 rail 1) (linesFor c.data.length)
      | _ => t) t
  | .fabricCellArrive c => t.tally (countAt 5 c.rail 0) (linesFor c.data.length)
  | .lookupExecute h seq => (s.weighted h seq).foldl (fun t m => t.tally (countAt 2 m 3) 1) (s.tallyElements h seq t)
  | .indexMove h seq => s.tallyElements h seq t
  | .completionAdd h seq => s.tallyAdd h seq t
  | _ => t

end Sys2Proof.Machine
end

