-- ==== Sys2Proof/Machine/Turn.lean ====
section
/-! DEFINITION. One turn of a party: a halt, a breakpoint, a loop end, the start of a block, or an instruction. -/

namespace Sys2Proof.Machine

/-- The state in which a fetched instruction executes: the party executes, and an element-wise instruction may be cut where a
stop has been asked for (R34, R274, R326). -/
def State.prepare (s : State) (p : Party) (cut : Option Nat) : State :=
  let h := partyHart p
  { s with cur := p, cut := if (s.team (teamOf h)).request || (s.hart h).haltReq then cut else none }

/-- Instructions that may leave the pc where it was when they have executed. -/
def isJump : Instr → Bool
  | .beq .. => true
  | .bne .. => true
  | .blt .. => true
  | .bge .. => true
  | .bltu .. => true
  | .bgeu .. => true
  | .jal .. => true
  | .jalr .. => true
  | _ => false

/-- The instruction that a party executed has completed: its position has moved, it was a jump to itself, or it ended a
block. -/
def State.completed (s s1 : State) (p : Party) (jump : Bool) : Bool :=
  s.pcOf p ≠ s1.pcOf p ||
    match p with
    | .ctrl h => jump && (s.hart h).parkC.isNone
    | .vec h => (s.hart h).block.isNone
    | .verge _ => false

/-- An instruction that has completed: a breakpoint that was passed over arms again, and its issue counts (R327, R330). -/
def State.wentOn (s : State) (p : Party) : State :=
  match p with
  | .ctrl h => (if (s.hart h).bpSkipC then s.modHart h (fun t => { t with bpSkipC := false }) else s).tally (countAt 0 (s.coreOf p) 0) 1
  | .vec h => (if (s.hart h).bpSkipV then s.modHart h (fun t => { t with bpSkipV := false }) else s).tally (countAt 0 (s.coreOf p) 1) 1
  | .verge _ => s

/-- A JPF word that stands where it stood leaves no visible effect but its elements below vstart (R13, R55): the mode register
and vl are as they were before its half was placed (log 96). -/
def State.unplaced (s s1 : State) (p : Party) : State :=
  match p with
  | .vec h =>
    if s1.wordBytes p = 8 then s.modHart h (fun t => { t with mode := (s1.hart h).mode, vl := (s1.hart h).vl }) else s
  | _ => s

/-- The state in which an instruction of a party that stood in s1 executed: in JPF with the mode register and vl that its half gave,
which no indexed atomic changes. -/
def State.executedIn (s s1 : State) (p : Party) : State :=
  match p with
  | .vec h => s1.modHart h (fun t => { t with mode := (s.hart h).mode, vl := (s.hart h).vl })
  | _ => s1

/-- After an instruction of a party that stood in s1: its atomic steps have been counted, no cut is left, and it has completed or
stands where it stood. -/
def State.settled (s s1 : State) (p : Party) (i : Instr) : State :=
  let s := State.tallySteps { s with cut := none } ((s.executedIn s1 p).atomicPlaces s i)
  if s.completed s1 p (isJump i) then s.wentOn p else s.unplaced s1 p

/-- The same of an outcome. -/
def settle (p : Party) (s1 : State) (i : Instr) : Result → Result
  | .next s => .next (s.settled s1 p i)
  | .fault r => .fault r
  | .refused r => .refused r

/-- Fetch, decode and execute the next word of a party. -/
def runWord (p : Party) (s : State) : Result :=
  match fetchInstr s with
  | .error (.trap t) s => .next (s.takeTrap t)
  | .error .wait s => .next s
  | .ok (v, i) s1 => if s1.bpSeq p i then .next (s1.bpHalt p) else settle p s1 i (exec i (s1.placeMode v))

/-- A turn of a party: a halt that is due, a breakpoint, a loop end, the start of a block, or an instruction. A halt is taken
at once, or after an element-wise instruction has been cut for it. -/
def turn (p : Party) (cut : Option Nat) (s : State) : Result :=
  if s.haltDue p && !(s.canRun p && cut.isSome && p.isVec) then .next (s.haltHart (partyHart p) 1)
  else if !s.canRun p then .next s
  else if s.bpHit p then .next (if s.descending (partyHart p) then s else s.bpHalt p)
  else match p with
    | .vec h =>
      if (s.hart h).loopDue then exec (.loopEndCheck h) s
      else if (s.hart h).block.isNone then exec (.blockStart h) s
      else runWord p (s.prepare p cut)
    | _ => runWord p (s.prepare p cut)

/-- The two streams of a hart have each issued an instruction: the vector stream completes its own though the control stream's
raises a fault, and a fault of its own comes second (R19; log 21). -/
def turnBoth (h : Nat) (cut : Option Nat) (s : State) : Result :=
  if !s.canRun (.ctrl h) || !s.canRun (.vec h) || (s.hart h).block.isNone || (s.hart h).loopDue || s.bpHit (.vec h) then .next s
  else match turn (.ctrl h) none s with
    | .next s =>
      if (s.hart h).parkC.isSome then runWord (.vec h) (s.prepare (.vec h) cut) else turn (.vec h) cut s
    | r => r

end Sys2Proof.Machine
end

