-- ==== Sys2Proof/Machine/Touch.lean ====
section
/-! DEFINITION. What an instruction accesses, for those accesses that need not be performed in the order of their stream (R246, R248,
R338): the places, and what is done there. -/

namespace Sys2Proof.Machine

/-- `n` bytes at one place and `m` bytes at another have a byte in common. -/
def Place.meets (a : Place) (n : Nat) (b : Place) (m : Nat) : Bool :=
  match a, b with
  | .spad t o, .spad u q => t = u && o < q + m && q < o + n
  | .mem x, .mem y => x < y + m && y < x + n
  | _, _ => false

/-- The accesses of an instruction: their kind, the bytes of one, whether one is performed at the home slice, the elements with their
addresses, and what is done at an element's place; whether they can be performed later, and stand in order among themselves (R113);
the release that goes before them, and whether it is a fence (R234, R240); the ranges of the instruction (R122, R224); and other bytes
that it has accessed, which cannot be performed later. -/
structure Touch where
  acc : Access
  size : Nat
  home : Place → Bool := fun _ => false
  elems : List (Nat × W64)
  act : Nat → LateAct := fun _ => .read .none
  free : Bool := false
  ordered : Bool := false
  rel : Option (Scope × Bool) := none
  span : List Range := []
  more : List (Place × Nat) := []

/-! ### The control stream -/

/-- A control register as the target of a value of `n` bytes. -/
def xTarget (d : BitVec 5) (signed : Bool) : Target := if d = 0 then .none else .x d.toNat signed

/-- A plain load and a plain store (R64, R65). -/
def State.scalarRead (s : State) (n : Nat) (signed : Bool) (d a : BitVec 5) (i : BitVec 14) : Touch :=
  { acc := .load, size := n, elems := [(0, s.eaOf a i)], act := fun _ => .read (xTarget d signed), free := d != 0 }
def State.scalarWrite (s : State) (n : Nat) (x a : BitVec 5) (i : BitVec 14) : Touch :=
  { acc := .store, size := n, elems := [(0, s.eaOf a i)], act := fun _ => .write (leBytes n (s.getX x).toNat), free := true }

/-- A read that its instruction needs at once: of an acquire, or of a wait. -/
def State.scalarPoint (s : State) (n : Nat) (a : BitVec 5) : Touch := { acc := .load, size := n, elems := [(0, s.getX a)] }

/-- A release that can be performed later: one at sy waits for the link (R193, R304). -/
def laterScope (sc : Scope) : Bool := sc ≠ .sy

/-- An atomic (R236, R237): with .aq or .ar it is performed at once, with .rl or .ar after its release. -/
def State.scalarStep (s : State) (fn : AtomicFn) (signed : Bool) (d a b : BitVec 5) (o : BitVec 2) (w : Bool) (sc : Scope) : Touch :=
  let n := if w then 4 else 8
  { acc := .atomic, size := n, home := fun p => atHome p sc, elems := [(0, s.getX a)],
    act := fun _ => .step ⟨fn, (s.getX b).toNat % 2 ^ (8 * n), (s.getX d).toNat, none⟩ (xTarget d (signed && w)),
    free := !o.getLsbD 0 && (!o.getLsbD 1 || laterScope sc), rel := if o.getLsbD 1 then some (sc, false) else none }

/-! ### The vector stream -/

/-- The registers that a vector result fills (R22). -/
def filledBy : VOp → List Nat
  | .main n => [n.toNat, 40]
  | .oper n => [32 + n.toNat, 40]
  | _ => [40]

/-- A vector load of `n` elements. The elements of a first-fault load above its first failing one and the failing ones of a
speculative load are not read (R116, R117). One that was resumed has moved the l-file before. -/
def State.vectorRead (s : State) (kind : LoadKind) (ordered : Bool) (d : VOp) (n : Nat) (ea : Nat → W64) : Touch :=
  let t := s.hart s.me
  let z := width t.ty / 8
  let acts := t.activesIn t.vstart n
  let reads := match kind with
    | .plain => acts
    | .first => match s.failing t.home z .load ea acts with | some (i, _) => acts.filter (· < i) | none => acts
    | .spec => acts.filter (fun i => (s.elemCheck s.cur t.home (ea i) z .load).isNone)
  { acc := .load, size := z, home := fun _ => t.home, elems := reads.map (fun i => (i, ea i)),
    act := fun i => .read (.v (filledBy d) i), free := t.vstart = 0, ordered := ordered, span := rangesOf z false (acts.map ea) }

/-- A vector store. -/
def State.vectorWrite (s : State) (ordered : Bool) (d : VOp) (n : Nat) (ea : Nat → W64) : Touch :=
  let t := s.hart s.me
  let z := width t.ty / 8
  let acts := t.activesIn t.vstart n
  { acc := .store, size := z, home := fun _ => t.home, elems := acts.map (fun i => (i, ea i)),
    act := fun i => .write (leBytes z (dataElem s d i)), free := true, ordered := ordered, span := rangesOf z true (acts.map ea) }

/-- The operation of an indexed atomic, and whether it draws (R114, R143). -/
def vectorStep : AtomicFn → ElemOp
  | .add => opAdd
  | .min => roundedStep opMin
  | .max => roundedStep opMax
  | .and => opAnd
  | .or => opOr
  | .xor => opXor
  | _ => opSwap
def stepDraws : AtomicFn → Bool
  | .add => true
  | .min => true
  | .max => true
  | _ => false

/-- An indexed atomic: its draws are made when it executes (R143). -/
def State.vectorSteps (s : State) (fn : AtomicFn) (d : VOp) (b : BitVec 4) (o : VOp) (f : BitVec 4) : Touch :=
  let t := s.hart s.me
  let z := width t.ty / 8
  let n := indexLen t f
  let ret := f.getLsbD 3
  let ea := indexAddr s ret b o f z
  let acts := t.activesIn t.vstart n
  let home := amoHome t n ea acts
  let lanes (i : Nat) : Lanes := acts.foldl (fun g j => if j < i then stepLanes t (stepDraws fn) j g g else g) t.rng
  { acc := .atomic, size := z, home := stepHome home, elems := acts.map (fun i => (i, ea i)),
    act := fun i => .step ⟨fn, dataElem s d i, 0, some (t.ty, t.rnd, t.sat, Tab.get 0 (lanes i) (i % 256))⟩
      (if ret then .v (filledBy d) i else .none),
    free := !ret || t.vstart = 0, span := rangesOf z true (acts.map ea) }

/-- The record stores of a vappend, which its tail step does not order (R119). -/
def State.recordTouch (s : State) (pl : Place) (d : VOp) (l : Bool) (q : Nat) : Touch :=
  let t := s.hart s.me
  let z := width t.ty / 8
  let rs := t.records q
  let s0 := s.atDesc pl
  let base := s.appendBase (descWord pl s0 0)
  { acc := .store, size := z, home := fun _ => true,
    elems := appendStores t q z rs (descWord pl s0 16) base (descWord pl s0 8),
    act := fun i => .write (leBytes z (recordElem s d l i)), free := true,
    span := rangesOf z true (appendSpan q z rs (descWord pl s0 16) base), more := [(pl, 32)] }

/-- A handle-typed load or store (R203): its elements that have an entry; the arrays that it walks it needs at once. Those of q4 share
their bytes, and are performed at once. -/
def State.handleTouch (s : State) (store : Bool) (d : VOp) (hn : BitVec 4) (p : VOp) : Option Touch :=
  let t := s.hart s.me
  let h := t.handle hn.toNat
  match hCheck t h, hShape h with
  | none, some sh =>
    let find := if store then storeFind t h sh d p else loadFind t h sh p
    (s.findElems (min t.vl (t.bytes / 8)) find).map (fun x =>
      { acc := if store then .store else .load, size := entryBytes h, home := fun _ => t.home,
        elems := (x.found.filter (fun e => t.vstart ≤ e.1)).filterMap (fun e => e.2.entry.map (fun n => (e.1, entryAddr h n))),
        act := fun i => if store then .write (leBytes (entryBytes h) (dataElem s d i)) else .read (.v (filledBy d) i),
        free := t.ty ≠ tQ4 && (store || t.vstart = 0), span := hRanges h sh store, more := x.seen })
  | _, _ => none

/-- A handle register read or written, 64 bytes at sc = tm (R201). -/
def State.handleMove (s : State) (store : Bool) (h b : BitVec 4) : Touch :=
  { acc := if store then .store else .load, size := 64, elems := [(0, s.getS b)],
    act := fun _ => if store then .write (leBytes 64 ((s.hart s.me).handle h.toNat).toNat) else .read (.handle h.toNat),
    free := true, span := rangesOf 64 store [s.getS b] }

/-! ### Every instruction -/

/-- The accesses of an instruction that another one may overtake or that may overtake another one. -/
def State.touch (s : State) : Instr → Option Touch
  | .ld d a i => some (s.scalarRead 8 false d a i)
  | .lw d a i => some (s.scalarRead 4 true d a i)
  | .lwu d a i => some (s.scalarRead 4 false d a i)
  | .lh d a i => some (s.scalarRead 2 true d a i)
  | .lhu d a i => some (s.scalarRead 2 false d a i)
  | .lb d a i => some (s.scalarRead 1 true d a i)
  | .lbu d a i => some (s.scalarRead 1 false d a i)
  | .std x a i => some (s.scalarWrite 8 x a i)
  | .stw x a i => some (s.scalarWrite 4 x a i)
  | .sth x a i => some (s.scalarWrite 2 x a i)
  | .stb x a i => some (s.scalarWrite 1 x a i)
  | .amoAdd d a b o w sc => some (s.scalarStep .add false d a b o w sc)
  | .amoAnd d a b o w sc => some (s.scalarStep .and false d a b o w sc)
  | .amoOr d a b o w sc => some (s.scalarStep .or false d a b o w sc)
  | .amoXor d a b o w sc => some (s.scalarStep .xor false d a b o w sc)
  | .amoMin d a b o w sc => some (s.scalarStep .min true d a b o w sc)
  | .amoMinu d a b o w sc => some (s.scalarStep .minu false d a b o w sc)
  | .amoMax d a b o w sc => some (s.scalarStep .max true d a b o w sc)
  | .amoMaxu d a b o w sc => some (s.scalarStep .maxu false d a b o w sc)
  | .amoSwp d a b o w sc => some (s.scalarStep .swp false d a b o w sc)
  | .amoCas d a b o w sc => some (s.scalarStep .cas false d a b o w sc)
  | .ldacq _ a _ z _ => some (s.scalarPoint (2 ^ z.toNat) a)
  | .strel a b z sc =>
    some { acc := .store, size := 2 ^ z.toNat, home := fun p => atHome p sc, elems := [(0, s.getX a)],
           act := fun _ => .write (leBytes (2 ^ z.toNat) (s.getX b).toNat), free := laterScope sc, rel := some (sc, false) }
  | .fenceRl sc => some { acc := .store, size := 0, elems := [], free := laterScope sc, rel := some (sc, true) }
  | .waitge a _ _ => some (s.scalarPoint 8 a)
  | .waitne a _ _ => some (s.scalarPoint 8 a)
  | .bwait a _ _ => some (s.scalarPoint 16 a)
  | .vld d b => some (s.vectorRead .plain false d (s.hart s.me).vl (unitAddr s b))
  | .vst d b => some (s.vectorWrite false d (s.hart s.me).vl (unitAddr s b))
  | .vlds d b k => some (s.vectorRead .plain false d (s.hart s.me).vl (strideAddr s b k))
  | .vsts d b k => some (s.vectorWrite (s.getS k = 0) d (s.hart s.me).vl (strideAddr s b k))
  | .vldx d b o f => some (s.vectorRead .plain false d (indexLen (s.hart s.me) f) (indexedAt true b o f s))
  | .vstx d b o f => some (s.vectorWrite false d (indexLen (s.hart s.me) f) (indexedAt false b o f s))
  | .vldxo d b o f => some (s.vectorRead .plain true d (indexLen (s.hart s.me) f) (indexedAt true b o f s))
  | .vstxo d b o f => some (s.vectorWrite true d (indexLen (s.hart s.me) f) (indexedAt false b o f s))
  | .vldff d b => some (s.vectorRead .first false d (s.hart s.me).vl (unitAddr s b))
  | .vldsp d b => some (s.vectorRead .spec false d (s.hart s.me).vl (unitAddr s b))
  | .vldxff d b o f => some (s.vectorRead .first false d (indexLen (s.hart s.me) f) (indexedAt true b o f s))
  | .vldxsp d b o f => some (s.vectorRead .spec false d (indexLen (s.hart s.me) f) (indexedAt true b o f s))
  | .vamoadd d b o f => some (s.vectorSteps .add d b o f)
  | .vamomin d b o f => some (s.vectorSteps .min d b o f)
  | .vamomax d b o f => some (s.vectorSteps .max d b o f)
  | .vamoand d b o f => some (s.vectorSteps .and d b o f)
  | .vamoor d b o f => some (s.vectorSteps .or d b o f)
  | .vamoxor d b o f => some (s.vectorSteps .xor d b o f)
  | .vamoswp d b o f => some (s.vectorSteps .swp d b o f)
  | .vappend d b _ l q =>
    match s.descPlace (s.getS b) with
    | .ok pl => some (s.recordTouch pl d l (recordLen q))
    | .error _ => none
  | .vldh d h p => s.handleTouch false d h p
  | .vsth d h p => s.handleTouch true d h p
  | .hld h b => some (s.handleMove false h b)
  | .hst h b => some (s.handleMove true h b)
  | _ => none

/-- The elements of an instruction with the places of those whose addresses lead to one. -/
def State.placesOf (s : State) (x : Touch) : List (Nat × Place) :=
  x.elems.filterMap (fun e => match s.resolve s.cur e.2 x.size x.acc with
    | .ok pl => some (e.1, pl)
    | .error _ => none)

/-- Every place that an instruction accesses, with its bytes. -/
def State.reaches (s : State) (i : Instr) : List (Place × Nat) :=
  match s.touch i with
  | some x => (s.placesOf x).map (fun e => (e.2, x.size)) ++ x.more
  | none => []

/-- An instruction writes at the places that it accesses. -/
def State.writesAt (s : State) (i : Instr) : Bool :=
  match s.touch i with
  | some x => x.acc ≠ .load && !x.elems.isEmpty
  | none => false

/-- The accesses of an instruction pass their checks and can be performed later: in the scratchpad or in memory, with no wait for the
host. -/
def State.canWait (s : State) (i : Instr) : Bool :=
  match s.touch i with
  | none => false
  | some x => x.free && x.elems.all (fun e => (s.elemCheck s.cur true e.2 x.size x.acc).isNone) && (s.placesOf x).all (fun e => match e.2 with
    | .view _ => false
    | .mem pa => !(isHost pa && (x.home e.2 || x.acc = .atomic))
    | .spad _ _ => true)

/-- The accesses of an instruction of a party that executes in s, each of which can be performed later: its release first, then its
elements in ascending order, numbered `g` where they stand in order. -/
def State.pendingOf (s : State) (p : Party) (g : Nat) (x : Touch) : List Pending :=
  let core := s.coreOf p
  let g' := if x.ordered || x.rel.isSome then g else 0
  (match x.rel with
    | some (sc, fence) => [{ party := p, core := core, home := true, pl := .view 0, size := 0, act := .release sc fence, grp := g', since := s.cycle }]
    | none => [])
  ++ (s.placesOf x).map (fun e =>
    { party := p, core := core, home := x.home e.2, pl := e.2, size := x.size, act := x.act e.1, span := x.span, grp := g', since := s.cycle })

end Sys2Proof.Machine
end

