-- ==== Sys2Proof/Machine/Late.lean ====
section
/-! DEFINITION. Accesses that are performed out of the order of their stream (R248, R338, R339): those of a completed instruction can
be performed after later ones, and its plain reads again, until something comes that the rules order after them. R246 lets a device
show fewer outcomes; which of them this model does not show is log 93. -/

namespace Sys2Proof.Machine

/-- Two parties are one unit: the streams of one hart, or one verge core. -/
def sameUnit : Party → Party → Bool
  | .verge m, .verge n => m = n
  | .verge _, _ => false
  | _, .verge _ => false
  | p, q => partyHart p = partyHart q

/-! ### Performing -/

/-- What an atomic step leaves at its place, `n` bytes that held `old`; none where it writes nothing (R114, R237). -/
def LateStep.result (x : LateStep) (n old : Nat) : Option Nat :=
  match x.vec with
  | some (ty, rnd, sat, lane) =>
    some ((vectorStep x.fn ty rnd sat old x.operand 0).narrow ty rnd sat (Tab.put 0 [] 0 lane) 0).1
  | none =>
    match x.fn with
    | .add => stepOfAdd n old x.operand
    | .and => stepOfAnd n old x.operand
    | .or => stepOfOr n old x.operand
    | .xor => stepOfXor n old x.operand
    | .min => stepOfMin n old x.operand
    | .minu => stepOfMinu n old x.operand
    | .max => stepOfMax n old x.operand
    | .maxu => stepOfMaxu n old x.operand
    | .swp => stepOfSwp n old x.operand
    | .cas => stepOfCas x.compare n old x.operand

/-- A value of `n` bytes goes to its target. -/
def State.deliver (s : State) (p : Party) (n : Nat) (dst : Target) (v : Nat) : State :=
  match dst with
  | .none => s
  | .x r signed => s.writeX p r (extendBytes signed n v)
  | .v regs i => s.modHart (partyHart p) (fun t => regs.foldl (fun t r =>
      t.setVreg r { t.vreg r with data := setElt (8 * n) (t.vreg r).data i v }) t)
  | .handle h => s.modHart (partyHart p) (fun t => t.setHandle h (BitVec.ofNat 512 v))

/-- An access is performed where it belongs (R121, R184, R232). A read has been: the value that it has read stands. -/
def State.performOne (s : State) (e : Pending) : State :=
  match e.act with
  | .write vals => s.storePlace e.core e.home e.pl vals
  | .read _ => s
  | .step x dst =>
    let r := s.loadPlace e.core e.home e.pl e.size
    let t := match x.result e.size (leNat r.1) with
      | some v => r.2.storePlace e.core e.home e.pl (leBytes e.size v)
      | none => r.2
    t.deliver e.party e.size dst (leNat r.1)
  | .release sc _ => s.release e.core sc

/-- A read would meet neither poison nor a host link that is down. -/
def State.readable (s : State) (e : Pending) : Bool :=
  match e.pl with
  | .mem pa => !s.meetsPoison e.core pa e.size && (s.linkUp || !s.reachesHost e.core e.home .load e.size e.pl)
  | _ => true

/-- A read is performed again in place of the one before it, where it can be. -/
def State.readAgain (s : State) (e : Pending) : State :=
  match e.act with
  | .read dst =>
    if s.readable e then
      let r := s.loadPlace e.core e.home e.pl e.size
      r.2.deliver e.party e.size dst (leNat r.1)
    else s
  | _ => s

/-! ### The order among them (R248) -/

def Pending.isRead (e : Pending) : Bool := match e.act with | .read _ => true | _ => false
def Pending.isRelease (e : Pending) : Bool := match e.act with | .release _ _ => true | _ => false
def Pending.isFence (e : Pending) : Bool := match e.act with | .release _ fence => fence | _ => false
def Pending.isStep (e : Pending) : Bool := match e.act with | .step _ _ => true | _ => false
def Pending.writes (e : Pending) : Bool := match e.act with | .write _ => true | .step _ _ => true | _ => false

/-- Some bytes meet an access. -/
def Pending.meets (e : Pending) (pl : Place) (n : Nat) : Bool := e.pl.meets e.size pl n

/-- A control stream whose access a block of a vector stream sees. -/
def Pending.seenBy (e : Pending) (p : Party) : Bool :=
  e.queued && match e.party, p with | .ctrl h, .vec j => h = j | _, _ => false

/-- An access is ordered before a later one: of its stream, where they overlap (R65, R122), where the later one is a release (R234), where
it is a release fence and the later one writes (R240), and where both are of one instruction whose accesses stand in order (R113,
R234); of a control stream before a block, where they overlap (R69). -/
def Pending.precedes (a b : Pending) : Bool :=
  (a.party == b.party && (a.meets b.pl b.size || b.isRelease || (a.isFence && b.writes) || (a.grp ≠ 0 && a.grp = b.grp)))
  || (a.seenBy b.party && a.meets b.pl b.size)

/-- Accesses in two parts: those that some test picks, in front of some others, with every one that is ordered before one of them; and
the rest. -/
def pull (f : Pending → Bool) (seed : List Pending) (l : List Pending) : List Pending × List Pending :=
  l.foldr (fun a r => if f a || r.1.any a.precedes then (a :: r.1, r.2) else (r.1, a :: r.2)) (seed, [])

/-- The accesses that some test picks are performed, each after those that are ordered before it. -/
def State.performWhere (s : State) (f : Pending → Bool) : State :=
  (pull f [] s.late).1.foldl State.performOne { s with late := (pull f [] s.late).2 }

/-- Every access of both streams of a hart, or of a verge core, is performed. -/
def State.performUnit (s : State) (p : Party) : State := s.performWhere (fun e => sameUnit p e.party)

/-- The k-th access is performed, after those that are ordered before it. -/
def State.performNth (s : State) (k : Nat) : State :=
  match s.late[k]? with
  | some e =>
    let r := pull (fun _ => false) [e] (s.late.take k)
    r.1.foldl State.performOne { s with late := r.2 ++ s.late.drop (k + 1) }
  | none => s

/-- The k-th access, a read, is performed again, and those that stand in order after it with it (R113). -/
def State.rereadNth (s : State) (k : Nat) : State :=
  match s.late[k]? with
  | some e => ((s.late.drop (k + 1)).filter (fun d => e.grp ≠ 0 && d.grp = e.grp && d.party == e.party)).foldl State.readAgain (s.readAgain e)
  | none => s

/-! ### What the rules order before an instruction (R248) -/

/-- Which accesses an instruction comes after, beside those that it overlaps or depends on: no others; the reads of its stream; all of
its stream; those of its hart's blocks; all of its hart or verge core; everyone's. -/
inductive Lets where
  | apart
  | reads
  | stream
  | blocks
  | unit
  | all
deriving DecidableEq, Repr

/-- A release orders every earlier access of its stream (R234), unless it is itself to be performed later; fence.aq its loads (R240);
vdrain and a launch those of both streams (R72, R249); vsetl clears the registers that those of its hart's blocks still fill (R20,
R30). On a verge core, fqreplay orders its stores (R300), and tinv and a write of a register come after everyone's accesses (R283). No
other instruction orders what it neither overlaps nor depends on. -/
def letsOf (hart later : Bool) : Instr → Lets
  | .amoAdd _ _ _ o _ _ => if o.getLsbD 1 && !later then .stream else .apart
  | .amoAnd _ _ _ o _ _ => if o.getLsbD 1 && !later then .stream else .apart
  | .amoOr _ _ _ o _ _ => if o.getLsbD 1 && !later then .stream else .apart
  | .amoXor _ _ _ o _ _ => if o.getLsbD 1 && !later then .stream else .apart
  | .amoMin _ _ _ o _ _ => if o.getLsbD 1 && !later then .stream else .apart
  | .amoMinu _ _ _ o _ _ => if o.getLsbD 1 && !later then .stream else .apart
  | .amoMax _ _ _ o _ _ => if o.getLsbD 1 && !later then .stream else .apart
  | .amoMaxu _ _ _ o _ _ => if o.getLsbD 1 && !later then .stream else .apart
  | .amoSwp _ _ _ o _ _ => if o.getLsbD 1 && !later then .stream else .apart
  | .amoCas _ _ _ o _ _ => if o.getLsbD 1 && !later then .stream else .apart
  | .strel .. => if later then .apart else .stream
  | .fenceRl _ => if later then .apart else .stream
  | .fenceAq _ => .reads
  | .fence _ => .stream
  | .expect .. => .stream
  | .arrive .. => .stream
  | .vdrain _ => .unit
  | .launch _ => .unit
  | .vsetl .. => .blocks
  | .fqreplay .. => .stream
  | .tinv .. => if hart then .apart else .all
  | .srw .. => if hart then .apart else .all
  | _ => .apart

/-- The control registers that an instruction names: those of the fields of R46, and the block arguments of vgo (R68). -/
def namesX (i : Instr) (r : Nat) : Bool :=
  match encode i with
  | some w => r = w / 2 ^ 19 % 32 || r = w / 2 ^ 14 % 32 || r = w / 2 ^ 9 % 32 || (w / 2 ^ 24 = 0x38 && 10 ≤ r && r ≤ 17)
  | none => true

/-- The vector register of an operand byte (R48). -/
def byteReg (w lo : Nat) : List Nat := match vop w lo with | .ok o => [vopIndex o] | .error _ => []

/-- The opcodes whose instructions have an element result and the three operand bytes of R46: arithmetic, conversions, reductions and
moves of whole vectors. -/
def resultOp (op : Nat) : Bool :=
  (0x40 ≤ op && op ≤ 0x62) || (0x69 ≤ op && op ≤ 0x72) || op = 0x76 || (0x96 ≤ op && op ≤ 0x98) || op = 0x9A

/-- The vector registers that an instruction names, for those that a value still to be read may stand before: results, comparisons, masks,
s registers, modes and loops, loads, stores and indexed atomics, and copies. -/
def namesV (i : Instr) : Option (List Nat) :=
  match encode i with
  | none => none
  | some w =>
    let op := w / 2 ^ 24
    if resultOp op || (0x63 ≤ op && op ≤ 0x68) then some (byteReg w 16 ++ byteReg w 8 ++ byteReg w 0)
    else if (0x77 ≤ op && op ≤ 0x8F) || op = 0x93 || op = 0x94 || op = 0x99 || (0xD8 ≤ op && op ≤ 0xDA) then some []
    else if (0xA0 ≤ op && op ≤ 0xA3) || op = 0xA8 || op = 0xA9 then some (byteReg w 16)
    else if 0xA4 ≤ op && op ≤ 0xB2 then some (byteReg w 16 ++ byteReg w 4)
    else none

/-- An instruction that moves the l-file (R22), of those of namesV. -/
def movesL (i : Instr) : Bool :=
  match encode i with
  | none => false
  | some w =>
    let op := w / 2 ^ 24
    resultOp op || ((0xA0 ≤ op && op ≤ 0xAB) && (op % 2 = 0 || 0xA8 ≤ op)) || (0xAC ≤ op && op ≤ 0xB2 && w / 8 % 2 = 1)

/-- What takes an access's value. -/
def Pending.target (e : Pending) : Target := match e.act with | .read dst => dst | .step _ dst => dst | _ => .none

/-- No part of an instruction uses the value of an access. -/
def Pending.unused (e : Pending) (i : Instr) : Bool :=
  match e.target with
  | .none => true
  | .x r _ => !namesX i r
  | .v regs _ => match namesV i with | some l => l.all (fun r => !regs.contains r) | none => false
  | .handle _ => (namesV i).isSome

/-- Where the value of an access goes after the l-file has moved. -/
def Target.moved : Target → Target
  | .v regs i => .v ((regs.filter (· ≠ 41)).map (fun r => if r = 40 then 41 else r)) i
  | t => t
def Pending.moved (p : Party) (e : Pending) : Pending :=
  if e.party == p then
    { e with act := match e.act with | .read dst => .read dst.moved | .step x dst => .step x dst.moved | a => a }
  else e

/-- The instruction that a party's turn executes, with the state in which it does. -/
def State.peek (s : State) (p : Party) : Option (State × Instr) :=
  let due : Bool := match p with
    | .vec h => (s.hart h).loopDue || (s.hart h).block.isNone
    | _ => false
  if due then none else
  match fetchInstr (s.prepare p none) with
  | .ok (v, i) s1 => some (s1.placeMode v, i)
  | .error _ _ => none

/-- A byte of a range can be one of an access by some address: the scratchpad bytes of the range, or memory bytes at the same offsets of
a page. -/
def Range.mayHold (r : Range) (e : Pending) : Bool :=
  (r.write || e.writes) && match e.pl with
    | .spad _ o => !r.mem && r.lo < o + e.size && o ≤ r.hi
    | .mem pa =>
      let a := r.lo % 4096
      let b := a + (r.hi - r.lo)
      let o := pa % 4096
      r.mem && ((a < o + e.size && o ≤ b) || o + 4096 ≤ b)
    | .view _ => false

/-- An engine command with some ranges comes after an access: of its stream, where their ranges conflict (R224); of a control stream that
its block sees, where they can overlap (R69). -/
def Pending.beforeCommand (e : Pending) (p : Party) (rs : List Range) : Bool :=
  (e.party == p && rs.any (fun r => e.span.any r.hits)) || (e.seenBy p && rs.any (fun r => r.mayHold e))

/-- The ranges of the commands that a turn of a party has issued. -/
def newRanges (s : State) : Result → List Range
  | .next t => (t.cmds.drop s.cmds.length).flatMap Cmd.ranges
  | _ => []

/-- The line of the word that a party fetches, which a block sees as the accesses before its vgo left it (R69). -/
def State.fetchLine (s : State) (p : Party) : Place :=
  match s.fetchAt p (s.pcOf p).toNat (s.wordBytes p) with
  | .ok pa => .mem (pa / 64 * 64)
  | .error _ => .view 0

/-- An access comes before an instruction of a party that executes in s1, after which the ranges of its command are `rs`. -/
def Pending.before (e : Pending) (p : Party) (s1 : State) (i : Instr) (later : Bool) (rs : List Range) : Bool :=
  let own := e.party == p
  let ps := s1.reaches i
  let hit := ps.any (fun x => e.meets x.1 x.2)
  let apart := (own && (hit || !e.unused i || (e.isFence && s1.writesAt i && !later))) || (e.seenBy p && hit) || e.beforeCommand p rs
  if ps.any (fun x => match x.1 with | .view _ => true | _ => false) then true
  else match letsOf p.isHart later i with
    | .apart => apart
    | .reads => apart || (own && e.isRead)
    | .stream => apart || own
    | .blocks => apart || e.party == .vec (partyHart p)
    | .unit => sameUnit p e.party
    | .all => true

/-- A turn stops its hart: by a trap, a halt or a breakpoint. -/
def stopsHart (p : Party) : Result → Bool
  | .next t => p.isHart && !t.running (partyHart p)
  | _ => true

/-- An instruction of a party goes on where it was cut, or its turn has cut it. -/
def State.isCut (s : State) (p : Party) : Bool := match p with | .vec h => (s.hart h).vstart ≠ 0 | _ => false
def cutBy (s : State) (p : Party) : Result → Bool
  | .next t => s.isCut p || t.isCut p
  | _ => s.isCut p

/-- Before a turn of a party, accesses that stand before it are performed: all of its hart's before a stop (R254, R285), and all of its
stream's where an instruction is cut. -/
def State.yieldOnce (s : State) (p : Party) (cut : Option Nat) (later : Bool) : State :=
  if s.haltDue p || s.bpHit p then s.performUnit p
  else if !s.canRun p then s
  else
    let r := turn p cut s
    if stopsHart p r then s.performUnit p
    else if cutBy s p r then s.performWhere (fun e => e.party == p)
    else
      let s1 := s.performWhere (fun e => e.seenBy p && e.meets (s.fetchLine p) 64)
      match s1.peek p with
      | some (s2, i) => s1.performWhere (fun e => e.before p s2 i later (newRanges s r))
      | none => s1

/-- What is performed can change what an instruction accesses: until nothing more stands before the turn, at most `n` times. -/
def State.yielded (p : Party) (cut : Option Nat) (later : Bool) : Nat → State → State
  | 0, s => s
  | n + 1, s =>
    let s1 := s.yieldOnce p cut later
    if s1.late.length = s.late.length then s else State.yielded p cut later n s1

/-- What a completed instruction changes of the accesses that still stand: a value follows the l-file, and a block that vgo has queued sees
those of its control stream. -/
def Pending.after (e : Pending) (p : Party) (i : Instr) : Pending :=
  let e := if movesL i then e.moved p else e
  match i with
  | .vgo _ => if e.party == p then { e with queued := true } else e
  | _ => e

/-- The state in which a turn is taken: what is ordered before it has been performed, and the rest follows what the turn changes. -/
def State.readyFor (s : State) (p : Party) (cut : Option Nat) (later : Bool) : State :=
  if s.late.isEmpty then s
  else
    let s1 := State.yielded p cut later (s.late.length + 1) s
    match s1.peek p, turn p cut s1 with
    | some (_, i), .next t => if s1.pcOf p ≠ t.pcOf p then { s1 with late := s1.late.map (fun e => e.after p i) } else s1
    | _, _ => s1
def State.ready (s : State) (p : Party) (cut : Option Nat) : State := s.readyFor p cut false

/-! ### A turn whose accesses stay unperformed -/

/-- The state that an instruction leaves behind when its accesses are not performed: the tail step of a vappend is (R119). -/
def State.unwritten (s : State) : Instr → State
  | .vappend _ b _ _ q =>
    match s.descPlace (s.getS b) with
    | .ok pl => (s.atDesc pl).tailStep pl (descWord pl (s.atDesc pl) 0) ((s.hart s.me).records (recordLen q)).length
    | .error _ => s
  | _ => s

/-- A number for the accesses of one more instruction that stand in order. -/
def State.nextGroup (s : State) : Nat := (s.late.map Pending.grp).foldl max 0 + 1

/-- An instruction of a party that executed in s1 and has completed in t: it has written nothing yet, and its accesses stand. -/
def State.deferred (t s1 : State) (p : Party) (i : Instr) : State :=
  match s1.touch i with
  | none => t
  | some x =>
    let es := s1.pendingOf p t.nextGroup x
    if x.acc = .load then { t with late := t.late ++ es }
    else
      let b := s1.unwritten i
      let team := teamOf (partyHart p)
      let t1 := if p.isHart then t.modTeam team (fun m => { m with spad := (b.team team).spad }) else t
      { t1 with mem := b.mem, l1 := b.l1, poison := b.poison, linkQ := b.linkQ, late := t.late ++ es }

/-- A turn whose instruction, once it has completed, has its accesses still to be performed; one whose accesses cannot wait is taken as
another turn is. -/
def lateTurn (p : Party) (s : State) : Result :=
  let s1 := s.readyFor p none true
  match s1.peek p with
  | some (s2, i) =>
    if !s2.canWait i then turn p none (s.ready p none)
    else match turn p none s1 with
      | .next t => .next (if t.pcOf p = s1.pcOf p then t else t.deferred s2 p i)
      | r => r
  | none => turn p none (s.ready p none)

/-! ### Events -/

/-- The accesses that an event comes after: everyone's, where a record is written whose release covers them (R285), a hart is stopped or
terminated by it, memory behind a link goes away, or the device starts; a team's, where it is stopped, saved or retired (R230, R254,
R255). No other event orders any (R248). -/
def Pending.beforeEvent (e : Pending) : Instr → Bool
  | .faultRecordWrite => true
  | .fqringWrite _ => true
  | .hctlTerminate _ => true
  | .haltreq _ => true
  | .deviceStart _ => true
  | .hostLinkDown => true
  | .cxlExpanderLeave _ => true
  | .preemptStop t => e.party.isHart && teamOf (partyHart e.party) = t
  | .teamSave t => e.party.isHart && teamOf (partyHart e.party) = t
  | .teamRetire t => e.party.isHart && teamOf (partyHart e.party) = t
  | .breakpointHalt p => sameUnit p e.party
  | _ => false

/-- Before time passes, the accesses that would then have stood for 65,536 cycles are performed: the device keeps none for ever (R256;
the bound is the model's, log 93). -/
def Pending.overdue (e : Pending) (c : Nat) : Bool := e.since + horizon ≤ c

end Sys2Proof.Machine
end

