-- ==== Sys2Proof/Machine/Move.lean ====
section
/-! DEFINITION. Every move of the machine: turns, events, time, evictions and the filling and dropping of caches; and placing a
word where the next step fetches it. -/

namespace Sys2Proof.Machine

/-- Time passes (R188, R293, R330). -/
def State.elapse (s : State) (n : Nat) : State :=
  let s := s.performWhere (fun e => e.overdue (s.cycle + s.timeLeft n))
  let m := s.timeLeft n
  { s.tallyTime m with cycle := s.cycle + m }

/-- The memory of a line reports an uncorrectable error, or a link completion carries poison (R289): an atomic step that stands there
has passed its checks, and goes before it. -/
def State.strike (s : State) (line : Nat) : State :=
  let s := s.performWhere (fun e => e.isStep && e.meets (.mem (line * 64)) 64)
  if s.mapped (line * 64) && !isView (line * 64) then { s with poison := Tab.put false s.poison line true } else s

/-- What an event has added to the counts, in an outcome. -/
def countEvent (i : Instr) (s : State) : Result → Result
  | .next t => .next (s.tallyEvent i t)
  | .fault r => .fault r
  | .refused r => .refused r

/-- A code line is cached as the accesses that have executed leave it. -/
def State.cacheCode (s : State) (core line : Nat) : State :=
  (s.performWhere (fun e => e.meets (.mem (line * 64)) 64)).fillCode core line

/-- An event happens, after the accesses that it comes after. -/
def State.happen (s : State) (i : Instr) : Result :=
  let s := s.performWhere (fun e => e.beforeEvent i)
  countEvent i s (exec i s)

/-- One move. An event is a row of the table that is no instruction word. -/
def move (m : Mover) (s : State) : Result :=
  match m with
  | .run p cut => turn p cut (s.ready p cut)
  | .both h cut => turnBoth h cut (s.performUnit (.ctrl h))
  | .event i => if (encode i).isNone then s.happen i else .next s
  | .elapse n => .next (s.elapse n)
  | .evict core line => .next (s.flushLine core line)
  | .fillTlb core ctx va => .next (s.fillTlb core ctx va)
  | .dropTlb i => .next { s with tlb := s.tlb.eraseIdx i }
  | .fillCode core line => .next (s.cacheCode core line)
  | .dropCode core line => .next { s with icache := Tab.put none s.icache (codeKey core line) none }
  | .poison line => .next (s.strike line)
  | .meet h seq => .next (s.tallyElements h seq (s.meetAhead h seq))
  | .depart => .next { s with outbox := s.outbox.drop 1 }
  | .late p => lateTurn p s
  | .perform k => .next (s.performNth k)
  | .reread k => .next (s.rereadNth k)

/-- The L1s brought back to their capacity after a move. -/
def withinL1 : Result → Result
  | .next s => .next s.settleL1
  | .fault r => .fault r
  | .refused r => .refused r

/-- What moves next: the head of the agenda, else a free mover. -/
def State.nextMove (s : State) : Mover × State :=
  match s.agenda with
  | m :: rest => (m, { s with agenda := rest })
  | [] => (Config.freeMover s.fresh, { s with fresh := s.fresh + 1 })

/-- Only a start moves a tripped machine (R336). -/
def isStart : Mover → Bool
  | .event (.deviceStart _) => true
  | _ => false

/-! ### Placing a word (log 20) -/

/-- Where the tables and the code of a placed word lie. -/
def placeRoot : Nat := 0x10000
def placeCode : Nat := 0x20000

/-- The party that runs a placed word. -/
def placeParty (op : Nat) : Party :=
  if 0x40 ≤ op && op ≤ 0xDF then .vec 0 else if privilegedOp op then .verge 0 else .ctrl 0

/-- Hart 0 as it runs a placed word on core 0. -/
def Hart.placed (t : Hart) (vector : Bool) : Hart :=
  { t with
    resident := true, num := 0, cpc := BitVec.ofNat 48 placeCode, vpc := BitVec.ofNat 48 placeCode, n := 32, groups := 0xFFFF,
    lg := 16, block := if vector then some ⟨BitVec.ofNat 48 placeCode, [], 0⟩ else none, check := false, parkC := none,
    parkV := none, exited := false, halted := none, haltReq := false, bpSkipC := true, bpSkipV := true, wait := none,
    vwait := none, stalled := none, fastC := false, fastV := false }

/-- Team 0 as it stands on core 0. -/
def Team.placedOn (t : Team) : Team :=
  { t with
    st := .resident, launch := 0, index := 0, ctx := 1, core := 0, unit0 := 0, started := true, request := false, killed := false,
    jpf := false, image := none,
    -- one hart, 16 lane groups, 32 registers, class 7, 80 units, 2,048 tiles
    shape := 0x0000080050073FF1 }

/-- A word stored where the next step fetches it: hart 0 of a team on core 0, or verge core 0, is about to execute it in an
address space that maps the first GiB onto itself. -/
def State.placeWord (s : State) (w : Nat) : State :=
  let p := placeParty (w / 2 ^ 24)
  let vector := match p with | .vec _ => true | _ => false
  let s := s.homeWrite placeRoot (leBytes 64 (placeRoot + 4096 + 1))
  let s := s.homeWrite (placeRoot + 4096) (leBytes 64 0xF)
  let s := s.homeWrite placeCode (leBytes 64 w)
  let s := { s with
    roots := Tab.put 0 s.roots 1 (BitVec.ofNat 64 (placeRoot + 1)), ctxroot := Tab.put 0 s.ctxroot 1 (BitVec.ofNat 64 (placeRoot + 1)),
    icache := Tab.keep (fun e => e % 2 ^ 46 ≠ placeCode / 64) s.icache, tlb := s.tlb.filter (fun e => e.core ≠ 0),
    l1 := Tab.keep (fun e => e % 2 ^ 52 / 64 ≠ placeCode / 64) s.l1, tripped := false, nteam := max 1 s.nteam,
    nlaunch := max 1 s.nlaunch, cmds := s.cmds.filter (fun c => teamOf c.hart ≠ 0), agenda := [.run p none], late := [] }
  let s := (s.modTeam 0 Team.placedOn).modHart 0 (fun t => t.placed vector)
  s.modVerge 0 (fun v => { v with pc := BitVec.ofNat 64 placeCode, vroot := 0, wait := none })

end Sys2Proof.Machine
end

