-- ==== Sys2Proof/Machine/Step.lean ====
section
/-! DEFINITION. One step of the machine, and placing an instruction word where the next step fetches it. -/

namespace Sys2Proof.Machine

/-- One step: one move of the agenda, or a free one when the agenda is empty, after which every L1 holds what it can hold
(R186). A tripped machine moves only by a start. -/
def step (s : State) : Host.Outcome State Fault Refusal :=
  if s.tripped && !isStart s.nextMove.1 then .fault .clocksStopped else withinL1 (move s.nextMove.1 s.nextMove.2)

/-- The state with an instruction of the opcode table placed to be the next one that step runs. -/
def State.withFetchWord (s : State) (nbits w : Nat) : State := s.placeWord (w % 2 ^ nbits % 2 ^ 32)

end Sys2Proof.Machine
end

