-- ==== Sys2Proof/Safety.lean ====
section
/-! DEFINITION. What the statements say of a step, in the terms of the spec: an instruction completes or traps, what it may
change, and the canonical form of memory. -/

namespace Sys2Proof.Machine

/-! ### Outcomes -/

/-- The instruction has its own effect: exec answers a next state, of which P holds. -/
def Completes (i : Instr) (s : State) (P : State → Prop) : Prop := ∃ t, exec i s = .next t ∧ P t

/-- The instruction takes a trap and does nothing else. -/
def Traps (i : Instr) (s : State) (t : Trap) : Prop := exec i s = .next (s.takeTrap t)

/-- The instruction waits: it changes nothing and is tried again. -/
def Waits (i : Instr) (s : State) : Prop := exec i s = .next s

/-! ### Memory -/

/-- The canonical form of memory: addresses strictly rise and no listed byte is the 0 that an unlisted one reads as. -/
abbrev Memory.wf (m : Tab Byte) : Bool := Tab.wf 0 m

/-- The home copy of a byte (R190). -/
abbrev State.homeByte (s : State) (pa : Nat) : Byte := Tab.get 0 s.mem pa

/-- A byte of a team's scratchpad (R182). -/
abbrev State.spadByte (s : State) (team off : Nat) : Byte := Tab.get 0 (s.team team).spad off

/-- The value of a byte as a core's loads see it: its L1 byte, else the home copy (R186). -/
def State.seenByte (s : State) (core pa : Nat) : Byte :=
  match s.l1Byte core pa with
  | some b => b.val
  | none => s.homeByte pa

/-- The value of a byte with a core's own stores in place: its dirty byte, else the home copy. It is what a write-back of
the core would leave at home (R187). -/
def State.ownByte (s : State) (core pa : Nat) : Byte :=
  match s.l1Byte core pa with
  | some b => if b.dirty then b.val else s.homeByte pa
  | none => s.homeByte pa

/-- The state with other L1 bytes. -/
def State.withL1 (s : State) (l : Tab (Option L1Byte)) : State := { s with l1 := l }

/-- The state with another scratchpad of one team. -/
def State.withSpad (s : State) (team : Nat) (m : Tab Byte) : State := s.setTeam team { s.team team with spad := m }

/-- The state with the memory, poison marks, L1 bytes, waiting link writes and cached code of another one. -/
def State.withCaches (s t : State) : State :=
  { s with mem := t.mem, poison := t.poison, l1 := t.l1, linkQ := t.linkQ, icache := t.icache }

/-- The state with other cached code, other cached translations, other device queues. -/
def State.withCode (s : State) (c : Tab (Option CodeLine)) : State := { s with icache := c }
def State.withTlb (s : State) (l : List TlbEntry) : State := { s with tlb := l }
def State.withDq (s : State) (q : Tab (List DevRecord)) : State := { s with dq := q }

/-- The state with other commands in flight, and with other accumulator elements of one team. -/
def State.withCmds (s : State) (l : List Cmd) : State := { s with cmds := l }
def State.withAcc (s : State) (team : Nat) (m : Tab (BitVec 32)) : State := s.setTeam team { s.team team with acc := m }

/-- The state with another counter of free values. -/
def State.withFresh (s : State) (n : Nat) : State := { s with fresh := n }

/-- The state with other waiting reports and merging entries. -/
def State.withReports (s : State) (r : List Report) (l : List Entry) : State := { s with reports := r, live := l }

/-- What a core's cache traffic leaves as it was: no byte with the core's own stores in place changes, nor any byte of
another core's L1; and nothing of the machine but memory, its poison marks, the L1, cached code and the writes that wait for
the link differs. Every address of the map of R181 lies below 2^52. -/
def State.KeepsBytes (s : State) (core : Nat) (t : State) : Prop :=
  (∀ q, q < 2 ^ 52 → t.ownByte core q = s.ownByte core q) ∧ (∀ c q, c ≠ core → q < 2 ^ 52 → t.l1Byte c q = s.l1Byte c q)
    ∧ t = s.withCaches t

/-- Every byte of memory, of every L1 and of every scratchpad reads as before. -/
def State.SameBytes (s t : State) : Prop :=
  (∀ pa, t.homeByte pa = s.homeByte pa) ∧ (∀ core pa, t.l1Byte core pa = s.l1Byte core pa)
    ∧ (∀ team off, t.spadByte team off = s.spadByte team off)

/-! ### Control instructions -/

/-- The address of the word behind the executing party's (R57): a hart's program counters have 48 bits. -/
def State.nextPc (s : State) : W64 :=
  match s.cur with
  | .ctrl h => ((s.hart h).cpc + BitVec.ofNat 48 (s.wordBytes s.cur)).setWidth 64
  | .vec h => ((s.hart h).vpc + BitVec.ofNat 48 (s.wordBytes s.cur)).setWidth 64
  | .verge n => (s.verge n).pc + 4

/-- Nothing differs but the control registers and the pc of the executing party. -/
def State.ControlFrame (s t : State) : Prop :=
  match s.cur with
  | .ctrl h => ∃ x pc, t = s.setHart h { s.hart h with x := x, cpc := pc }
  | .vec _ => False
  | .verge n => ∃ x pc, t = s.setVerge n { s.verge n with x := x, pc := pc }

/-- What a control instruction with one register result leaves: its value in rd (x0 stays 0), every other register as
before, the given pc, and nothing else changed. -/
def State.ControlResult (s : State) (d : BitVec 5) (v pc : W64) (t : State) : Prop :=
  t.readX s.cur d.toNat = (if d = 0 then 0 else v) ∧ (∀ r : BitVec 5, r ≠ d → t.readX s.cur r.toNat = s.getX r)
    ∧ t.pcOf s.cur = pc ∧ s.ControlFrame t ∧ s.SameBytes t

/-! ### Vector instructions -/

/-- The operand names a register that a result is written into: a main or an operand register. A result named l0 goes to the
last-result file alone (R22). -/
def namesRegister : VOp → Bool
  | .main _ => true
  | .oper _ => true
  | _ => false

/-- The stochastic lanes change only under stochastic rounding, and of them only those from which an active element below vl
draws (R143). -/
def Hart.KeepsLanes (u : Hart) (g : Lanes) : Prop :=
  (u.rnd ≠ stoch → g = u.rng)
    ∧ ∀ j, (∀ i, i < u.vl → u.active i = true → i % 256 ≠ j) → Tab.get 0 g j = Tab.get 0 u.rng j

/-- The values of an element-wise instruction draw from their own lanes alone (R143). -/
def ownLane (f : Nat → Nat → Lanes → Nat × Lanes) : Prop :=
  ∀ i p g j, j ≠ i % 256 → Tab.get 0 (f i p g).2 j = Tab.get 0 g j

/-- What a vector instruction that makes a register result may change, for the executing hart h (R22): the vector registers,
the register that the l-file move displaced, the stochastic lanes of its active elements, vstart, which is 0 again, and the
pc, which is at the next word with a loop end to check if a loop is held. -/
def State.VectorFrame (s t : State) : Prop :=
  ∃ v lold rng, (s.hart s.me).KeepsLanes rng ∧ t = s.setHart s.me { s.hart s.me with
    v := v, lold := lold, rng := rng, vstart := 0, vpc := s.nextPc.setWidth 48, check := !(s.hart s.me).loops.isEmpty }

/-- What one that has stopped at element e leaves (R33, R34): the same, but vstart is e and the pc stays. -/
def State.StoppedFrame (s : State) (e : Nat) (t : State) : Prop :=
  ∃ v lold rng, (s.hart s.me).KeepsLanes rng
    ∧ t = s.setHart s.me { s.hart s.me with v := v, lold := lold, rng := rng, vstart := e }

/-- Where a result image goes (R22) when elements lo to n − 1 of it have just been computed: into the register the
destination names, and into the last-result file: a first run of the instruction moves l0 into l1 and the image into l0; a
resumed one, whose move was made, writes its elements into l0 in place. Every other register keeps its value. -/
def State.FileMoves (s : State) (d : VOp) (w lo n : Nat) (img : VReg) (t : State) : Prop :=
  let u := s.hart s.me
  let v := t.hart s.me
  (namesRegister d = true → v.vreg (vopIndex d) = img)
    ∧ (lo = 0 → v.vreg 40 = img ∧ v.vreg 41 = u.vreg 40)
    ∧ (lo ≠ 0 → (∀ i, elt w (v.vreg 40).data i = if lo ≤ i ∧ i < n then elt w img.data i else elt w (u.vreg 40).data i)
        ∧ v.vreg 41 = u.vreg 41)
    ∧ (∀ r, r ≠ 40 → r ≠ 41 → (namesRegister d = true → r ≠ vopIndex d) → v.vreg r = u.vreg r)

/-- The same of an instruction that is complete, and nothing else changed. -/
def State.ResultMoves (s : State) (d : VOp) (w lo n : Nat) (img : VReg) (t : State) : Prop :=
  s.FileMoves d w lo n img t ∧ s.VectorFrame t ∧ s.SameBytes t

/-- The image that an element-wise instruction makes of elements vstart to n − 1 (R22, R25, R33, R36): an active element holds
its value, an inactive one 0 or its prior value as the mode says; every other element keeps its value. A value may depend on the
element's prior value and, where its rounding draws, on its stochastic lane, which stands as at the start until an element of
that lane draws (R143). -/
def State.ElemImage (s : State) (d : VOp) (n : Nat) (f : Nat → Nat → Lanes → Nat × Lanes) (img : VReg) : Prop :=
  let u := s.hart s.me
  let w := width u.ty
  let prior := u.vreg (vopIndex d)
  (∀ i, if u.vstart ≤ i ∧ i < n then
      if u.active i then ∃ g, elt w img.data i = (f i (elt w prior.data i) g).1 % 2 ^ w
        ∧ ((∀ j p g, (f j p g).2 = g) → g = u.rng)
        ∧ (ownLane f → (∀ j, u.vstart ≤ j → j < i → u.active j = true → j % 256 ≠ i % 256) →
            Tab.get 0 g (i % 256) = Tab.get 0 u.rng (i % 256))
      else elt w img.data i = if mZero u.mode then 0 else elt w prior.data i
    else elt w img.data i = elt w prior.data i)
  ∧ img.scale = prior.scale ∧ img.rows = max prior.rows (u.rowsOf w (if u.vstart < n then n else 0))

/-- What an element-wise instruction of length n leaves when it is complete; lanes from which its values never draw stay. -/
def State.ElemResult (s : State) (d : VOp) (n : Nat) (f : Nat → Nat → Lanes → Nat × Lanes) (t : State) : Prop :=
  ∃ img : VReg, s.ElemImage d n f img ∧ s.ResultMoves d (width (s.hart s.me).ty) (s.hart s.me).vstart n img t
    ∧ ((∀ j p g, (f j p g).2 = g) → (t.hart s.me).rng = (s.hart s.me).rng)

/-- What an element-wise instruction leaves that has been stopped at element e (R33, R34, R274): vstart is e, every element
below it is complete and every other as before. -/
def State.ElemStop (s : State) (d : VOp) (e : Nat) (f : Nat → Nat → Lanes → Nat × Lanes) (t : State) : Prop :=
  ∃ img : VReg, s.ElemImage d e f img ∧ s.FileMoves d (width (s.hart s.me).ty) (s.hart s.me).vstart e img t
    ∧ s.StoppedFrame e t ∧ s.SameBytes t

/-- A pre-emption or a halt that has been asked for cuts an element-wise instruction of length n at element e: the first of the
element group that the move names, inside the instruction (R34, R274, R326). -/
def State.cutAt (s : State) (n e : Nat) : Prop :=
  (∃ g, s.cut = some g ∧ e = g * (s.hart s.me).group (s.hart s.me).ty)
    ∧ ((s.team (teamOf s.me)).request = true ∨ (s.hart s.me).haltReq = true) ∧ (s.hart s.me).vstart < e ∧ e < n

/-- An element-wise instruction of length n comes to element e: where it is cut, else to its end. -/
def State.endsAt (s : State) (n e : Nat) : Prop := s.cutAt n e ∨ e = n ∧ ∀ c, ¬ s.cutAt n c

/-- What the rest of the machine is then. -/
def State.EndFrame (s : State) (n e : Nat) (t : State) : Prop := if e < n then s.StoppedFrame e t else s.VectorFrame t

/-- How an element-wise instruction of length n ends: cut, or complete. -/
def State.ElemEnds (s : State) (d : VOp) (n : Nat) (f : Nat → Nat → Lanes → Nat × Lanes) (t : State) : Prop :=
  (∀ e, s.cutAt n e → s.ElemStop d e f t) ∧ ((∀ e, ¬ s.cutAt n e) → s.ElemResult d n f t)

/-- The same with the image given, for one that began at element lo. -/
def State.MovesEnd (s : State) (d : VOp) (w lo n e : Nat) (img : VReg) (t : State) : Prop :=
  if e < n then s.FileMoves d w lo e img t ∧ s.StoppedFrame e t ∧ s.SameBytes t else s.ResultMoves d w lo n img t

/-- What a whole-vector instruction with a register result leaves (R22, R33): it runs from element 0; element i of the image
is `e i` below n and keeps its value from n on. -/
def State.WholeResult (s : State) (d : VOp) (n : Nat) (e : Nat → Nat) (t : State) : Prop :=
  let u := s.hart s.me
  let w := width u.ty
  let prior := u.vreg (vopIndex d)
  ∃ img : VReg,
    (∀ i, elt w img.data i = if i < n then e i % 2 ^ w else elt w prior.data i)
    ∧ img.scale = prior.scale ∧ img.rows = max prior.rows (u.rowsOf w n) ∧ s.ResultMoves d w 0 n img t

/-- What an instruction leaves that writes one mask and then, as a whole-vector instruction, one register (R12, R103): bit i
of the mask is `bit i` and every other mask is as before; the rest is a whole-vector result. -/
def State.MaskAndWhole (s : State) (k : BitVec 3) (bit : Nat → Bool) (d : VOp) (n : Nat) (e : Nat → Nat) (t : State) : Prop :=
  ∃ m : Nat, (∀ i, m.testBit i = bit i)
    ∧ (s.setHart s.me { s.hart s.me with k := Tab.put 0 (s.hart s.me).k k.toNat m }).WholeResult d n e t

/-- A vector instruction may execute: it stands on a vector stream, its type and the other checks of R54 that need the
hart's state pass, and the registers it names are declared (R23). -/
def State.VectorReady (s : State) (ok : Hart → Bool) (regs : List VOp) : Prop :=
  s.isVector = true ∧ ok (s.hart s.me) = true ∧ regs.all (vopOk (s.hart s.me).n) = true

/-- Nothing differs but the executing hart, which is `u` with its vector pc at the next word. -/
def State.GoesOn (s : State) (u : Hart) (t : State) : Prop :=
  t = s.setHart s.me { u with vpc := s.nextPc.setWidth 48, check := !u.loops.isEmpty }

/-- How an element-wise instruction of length n that makes no register result ends when it has come to element e (R33, R34): cut,
with vstart there, or complete. -/
def State.PlainEnds (s : State) (n e : Nat) (t : State) : Prop :=
  if e < n then t = s.setHart s.me { s.hart s.me with vstart := e } else s.GoesOn { s.hart s.me with vstart := 0 } t

/-- What a register result holds when element i's access traps (R34, R110): every element below i is complete, and vstart is i;
where it is element 0, nothing has moved. -/
def State.FailsAt (s : State) (d : VOp) (i : Nat) (f : Nat → Nat → Lanes → Nat × Lanes) (t : State) : Prop :=
  if i = 0 then t = s else s.ElemStop d i f t

/-- What an instruction that writes one mask leaves: bit i of the mask is `bit i`, every other mask is as before, vstart is
0, and nothing else but the pc differs. -/
def State.MaskResult (s : State) (k : BitVec 3) (bit : Nat → Bool) (t : State) : Prop :=
  (∀ i, (Tab.get 0 (t.hart s.me).k k.toNat).testBit i = bit i)
    ∧ (∀ j : BitVec 3, j ≠ k → Tab.get 0 (t.hart s.me).k j.toNat = Tab.get 0 (s.hart s.me).k j.toNat)
    ∧ (∃ m, s.GoesOn { s.hart s.me with k := m, vstart := 0 } t) ∧ s.SameBytes t

/-- The same of one that has been cut at element e: vstart is e and the pc stays. -/
def State.MaskStop (s : State) (k : BitVec 3) (e : Nat) (bit : Nat → Bool) (t : State) : Prop :=
  (∀ i, (Tab.get 0 (t.hart s.me).k k.toNat).testBit i = bit i)
    ∧ (∀ j : BitVec 3, j ≠ k → Tab.get 0 (t.hart s.me).k j.toNat = Tab.get 0 (s.hart s.me).k j.toNat)
    ∧ (∃ m, t = s.setHart s.me { s.hart s.me with k := m, vstart := e }) ∧ s.SameBytes t

/-- What an instruction that writes one s register leaves: its value, every other s register as before, and nothing else but
the pc changed (with `clears`, vstart is 0). -/
def State.ScalarResult (s : State) (clears : Bool) (r : BitVec 4) (v : W64) (t : State) : Prop :=
  t.readS s.me r.toNat = v ∧ (∀ q : BitVec 4, q ≠ r → t.readS s.me q.toNat = s.getS q)
    ∧ (∃ x, s.GoesOn { s.hart s.me with s := x, vstart := if clears then 0 else (s.hart s.me).vstart } t) ∧ s.SameBytes t

/-- The active elements below n, ascending. -/
def Hart.activeBelow (t : Hart) (n : Nat) : List Nat := (List.range n).filter t.active

/-- Element i of an operand of a whole-vector instruction, as a pattern of the element type. -/
def Hart.elem (t : Hart) (a : VOp) (i : Nat) : Nat := t.read false a (width t.ty) i

/-- An inactive element of a result: 0 or the destination's prior element, as the mode says (R25). -/
def Hart.idleElem (t : Hart) (d : VOp) (i : Nat) : Nat :=
  if mZero t.mode then 0 else elt (width t.ty) (t.vreg (vopIndex d)).data i

/-! ### Numbers, as the spec describes them (R134, R135, R138, R141 to R143) -/

/-- A float format: the weight of its sign bit, its fraction bits, the power of two that its smallest subnormal is the reciprocal of, and the codes of its
largest finite value, its infinity (for f8e4, which has none, what stands in its place) and its canonical NaN (R134). -/
structure Format where
  sign : Nat
  frac : Nat
  unit : Nat
  max : Nat
  inf : Nat
  nan : Nat

/-- The five formats, under the type codes 0 to 4 of R24. -/
def formatOf : Nat → Format
  | 0 => ⟨2 ^ 31, 23, 149, 0x7F7FFFFF, 0x7F800000, 0x7FC00000⟩
  | 1 => ⟨2 ^ 15, 7, 133, 0x7F7F, 0x7F80, 0x7FC0⟩
  | 2 => ⟨2 ^ 15, 10, 24, 0x7BFF, 0x7C00, 0x7E00⟩
  | 3 => ⟨2 ^ 7, 3, 9, 0x7E, 0x7F, 0x7F⟩
  | _ => ⟨2 ^ 7, 2, 16, 0x7B, 0x7C, 0x7E⟩

/-- The magnitude of a code without its sign, in units of the smallest subnormal, on a range unbounded above (R135, R141). -/
def Format.mag (F : Format) (m : Nat) : Nat :=
  if m / 2 ^ F.frac = 0 then m else (2 ^ F.frac + m % 2 ^ F.frac) * 2 ^ (m / 2 ^ F.frac - 1)

/-- How a multiple k·v of an exact magnitude v compares with a whole number n: v a ratio, or the square root of one. -/
def ratio (a b : Nat) (n k : Nat) : Ordering := compare (k * a) (n * b)
def rootOf (a b : Nat) (n k : Nat) : Ordering := compare (k * k * a) (n * n * b)

/-- ROUNDING (R141, R143): of two neighbours, the m-th and the next one of the representable magnitudes, between which v lies,
the one that the mode takes; a value that is representable is taken as it is. `u` is the stochastic draw. -/
def RoundsTo (scale : Nat → Nat) (rnd u : Nat) (neg : Bool) (v : Nat → Nat → Ordering) (r : Nat) : Prop :=
  ∃ m, v (scale m) 1 ≠ .lt ∧ v (scale (m + 1)) 1 = .lt ∧
    let a := scale m
    let b := scale (m + 1)
    let up : Bool := v a 1 ≠ .eq && (match rnd with
      | 0 => v (a + b) 2 = .gt || (v (a + b) 2 = .eq && m % 2 = 1)
      | 1 => false
      | 2 => neg
      | 3 => !neg
      | 4 => v (a + b) 2 ≠ .lt
      | _ => v ((u + 1) * (b - a) + a * 2 ^ 32) (2 ^ 32) ≠ .lt)
    r = if up then m + 1 else m

/-- A finite magnitude v of a sign rounded to a format's code (R141, R142): beyond the largest finite value it is that value where
the rounding is towards zero or sat applies, else the infinity. -/
def Format.RoundsTo (F : Format) (rnd u : Nat) (sat neg : Bool) (v : Nat → Nat → Ordering) (c : Nat) : Prop :=
  ∃ r, Machine.RoundsTo F.mag rnd u neg v r ∧
    let zeroward : Bool := rnd = 1 || (rnd = 2 && !neg) || (rnd = 3 && neg)
    c = (if neg then F.sign else 0) + (if r ≤ F.max then r else if zeroward || sat then F.max else F.inf)

/-- A rounded result draws once from the lane of its element under stoch, and never else (R143). -/
def Draws (rnd i : Nat) (g : Lanes) (f : Nat → Nat → Prop) (r : Nat × Lanes) : Prop :=
  let x := Tab.get 0 g (i % 256)
  let x := x ^^^ (x <<< 13)
  let x := x ^^^ (x >>> 17)
  let x := x ^^^ (x <<< 5)
  if rnd = 5 then f x.toNat r.1 ∧ r.2 = Tab.put 0 g (i % 256) x else f 0 r.1 ∧ r.2 = g

/-! ### Accesses to memory -/

/-- Byte i at a place: a scratchpad byte, or memory as the executing party's core sees it; with `own`, as that core's stores
and the home copies give it (an access at the home slice writes the core's dirty bytes back first, R189). -/
def State.placeByte (s : State) (own : Bool) (p : Place) (i : Nat) : Byte :=
  match p with
  | .spad team off => s.spadByte team (off + i)
  | .mem pa => if own then s.ownByte (s.coreOf s.cur) (pa + i) else s.seenByte (s.coreOf s.cur) (pa + i)
  | .view _ => 0

/-- The value of the `n` bytes at a place (R5). -/
def State.placeValue (s : State) (own : Bool) (p : Place) (n : Nat) : Nat := leNat ((List.range n).map (s.placeByte own p))

/-- The eight words of the 64 bytes at a place (R5, R257). -/
def State.recordAt (s : State) (p : Place) : List W64 :=
  (List.range 8).map (fun i => BitVec.ofNat 64 (leNat ((List.range 8).map (fun j => s.placeByte true p (8 * i + j)))))

/-- Byte i of a value (R5). -/
def byteOf (v i : Nat) : Byte := BitVec.ofNat 8 (v / 256 ^ i)

/-- A scratchpad access is not held behind one of the hart's engine commands (R224). -/
def State.windowFree (s : State) (off n : Nat) (write : Bool) : Prop :=
  s.conflicts s.me [⟨false, off, off + n - 1, write⟩] = false

/-- An access of `n` bytes at a place that goes to the home slice can be performed now: no interlock holds it, the host link is
up, no line of it is poisoned. Every address of the map of R181 lies below 2^52. -/
def State.homeReady (s : State) (write : Bool) (n : Nat) : Place → Prop
  | .spad _ off => s.windowFree off n write
  | .mem pa => pa + n ≤ 2 ^ 52 ∧ s.linkUp = true ∧ s.anyPoison pa n = false
  | .view _ => False

/-- The executing party's L1 holds the `n` bytes at a place (R186). -/
def State.hitsL1 (s : State) (n : Nat) : Place → Bool
  | .mem pa => s.l1Has (s.coreOf s.cur) pa n
  | _ => false

/-- A load of `n` bytes through the L1 can be performed now: from there when it holds them and they meet no poison, else as at
the home slice. An access is aligned, so it lies in one line (R58, R110). -/
def State.loadReady (s : State) (n : Nat) (p : Place) : Prop :=
  (∀ pa, p = .mem pa → pa % 64 + n ≤ 64)
    ∧ (s.homeReady false n p
      ∨ ∃ pa, p = .mem pa ∧ pa + n ≤ 2 ^ 52 ∧ s.hitsL1 n p = true ∧ s.meetsPoison (s.coreOf s.cur) pa n = false)

/-- What a load of `n` bytes takes (R186, R251): what the L1 holds; where it does not hold them all the line is read, and they are
as the core's own stores and the home copies give them. With `home` it goes to the home slice. -/
def State.loadValue (s : State) (home : Bool) (n : Nat) (p : Place) : Nat := s.placeValue (home || !s.hitsL1 n p) p n

/-- A store of `n` bytes into the L1 or the scratchpad can be performed now. -/
def State.storeReady (s : State) (n : Nat) : Place → Prop
  | .spad _ off => s.windowFree off n true
  | .mem pa => pa + n ≤ 2 ^ 52
  | .view _ => False

/-- What a read of `n` bytes at a place through a core's L1 leaves of the bytes (R186, R251): none is written. Where the L1 holds
them it does not change; where not, each byte of their line that is not dirty there is valid and as it stands at home, and every
other L1 byte is as before. -/
def State.FillsLine (s : State) (core n : Nat) (p : Place) (l : Tab (Option L1Byte)) : Prop :=
  let filled (c q : Nat) := c = core ∧ s.hitsL1 n p = false ∧ (∃ pa, p = .mem pa ∧ q / 64 = pa / 64) ∧ s.dirtyAt core q = false
  (s.hitsL1 n p = true → l = s.l1)
    ∧ ∀ c q, q < 2 ^ 52 → (filled c q → ∃ y, (s.withL1 l).l1Byte c q = some y ∧ y.dirty = false ∧ y.val = s.homeByte q)
      ∧ (¬ filled c q → (s.withL1 l).l1Byte c q = s.l1Byte c q)

/-- An atomic step on `n` bytes at a place can be performed now: at the home slice, or as a load and a store through the L1. -/
def State.atomicReady (s : State) (home : Bool) (n : Nat) (p : Place) : Prop :=
  (∀ pa, p = .mem pa → pa % 64 + n ≤ 64)
    ∧ (s.homeReady true n p
      ∨ home = false ∧ ∃ pa, p = .mem pa ∧ pa + n ≤ 2 ^ 52 ∧ s.hitsL1 n p = true ∧ s.meetsPoison (s.coreOf s.cur) pa n = false)

/-- A release at a scope need not wait: no vector access or engine command of the hart before it still awaits its translation,
the host link is up and, at sy, no byte written to host memory awaits its acknowledgement (R188, R234, R304). -/
def State.releaseReady (s : State) (sc : Scope) : Prop :=
  (s.isHartControl = true → s.untranslated s.me = false) ∧ s.linkUp = true ∧ (sc = .sy → s.linkPending = false)

/-- After an acquire wider than tm no clean byte stands in the core's L1; after a release every byte the core stored stands at
home (R188; log 24). -/
def State.acquired (core : Nat) (sc : Scope) (u : State) : Prop :=
  sc ≠ .tm → ∀ q, q < 2 ^ 52 → ∀ y, u.l1Byte core q = some y → y.dirty = true
def State.released (s : State) (core : Nat) (sc : Scope) (u : State) : Prop :=
  sc ≠ .tm → ∀ q, q < 2 ^ 52 → u.homeByte q = s.ownByte core q

/-- The same around an access that replaces the `n` bytes at a place. -/
def State.releasedBut (s : State) (core : Nat) (sc : Scope) (n : Nat) (p : Place) (u : State) : Prop :=
  sc ≠ .tm → ∀ q, q < 2 ^ 52 → (∀ pa, p = .mem pa → ¬ (pa ≤ q ∧ q < pa + n)) → u.homeByte q = s.ownByte core q

/-- What a control instruction that loads `n` bytes at a place leaves: its register result, and the line it may have filled. -/
def State.LoadResult (s : State) (n : Nat) (p : Place) (d : BitVec 5) (v : W64) (t : State) : Prop :=
  ∃ l, s.FillsLine (s.coreOf s.cur) n p l ∧ (s.withL1 l).ControlResult d v s.nextPc t

/-- An access of `n` bytes at a place was performed at the home slice (R189, R190, R232): those bytes stand there as the core owns
them, and their line has left the core's L1. -/
def State.standsHome (u : State) (core n : Nat) (p : Place) : Prop :=
  ∀ pa, p = .mem pa → (∀ q, pa ≤ q → q < pa + n → u.homeByte q = u.ownByte core q)
    ∧ ∀ q, q / 64 = pa / 64 → q < 2 ^ 52 → u.l1Byte core q = none

/-- The `n` bytes at a place replaced by a value's (R5, R182, R186): in the scratchpad, or in the executing party's L1, where
they become dirty. Every other byte reads as before, and nothing else differs. -/
def State.Stores (s : State) (p : Place) (n v : Nat) (u : State) : Prop :=
  match p with
  | .spad team off => (∃ m, u = s.withSpad team m)
      ∧ ∀ g o, u.spadByte g o = if g = team ∧ off ≤ o ∧ o < off + n then byteOf v (o - off) else s.spadByte g o
  | .mem pa => (∃ l, u = s.withL1 l)
      ∧ ∀ c q, q < 2 ^ 52 →
          if c = s.coreOf s.cur ∧ pa ≤ q ∧ q < pa + n then u.seenByte c q = byteOf v (q - pa) ∧ u.ownByte c q = byteOf v (q - pa)
          else u.seenByte c q = s.seenByte c q ∧ u.ownByte c q = s.ownByte c q
  | .view _ => False

/-- What an access at the home slice leaves that replaces the `n` bytes at a place (none: it replaces nothing), with the
releases and acquires around it: in terms of the bytes as the core's own stores and the home copies give them, those bytes
alone differ; no other core's L1 changes; nothing else differs but poison marks, cached code and link writes. -/
def State.Rewrites (s : State) (p : Place) (n : Nat) (v : Option Nat) (u : State) : Prop :=
  match p, v with
  | .spad team off, some v => ∃ m, (s.withSpad team m).KeepsBytes (s.coreOf s.cur) u
      ∧ ∀ o, Tab.get 0 m o = if off ≤ o ∧ o < off + n then byteOf v (o - off) else s.spadByte team o
  | .mem pa, some v => (∀ q, q < 2 ^ 52 → u.ownByte (s.coreOf s.cur) q =
        if pa ≤ q ∧ q < pa + n then byteOf v (q - pa) else s.ownByte (s.coreOf s.cur) q)
      ∧ (∀ c q, c ≠ s.coreOf s.cur → q < 2 ^ 52 → u.l1Byte c q = s.l1Byte c q)
      ∧ u = s.withCaches u
  | _, _ => s.KeepsBytes (s.coreOf s.cur) u

/-! ### Vector accesses -/

/-- The elements an element-wise instruction of length n covers: the active ones at or above vstart (R33). -/
def Hart.covers (t : Hart) (n i : Nat) : Prop := t.vstart ≤ i ∧ i < n ∧ t.active i = true

/-- A load of n bytes can be performed: at the home slice, or through the L1 (R121). -/
def State.readsAt (s : State) (home : Bool) (n : Nat) (p : Place) : Prop :=
  if home then s.homeReady false n p else s.loadReady n p

/-- Nothing differs but bytes of memory, the caches, a team's scratchpad and the counter of free values. -/
def State.OnlyBytes (s : State) (team : Nat) (u : State) : Prop :=
  ∃ k, u = (s.withCaches u).withFresh k ∨ ∃ m, u = ((s.withCaches u).withSpad team m).withFresh k

/-- What a store of many elements leaves (R111 to R113): at each covered element's place stands the whole value of one of the
elements that write there, when `ordered` the highest; every byte that no element writes, the L1 of every other core and the
rest of the machine are as before, except that the model may have taken free values. -/
def State.Scatters (s : State) (covers : Nat → Prop) (pl : Nat → Place) (z : Nat) (val : Nat → Nat) (ordered : Prop) (u : State) :
    Prop :=
  (∀ i, covers i → ∃ j, covers j ∧ pl j = pl i ∧ (ordered → ∀ l, covers l → pl l = pl i → l ≤ j)
      ∧ ∀ b, b < z → u.placeByte true (pl i) b = byteOf (val j) b)
    ∧ (∀ q, q < 2 ^ 52 → (∀ i pa, covers i → pl i = .mem pa → ¬ (pa ≤ q ∧ q < pa + z)) →
        u.ownByte (s.coreOf s.cur) q = s.ownByte (s.coreOf s.cur) q)
    ∧ (∀ g o, (∀ i off, covers i → pl i = .spad g off → ¬ (off ≤ o ∧ o < off + z)) → u.spadByte g o = s.spadByte g o)
    ∧ (∀ c q, c ≠ s.coreOf s.cur → q < 2 ^ 52 → u.l1Byte c q = s.l1Byte c q)
    ∧ s.OnlyBytes (teamOf s.me) u

/-! ### Handles (R195, R196, R203) -/

/-- The n bytes at a virtual address can be loaded and hold v. -/
def State.holds (s : State) (home : Bool) (ea n v : Nat) : Prop :=
  ∃ p, s.resolve s.cur (BitVec.ofNat 64 ea) n .load = .ok p ∧ s.readsAt home n p ∧ s.loadValue home n p = v

/-- What a search of the entries from a to b − 1 for the first hit gives. -/
def firstAt (a b : Nat) (hit miss : Nat → Prop) : Option Nat → Prop
  | some p => a ≤ p ∧ p < b ∧ hit p ∧ ∀ q, a ≤ q → q < p → miss q
  | none => ∀ q, a ≤ q → q < b → miss q

/-- The entry of a tensor that holds position (i, j), or none (R196), as its arrays stand in memory. -/
def State.tensorEntry (s : State) (h : BitVec 512) (home : Bool) (i j : Nat) (e : Option Nat) : Prop :=
  let pos (x v : Nat) : Prop := s.holds home (hPos h + 4 * x) 4 v
  let crd (x v : Nat) : Prop := s.holds home (hCrd h + 4 * x) 4 v
  i < hDim0 h ∧
  match hShape h with
  | some .vec => j = 0 ∧ e = some i
  | some .mat => j < hDim1 h ∧ e = some (i * hLd h + j)
  | some .rows => j < hDim1 h ∧ ∃ a b, pos i a ∧ pos (i + 1) b ∧ a ≤ b ∧ b ≤ hNnz h
      ∧ firstAt a b (fun p => crd p j) (fun p => ∃ c, c ≠ j ∧ crd p c) e
  | some .pairs => j < hDim1 h ∧ pos 0 0 ∧ pos 1 (hNnz h)
      ∧ firstAt 0 (hNnz h) (fun p => crd (2 * p) i ∧ crd (2 * p + 1) j)
          (fun p => ∃ c d, ¬ (c = i ∧ d = j) ∧ crd (2 * p) c ∧ crd (2 * p + 1) d) e
  | some .tiles => j < hDim1 h ∧ ∃ a b x, pos (i / 32) a ∧ pos (i / 32 + 1) b ∧ a ≤ b ∧ b ≤ hNnz h
      ∧ firstAt a b (fun p => crd p (j / 32)) (fun p => ∃ c, c ≠ j / 32 ∧ crd p c) x
      ∧ e = x.map (fun p => 1024 * p + 32 * (i % 32) + j % 32)
  | none => False

/-- What the accesses of a core leave at home on their way: outside the bytes of `w` each byte is as it was or as the core owns it,
and no line is newly poisoned. -/
def State.HomeKept (s : State) (core : Nat) (w : Nat → Prop) (v : State) : Prop :=
  (∀ q, q < 2 ^ 52 → v.homeByte q = s.homeByte q ∨ v.homeByte q = s.ownByte core q ∨ w q) ∧ ∀ l, v.poisoned l = true → s.poisoned l = true

/-- The translations of the executing party do not change when bytes that its core has stored are written back, nor with the free
value that names the cached translations it may use. -/
def State.steady (s : State) : Prop :=
  ∀ v, s.KeepsBytes (s.coreOf s.cur) v → s.HomeKept (s.coreOf s.cur) (fun _ => False) v →
    ∀ ea n a, v.resolve s.cur ea n a = s.resolve s.cur ea n a

/-! ### Engine commands -/

/-- A command of the executing hart can be issued at once: it has none in flight, and the interlock table has room. -/
def State.issueFree (s : State) : Prop :=
  (∀ c ∈ s.cmds, c.hart ≠ s.me) ∧ s.ritUsed (s.coreOf s.cur) ≤ 56 ∧ s.ritWaiters (s.coreOf s.cur) = []

/-- What issuing a command leaves (R217, R286, R293): the command is the last one in flight, with the sequence number the hart
has reached, the addresses of its vgo and of its instruction, its latched operands and its completion add; and the stream goes
on. -/
def State.Issues (s : State) (op : EngOp) (cw : W64) (add : Nat) (stage : Stage) (t : State) : Prop :=
  let u := s.hart s.me
  ∃ rs, (s.withCmds (s.cmds ++ [⟨s.me, u.engseq, u.vgo, u.vpc, op, cw, add, rs, stage, 0, 0, none, false, [], []⟩])).GoesOn
    { u with engseq := u.engseq + 1, stalled := none } t

/-- The command `c` of hart h may take its next step: it is in flight under that number at the stage given, it is not parked,
its team stands on a core or is terminated where it lies saved, its interlock entries have been made, no command of the hart before it was kept by a save and has
still to run (R229, R276), and no older command of the same hart and engine is still busy. -/
def State.steps (s : State) (h seq : Nat) (c : Cmd) (stage : Stage) (same : EngOp → Bool) : Prop :=
  s.cmd? h seq = some c ∧ c.stage = stage ∧ c.parked = none ∧ s.mayMove c = true ∧ s.olderBusy c same = false

/-- The command goes on as another one, or is over: it and its pins are gone. Either way it waits for the link no more. -/
def State.withCmd (s : State) (c : Cmd) : State :=
  { s with
    cmds := s.cmds.map (fun d => if d.hart = c.hart && d.seq == c.seq then c else d),
    hostWaits := s.hostWaits.filter (fun e => e.1 ≠ .cmd c.hart c.seq) }
def State.withoutCmd (s : State) (c : Cmd) : State :=
  { s with
    hostWaits := s.hostWaits.filter (fun e => e.1 ≠ .cmd c.hart c.seq),
    cmds := s.cmds.filter (fun d => !(d.hart = c.hart && d.seq == c.seq)),
    pins := s.pins.filter (fun p => !(p.hart = c.hart && p.seq == c.seq)) }

/-- The payload of a command is done (R222, R225): it is over where it adds nothing, and goes on to its completion add else, when it
gives up its entries in the interlock table, unless its word does not translate. -/
def State.Finishes (s : State) (c : Cmd) (t : State) : Prop :=
  t = if c.add = 0 then s.withoutCmd c
    else s.withCmd (if s.wordReached c then { c with stage := .add, ranges := [], spare := c.ranges } else { c with stage := .add })

/-- Where the `n` bytes from a virtual address lie for a hart's commands, whichever bytes its core has written back by then, whatever
stands in the bytes of `w`, and whichever free value names the cached translations in use. -/
def State.enginePages (s : State) (h : Nat) (at_ : Nat → Nat) (a : Access) (va n : Nat) (w : Nat → Prop) : Prop :=
  s.linkUp = true
    ∧ (∀ v, s.OnlyBytes (teamOf h) v → s.HomeKept (s.coreOfTeam (teamOf h)) w v →
        ∀ i, i < n → v.engineAt h (va + i) a = .ok (some (at_ (va + i))))
    ∧ ∀ i, i < n → at_ (va + i) < 2 ^ 52 ∧ (i + 1 < n → (va + i + 1) % 64 ≠ 0 → at_ (va + i + 1) = at_ (va + i) + 1)

/-- The value of the n bytes from a virtual address as a hart's commands read them (R189): its core's own stores, else home. -/
def State.engineBytes (s : State) (h : Nat) (at_ : Nat → Nat) (va n : Nat) : List Byte :=
  (List.range n).map (fun i => s.ownByte (s.coreOfTeam (teamOf h)) (at_ (va + i)))

/-- None of those bytes lies in a poisoned line. -/
def State.engineClean (s : State) (at_ : Nat → Nat) (va n : Nat) : Prop := ∀ i, i < n → s.poisoned (at_ (va + i) / 64) = false

/-- The bytes at distinct places replaced; every other byte as the core owns it, and of the scratchpads, is as before. -/
def State.EngineWrites (s : State) (h : Nat) (at_ : Nat → Nat) (va : Nat) (bs : List Byte) (u : State) : Prop :=
  let core := s.coreOfTeam (teamOf h)
  s.OnlyBytes (teamOf h) u ∧ (∀ i, i < bs.length → u.ownByte core (at_ (va + i)) = bs.getD i 0)
    ∧ (∀ q, q < 2 ^ 52 → (∀ i, i < bs.length → at_ (va + i) ≠ q) → u.ownByte core q = s.ownByte core q)
    ∧ ∀ g o, u.spadByte g o = s.spadByte g o

/-- Scratchpad bytes of a hart's team replaced; every other byte is as before. -/
def State.SpadWrites (s : State) (h off : Nat) (bs : List Byte) (u : State) : Prop :=
  s.OnlyBytes (teamOf h) u
    ∧ (∀ g o, u.spadByte g o = if g = teamOf h ∧ off ≤ o ∧ o < off + bs.length then bs.getD (o - off) 0 else s.spadByte g o)
    ∧ ∀ q, q < 2 ^ 52 → u.ownByte (s.coreOfTeam (teamOf h)) q = s.ownByte (s.coreOfTeam (teamOf h)) q

/-- The bytes of a hart's team's scratchpad. -/
def State.spadBytes (s : State) (h off n : Nat) : List Byte := (List.range n).map (fun i => s.spadByte (teamOf h) (off + i))

end Sys2Proof.Machine
end

