-- ==== Sys2Proof/Certificates/Slice0/Obligations.lean ====
section
/-! DEFINITION. The statements about the model, for the provers. -/

open Sys2Proof Sys2Proof.Machine

/-! ### Control instructions -/

/-- The register-register operations (R60) and the immediates (R62, R63) on a hart's control stream or a verge core, with their
encodings: a function field that no entry defines is refused, and so is a shift amount above 63. A constant is built in two
words by its parts. -/
def Obligations.ControlArithmetic : Prop := (
  ∀ (s : State) (d a b : BitVec 5), s.isControl = true →
    let x := s.getX a
    let y := s.getX b
    let n := y.toNat % 64
    let gives (i : Instr) (v : W64) : Prop := Completes i s (s.ControlResult d v s.nextPc)
    gives (.add d a b) (x + y) ∧ gives (.sub d a b) (x - y) ∧ gives (.and d a b) (x &&& y) ∧ gives (.or d a b) (x ||| y)
    ∧ gives (.xor d a b) (x ^^^ y) ∧ gives (.sll d a b) (x <<< n) ∧ gives (.srl d a b) (x >>> n)
    ∧ gives (.sra d a b) (x.sshiftRight n)
    ∧ gives (.slt d a b) (if x.toInt < y.toInt then 1 else 0) ∧ gives (.sltu d a b) (if x.toNat < y.toNat then 1 else 0)
    ∧ gives (.min d a b) (if x.toInt ≤ y.toInt then x else y) ∧ gives (.minu d a b) (if x.toNat ≤ y.toNat then x else y)
    ∧ gives (.max d a b) (if x.toInt ≤ y.toInt then y else x) ∧ gives (.maxu d a b) (if x.toNat ≤ y.toNat then y else x)
    ∧ gives (.mul d a b) (x * y)
    ∧ gives (.mulh d a b) ((x.signExtend 128 * y.signExtend 128).extractLsb' 64 64)
    ∧ gives (.mulhu d a b) ((x.setWidth 128 * y.setWidth 128).extractLsb' 64 64)
    ∧ ∀ n, n < 2 ^ 9 →
      let reads (op : Nat) : Except Reason Instr := decode (op * 2 ^ 24 + d.toNat * 2 ^ 19 + a.toNat * 2 ^ 14 + b.toNat * 2 ^ 9 + n)
      let one (op : Nat) (i : Instr) : Prop := reads op = if n = 0 then .ok i else .error .reservedValue
      let two (op : Nat) (i j : Instr) : Prop := reads op = if n = 0 then .ok i else if n = 1 then .ok j else .error .reservedValue
      one 0x01 (.add d a b) ∧ one 0x02 (.sub d a b) ∧ one 0x03 (.and d a b) ∧ one 0x04 (.or d a b) ∧ one 0x05 (.xor d a b)
      ∧ one 0x06 (.sll d a b) ∧ one 0x07 (.srl d a b) ∧ one 0x08 (.sra d a b) ∧ one 0x09 (.slt d a b) ∧ one 0x0A (.sltu d a b)
      ∧ two 0x0B (.min d a b) (.minu d a b) ∧ two 0x0C (.max d a b) (.maxu d a b)
      ∧ one 0x0D (.mul d a b) ∧ one 0x0E (.mulh d a b) ∧ one 0x0F (.mulhu d a b)) ∧ (
  ∀ (s : State) (d a : BitVec 5) (i : BitVec 14) (j : BitVec 19), s.isControl = true →
    let x := s.getX a
    let k := i.signExtend 64
    let up : W64 := BitVec.ofInt 64 (j.toInt * 2 ^ 14)
    let gives (i : Instr) (v : W64) : Prop := Completes i s (s.ControlResult d v s.nextPc)
    gives (.addi d a i) (x + k) ∧ gives (.andi d a i) (x &&& k) ∧ gives (.ori d a i) (x ||| k) ∧ gives (.xori d a i) (x ^^^ k)
    ∧ gives (.slti d a i) (if x.toInt < k.toInt then 1 else 0) ∧ gives (.sltui d a i) (if x.toNat < k.toNat then 1 else 0)
    ∧ gives (.lui d j) up ∧ gives (.auipc d j) (s.pcOf s.cur + up)
    ∧ (i.toNat ≤ 63 → gives (.slli d a i) (x <<< i.toNat) ∧ gives (.srli d a i) (x >>> i.toNat)
      ∧ gives (.srai d a i) (x.sshiftRight i.toNat))
    ∧ (63 < i.toNat → Traps (.slli d a i) s (illegal .reservedValue) ∧ Traps (.srli d a i) s (illegal .reservedValue)
      ∧ Traps (.srai d a i) s (illegal .reservedValue))
    ∧ (let si (op : Nat) : Except Reason Instr := decode (op * 2 ^ 24 + d.toNat * 2 ^ 19 + a.toNat * 2 ^ 14 + i.toNat)
       let sj (op : Nat) : Except Reason Instr := decode (op * 2 ^ 24 + d.toNat * 2 ^ 19 + j.toNat)
       let shift (op : Nat) (n : Instr) : Prop := si op = if i.toNat ≤ 63 then .ok n else .error .reservedValue
       si 0x14 = .ok (.addi d a i) ∧ si 0x15 = .ok (.andi d a i) ∧ si 0x16 = .ok (.ori d a i) ∧ si 0x17 = .ok (.xori d a i)
       ∧ shift 0x18 (.slli d a i) ∧ shift 0x19 (.srli d a i) ∧ shift 0x1A (.srai d a i)
       ∧ si 0x1B = .ok (.slti d a i) ∧ si 0x1C = .ok (.sltui d a i) ∧ sj 0x1D = .ok (.lui d j) ∧ sj 0x1E = .ok (.auipc d j))
    ∧ ∀ c : Int, -2 ^ 32 - 8192 ≤ c → c ≤ 2 ^ 32 - 8193 →
        let h := (c + 8192) / 16384
        let lo := c - h * 16384
        h < 2 ^ 18 ∧ -2 ^ 18 ≤ h ∧ -2 ^ 13 ≤ lo ∧ lo < 2 ^ 13
        ∧ BitVec.ofInt 64 (h * 2 ^ 14) + BitVec.ofInt 64 lo = BitVec.ofInt 64 c)

/-- The divisions (R61): truncated toward zero, with the stated results for a zero divisor and for the one signed
overflow; no operand traps. Their words have format S3 with fn = 0. -/
def Obligations.ControlDivision : Prop :=
  ∀ (s : State) (d a b : BitVec 5), s.isControl = true →
    let x := s.getX a
    let y := s.getX b
    let gives (i : Instr) (v : W64) : Prop := Completes i s (s.ControlResult d v s.nextPc)
    let wraps := x = 0x8000000000000000 ∧ y = 0xFFFFFFFFFFFFFFFF
    gives (.div d a b) (if y = 0 then 0xFFFFFFFFFFFFFFFF else if wraps then 0x8000000000000000
      else BitVec.ofInt 64 (Int.tdiv x.toInt y.toInt))
    ∧ gives (.divu d a b) (if y = 0 then 0xFFFFFFFFFFFFFFFF else x / y)
    ∧ gives (.rem d a b) (if y = 0 then x else if wraps then 0 else BitVec.ofInt 64 (Int.tmod x.toInt y.toInt))
    ∧ gives (.remu d a b) (if y = 0 then x else x % y)
    ∧ (let word (op : Nat) : Nat := op * 2 ^ 24 + d.toNat * 2 ^ 19 + a.toNat * 2 ^ 14 + b.toNat * 2 ^ 9
       decode (word 0x10) = .ok (.div d a b) ∧ decode (word 0x11) = .ok (.divu d a b) ∧ decode (word 0x12) = .ok (.rem d a b)
       ∧ decode (word 0x13) = .ok (.remu d a b))

/-- A branch compares two registers and goes to its target or on to the next word; a target outside the address space or off
a word boundary traps and changes nothing else, and is checked only when the branch is taken (R58, R66). The jumps write the
address of the next word into rd and go to their target, which jalr computes from rs1 as it stood; a target that fails its
check traps and nothing else changes (R58, R67). Their words have formats SB, SJ and SI. -/
def Obligations.ControlTransfers : Prop := (
  ∀ (s : State) (a b : BitVec 5) (o : BitVec 14), s.isControl = true →
    let x := s.getX a
    let y := s.getX b
    let dest : W64 := s.pcOf s.cur + BitVec.ofInt 64 (o.toInt * s.wordBytes s.cur)
    let branch (i : Instr) (c : Prop) : Prop :=
      (¬ c → Completes i s (s.ControlResult 0 0 s.nextPc))
      ∧ (c → dest.toNat < s.topOf s.cur → dest.toNat % s.wordBytes s.cur = 0 → Completes i s (s.ControlResult 0 0 dest))
      ∧ (c → s.topOf s.cur ≤ dest.toNat → Traps i s { cls := 0x02, addr := dest })
      ∧ (c → dest.toNat < s.topOf s.cur → dest.toNat % s.wordBytes s.cur ≠ 0 → Traps i s { cls := 0x04, addr := dest })
    branch (.beq a b o) (x = y) ∧ branch (.bne a b o) (x ≠ y) ∧ branch (.blt a b o) (x.toInt < y.toInt)
    ∧ branch (.bge a b o) (x.toInt ≥ y.toInt) ∧ branch (.bltu a b o) (x.toNat < y.toNat)
    ∧ branch (.bgeu a b o) (x.toNat ≥ y.toNat)
    ∧ (let sb (op : Nat) : Except Reason Instr := decode (op * 2 ^ 24 + a.toNat * 2 ^ 19 + b.toNat * 2 ^ 14 + o.toNat)
       sb 0x30 = .ok (.beq a b o) ∧ sb 0x31 = .ok (.bne a b o) ∧ sb 0x32 = .ok (.blt a b o) ∧ sb 0x33 = .ok (.bge a b o)
       ∧ sb 0x34 = .ok (.bltu a b o) ∧ sb 0x35 = .ok (.bgeu a b o))) ∧ (
  ∀ (s : State) (d a : BitVec 5) (o : BitVec 19) (k : BitVec 14), s.isControl = true →
    let link : W64 := s.pcOf s.cur + BitVec.ofNat 64 (s.wordBytes s.cur)
    let jump (i : Instr) (dest : W64) : Prop :=
      (dest.toNat < s.topOf s.cur → dest.toNat % s.wordBytes s.cur = 0 → Completes i s (s.ControlResult d link dest))
      ∧ (s.topOf s.cur ≤ dest.toNat → Traps i s { cls := 0x02, addr := dest })
      ∧ (dest.toNat < s.topOf s.cur → dest.toNat % s.wordBytes s.cur ≠ 0 → Traps i s { cls := 0x04, addr := dest })
    jump (.jal d o) (s.pcOf s.cur + BitVec.ofInt 64 (o.toInt * s.wordBytes s.cur))
    ∧ jump (.jalr d a k) (s.getX a + k.signExtend 64)
    ∧ decode (0x36 * 2 ^ 24 + d.toNat * 2 ^ 19 + o.toNat) = .ok (.jal d o)
    ∧ decode (0x37 * 2 ^ 24 + d.toNat * 2 ^ 19 + a.toNat * 2 ^ 14 + k.toNat) = .ok (.jalr d a k))

/-! ### Vector arithmetic -/

/-- Every element-wise arithmetic instruction with register operands completes where it may execute, and leaves its result
as R22, R25, R33 and R77 say: for the forms on two sources, vfma's family with the destination's prior element as addend,
and those on one source. The forms with an immediate, vidx, vsplat and the conversions that need no scale (R79, R81, R85), with
the type checks of each; vcvtn covers at most the elements its source register holds. A pre-emption or a halt that has been
asked for may cut each of them at an element group: vstart is then the element it has come to, every element below it is
complete and every other as before (R33, R34). What a source that is the destination reads when the instruction is resumed is
the model's choice (log 11). -/
def Obligations.VectorElements : Prop := (
  ∀ (s : State) (d a b : VOp), d.writable = true →
    let u := s.hart s.me
    let two (ok : Hart → Bool) (i : Instr) (f : ElemOp) : Prop :=
      s.VectorReady ok [d, a, b] → Completes i s (s.ElemEnds d u.vl (elemFn u f a b))
    let one (ok : Hart → Bool) (i : Instr) (f : ElemOp) : Prop :=
      s.VectorReady ok [d, a] → Completes i s (s.ElemEnds d u.vl (elemFn u f a a))
    two okFI (.vadd d a b) opAdd ∧ two okFI (.vsub d a b) opSub ∧ two okFI (.vmul d a b) opMul ∧ two okI (.vmulh d a b) opMulh
    ∧ two okFI (.vdiv d a b) opDiv ∧ two okI (.vrem d a b) opRem ∧ two okFI (.vmin d a b) opMin ∧ two okFI (.vmax d a b) opMax
    ∧ two okFI (.vfma d a b) opFma ∧ two okFI (.vfms d a b) opFms
    ∧ (s.VectorReady okFI [d, a, b] → Completes (.vfnma d a b) s (s.ElemEnds d u.vl (fnmaFn u a b)))
    ∧ two okB (.vand d a b) opAnd ∧ two okB (.vor d a b) opOr ∧ two okB (.vxor d a b) opXor
    ∧ two okI (.vshl d a b) opShl ∧ two okI (.vshr d a b) opShr ∧ two okI (.vsra d a b) opSra
    ∧ one okFI (.vabs d a) opAbs ∧ one okFI (.vneg d a) opNeg ∧ one okF (.vsqrt d a) opSqrt ∧ one okF (.vrcp d a) opRcp
    ∧ one okF (.vrsq d a) opRsq ∧ one okB (.vnot d a) opNot ∧ one okB (.vmv d a) opMv) ∧ (
  ∀ (s : State) (d a : VOp) (k : BitVec 8) (f : BitVec 4) (r : BitVec 4) (v : BitVec 5), d.writable = true →
    let u := s.hart s.me
    let w := width u.ty
    let imm (ok : Hart → Bool) (i : Instr) (op : ElemOp) (b : Nat) : Prop :=
      s.VectorReady ok [d, a] →
        Completes i s (s.ElemEnds d u.vl (fun j p g => elemFn u (fun t m st x _ q => op t m st x b q) a a j p g))
    imm okI (.vaddi d a k) opAdd ((k.signExtend 64).toNat % 2 ^ w)
    ∧ imm (okShift k) (.vshli d a k) opShl k.toNat ∧ imm (okShift k) (.vshri d a k) opShr k.toNat
    ∧ imm (okShift k) (.vsrai d a k) opSra k.toNat
    ∧ (s.VectorReady okI [d] → Completes (.vidx d) s (s.ElemEnds d u.vl (fun i _ g => (i, g))))
    ∧ (s.VectorReady okB [.main v] →
        Completes (.vsplat r v) s (s.ElemEnds (.main v) u.vl (fun _ _ g => ((s.getS r).toNat, g))))
    ∧ (s.VectorReady (okCvt (fun ws wt => ws == wt) f.toNat) [d, a] →
        Completes (.vcvt d a f) s (s.ElemEnds d u.vl (cvtFn u f.toNat a)))
    ∧ (s.VectorReady (okCvt (fun ws wt => wt < ws) f.toNat) [d, a] →
        Completes (.vcvtn d a f) s (s.ElemEnds d (min u.vl (u.vlmax f.toNat)) (cvtFn u f.toNat a)))
    ∧ (f.toNat ≠ tQ4 → s.VectorReady (okCvt (fun ws wt => ws < wt) f.toNat) [d, a] →
        Completes (.vcvtw d a f) s (s.ElemEnds d u.vl (cvtFn u f.toNat a)))
    ∧ (f.toNat = tQ4 → s.VectorReady (okCvt (fun ws wt => ws < wt) f.toNat) [d, a] →
        (∀ i, u.vstart ≤ i → i < u.vl → u.active i = true → u.q4Bad (u.vstart ≠ 0) a i = 0) →
        Completes (.vcvtw d a f) s (s.ElemEnds d u.vl (cvtQ4Fn u a))))

/-- The values of elements. Integers (R76 to R78): the patterns are read as two's complement or unsigned numbers, computed
exactly, and reduced modulo 2^w, or clamped to the type's range when sat is set; no lane is drawn. The bitwise operations and the
copy, on every type but q4. Floats (R75, R77, R78): the exact sum, product, fused sum, quotient or root of the values that the
codes stand for (R134, R135), rounded once by the mode (R141 to R143), with the results for infinities, zeros and NaNs. The
conversions (R81, R138, R142, R145). It rests on readings of the model's own: vsra and vsrai copy the top bit on unsigned types too
(log 36); a minimum and a maximum of floats, and a conversion that R81 calls exact, draw nothing (log 38); an infinite source under
sat = 1 stays infinite (log 39). -/
def Obligations.IntegerElements : Prop := (
  ∀ (t : Hart) (a b : VOp) (i p : Nat) (g : Lanes), isI t.ty = true →
    let w := width t.ty
    let x := t.read (t.vstart ≠ 0) a w i
    let y := t.read (t.vstart ≠ 0) b w i
    let num (c : Nat) : Int := if isS t.ty then (BitVec.ofNat w c).toInt else (BitVec.ofNat w c).toNat
    let lo : Int := if isS t.ty then -(2 ^ (w - 1) : Nat) else 0
    let hi : Int := if isS t.ty then (2 ^ (w - 1) : Nat) - 1 else (2 ^ w : Nat) - 1
    let put (v : Int) : Nat := (BitVec.ofInt w (if t.sat then max lo (min hi v) else v)).toNat
    elemFn t opAdd a b i p g = (put (num x + num y), g) ∧ elemFn t opSub a b i p g = (put (num x - num y), g)
    ∧ elemFn t opMul a b i p g = (put (num x * num y), g) ∧ elemFn t opFma a b i p g = (put (num p + num x * num y), g)
    ∧ elemFn t opFms a b i p g = (put (num p - num x * num y), g) ∧ fnmaFn t a b i p g = (put (-(num p + num x * num y)), g)
    ∧ elemFn t opAbs a a i p g = (put (num x).natAbs, g) ∧ elemFn t opNeg a a i p g = (put (-num x), g)
    ∧ elemFn t opMin a b i p g = (if num y < num x then y else x, g)
    ∧ elemFn t opMax a b i p g = (if num x < num y then y else x, g)
    ∧ elemFn t opDiv a b i p g = (if num y = 0 then 2 ^ w - 1 else put (Int.tdiv (num x) (num y)), g)
    ∧ elemFn t opRem a b i p g = (if num y = 0 then x else put (Int.tmod (num x) (num y)), g)
    ∧ elemFn t opShl a b i p g = (put (num x * 2 ^ (y % w)), g)
    ∧ elemFn t opMulh a b i p g = (((BitVec.ofInt (2 * w) (num x * num y)).extractLsb' w w).toNat, g)
    ∧ elemFn t opShr a b i p g = (x / 2 ^ (y % w), g)
    ∧ elemFn t opSra a b i p g = (((BitVec.ofNat w x).sshiftRight (y % w)).toNat, g)) ∧ (
  ∀ (t : Hart) (a b : VOp) (i p : Nat) (g : Lanes), isB t.ty = true →
    let w := width t.ty
    let x := BitVec.ofNat w (t.read (t.vstart ≠ 0) a w i)
    let y := BitVec.ofNat w (t.read (t.vstart ≠ 0) b w i)
    elemFn t opAnd a b i p g = ((x &&& y).toNat, g) ∧ elemFn t opOr a b i p g = ((x ||| y).toNat, g)
    ∧ elemFn t opXor a b i p g = ((x ^^^ y).toNat, g) ∧ elemFn t opNot a a i p g = ((~~~x).toNat, g)
    ∧ elemFn t opMv a a i p g = (x.toNat, g)) ∧ (
  ∀ (t : Hart) (a b : VOp) (i p : Nat) (g : Lanes), isF t.ty = true → p < 2 ^ width t.ty →
    let F := formatOf t.ty
    let x := t.read (t.vstart ≠ 0) a (width t.ty) i
    let y := t.read (t.vstart ≠ 0) b (width t.ty) i
    let neg (c : Nat) : Bool := F.sign ≤ c
    let nan (c : Nat) : Bool := F.inf < c % F.sign
    let inf (c : Nat) : Bool := c % F.sign = F.inf
    let zero (c : Nat) : Bool := c % F.sign = 0
    let num (c : Nat) : Int := if neg c then -(F.mag (c % F.sign) : Nat) else F.mag (c % F.sign)
    let signed (n : Bool) (c : Nat) : Nat := if n then F.sign + c else c
    let isNan (r : Nat × Lanes) : Prop := r = (F.nan, g)
    let isInf (n : Bool) (r : Nat × Lanes) : Prop := r = (signed n F.inf, g)
    let rounds (n : Bool) (v : Nat → Nat → Ordering) (r : Nat × Lanes) : Prop :=
      Draws t.rnd i g (fun u c => F.RoundsTo t.rnd u false n v c) r
    let sum (c d : Nat) (v : Int) (k : Nat) (r : Nat × Lanes) : Prop :=
      if nan c || nan d || (inf c && inf d && neg c != neg d) then isNan r
      else if inf c then isInf (neg c) r
      else if inf d then isInf (neg d) r
      else rounds (if v = 0 then if neg c = neg d then neg c else t.rnd = 2 else v < 0) (ratio v.natAbs k) r
    let flip (c : Nat) : Nat := if neg c then c - F.sign else c + F.sign
    let prod : Nat :=
      if nan x || nan y || (inf x && zero y) || (zero x && inf y) then F.nan
      else if inf x || inf y then signed (neg x != neg y) F.inf
      else signed (neg x != neg y) (if zero x || zero y then 0 else 1)
    let e := F.unit
    let vp := num p * 2 ^ e + num x * num y
    let vm := num p * 2 ^ e - num x * num y
    sum x y (num x + num y) 1 (elemFn t opAdd a b i p g)
    ∧ sum x (flip y) (num x - num y) 1 (elemFn t opSub a b i p g)
    ∧ (let r := elemFn t opMul a b i p g
       if nan prod then isNan r else if inf prod then isInf (neg prod) r
       else rounds (neg x != neg y) (ratio (num x * num y).natAbs (2 ^ e)) r)
    ∧ (let r := elemFn t opDiv a b i p g
       if nan x || nan y || (inf x && inf y) || (zero x && zero y) then isNan r
       else if inf x || zero y then isInf (neg x != neg y) r
       else if inf y then rounds (neg x != neg y) (ratio 0 1) r
       else rounds (neg x != neg y) (ratio ((num x).natAbs * 2 ^ e) (num y).natAbs) r)
    ∧ sum p prod vp (2 ^ e) (elemFn t opFma a b i p g)
    ∧ sum p (flip prod) vm (2 ^ e) (elemFn t opFms a b i p g)
    ∧ fnmaFn t a b i p g = (let r := elemFn t opFma a b i p g
        (if nan r.1 then r.1 else flip r.1, r.2))
    ∧ (let r := elemFn t opSqrt a a i p g
       if nan x || (neg x && !zero x) then isNan r else if inf x then isInf false r
       else rounds (neg x) (rootOf ((num x).natAbs * 2 ^ e) 1) r)
    ∧ (let r := elemFn t opRcp a a i p g
       if nan x then isNan r else if zero x then isInf (neg x) r
       else if inf x then rounds (neg x) (ratio 0 1) r
       else rounds (neg x) (ratio (2 ^ (2 * e)) (num x).natAbs) r)
    ∧ (let r := elemFn t opRsq a a i p g
       if nan x || (neg x && !zero x) then isNan r else if zero x then isInf (neg x) r
       else if inf x then rounds false (ratio 0 1) r
       else rounds false (rootOf (2 ^ (3 * e)) (num x).natAbs) r)
    ∧ (let lesser (c d : Nat) : Bool := num c < num d || (num c = num d && neg c && !neg d)
       let pick (r : Nat × Lanes) (z : Nat) : Prop := r = (if nan x then if nan y then F.nan else y else if nan y then x else z, g)
       pick (elemFn t opMin a b i p g) (if lesser y x then y else x) ∧ pick (elemFn t opMax a b i p g) (if lesser x y then y else x))
    ∧ elemFn t opAbs a a i p g = (x % F.sign, g) ∧ elemFn t opNeg a a i p g = (flip x, g)) ∧ (
  ∀ (t : Hart) (a : VOp) (f i p : Nat) (g : Lanes), f ≤ 13 → f ≠ 5 → t.ty ≤ 13 → t.ty ≠ 5 →
    let c := t.read (t.vstart ≠ 0) a (width f) i
    let S := formatOf f
    let D := formatOf t.ty
    let w := width t.ty
    let neg : Bool := S.sign ≤ c
    let m := c % S.sign
    let nan : Bool := if f = 3 then m = 0x7F else S.inf < m
    let int : Int := if isS f then (BitVec.ofNat (width f) c).toInt else (BitVec.ofNat (width f) c).toNat
    let lo : Int := if isS t.ty then -(2 ^ (w - 1) : Nat) else 0
    let hi : Int := if isS t.ty then (2 ^ (w - 1) : Nat) - 1 else (2 ^ w : Nat) - 1
    let put (v : Int) : Nat := (BitVec.ofInt w v).toNat
    let clamped (v : Int) : Nat := put (max lo (min hi v))
    let toFloat (exact n : Bool) (x k : Nat) (r : Nat × Lanes) : Prop :=
      if exact then D.RoundsTo 0 0 false n (ratio x k) r.1 ∧ r.2 = g
      else Draws t.rnd i g (fun u c => D.RoundsTo t.rnd u t.sat n (ratio x k) c) r
    let toInt (n : Bool) (x k : Nat) (r : Nat × Lanes) : Prop :=
      Draws t.rnd i g (fun u c => ∃ q, RoundsTo id t.rnd u n (ratio x k) q ∧
        let v : Int := if n then -(q : Int) else q
        c = if lo ≤ v ∧ v ≤ hi then put v else if t.sat then clamped v else 2 ^ (w - 1)) r
    let b := t.scaleOf (t.vstart ≠ 0) a i
    let q := t.read (t.vstart ≠ 0) a 4 i
    let eighths : Nat := if b / 64 = 0 then if q < 8 then 8 * q else 8 * (16 - q) else
      (if b / 64 = 1 then [0, 4, 8, 12, 16, 24, 32, 48] else if b / 64 = 2 then [0, 1, 2, 4, 8, 16, 32, 64]
       else [0, 8, 16, 24, 32, 48, 64, 96]).getD (q % 8) 0
    (let r := cvtFn t f a i p g
     if f ≤ 4 ∧ t.ty ≤ 4 then
       if nan then r = (D.nan, g)
       else if m = S.inf then r = ((if neg then D.sign else 0) + (if t.sat ∧ t.ty = 3 then D.max else D.inf), g)
       else toFloat (f = t.ty || width f < w) neg (S.mag m * 2 ^ D.unit) (2 ^ S.unit) r
     else if f ≤ 4 then
       if nan then r = (if t.sat then 0 else 2 ^ (w - 1), g)
       else if m = S.inf then r = (if t.sat then put (if neg then lo else hi) else 2 ^ (w - 1), g)
       else toInt neg (S.mag m) (2 ^ S.unit) r
     else if t.ty ≤ 4 then toFloat false (int < 0) (int.natAbs * 2 ^ D.unit) 1 r
     else r = (if t.sat then clamped int else put int, g))
    ∧ (let r := cvtQ4Fn t a i p g
       if t.ty ≤ 4 then toFloat (t.ty ≤ 1) (8 ≤ q) (eighths * 2 ^ (b % 64) * 2 ^ D.unit) (2 ^ 35) r
       else toInt (8 ≤ q) (eighths * 2 ^ (b % 64)) (2 ^ 35) r))

/-- vsel writes every element from vstart to vl − 1, or to the element where it is cut, a's where the guard holds and b's where it
does not; the mode's zeroing plays no part (R34, R80). The permutes, slides, vinsr and ptrd: what each active element takes, with inactive ones as the mode
says (R84, R85, R132). vextr and vlast write one s register: an element, sign-extended for s types and zero-extended for the
others, or 0 or the given default where there is none (R85, R101). That ptrd takes the sum of its record number exactly is the
model's reading (log 49). -/
def Obligations.VectorMovement : Prop := (
  ∀ (s : State) (d a b : VOp) (e : Nat), d.writable = true → s.VectorReady okB [d, a, b] →
    let u := s.hart s.me
    let w := width u.ty
    let re : Bool := u.vstart ≠ 0
    s.endsAt u.vl e → Completes (.vsel d a b) s (fun t => ∃ img : VReg,
      (∀ i, elt w img.data i = if u.vstart ≤ i ∧ i < e then (if u.active i then u.read re a w i else u.read re b w i) % 2 ^ w
        else elt w (u.vreg (vopIndex d)).data i)
      ∧ img.rows = max (u.vreg (vopIndex d)).rows (u.rowsOf w (if u.vstart < e then e else 0))
      ∧ s.FileMoves d w u.vstart e img t ∧ s.EndFrame u.vl e t ∧ s.SameBytes t)) ∧ (
  ∀ (s : State) (d a b : VOp) (k : BitVec 8) (r q : BitVec 4) (v : BitVec 5) (f p : BitVec 2), d.writable = true →
    let u := s.hart s.me
    let w := width u.ty
    let prior (i : Nat) := elt w (u.vreg (vopIndex d)).data i
    let gives (regs : List VOp) (i : Instr) (e : Nat → Nat) : Prop :=
      s.VectorReady okB regs → Completes i s (s.WholeResult d u.vl (fun i => if u.active i then e i else u.idleElem d i))
    let j := (s.getS q).toNat
    let record (i : Nat) : Nat := leNat ((List.range 8).map (fun m => Tab.get 0 u.pt (4096 * p.toNat + 8 * ((s.getS r).toNat + i) + m)))
    gives [d, a, b] (.vperm d a b) (fun i => if u.elem b i < u.vl then u.elem a (u.elem b i) else 0)
    ∧ gives [d, a] (.vslup d a k) (fun i => if i < k.toNat then prior i else u.elem a (i - k.toNat))
    ∧ gives [d, a] (.vsldn d a k) (fun i => if i + k.toNat < u.vl then u.elem a (i + k.toNat) else 0)
    ∧ (s.VectorReady okB [.main v] → Completes (.vinsr r q v) s (s.WholeResult (.main v) (if j < u.vl then j + 1 else 0)
        (fun i => if i = j then (s.getS r).toNat else elt w (u.vreg v.toNat).data i)))
    ∧ (s.VectorReady (fun t => t.ty = 0 || t.ty = 8 || t.ty = 12) [.main v] → Completes (.ptrd r v f p) s
        (s.WholeResult (.main v) u.vl (fun i =>
          if u.active i then
            if (s.getS r).toNat + i < 512 then
              (if f = 0 then record i / 2 ^ 32 else if f = 1 then record i % 2 else if f = 2 then record i / 2 % 2 ^ 30
               else record i / 2 ^ 31 % 2)
            else 0
          else u.idleElem (.main v) i)))) ∧ (
  ∀ (s : State) (a b : BitVec 4) (v : BitVec 5), s.VectorReady okB [.main v] →
    let u := s.hart s.me
    let w := width u.ty
    let word (i : Nat) : W64 :=
      if isS u.ty then (BitVec.ofNat w (u.elem (.main v) i)).signExtend 64 else (BitVec.ofNat w (u.elem (.main v) i)).setWidth 64
    let j := (s.getS b).toNat
    Completes (.vextr a b v) s (s.ScalarResult true a (if j < u.vl then word j else 0))
    ∧ ((∀ i, i < u.vl → u.active i = false) → Completes (.vlast a b v) s (s.ScalarResult true a (s.getS b)))
    ∧ (∀ i, i < u.vl → u.active i = true → (∀ m, i < m → m < u.vl → u.active m = false) →
        Completes (.vlast a b v) s (s.ScalarResult true a (word i))))

/-- The reductions fold the active elements below vl in ascending order onto element 0 of b, rounding at each step, and leave the
result in element 0 alone; the scan leaves each partial result in its element; with vl = 0 nothing is written (R83). A comparison writes bits
vstart to vl − 1 of its mask by the guard, or to the element where it is cut, compares floats so that a NaN operand is unordered,
and changes no vector register (R34, R82). -/
def Obligations.ReductionsAndComparisons : Prop := (
  ∀ (s : State) (d a b : VOp), d.writable = true →
    let u := s.hart s.me
    let folded (f : ElemOp) (n : Nat) : Nat :=
      ((u.activeBelow n).foldl (fun (x : Nat × Lanes) i => (f u.ty u.rnd u.sat x.1 (u.elem a i) 0).narrow u.ty u.rnd u.sat x.2 i)
        (u.elem b 0, u.rng)).1
    let gives (ok : Hart → Bool) (i : Instr) (f : ElemOp) : Prop :=
      s.VectorReady ok [d, a, b] → Completes i s (s.WholeResult d (if u.vl = 0 then 0 else 1) (fun _ => folded f u.vl))
    gives okFI (.vredsum d a b) opAdd ∧ gives okFI (.vredmax d a b) (roundedStep opMax)
    ∧ gives okFI (.vredmin d a b) (roundedStep opMin)
    ∧ gives okI (.vredand d a b) opAnd ∧ gives okI (.vredor d a b) opOr
    ∧ (s.VectorReady okFI [d, a, b] → Completes (.vscan d a b) s
        (s.WholeResult d u.vl (fun i => if u.active i then folded opAdd (i + 1) else u.idleElem d i)))) ∧ (
  ∀ (s : State) (k : BitVec 3) (a b : VOp), s.VectorReady okFI [a, b] →
    let u := s.hart s.me
    let x (i : Nat) := u.elem a i
    let y (i : Nat) := u.elem b i
    let order (i : Nat) : Option Ordering :=
      if isF u.ty then (decodeFloat u.ty (x i)).cmp (decodeFloat u.ty (y i))
      else some (compare (intOf u.ty (x i)) (intOf u.ty (y i)))
    let gives (i : Instr) (c : Option Ordering → Prop) [∀ o, Decidable (c o)] : Prop :=
      let bit (e i : Nat) : Bool :=
        let prior := (Tab.get 0 u.k k.toNat).testBit i
        if u.vstart ≤ i ∧ i < e then
          if u.active i then decide (c (order i)) else if mZero u.mode then false else prior
        else prior
      Completes i s (fun t => (∀ e, s.cutAt u.vl e → s.MaskStop k e (bit e) t)
        ∧ ((∀ e, ¬ s.cutAt u.vl e) → s.MaskResult k (bit u.vl) t))
    gives (.vceq k a b) (· = some .eq) ∧ gives (.vcne k a b) (· ≠ some .eq) ∧ gives (.vclt k a b) (· = some .lt)
    ∧ gives (.vcle k a b) (fun o => o = some .lt ∨ o = some .eq) ∧ gives (.vcgt k a b) (· = some .gt)
    ∧ gives (.vcge k a b) (fun o => o = some .gt ∨ o = some .eq))

/-! ### Masks, s registers, mode and length -/

/-- The mask instructions write bits 0 to vl − 1 of one mask and keep the rest; kpop and kfirst count and find set bits
below vl (R86). kbefore and kthrough: the break element is the lowest active one below vl whose condition bit is set; the
mask keeps the active elements before it, with kthrough the break element too; the form with an s register writes its number
there (R98). With their encodings in format VK, of which the bits that an entry does not name are reserved, the fields ka and kb
of kset among them. -/
def Obligations.Masks : Prop := (
  ∀ (s : State) (d a b : BitVec 3) (r : BitVec 4), s.isVector = true →
    let u := s.hart s.me
    let bit (k : BitVec 3) (i : Nat) : Bool := (Tab.get 0 u.k k.toNat).testBit i
    let gives (i : Instr) (f : Nat → Bool) : Prop := Completes i s (s.MaskResult d (fun i => if i < u.vl then f i else bit d i))
    gives (.kand d a b) (fun i => bit a i && bit b i) ∧ gives (.kor d a b) (fun i => bit a i || bit b i)
    ∧ gives (.kxor d a b) (fun i => bit a i ^^ bit b i) ∧ gives (.kandn d a b) (fun i => bit a i && !bit b i)
    ∧ gives (.kset d) (fun _ => true) ∧ gives (.ksetClear d) (fun _ => false)
    ∧ Completes (.kpop a r) s (s.ScalarResult true r (BitVec.ofNat 64 ((List.range u.vl).filter (bit a)).length))
    ∧ Completes (.kfirst a r) s (s.ScalarResult true r (BitVec.ofNat 64 (((List.range u.vl).find? (bit a)).getD u.vl)))
    ∧ (∀ n, n < 2 ^ 15 →
      let reads (op : Nat) : Except Reason Instr := decode (op * 2 ^ 24 + d.toNat * 2 ^ 21 + a.toNat * 2 ^ 18 + b.toNat * 2 ^ 15 + n)
      let named (op : Nat) (i : Instr) : Prop := reads op = if n = 0 then .ok i else .error .reservedBit
      let counts (op : Nat) (i : Instr) : Prop := n % 2 ^ 4 = r.toNat →
        reads op = if d = 0 ∧ b = 0 ∧ n < 2 ^ 4 then .ok i else .error .reservedBit
      named 0x77 (.kand d a b) ∧ named 0x78 (.kor d a b) ∧ named 0x79 (.kxor d a b) ∧ named 0x7A (.kandn d a b)
      ∧ counts 0x7C (.kpop a r) ∧ counts 0x7D (.kfirst a r))
    ∧ ∀ n, n < 2 ^ 21 → decode (0x7B * 2 ^ 24 + d.toNat * 2 ^ 21 + n) =
        if 2 ^ 15 ≤ n then .error .reservedBit
        else if n = 0 then .ok (.kset d) else if n = 1 then .ok (.ksetClear d) else .error .reservedValue) ∧ (
  ∀ (s : State) (d a : BitVec 3) (w : Bool) (r : BitVec 4), s.isVector = true →
    let u := s.hart s.me
    let e := ((u.activeBelow u.vl).find? (fun i => (Tab.get 0 u.k a.toNat).testBit i)).getD u.vl
    let gives (i : Instr) (keep : Nat → Bool) : Prop :=
      Completes i s (fun t => ∃ m x, s.GoesOn { u with k := Tab.put 0 u.k d.toNat m, s := x, vstart := 0 } t
        ∧ (∀ i, m.testBit i = if i < u.vl then u.active i && keep i else (Tab.get 0 u.k d.toNat).testBit i)
        ∧ x = (if w then Tab.put 0 u.s r.toNat (BitVec.ofNat 64 e) else u.s))
    gives (.kbefore d a w r) (fun i => decide (i < e)) ∧ gives (.kthrough d a w r) (fun i => decide (i ≤ e))
    ∧ ∀ n, n < 2 ^ 18 →
      let reads (op : Nat) : Except Reason Instr := decode (op * 2 ^ 24 + d.toNat * 2 ^ 21 + a.toNat * 2 ^ 18 + n)
      let named (op : Nat) (i : Instr) : Prop := n % 2 ^ 4 = r.toNat → (n / 2 ^ 4 % 2 = 1 ↔ w = true) →
        reads op = if n < 2 ^ 5 ∧ (w = true ∨ r = 0) then .ok i else .error .reservedBit
      named 0x93 (.kbefore d a w r) ∧ named 0x94 (.kthrough d a w r))

/-- The s-register instructions (R87) with their encodings, the legal shift amounts and fields. vlen sets vl to the least of vlmax and the s
register; vmode replaces the selected fields of the mode register and lowers vl to the new type's vlmax when the type
changes; a mode with a reserved value is an illegal instruction (R26, R28, R88). -/
def Obligations.ScalarsModeAndLength : Prop := (
  ∀ (s : State) (a b c : BitVec 4) (n : BitVec 8) (i : BitVec 20), s.isVector = true →
    let u := s.hart s.me
    let x := s.getS b
    let y := s.getS c
    let gives (i : Instr) (v : W64) : Prop := Completes i s (s.ScalarResult false a v)
    gives (.sadd a b c) (x + y) ∧ gives (.ssub a b c) (x - y) ∧ gives (.smin a b c) (if x.toNat ≤ y.toNat then x else y)
    ∧ gives (.sminS a b c) (if x.toInt ≤ y.toInt then x else y) ∧ gives (.smax a b c) (if x.toNat ≤ y.toNat then y else x)
    ∧ gives (.smaxS a b c) (if x.toInt ≤ y.toInt then y else x) ∧ gives (.sand a b c) (x &&& y)
    ∧ (n.toNat ≤ 63 → gives (.sshli a b n) (x <<< n.toNat) ∧ gives (.sshri a b n) (x >>> n.toNat))
    ∧ (63 < n.toNat → Traps (.sshli a b n) s (illegal .reservedValue) ∧ Traps (.sshri a b n) s (illegal .reservedValue))
    ∧ gives (.sli a i) (i.signExtend 64)
    ∧ gives (.svl a 0) (BitVec.ofNat 64 u.vl) ∧ gives (.svl a 1) (BitVec.ofNat 64 (u.bytes * 8 / width u.ty))
    ∧ gives (.svl a 2) (BitVec.ofNat 64 (u.lg * 512 / width u.ty)) ∧ gives (.svl a 3) (BitVec.ofNat 64 u.lg)
    ∧ gives (.svl a 4) (BitVec.ofNat 64 ((u.loops.head?.map Loop.passes).getD 0))
    ∧ (∀ m : Nat, m < 6 → gives (.svl a (BitVec.ofNat 8 (8 + m))) ((innerNest u.loops).getD m 0))
    ∧ (∀ n z : Nat, n < 2 ^ 8 → z < 2 ^ 4 →
      let reads (op : Nat) : Except Reason Instr :=
        decode (op * 2 ^ 24 + a.toNat * 2 ^ 20 + b.toNat * 2 ^ 16 + c.toNat * 2 ^ 12 + z * 2 ^ 8 + n)
      let refused (op : Nat) : Prop := ∃ e, reads op = .error e
      let one (op : Nat) (i : Instr) : Prop := (z = 0 → n = 0 → reads op = .ok i) ∧ (z ≠ 0 ∨ n ≠ 0 → refused op)
      let two (op : Nat) (i j : Instr) : Prop := (z = 0 → n = 0 → reads op = .ok i) ∧ (z = 0 → n = 1 → reads op = .ok j)
        ∧ (z ≠ 0 ∨ 1 < n → refused op)
      let shift (op : Nat) (i : Instr) : Prop := (c = 0 → z = 0 → n ≤ 63 → reads op = .ok i) ∧ (c ≠ 0 ∨ z ≠ 0 ∨ 63 < n → refused op)
      let named : Prop := n < 5 ∨ (8 ≤ n ∧ n < 14)
      one 0x80 (.sadd a b c) ∧ one 0x81 (.ssub a b c) ∧ two 0x82 (.smin a b c) (.sminS a b c) ∧ two 0x83 (.smax a b c) (.smaxS a b c)
      ∧ one 0x84 (.sand a b c) ∧ shift 0x85 (.sshli a b (BitVec.ofNat 8 n)) ∧ shift 0x86 (.sshri a b (BitVec.ofNat 8 n))
      ∧ decode (0x87 * 2 ^ 24 + a.toNat * 2 ^ 20 + i.toNat) = .ok (.sli a i)
      ∧ (b = 0 → c = 0 → z = 0 → named → reads 0x88 = .ok (.svl a (BitVec.ofNat 8 n)))
      ∧ (b ≠ 0 ∨ c ≠ 0 ∨ z ≠ 0 ∨ ¬ named → refused 0x88)
      ∧ (b = 0 → c = 0 → z = 0 → n = 0 → reads 0x8A = .ok (.vlen a)) ∧ (b ≠ 0 ∨ c ≠ 0 ∨ z ≠ 0 ∨ n ≠ 0 → refused 0x8A))) ∧ (
  ∀ (s : State) (a : BitVec 4) (f : VModeFields), s.isVector = true →
    let u := s.hart s.me
    let m := applyMode f u.mode
    Completes (.vlen a) s (s.GoesOn { u with vl := min (u.bytes * 8 / width u.ty) (s.getS a).toNat })
    ∧ (f.illFormed = none → modeBad m = false →
        Completes (.vmode f) s (s.GoesOn { u with mode := m, vl := if mT m = u.ty then u.vl else min u.vl (u.bytes * 8 / width (mT m)) }))
    ∧ (modeBad m = true → Traps (.vmode f) s (illegal .reservedValue))
    ∧ mT m = (if f.selT then f.t.toNat else u.ty) ∧ mRnd m = (if f.selRnd then f.rnd.toNat else u.rnd)
    ∧ mSat m = (if f.selSat then f.sat else u.sat) ∧ mZero m = (if f.selM then f.m else mZero u.mode)
    ∧ mGen m = (if f.selG then f.gen else mGen u.mode) ∧ mGk m = (if f.selG then f.gk.toNat else mGk u.mode)
    ∧ mGneg m = (if f.selG then f.gneg else mGneg u.mode) ∧ mSc m = (if f.selSc then f.sc.toNat else mSc u.mode))

/-! ### Dependence -/

/-- The conflict, carry, compress, expand and grouping instructions (R9, R12, R100, R102, R103) with their register results.
vpart and vgrp (R10, R103). The run that vpart writes starts at the lowest pending element and ends before the first later
one whose dependence is neither none nor below the start; vgrp lists the active elements in rising order of key and number,
and marks where a run of one key begins. -/
def Obligations.DependenceAndGroups : Prop := (
  ∀ (s : State) (d a b : VOp), d.writable = true →
    let u := s.hart s.me
    let w := width u.ty
    let acts := u.activeBelow u.vl
    let twin (i n : Nat) : List Nat := (u.activeBelow n).filter (fun j => u.elem a j == u.elem a i)
    (s.VectorReady okWide [d, a] → Completes (.vconf d a) s (s.WholeResult d u.vl (fun i =>
        if u.active i then (twin i i).getLast?.getD (2 ^ w - 1) else u.idleElem d i)))
    ∧ (s.VectorReady okB [d, a, b] → Completes (.vcprop d a b) s (s.WholeResult d u.vl (fun i =>
        match (u.activeBelow (i + 1)).getLast? with | some j => u.elem a j | none => u.elem b 0)))
    ∧ (s.VectorReady okB [d, a] → Completes (.vcomp d a) s (s.WholeResult d u.vl (fun i =>
        match acts[i]? with | some j => u.elem a j | none => u.idleElem d i)))
    ∧ (s.VectorReady okB [d, a] → Completes (.vexpand d a) s (s.WholeResult d u.vl (fun i =>
        if u.active i then u.elem a (u.activeBelow i).length else u.idleElem d i)))
    ∧ (∀ k : BitVec 3, s.VectorReady okWide [d, a] → Completes (.vconfc d a k) s (s.MaskAndWhole k
        (fun i => if i < u.vl then u.active i && (twin i u.vl).all (fun j => decide (j ≤ i)) else (Tab.get 0 u.k k.toNat).testBit i)
        d u.vl (fun i => if u.active i then (twin i i).length else u.idleElem d i)))) ∧ (
  ∀ (s : State) (d a : VOp) (k p : BitVec 3),
    let u := s.hart s.me
    let w := width u.ty
    let prior (i : Nat) : Bool := (Tab.get 0 u.k k.toNat).testBit i
    let pending (i : Nat) : Prop := i < u.vl ∧ u.active i = true ∧ (Tab.get 0 u.k p.toNat).testBit i = true
    let key (i : Nat) : Int := if isS u.ty then (BitVec.ofNat w (u.elem a i)).toInt else (BitVec.ofNat w (u.elem a i)).toNat
    (s.VectorReady okWide [a] →
      ((∀ i, ¬ pending i) → Completes (.vpart k a p) s (s.MaskResult k (fun i => if i < u.vl then false else prior i)))
      ∧ (∀ lo q, pending lo → (∀ i, pending i → lo ≤ i) → lo < q → q ≤ u.vl →
          (∀ i, pending i → lo < i → i < q → u.elem a i = 2 ^ w - 1 ∨ u.elem a i < lo) →
          (q = u.vl ∨ (pending q ∧ u.elem a q ≠ 2 ^ w - 1 ∧ lo ≤ u.elem a q)) →
          Completes (.vpart k a p) s (s.MaskResult k (fun i =>
            if i < u.vl then u.active i && (Tab.get 0 u.k p.toNat).testBit i && decide (i < q) else prior i))))
    ∧ (d.writable = true → s.VectorReady okGrp [d, a] → ∃ l : List Nat, l.Perm (u.activeBelow u.vl)
        ∧ l.Pairwise (fun i j => key i < key j ∨ (key i = key j ∧ i < j))
        ∧ Completes (.vgrp d a k) s (s.MaskAndWhole k
            (fun j => if j < u.vl then decide (j < l.length) && (j == 0 || l[j]?.map (u.elem a) != l[j - 1]?.map (u.elem a)) else prior j)
            d u.vl (fun j => match l[j]? with | some i => i | none => u.idleElem d j))))

/-- vfchk moves the covered fault bits below vl into a mask and clears them; vfchk.r traps for the lowest covered one and
changes no fault bit, or, where there is none, clears nothing (R105). Of the word's low 18
bits only fn[0] may be set, and kd must be zero in the second form. That the trap's record names the element in its detail and
leaves its elem field 0 is the model's choice (log 97), and so is what the statement says of that field. -/
def Obligations.VectorFaultMask : Prop :=
  ∀ (s : State) (d a : BitVec 3), s.isVector = true →
    let u := s.hart s.me
    let covered (i : Nat) : Bool := decide (i < u.vl) && u.fm.testBit i && (Tab.get 0 u.k a.toNat).testBit i
    Completes (.vfchk d a) s (fun t => ∃ m f, s.GoesOn { u with k := Tab.put 0 u.k d.toNat m, fm := f, vstart := 0 } t
      ∧ (∀ i, m.testBit i = if i < u.vl then covered i else (Tab.get 0 u.k d.toNat).testBit i)
      ∧ (∀ i, f.testBit i = (u.fm.testBit i && !covered i)))
    ∧ ((∀ i, covered i = false) → Completes (.vfchkR a) s (s.GoesOn { u with vstart := 0 }))
    ∧ (∀ i, covered i = true → (∀ j, j < i → covered j = false) →
        exec (.vfchkR a) s = .next ((s.setHart s.me { u with vstart := 0 }).takeTrap { cls := 0x09, detail := BitVec.ofNat 64 i }))
    ∧ (∀ n, n < 2 ^ 18 → decode (0x99 * 2 ^ 24 + d.toNat * 2 ^ 21 + a.toNat * 2 ^ 18 + n) =
        if n = 0 then .ok (.vfchk d a) else if n = 1 ∧ d = 0 then .ok (.vfchkR a) else .error .reservedBit)

/-! ### Loops -/

/-- The loop instructions (R89): the count is read once; a count of 0, a zero register or a nest with a zero count goes to
the loop's end; else an entry is pushed, or a trap is taken where four are held. The end check (R90): at the end of the top
entry's body a further pass goes back to the body's start, where the check is due again if the body is empty; otherwise the
entry is popped and the check goes on with the next one. A nest counts its indices with carry, level 0 fastest. -/
def Obligations.LoopsOfTheVectorStream : Prop := (
  ∀ (s : State) (n : BitVec 4) (o : BitVec 19), s.isVector = true →
    let u := s.hart s.me
    let stop : W48 := u.vpc + BitVec.ofInt 48 (o.toInt * s.wordBytes s.cur)
    let six := (List.range 6).map (fun j => s.readS s.me (n.toNat + j))
    let fits : Prop := 0 < o.toInt ∧ ∀ l, u.loops.head? = some l → stop.toNat ≤ l.stop.toNat
    let skips (i : Instr) : Prop := Completes i s (fun t => t = s.setHart s.me { u with vpc := stop, check := !u.loops.isEmpty })
    let pushes (i : Instr) (k : LoopKind) : Prop :=
      (u.loops.length < 4 → Completes i s (s.GoesOn { u with loops := ⟨k, stop, s.nextPc.setWidth 48, 0⟩ :: u.loops }))
      ∧ (4 ≤ u.loops.length → Traps i s { cls := 0x08 })
    (fits →
      (s.getS n = 0 → skips (.vloop n o) ∧ skips (.vloopnz n o))
      ∧ (s.getS n ≠ 0 → pushes (.vloop n o) (.count (s.getS n)) ∧ pushes (.vloopnz n o) (.nz n.toNat))
      ∧ (n.toNat ≤ 10 → (0 ∈ six → skips (.vnest n o)) ∧ (0 ∉ six → pushes (.vnest n o) (.nest six (List.replicate 6 0))))
      ∧ (10 < n.toNat → Traps (.vnest n o) s (illegal .reservedValue)))
    ∧ (¬ fits → Traps (.vloop n o) s (illegal .reservedValue) ∧ Traps (.vloopnz n o) s (illegal .reservedValue)
        ∧ Traps (.vnest n o) s (illegal .reservedValue))) ∧ (
  ∀ (s : State) (h : Nat),
    let u := s.hart h
    let i : Instr := .loopEndCheck h
    (s.running h = false → Waits i s) ∧
    (s.running h = true → ((u.check = false ∨ ∀ l, u.loops.head? = some l → u.vpc ≠ l.stop) →
      Completes i s (fun t => t = s.setHart h { u with check := false }))
    ∧ (∀ l rest, u.check = true → u.loops = l :: rest → u.vpc = l.stop → u.loops.length ≤ 4 →
      let back (k : LoopKind) : Prop := Completes i s (fun t => t = s.setHart h
        { u with vpc := l.start, loops := { l with kind := k, passes := l.passes + 1 } :: rest, check := l.start == l.stop })
      let pops : Prop := exec i s = exec i (s.setHart h { u with loops := rest })
      (∀ r, l.kind = .count r → if r = 1 then pops else back (.count (r - 1)))
      ∧ (∀ n, l.kind = .nz n → if s.readS h n = 0 then pops else back (.nz n))
      ∧ (∀ cs is, l.kind = .nest cs is → cs.length = is.length →
          ((∀ m : Nat, m < is.length → is.getD m 0 + 1 = cs.getD m 0) → pops)
          ∧ (∀ m : Nat, m < is.length → (∀ j : Nat, j < m → is.getD j 0 + 1 = cs.getD j 0) → is.getD m 0 + 1 ≠ cs.getD m 0 →
              back (.nest cs (List.replicate m 0 ++ (is.getD m 0 + 1) :: is.drop (m + 1))))))))

/-! ### Loads, stores and atomics of the control stream -/

/-- The loads (R64, R186): where the access is performed by its checks, rd takes the bytes, sign- or zero-extended: from the
core's L1 where it holds them all, else from home with the core's own stores in place, and then the line's other L1 bytes are as
they stand at home: the invalid ones are filled (R186), and the clean ones taken again as R251 refreshes them on a read at home (that
a fill is such a read is the model's reading, log 25); no byte of memory is written. The stores (R64, R186): the low bytes of the register replace
the bytes at the address the access's checks give, in the scratchpad or the core's L1; every other byte, register and unit
is as before. -/
def Obligations.ScalarLoadsAndStores : Prop := (
  ∀ (s : State) (d a : BitVec 5) (i : BitVec 14) (p : Place), s.isControl = true →
    let gives (instr : Instr) (n : Nat) (f : Nat → W64) : Prop :=
      s.resolve s.cur (s.getX a + i.signExtend 64) n .load = .ok p → s.loadReady n p →
        Completes instr s (s.LoadResult n p d (f (s.loadValue false n p)))
    gives (.ld d a i) 8 (BitVec.ofNat 64)
    ∧ gives (.lw d a i) 4 (fun v => (BitVec.ofNat 32 v).signExtend 64) ∧ gives (.lwu d a i) 4 (fun v => (BitVec.ofNat 32 v).setWidth 64)
    ∧ gives (.lh d a i) 2 (fun v => (BitVec.ofNat 16 v).signExtend 64) ∧ gives (.lhu d a i) 2 (fun v => (BitVec.ofNat 16 v).setWidth 64)
    ∧ gives (.lb d a i) 1 (fun v => (BitVec.ofNat 8 v).signExtend 64) ∧ gives (.lbu d a i) 1 (fun v => (BitVec.ofNat 8 v).setWidth 64)) ∧ (
  ∀ (s : State) (x a : BitVec 5) (i : BitVec 14) (p : Place), s.isControl = true →
    let gives (instr : Instr) (n : Nat) : Prop :=
      s.resolve s.cur (s.getX a + i.signExtend 64) n .store = .ok p → s.storeReady n p →
        Completes instr s (fun t => ∃ u, s.Stores p n (s.getX x).toNat u ∧ u.ControlResult 0 0 s.nextPc t)
    gives (.std x a i) 8 ∧ gives (.stw x a i) 4 ∧ gives (.sth x a i) 2 ∧ gives (.stb x a i) 1)

/-- The checks of an access and their order (R58, R282): beyond the address space or the declared scratchpad, out of
alignment, not translated. A load or a store whose access fails traps and does nothing else. Translation (R281, R282): at
each entry of the walk reason 5, then 1, then 3, then a leaf or the next table; at a leaf reason 4, then 2; with the page that
the failure concerns (R215). That a walk's own poisoned read is reported with kind 7 and size 3, that a malformed leaf
names its own page, and that an entry above level 3 with the bit g64 is malformed, are the model's readings (logs 14, 15, 34). -/
def Obligations.AccessChecks : Prop :=
  ∀ (s : State) (d a : BitVec 5) (i : BitVec 14) (tr : Trap), s.isControl = true →
    let ea := s.getX a + i.signExtend 64
    let stops (instr : Instr) (n : Nat) (k : Access) : Prop := s.resolve s.cur ea n k = .error tr → Traps instr s tr
    stops (.ld d a i) 8 .load ∧ stops (.lw d a i) 4 .load ∧ stops (.lwu d a i) 4 .load ∧ stops (.lh d a i) 2 .load
    ∧ stops (.lhu d a i) 2 .load ∧ stops (.lb d a i) 1 .load ∧ stops (.lbu d a i) 1 .load ∧ stops (.std d a i) 8 .store
    ∧ stops (.stw d a i) 4 .store ∧ stops (.sth d a i) 2 .store ∧ stops (.stb d a i) 1 .store
    ∧ (∀ h n k, s.cur = .ctrl h →
        let team := s.team (teamOf h)
        let at_ (cls : Nat) : Trap := { cls := cls, addr := ea, acc := k.code, sz := log2 n }
        let off := ea.toNat - 0xFF0000000000
        let window : Prop := 0xFF0000000000 ≤ ea.toNat ∧ ea.toNat < 0xFF0000000000 + 320 * 1024
        (2 ^ 48 ≤ ea.toNat → s.resolve s.cur ea n k = .error (at_ 0x02))
        ∧ (window → 4096 * (team.shape.extractLsb' 24 8).toNat < off + n → s.resolve s.cur ea n k = .error (at_ 0x02))
        ∧ (window → off + n ≤ 4096 * (team.shape.extractLsb' 24 8).toNat → ea.toNat % n ≠ 0 →
            s.resolve s.cur ea n k = .error (at_ 0x03))
        ∧ (window → off + n ≤ 4096 * (team.shape.extractLsb' 24 8).toNat → ea.toNat % n = 0 →
            s.resolve s.cur ea n k = .ok (.spad (teamOf h) off))
        ∧ (ea.toNat < 2 ^ 48 → ¬ window → ea.toNat % n ≠ 0 → s.resolve s.cur ea n k = .error (at_ 0x03))
        ∧ (ea.toNat < 2 ^ 48 → ¬ window → ea.toNat % n = 0 → ∀ f, s.translate team.core team.ctx ea.toNat k = .error f →
            s.resolve s.cur ea n k = .error { at_ 0x05 with
              acc := if f.reason = 5 then 7 else k.code, sz := if f.reason = 5 then 3 else log2 n,
              rsn := f.reason, base := f.base, size := f.size })
        ∧ (ea.toNat < 2 ^ 48 → ¬ window → ea.toNat % n = 0 → ∀ pa, s.translate team.core team.ctx ea.toNat k = .ok pa →
            s.resolve s.cur ea n k = .ok (.mem pa)))
    ∧ (∀ va l table, l < 4 →
        let slot := table + 8 * (va / 2 ^ (39 - 9 * l) % 512)
        let e := s.entryAt slot
        let leaf := e.getLsbD 1 || e.getLsbD 2 || e.getLsbD 3
        let g64 := e.getLsbD 5
        let size := if l = 3 && g64 then 65536 else 2 ^ (39 - 9 * l)
        let whole := if leaf && l ≠ 0 then size else 4096
        let first := slot / 128 * 128
        let fails (r z : Nat) : Prop := s.walk va (4 - l) table = .error ⟨r, va / z * z, z⟩
        let clean : Prop := s.poisoned (slot / 64) = false
        let read : Prop := l = 3 ∧ leaf = true ∧ g64 = true → s.poisoned (first / 64) = false ∧ s.poisoned (first / 64 + 1) = false
        let bad : Prop := e.extractLsb' 52 12 ≠ 0 ∨ e.extractLsb' 6 6 ≠ 0 ∨ e.getLsbD 4 = true ∨ (g64 = true ∧ l ≠ 3) ∨ (e.getLsbD 2 = true ∧ e.getLsbD 1 = false)
          ∨ (leaf = true ∧ l = 0) ∨ (leaf = false ∧ l = 3) ∨ (leaf = true ∧ l ≠ 3 ∧ entryPa e % size ≠ 0)
          ∨ (leaf = false ∧ 4000000000 * s.channels ≤ entryPa e + 4095)
          ∨ (leaf = true ∧ g64 = true ∧ ∃ i, i < 16 ∧ let f := s.entryAt (first + 8 * i)
              f &&& ~~~0xF000 ≠ e &&& ~~~0xF000 ∨ (f.extractLsb' 12 4).toNat ≠ i)
        table % 4096 = 0 →
        (¬ clean → fails 5 4096)
        ∧ (clean → e.getLsbD 0 = false → fails 1 4096)
        ∧ (clean → e.getLsbD 0 = true → ¬ read → fails 5 65536)
        ∧ (clean → e.getLsbD 0 = true → read → bad → fails 3 whole)
        ∧ (clean → e.getLsbD 0 = true → read → ¬ bad → leaf = true → s.walk va (4 - l) table = .ok ⟨va / size * size, size, e⟩)
        ∧ (clean → e.getLsbD 0 = true → read → ¬ bad → leaf = false → s.walk va (4 - l) table = s.walk va (3 - l) (entryPa e)))
    ∧ (∀ (views : Bool) root va k,
        (4000000000 * s.channels ≤ root + 4095 → s.translateRoot views root va k = .error ⟨3, va / 4096 * 4096, 4096⟩)
        ∧ (root + 4095 < 4000000000 * s.channels →
          (∀ f, s.walk va 4 root = .error f → s.translateRoot views root va k = .error f)
          ∧ ∀ p, s.walk va 4 root = .ok p →
            let pa := entryPa p.leaf / p.size * p.size
            let there : Prop := s.mapped pa = true ∧ s.mapped (pa + p.size - 1) = true ∧ (pa / 2 ^ 48 = 15 → views = true ∧ k ≠ .fetch)
            let may : Prop := match k with
              | .load | .engRead => p.leaf.getLsbD 1 = true
              | .store | .engWrite => p.leaf.getLsbD 2 = true
              | .atomic => p.leaf.getLsbD 1 = true ∧ p.leaf.getLsbD 2 = true
              | .fetch => p.leaf.getLsbD 3 = true
            (¬ there → s.translateRoot views root va k = .error ⟨4, p.base, p.size⟩)
            ∧ (there → ¬ may → s.translateRoot views root va k = .error ⟨2, p.base, p.size⟩)
            ∧ (there → may → s.translateRoot views root va k = .ok (pa + va % p.size))))

/-- The scalar atomics (R236, R237): rd takes the old value, sign-extended by the signed .w forms alone; the bytes take the new
one; compare-and-swap writes only where the old value is x[rd]'s; every other byte is as before. At any scope but tm, and always
at host memory, the step is done at the home slice: the bytes stand there and their line has left the core's L1 (R193, R232). With
ord's release bit every other byte the core stored stands at home too, and with its acquire bit no clean byte is left in the
core's L1 (R188, R237; that a release takes the host window's bytes along at every scope but tm is log 24). -/
def Obligations.ScalarAtomics : Prop :=
  ∀ (s : State) (d a b : BitVec 5) (o : BitVec 2) (w : Bool) (sc : Scope) (p : Place), s.isControl = true →
    let n := if w then 4 else 8
    let core := s.coreOf s.cur
    let old := s.loadValue (atHome p sc) n p
    let y := (s.getX b).toNat % 2 ^ (8 * n)
    let int (v : Nat) : Int := (BitVec.ofNat (8 * n) v).toInt
    s.resolve s.cur (s.getX a) n .atomic = .ok p → s.atomicReady (atHome p sc) n p → (o.getLsbD 1 = true → s.releaseReady sc) →
    let gives (instr : Instr) (signed : Bool) (new : Option Nat) : Prop :=
      Completes instr s (fun t => ∃ u, s.Rewrites p n new u ∧ (atHome p sc = true → u.standsHome core n p)
        ∧ (o.getLsbD 1 = true → s.releasedBut core sc n p u) ∧ (o.getLsbD 0 = true → State.acquired core sc u)
        ∧ u.ControlResult d (if signed && w then (BitVec.ofNat 32 old).signExtend 64 else BitVec.ofNat 64 old) s.nextPc t)
    gives (.amoAdd d a b o w sc) false (some (old + y)) ∧ gives (.amoAnd d a b o w sc) false (some (old &&& y))
    ∧ gives (.amoOr d a b o w sc) false (some (old ||| y)) ∧ gives (.amoXor d a b o w sc) false (some (old ^^^ y))
    ∧ gives (.amoMin d a b o w sc) true (some (if int y < int old then y else old))
    ∧ gives (.amoMinu d a b o w sc) false (some (min old y))
    ∧ gives (.amoMax d a b o w sc) true (some (if int old < int y then y else old))
    ∧ gives (.amoMaxu d a b o w sc) false (some (max old y)) ∧ gives (.amoSwp d a b o w sc) false (some y)
    ∧ gives (.amoCas d a b o w sc) false (if old = (s.getX d).toNat % 2 ^ (8 * n) then some y else none)

/-- ldacq, strel and the fences (R188, R239, R240): ldacq reads at home, and then, but at tm, no clean byte is left in the
core's L1; strel's bytes and, at every scope but tm, everything the core stored before stand at home, strel's own at tm too in
host memory (R232); a release leaves every byte of the core's stores at home, an acquire drops the clean bytes, and neither
changes a byte as the core's own stores give it. It rests on readings of the model's own: that host-window bytes leave the L1 at
every release beyond tm (log 24) and that a verge core has an L1 of its own (log 10). -/
def Obligations.OrderedAccesses : Prop :=
  ∀ (s : State) (d a b : BitVec 5) (x : Bool) (z : BitVec 2) (sc : Scope) (p : Place),
    s.isControl = true →
    let core := s.coreOf s.cur
    let n := 2 ^ z.toNat
    let old := s.placeValue true p n
    let acquired := State.acquired core sc
    let released := s.released core sc
    (s.resolve s.cur (s.getX a) n .load = .ok p → s.homeReady false n p → (x = true → z ≠ 3) →
      Completes (.ldacq d a x z sc) s (fun t => ∃ u, s.Rewrites p n none u ∧ acquired u
        ∧ u.ControlResult d (if x then BitVec.ofInt 64 (BitVec.ofNat (8 * n) old).toInt else BitVec.ofNat 64 old) s.nextPc t))
    ∧ Traps (.ldacq d a true 3 sc) s (illegal .reservedValue)
    ∧ (s.resolve s.cur (s.getX a) n .store = .ok p → s.homeReady true n p → s.releaseReady sc →
      Completes (.strel a b z sc) s (fun t => ∃ u, s.Rewrites p n (some (s.getX b).toNat) u
        ∧ (atHome p sc = true → u.standsHome core n p) ∧ s.releasedBut core sc n p u ∧ u.ControlResult 0 0 s.nextPc t))
    ∧ (s.releaseReady sc →
      Completes (.fence sc) s (fun t => ∃ u, s.KeepsBytes core u ∧ acquired u ∧ released u ∧ u.ControlResult 0 0 s.nextPc t)
      ∧ Completes (.fenceRl sc) s (fun t => ∃ u, s.KeepsBytes core u ∧ released u ∧ u.ControlResult 0 0 s.nextPc t))
    ∧ Completes (.fenceAq sc) s (fun t => ∃ u, s.KeepsBytes core u ∧ acquired u ∧ u.ControlResult 0 0 s.nextPc t)

/-- waitge and waitne (R179, R241, R242): where the word meets the condition the instruction ends with an acquire; where it
does not, the party sleeps at the instruction, and a retest wakes it to try again. -/
def Obligations.WaitInstructions : Prop :=
  ∀ (s : State) (a b : BitVec 5) (sc : Scope) (p : Place), s.isControl = true →
    let core := s.coreOf s.cur
    let word : W64 := BitVec.ofNat 64 (s.placeValue true p 8)
    let sleeps (u : State) : State := match s.cur with
      | .ctrl h => u.setHart h { u.hart h with wait := some .asleep }
      | .vec _ => u
      | .verge n => u.setVerge n { u.verge n with wait := some .asleep }
    let waits (i : Instr) (c : Prop) : Prop :=
      (c → Completes i s (fun t => ∃ u, s.Rewrites p 8 none u
        ∧ State.acquired core sc u ∧ u.ControlResult 0 0 s.nextPc t))
      ∧ (¬ c → Completes i s (fun t => ∃ u, s.Rewrites p 8 none u ∧ t = sleeps u))
    (s.resolve s.cur (s.getX a) 8 .load = .ok p → s.homeReady false 8 p →
      waits (.waitge a b sc) ((s.getX b).toNat ≤ word.toNat) ∧ waits (.waitne a b sc) (word ≠ s.getX b))
    ∧ (∀ h, (s.hart h).wait = some .asleep →
        Completes (.waitRetest (.ctrl h)) s (fun t => t = s.setHart h { s.hart h with wait := none }))
    ∧ (∀ n, (s.verge n).wait = some .asleep →
        Completes (.waitRetest (.verge n)) s (fun t => t = s.setVerge n { s.verge n with wait := none }))

/-! ### The two streams of a hart -/

/-- The vector stream's replies, the end and the start of a block, the levels of the loop-nest sequencer and the words of a
handle register (R16, R17, R89, R91, R200, R219). -/
def Obligations.VectorStreamControl : Prop :=
  ∀ (s : State) (a b c : BitVec 4) (l w : BitVec 3),
    let u := s.hart s.me
    let word (h : BitVec 512) (j : BitVec 3) : W64 := h.extractLsb' (64 * j.toNat) 64
    (s.isVector = true →
      (u.replyQ.length < 16 → Completes (.vreply a) s (s.GoesOn { u with replyQ := u.replyQ ++ [s.getS a] }))
      ∧ (16 ≤ u.replyQ.length → Waits (.vreply a) s)
      ∧ Completes .vend s (fun t => t = s.setHart s.me { u with block := none, loops := [], check := false })
      ∧ (l.toNat ≤ 5 → Completes (.lnset a b c l) s (fun t => ∃ x, s.GoesOn { u with nest := x } t
          ∧ ∀ j : BitVec 3, Tab.get {} x j.toNat = if j = l then ⟨s.getS a, s.getS b, s.getS c⟩ else Tab.get {} u.nest j.toNat))
      ∧ (5 < l.toNat → Traps (.lnset a b c l) s (illegal .reservedValue))
      ∧ Completes .lnsetZ s (fun t => ∃ x, s.GoesOn { u with nest := x } t ∧ ∀ j, Tab.get ({} : Level) x j = ⟨1, 0, 0⟩)
      ∧ Completes (.hset a b w) s (fun t => ∃ x, s.GoesOn { u with hd := x } t
          ∧ (∀ j, word (Tab.get 0 x a.toNat) j = if j = w then s.getS b else word (Tab.get 0 u.hd a.toNat) j)
          ∧ ∀ g : BitVec 4, g ≠ a → Tab.get 0 x g.toNat = Tab.get 0 u.hd g.toNat)
      ∧ Completes (.hsetZ a) s (fun t => ∃ x, s.GoesOn { u with hd := x } t ∧ Tab.get 0 x a.toNat = 0
          ∧ ∀ g : BitVec 4, g ≠ a → Tab.get 0 x g.toNat = Tab.get 0 u.hd g.toNat))
    ∧ (∀ h, let v := s.hart h
        (∀ q rest, s.running h = true → v.block = none → v.blockQ = q :: rest →
          Completes (.blockStart h) s (fun t => ∃ x f, t = s.setHart h { v with
              blockQ := rest, block := some q, vpc := q.addr, mode := 0, vl := 0, vstart := 0, latch := none, check := false,
              s := x, fastV := f }
            ∧ ∀ i, Tab.get 0 x i = if i < 8 then q.args.getD i 0 else Tab.get 0 v.s i))
        ∧ (s.running h = false ∨ v.block ≠ none ∨ v.blockQ = [] → Waits (.blockStart h) s))

/-- What the control stream does about its vector stream (R15, R29, R30, R68, R70 to R72): vgo queues a block with x10 to x17,
or waits while 16 are queued; rqpop takes the oldest reply, or waits for one; vsetl waits for an idle vector stream, declares
the registers, resets the vector state and takes the lowest free lane groups; vdrain waits for the vector stream and the
engine commands, and then orders like fence. It rests on readings of the model's own: that vgo forgets the code its core has
cached (log 17), that a release takes the bytes of the host window along (log 24), and what a grant leaves a hart where others are
owed groups (log 103). -/
def Obligations.HartStreamControl : Prop :=
  ∀ (s : State) (d a : BitVec 5) (o : BitVec 19) (i : BitVec 14) (sc : Scope), s.isHartControl = true →
    let h := s.me
    let u := s.hart h
    let core := s.coreOf s.cur
    let b : W64 := s.pcOf s.cur + BitVec.ofInt 64 (o.toInt * s.wordBytes s.cur)
    let c := s.getX a + i.signExtend 64
    let idle : Prop := u.blockQ = [] ∧ u.block = none ∧ s.descending h = false
    (2 ^ 48 ≤ b.toNat → Traps (.vgo o) s { cls := 0x02, addr := b })
    ∧ (b.toNat < 2 ^ 48 → b.toNat % 64 ≠ 0 → Traps (.vgo o) s (illegal .reservedValue))
    ∧ (b.toNat < 2 ^ 48 → b.toNat % 64 = 0 →
        (16 ≤ u.blockQ.length → Waits (.vgo o) s)
        ∧ (u.blockQ.length < 16 → Completes (.vgo o) s (fun t => ∃ k f, t = (s.withCode k).setHart h { u with
            blockQ := u.blockQ ++ [⟨b.setWidth 48, (List.range 8).map (fun j => s.readX s.cur (10 + j)), u.cpc⟩],
            fastC := f, cpc := s.nextPc.setWidth 48 })))
    ∧ (u.replyQ = [] → Waits (.rqpop d) s)
    ∧ (∀ w rest, u.replyQ = w :: rest →
        Completes (.rqpop d) s ((s.setHart h { u with replyQ := rest }).ControlResult d w s.nextPc))
    ∧ (c = 0 ∨ 32 < c.toNat → Traps (.vsetl d a i) s (illegal .reservedValue))
    ∧ (c ≠ 0 → c.toNat ≤ 32 →
        (¬ idle → Waits (.vsetl d a i) s)
        ∧ (idle →
          let others := (s.hartsOn core).filter (· ≠ h)
          let free (g : Nat) : Prop := g < 16 ∧ ∀ j ∈ others, (s.hart j).groups.testBit g = false
          let owed := ((others.filter (fun j => !((s.hart j).exited && (s.hart j).groups == 0))).map (fun j =>
            (s.team (teamOf j)).lgmin - ((List.range 16).filter (s.hart j).groups.testBit).length)).sum
          Completes (.vsetl d a i) s (fun t => ∃ m got : Nat,
            ((s.setHart h { u with
                v := [], lold := {}, k := [], fm := 0, mode := 0, vl := 0, vstart := 0, blockQ := [], latch := none, loops := [],
                check := false, n := 8 * ((c.toNat + 7) / 8), groups := m, lg := got }).ControlResult d
              (BitVec.ofNat 64 got) s.nextPc t)
            ∧ ∃ l : List Nat, l.Nodup ∧ l.Pairwise (· < ·) ∧ (∀ g, g ∈ l ↔ free g)
              ∧ got = min l.length (max (s.team (teamOf h)).lgmin (min (s.team (teamOf h)).lgmax (l.length - owed)))
              ∧ ∀ g, m.testBit g = (l.take got).contains g)))
    ∧ (¬ (idle ∧ ∀ x ∈ s.cmds, x.hart ≠ h) → Waits (.vdrain sc) s)
    ∧ (idle → (∀ x ∈ s.cmds, x.hart ≠ h) → s.releaseReady sc →
        Completes (.vdrain sc) s (fun t => ∃ u, s.KeepsBytes core u ∧ u.acquired core sc ∧ s.released core sc u
          ∧ u.ControlResult 0 0 s.nextPc t))

/-! ### Calls, traps and the fault path -/

/-- exit, yield and the end of a yield (R277, R298, R299): exit marks the control stream as ended and its position behind
itself; yield waits min(x, 65,536) cycles, or not at all while a pre-emption is asked for or, on a verge core, a record
waits. ecall and brk trap with their cause codes on every control stream; with halt-on-brk armed a hart halts to the debug
core instead, after a release at dv on the whole of its core's stores, makes no record and stands at its brk; it waits while a
descent step of its own is in flight (R130, R274); eret goes back to epc on a verge core and is privileged on a hart (R298,
R326). That a halt at brk leaves the position there, to go on behind it, is the model's choice (log 58); what the release takes
along is log 24. -/
def Obligations.ExitYieldAndCalls : Prop := (
  ∀ (s : State) (a : BitVec 5) (h n : Nat),
    let c := min (s.getX a).toNat 65536
    let u := s.hart h
    let v := s.verge n
    let asked : Prop := (s.team (teamOf h)).request = true
    (s.cur = .ctrl h →
      Completes .exit s (fun t => t = s.setHart h { u with exited := true, cpc := s.nextPc.setWidth 48 })
      ∧ (c = 0 ∨ asked → Completes (.yield a) s (fun t => t = s.setHart h { u with cpc := s.nextPc.setWidth 48 }))
      ∧ (c ≠ 0 → ¬ asked → Completes (.yield a) s (fun t =>
          t = s.setHart h { u with cpc := s.nextPc.setWidth 48, wait := some (.yield (s.cycle + c)) })))
    ∧ (s.cur = .verge n →
      Traps .exit s (illegal .reservedValue)
      ∧ (c = 0 ∨ s.fqhead < s.fqtail → Completes (.yield a) s (fun t => t = s.setVerge n { v with pc := s.nextPc }))
      ∧ (c ≠ 0 → s.fqtail ≤ s.fqhead → Completes (.yield a) s (fun t =>
          t = s.setVerge n { v with pc := s.nextPc, wait := some (.yield (s.cycle + c)) })))
    ∧ (∀ until_, u.wait = some (.yield until_) →
        (until_ ≤ s.cycle ∨ asked → Completes (.yieldWaitEnd (.ctrl h)) s (fun t => t = s.setHart h { u with wait := none }))
        ∧ (s.cycle < until_ → ¬ asked → Waits (.yieldWaitEnd (.ctrl h)) s))
    ∧ (∀ until_, v.wait = some (.yield until_) →
        (until_ ≤ s.cycle ∨ s.fqhead < s.fqtail →
          Completes (.yieldWaitEnd (.verge n)) s (fun t => t = s.setVerge n { v with wait := none }))
        ∧ (s.cycle < until_ → s.fqtail ≤ s.fqhead → Waits (.yieldWaitEnd (.verge n)) s))) ∧ (
  ∀ (s : State), s.isControl = true →
    Traps .ecall s { cls := 0x16 }
    ∧ ((s.isHartControl = true → s.dbgctl.getLsbD 19 = false) → Traps .brk s { cls := 0x17 })
    ∧ (s.isHartControl = true → s.dbgctl.getLsbD 19 = true → s.descending s.me = true → Waits .brk s)
    ∧ (s.isHartControl = true → s.dbgctl.getLsbD 19 = true → s.descending s.me = false → s.linkUp = true →
        Completes .brk s (fun t => ∃ u, s.KeepsBytes (s.coreOf s.cur) u ∧ s.released (s.coreOf s.cur) .dv u
          ∧ t = u.setHart s.me { s.hart s.me with halted := some 3, haltReq := false }))
    ∧ (∀ n, s.cur = .verge n → Completes .eret s (fun t => t = s.setVerge n { s.verge n with pc := (s.verge n).epc }))
    ∧ (s.isHartControl = true → Traps .eret s (illegal .privileged)))

/-- TAKING A TRAP. On a verge core epc, ecause and evalue are set and the pc goes to tvec (R296; which of address and detail
evalue holds is the model's reading, log 12). On a hart a report is made with the fields of R286 and the next index, and the
stream is parked on it where it stands (R19, R285); a vector stream's record holds the element that the trap leaves vstart at,
vstart as it stands where the trap names none, and 0 for a fetch (which of R286's two readings the field follows is log 97); a
translation fault whose page already has a merging entry raises that
entry's count instead (R215). -/
def Obligations.TrapEntry : Prop :=
  ∀ (s : State) (k : Trap) (h n : Nat), k.cls < 256 → k.acc < 16 → k.sz < 8 → k.rsn < 256 →
    let field (w : List W64) (i lo len : Nat) : Nat := ((w.getD i 0).extractLsb' lo len).toNat
    let u := s.hart h
    let v := s.verge n
    let rid := s.fqtail + s.reports.length
    let ctx := (s.team (teamOf h)).ctx
    let elem (vec : Bool) : Nat :=
      if vec = false then k.elem else if k.cls = 0x05 ∧ k.acc = 4 then 0 else if k.elem = 0 then u.vstart else k.elem
    let record (vec : Bool) (w : List W64) : Prop :=
      w.length = 8 ∧ field w 0 0 8 = k.cls ∧ field w 0 8 4 = k.acc ∧ field w 0 12 3 = k.sz ∧ field w 0 15 1 = k.eng.toNat
      ∧ field w 0 16 16 = 1 ∧ field w 0 32 16 = ctx % 2 ^ 16 ∧ field w 0 48 8 = k.rsn ∧ field w 0 56 1 = 0
      ∧ field w 0 57 1 = vec.toNat ∧ field w 0 58 6 = 0 ∧ w.getD 1 0 = k.addr
      ∧ field w 2 0 48 = (if vec then u.vgo else u.cpc).toNat ∧ field w 2 48 16 = 0
      ∧ field w 3 0 48 = (if vec then u.vpc else 0).toNat ∧ field w 3 48 16 = 0
      ∧ w.getD 4 0 = BitVec.ofNat 64 (elem vec) ∧ field w 5 0 32 = (if k.eng then u.engseq.toNat else 0) ∧ field w 5 32 32 = 0
      ∧ w.getD 6 0 = k.detail ∧ field w 7 0 32 = rid % 2 ^ 32 ∧ field w 7 32 16 = u.num % 2 ^ 16 ∧ field w 7 48 16 = 0
    let park (vec : Bool) (p : Park) : Hart :=
      if vec then { u with parkV := some p, vwait := none, stalled := none } else { u with parkC := some p, wait := none }
    (s.cur = .verge n → s.takeTrap k = s.setVerge n { v with
        epc := v.pc, ecause := BitVec.ofNat 64 k.cls, evalue := if 2 ≤ k.cls ∧ k.cls ≤ 7 then k.addr else k.detail, pc := v.tvec,
        wait := none })
    ∧ (∀ vec : Bool, s.cur = (if vec then .vec h else .ctrl h) →
        ((k.cls = 0x05 → ∀ e ∈ s.live, ¬ (e.ctx = ctx ∧ e.base = k.base ∧ e.size = k.size)) → ∃ w, record vec w
          ∧ s.takeTrap k = (s.withReports (s.reports ++ [⟨rid, w, some (s.coreOf s.cur)⟩])
              (if k.cls = 0x05 then s.live ++ [⟨rid, ctx, k.base, k.size⟩] else s.live)).setHart h (park vec ⟨rid, vec⟩))
        ∧ (∀ e, k.cls = 0x05 → s.live.find? (fun e => e.ctx = ctx && e.base = k.base && e.size = k.size) = some e →
            s.takeTrap k = (s.mergeInto e).setHart h (park vec ⟨e.rid, s.entrySt e⟩)))

/-- Every instruction of the other stream, and on a verge core those that address a vector stream, are illegal with reason 2, and
a privileged one on a hart with reason 3, whatever their operands; they do nothing else (R53, R54). An instruction belongs to
the stream that its opcode, the high byte of its word, names: 0x40 to 0xDF to a hart's vector stream. -/
def Obligations.StreamsAndPrivilege : Prop :=
  ∀ (s : State) (i : Instr) (w : Nat), encode i = some w →
    let op := w / 2 ^ 24
    (s.isVector = true → op < 0x40 ∨ 0xDF < op → Traps i s (illegal .wrongStream))
    ∧ (s.isControl = true → 0x40 ≤ op → op ≤ 0xDF → Traps i s (illegal .wrongStream))
    ∧ (s.isVerge = true → 0x38 ≤ op → op ≤ 0x3B → Traps i s (illegal .wrongStream))
    ∧ (s.isHartControl = true → op = 0xF3 ∨ op = 0xF7 ∨ op = 0xF8 ∨ op = 0xF9 → Traps i s (illegal .privileged))

/-! ### System registers -/

/-- srr and srw on a hart (R293, R297): the ten registers of its own view; rngseed alone may be written, once the vector
stream is idle, and then reseeds the stochastic lanes (R143). RNGSEED_WRITE has the same effect on an idle hart. srr and srw
on a verge core, and a write from outside (R292, R295, R296, R297): target 0 is the core's own registers with their reserved
bits 0; any target is read and written as through the register view, but that only the host sets power states (R335); the host's own
target 0 has no register. It rests on readings of the model's own: that the fabric registers may be written (log 59) and
reserved bits (log 71). -/
def Obligations.SystemRegisters : Prop := (
  ∀ (s : State) (d t v : BitVec 5) (n : BitVec 9) (h : Nat),
    let u := s.hart h
    let team := s.team (teamOf h)
    let idle : Prop := u.blockQ = [] ∧ u.block = none ∧ s.descending h = false
    let values : List W64 := [BitVec.ofNat 64 s.cycle, BitVec.ofNat 64 u.num, BitVec.ofNat 64 (indexOf h), BitVec.ofNat 64 team.nharts,
      BitVec.ofNat 64 (u.num / 8), BitVec.ofNat 64 team.ctx, BitVec.ofNat 64 team.rows, u.engseq.setWidth 64, u.rngseed.setWidth 64,
      BitVec.ofNat 64 ((if s.a48 then 48 else 64) + s.stepping.toNat * 256)]
    let seeds (w : W64) (f : Hart) : Prop := f.rngseed = w.setWidth 32 ∧ (∃ r, f = { u with rngseed := w.setWidth 32, rng := r })
      ∧ ∀ j, j < 256 → Tab.get 0 f.rng j =
          (let x := w.setWidth 32 ^^^ (BitVec.ofNat 32 j * 0x85EBCA6B); if x = 0 then 0x6D2B79F5 else x)
    (s.cur = .ctrl h →
      (t ≠ 0 → Traps (.srr d t n) s (illegal .reservedBit) ∧ Traps (.srw t v n) s (illegal .reservedBit))
      ∧ (9 < n.toNat → Traps (.srr d 0 n) s (illegal .reservedValue))
      ∧ (n.toNat ≤ 9 → Completes (.srr d 0 n) s (s.ControlResult d (values.getD n.toNat 0) s.nextPc))
      ∧ (n ≠ 8 → Traps (.srw 0 v n) s (illegal .reservedValue))
      ∧ (¬ idle → Waits (.srw 0 v 8) s)
      ∧ (idle → Completes (.srw 0 v 8) s (fun t => ∃ f, seeds (s.getX v) f ∧ (s.setHart h f).ControlResult 0 0 s.nextPc t)))
    ∧ (∀ w : W64, idle → (team.st = .resident ∨ team.st = .stopping) →
        Completes (.rngseedWrite h w) s (fun t => ∃ f, seeds w f ∧ t = s.setHart h f))) ∧ (
  ∀ (s : State) (d a b : BitVec 5) (n : BitVec 9) (k : Nat) (w : W64), s.cur = .verge k →
    let v := s.verge k
    let x := (s.getX a).toNat
    let y := s.getX b
    let own : List W64 := [v.tvec, v.epc, v.ecause, v.evalue, v.escratch, v.vroot]
    let back (number : Nat) (value : W64) : Prop :=
      Completes (.registerWrite 1 number w) s (fun t => (t.readReg 1 number).1 = value ∧ t.harts = s.harts ∧ t.verges = s.verges)
    (x = 0 → 0xF0 ≤ n.toNat → n.toNat ≤ 0xF5 →
      Completes (.srr d a n) s (s.ControlResult d (own.getD (n.toNat - 0xF0) 0) s.nextPc))
    ∧ (x = 0 → n.toNat < 0xF0 ∨ 0xF5 < n.toNat → Completes (.srr d a n) s (s.ControlResult d 0 s.nextPc))
    ∧ (s.nharts + 2 ≤ x → Completes (.srr d a n) s (s.ControlResult d 0 s.nextPc))
    ∧ (x ≠ 0 → Completes (.srr d a n) s (fun t =>
        (s.readReg x n.toNat).2.ControlResult d (s.readReg x n.toNat).1 (s.readReg x n.toNat).2.nextPc t))
    ∧ (let sets (number : BitVec 9) (f : Verge) : Prop :=
          x = 0 → Completes (.srw a b number) s (fun t => t = s.setVerge k { f with pc := s.nextPc })
       sets 0xF0 { v with tvec := y &&& ~~~(3 : W64) } ∧ sets 0xF1 { v with epc := y } ∧ sets 0xF2 { v with ecause := y &&& 0xFF }
       ∧ sets 0xF3 { v with evalue := y } ∧ sets 0xF4 { v with escratch := y } ∧ sets 0xF5 { v with vroot := y &&& 0x000FFFFFFFFFF000 })
    ∧ (x = 1 → n = 0x1A0 → Completes (.srw a b n) s (s.ControlResult 0 0 s.nextPc))
    ∧ (x ≠ 0 → ¬ (x = 1 ∧ n = 0x1A0) → Completes (.srw a b n) s (fun t => ∃ u, exec (.registerWrite x n.toNat y) s = .next u ∧ t = u.advance))
    ∧ Completes (.registerWrite 0 n.toNat w) s (fun t => t = s)
    ∧ back 0x000 (if 1 ≤ w.toNat ∧ w.toNat < 2 ^ 16 then w else BitVec.ofNat 64 s.ctxsel)
    ∧ (s.ctxsel ≠ 0 → back 0x001 (w &&& 0x000FFFFFFFFFF001))
    ∧ back 0x010 (w &&& 0x000FFFFFFFFFFFFF) ∧ back 0x011 (BitVec.ofNat 64 s.fqhead) ∧ back 0x012 (BitVec.ofNat 64 s.fqtail)
    ∧ back 0x183 w ∧ back 0x184 w ∧ back 0x185 (w &&& 0x0000FFFFFFFFFFFF) ∧ back 0x188 w ∧ back 0x18B w)

/-- The privileged instructions of the fault path on a verge core (R283, R285, R300). tinv waits for a covered pin and then
leaves no covered translation cached; fqpop answers 0 from an empty queue, else copies the head record, takes it off and ends
its merging; fqreplay releases what is parked on the record, moves the control stream of every hart parked on it on if it
skips, at once or when a saved team comes back, has a wait tested again, and answers how many it released. It rests on readings of the model's own: what fqreplay counts and skips (log 37) and that fqpop writes at the home
slice (log 30). -/
def Obligations.FaultPath : Prop :=
  ∀ (s : State) (d a b : BitVec 5) (e : BitVec 2) (k : Nat), s.cur = .verge k →
    let va := (s.getX a).toNat
    let ctx := (s.getX b).toNat
    let core := s.coreOf s.cur
    let page := va / 4096 * 4096
    let noRecord : Trap := { cls := 0x05, addr := s.getX a, acc := 2, sz := 6, rsn := 4, base := page, size := 4096 }
    let hits (c base size : Nat) : Prop := (e = 0 → c = ctx ∧ base ≤ va ∧ va < base + size) ∧ (e = 1 → c = ctx)
    Traps (.tinv a b 3) s (illegal .reservedValue)
    ∧ (e ≠ 3 → (∃ p ∈ s.pins, hits p.ctx p.base p.size) → Waits (.tinv a b e) s)
    ∧ (e ≠ 3 → (∀ p ∈ s.pins, ¬ hits p.ctx p.base p.size) → Completes (.tinv a b e) s (fun t =>
        ∃ l, (∀ x, x ∈ l ↔ x ∈ s.tlb ∧ ¬ hits x.ctx x.base x.size) ∧ (s.withTlb l).ControlResult 0 0 s.nextPc t))
    ∧ (∀ tr, s.resolve s.cur (s.getX a) 64 .store = .error tr → Traps (.fqpop d a) s tr)
    ∧ (∀ p, s.resolve s.cur (s.getX a) 64 .store = .ok p →
        (∀ pa, p = .view pa → Traps (.fqpop d a) s noRecord)
        ∧ ((∀ pa, p ≠ .view pa) → s.fqhead = s.fqtail → Completes (.fqpop d a) s (s.ControlResult d 0 s.nextPc))
        ∧ (s.fqhead ≠ s.fqtail → s.homeReady true 64 p → Completes (.fqpop d a) s (fun t =>
            (t.fqhead = s.fqhead + 1 ∧ t.live = s.live.filter (fun x => x.rid ≠ s.fqhead) ∧ t.reports = s.reports)
            ∧ t.readX s.cur d.toNat = (if d = 0 then 0 else 1) ∧ (∀ r : BitVec 5, r ≠ d → t.readX s.cur r.toNat = s.getX r)
            ∧ t.pcOf s.cur = s.nextPc ∧ t.harts = s.harts
            ∧ (∀ pa, p = .mem pa → ∀ q, q < 2 ^ 52 → t.ownByte core q = if pa ≤ q ∧ q < pa + 64
                then byteOf (leNat (s.home (s.ringBase + 64 * (s.fqhead % s.ringSize)) 64)) (q - pa) else s.ownByte core q))))
    ∧ (2 ≤ ctx → Completes (.fqreplay d a b) s (s.ControlResult d 0 s.nextPc))
    ∧ (ctx < 2 → s.releaseReady .dv → Completes (.fqreplay d a b) s (fun t =>
        let rid := va % 2 ^ 32
        let on (p : Option Park) : Bool := match p with | some q => q.rid % 2 ^ 32 == rid | none => false
        let onRid (p : Option Nat) : Bool := match p with | some r => r % 2 ^ 32 == rid | none => false
        let l := s.parkedHarts rid
        (∀ h, h ∈ l ↔ (on (s.hart h).parkC || on (s.hart h).parkV) = true
          ∧ ∃ g, g < s.nteam ∧ (s.team g).st ≠ .retired ∧ 8 * g ≤ h ∧ h < 8 * g + (s.team g).nharts)
        ∧ t.readX s.cur d.toNat = (if d = 0 then 0 else BitVec.ofNat 64 (l.length + (s.cmds.filter (fun c => on c.parked)).length
            + (s.sendPark.filter (fun x => onRid x.2)).length + (s.recvs.filter (fun m => onRid m.parked)).length
            + (s.sends.filter (fun m => onRid m.parked)).length))
        ∧ (∀ r : BitVec 5, r ≠ d → t.readX s.cur r.toNat = s.getX r) ∧ t.pcOf s.cur = s.nextPc
        ∧ (∀ h, h ∉ l → t.hart h = s.hart h)
        ∧ (∀ h, h ∈ l → let u := s.hart h
            let away := !s.onCore h
            let skips (p : Option Park) : Bool := on p && !(p.any Park.st)
            let moves := ctx == 1 && (skips u.parkC || skips u.parkV)
            let still := u.parkC.isSome && !on u.parkC || u.parkV.isSome && !on u.parkV
            t.hart h = { u with
              cpc := if moves && !away then u.cpc + BitVec.ofNat 48 (s.wordBytes (.ctrl h)) else u.cpc,
              bpSkipC := u.bpSkipC && !(moves && !away), skips := if moves && away then u.skips + 1 else u.skips,
              wait := if u.wait = some .asleep ∧ away = false ∧ still = false then none else u.wait,
              parkC := if on u.parkC then none else u.parkC, parkV := if on u.parkV then none else u.parkV })
        ∧ t.cmds = s.cmds.map (fun c => if on c.parked then { c with parked := none } else c)
        ∧ (s.recvs.filter (fun m => onRid m.parked) = [] → s.sends.filter (fun m => onRid m.parked) = [] →
            ∀ c q y, q < 2 ^ 52 → s.l1Byte c q = some y → y.dirty = true → t.seenByte c q = y.val)))

/-! ### Vector accesses to memory -/

/-- The vector loads (R109 to R111, R113, R116, R117, R121): where every covered element's access can be performed, each takes the
bytes at its address, from the core's L1 where it holds them all, else, and at a scope beyond tm, as the core's own stores and the
home copies give them; a stop that has been asked for may cut them at an element group (R34). A load whose lowest failing element
is i (R34, R110, R116, R117). A plain load traps with vstart at i, the elements below loaded and those from i on as before; a
first-fault load that fails by range or translation above its first active element lowers vl to i instead; a speculative load
gives every failing element 0 and sets its bit of fm. What a replicated index vector of another width than the elements reads is
the model's reading (log 99). -/
def Obligations.VectorLoadsAndFaults : Prop := (
  ∀ (s : State) (d : VOp) (b k : BitVec 4) (o : VOp) (f : BitVec 4) (e : Nat), d.writable = true →
    let u := s.hart s.me
    let z := width u.ty / 8
    let home := decide (mSc u.mode ≠ 0)
    let unit (i : Nat) : W64 := s.getS b + BitVec.ofNat 64 (i * z)
    let stride (i : Nat) : W64 := s.getS b + BitVec.ofNat 64 i * s.getS k
    let index (i : Nat) : W64 := s.getS b + indexElem u true o f i * BitVec.ofNat 64 (if f.getLsbD 3 then 1 else z)
    let wi := [width u.ty, 16, 32, 64].getD (f.toNat % 4) 0
    let n := if width u.ty < wi then min u.vl (u.bytes * 8 / wi) else u.vl
    let loads (i : Instr) (regs : List VOp) (n : Nat) (ea : Nat → W64) : Prop :=
      s.VectorReady okB (d :: regs) → s.conflicts s.me (rangesOf z false ((u.activesIn u.vstart n).map ea)) = false →
      s.endsAt n e → ∀ pl : Nat → Place,
      (∀ j, u.covers e j → s.resolve s.cur (ea j) z .load = .ok (pl j) ∧ s.readsAt home z (pl j)) →
      Completes i s (fun t => ∃ v, s.KeepsBytes (s.coreOf s.cur) v
        ∧ v.linkDone.ElemEnds d n (fun j _ g => (s.loadValue home z (pl j), g)) t)
    loads (.vld d b) [] u.vl unit ∧ loads (.vlds d b k) [] u.vl stride ∧ loads (.vldx d b o f) [o] n index
    ∧ loads (.vldxo d b o f) [o] n index ∧ loads (.vldff d b) [] u.vl unit ∧ loads (.vldsp d b) [] u.vl unit
    ∧ loads (.vldxff d b o f) [o] n index ∧ loads (.vldxsp d b o f) [o] n index) ∧ (
  ∀ (s : State) (d : VOp) (b k : BitVec 4) (o : VOp) (f : BitVec 4) (pl : Nat → Place) (e i : Nat) (tr : Trap), d.writable = true →
    let u := s.hart s.me
    let z := width u.ty / 8
    let home := decide (mSc u.mode ≠ 0)
    let unit (i : Nat) : W64 := s.getS b + BitVec.ofNat 64 (i * z)
    let stride (i : Nat) : W64 := s.getS b + BitVec.ofNat 64 i * s.getS k
    let index (i : Nat) : W64 := s.getS b + indexElem u true o f i * BitVec.ofNat 64 (if f.getLsbD 3 then 1 else z)
    let wi := [width u.ty, 16, 32, 64].getD (f.toNat % 4) 0
    let n := if width u.ty < wi then min u.vl (u.bytes * 8 / wi) else u.vl
    let value (j : Nat) : Nat := s.loadValue home z (pl j)
    let ready (ea : Nat → W64) (j : Nat) : Prop := s.resolve s.cur (ea j) z .load = .ok (pl j) ∧ s.readsAt home z (pl j)
    let fails (ea : Nat → W64) (j : Nat) : Prop := ∃ x, s.elemCheck s.cur home (ea j) z .load = some x
    let can (regs : List VOp) (n : Nat) (ea : Nat → W64) : Prop :=
      s.VectorReady okB (d :: regs) ∧ s.conflicts s.me (rangesOf z false ((u.activesIn u.vstart n).map ea)) = false ∧ s.endsAt n e
    let stops (instr : Instr) : Prop := ∃ v y, s.KeepsBytes (s.coreOf s.cur) v ∧ v.linkDone.FailsAt d i (fun j _ g => (value j, g)) y
      ∧ exec instr s = .next (y.takeTrap { tr with elem := i })
    let traps (instr : Instr) (first : Bool) (regs : List VOp) (n : Nat) (ea : Nat → W64) : Prop :=
      can regs n ea → u.covers e i → s.elemCheck s.cur home (ea i) z .load = some tr → (∀ j, u.covers e j → j < i → ready ea j) →
      let lowers : Prop := first = true ∧ (∃ j, u.covers e j ∧ j < i) ∧ (tr.cls = 0x02 ∨ tr.cls = 0x05)
      (¬ lowers → stops instr)
      ∧ (lowers → Completes instr s (fun t => ∃ v t', s.KeepsBytes (s.coreOf s.cur) v
          ∧ v.linkDone.ElemResult d i (fun j _ g => (value j, g)) t' ∧ t = t'.setHart s.me { t'.hart s.me with vl := i }))
    let guesses (instr : Instr) (regs : List VOp) (n : Nat) (ea : Nat → W64) : Prop :=
      can regs n ea → (∀ j, u.covers e j → fails ea j ∨ ready ea j) → Completes instr s (fun t => ∃ v m, s.KeepsBytes (s.coreOf s.cur) v
        ∧ (∀ j, m.testBit j = true ↔ u.fm.testBit j = true ∨ (u.covers e j ∧ fails ea j))
        ∧ ∀ bad : Nat → Bool, (∀ j, bad j = true ↔ fails ea j) →
            (v.linkDone.setHart s.me { v.linkDone.hart s.me with fm := m }).ElemEnds d n
              (fun j _ g => (if bad j then 0 else value j, g)) t)
    s.linkUp = true →
    traps (.vld d b) false [] u.vl unit ∧ traps (.vlds d b k) false [] u.vl stride ∧ traps (.vldx d b o f) false [o] n index
    ∧ traps (.vldxo d b o f) false [o] n index ∧ traps (.vldff d b) true [] u.vl unit ∧ traps (.vldxff d b o f) true [o] n index
    ∧ guesses (.vldsp d b) [] u.vl unit ∧ guesses (.vldxsp d b o f) [o] n index)

/-- The vector stores (R109 to R113, R121): vstxo, and vsts at a stride of 0, write in element order; of the others, one of several
writers of a place stands. At a scope beyond tm they are performed at the home slice. A stop that has been asked for may cut them
at an element group (R34); a failing element traps with vstart there, the elements below it stored and no other (R110). Of the
model's own: which one stands is a free value (log 5). -/
def Obligations.VectorStores : Prop :=
  ∀ (s : State) (d : VOp) (b k : BitVec 4) (o : VOp) (f : BitVec 4) (e : Nat),
    let u := s.hart s.me
    let z := width u.ty / 8
    let core := s.coreOf s.cur
    let home := decide (mSc u.mode ≠ 0)
    let unit (i : Nat) : W64 := s.getS b + BitVec.ofNat 64 (i * z)
    let stride (i : Nat) : W64 := s.getS b + BitVec.ofNat 64 i * s.getS k
    let index (i : Nat) : W64 := s.getS b + indexElem u false o f i * BitVec.ofNat 64 (if f.getLsbD 3 then 1 else z)
    let wi := [width u.ty, 16, 32, 64].getD (f.toNat % 4) 0
    let n := if width u.ty < wi then min u.vl (u.bytes * 8 / wi) else u.vl
    let stores (instr : Instr) (regs : List VOp) (n : Nat) (ea : Nat → W64) (ordered : Prop) : Prop :=
      s.VectorReady okB (d :: regs) → s.conflicts s.me (rangesOf z true ((u.activesIn u.vstart n).map ea)) = false → s.endsAt n e →
      ∀ pl : Nat → Place,
      let ready (j : Nat) : Prop := s.resolve s.cur (ea j) z .store = .ok (pl j)
        ∧ (if home then s.homeReady true z (pl j) else s.storeReady z (pl j))
      let done (e : Nat) (v : State) : Prop := s.Scatters (u.covers e) pl z (u.read false d (width u.ty)) ordered v
        ∧ (home = true → ∀ j, u.covers e j → v.standsHome core z (pl j))
      ((∀ j, u.covers e j → ready j) → Completes instr s (fun t => ∃ v, done e v ∧ v.linkDone.PlainEnds n e t))
      ∧ ∀ i tr, s.linkUp = true → u.covers e i → s.elemCheck s.cur home (ea i) z .store = some tr → (∀ j, u.covers e j → j < i → ready j) →
        ∃ v, done i v ∧ exec instr s =
          .next ((v.linkDone.setHart s.me { v.linkDone.hart s.me with vstart := i }).takeTrap { tr with elem := i })
    stores (.vst d b) [] u.vl unit False ∧ stores (.vsts d b k) [] u.vl stride (s.getS k = 0)
    ∧ stores (.vstx d b o f) [o] n index False ∧ stores (.vstxo d b o f) [o] n index True

/-- The indexed atomics (R114, R115, R121, R193): in ascending element order each covered element takes the old value at its address,
the value that the step of the nearest lower element there left or else the one that stood there, and writes the operation's
result; with ret the old values are the result. The steps run in the L1 at tm where few addresses are named, and at the home slice
else and at host memory (what the few are compared with, and that host memory comes first, is log 100). Under stoch an addition, a minimum and a maximum of floats
draw for every active element, whatever they give (R143; log 38). A stop that has been asked for may cut them (R34), and a failing element traps with
vstart there and the steps below it done (R110). -/
def Obligations.VectorAtomics : Prop :=
  ∀ (s : State) (d : VOp) (b : BitVec 4) (o : VOp) (f : BitVec 4) (e : Nat),
    let u := s.hart s.me
    let w := width u.ty
    let z := w / 8
    let core := s.coreOf s.cur
    let ret := f.getLsbD 3
    let wi := [w, 16, 32, 64].getD (f.toNat % 4) 0
    let n := if w < wi then min u.vl (u.bytes * 8 / wi) else u.vl
    let ea (i : Nat) : W64 := s.getS b + indexElem u ret o f i * BitVec.ofNat 64 z
    let far (p : Place) : Bool := amoHome u n ea (u.activesIn u.vstart n) || (match p with | .mem pa => isHost pa | _ => false)
    (ret = true → d.writable = true) →
    let steps (ok : Hart → Bool) (instr : Instr) (op : ElemOp) (draws : Bool) : Prop :=
      s.VectorReady ok [d, o] → s.conflicts s.me (rangesOf z true ((u.activesIn u.vstart n).map ea)) = false → s.endsAt n e →
      ∀ pl : Nat → Place,
      let ready (j : Nat) : Prop := s.resolve s.cur (ea j) z .atomic = .ok (pl j) ∧ s.atomicReady (far (pl j)) z (pl j)
      let beside (i j : Nat) : Prop := ∃ x y, pl i = .mem x ∧ pl j = .mem y ∧ x / 64 = y / 64
      let draw : Bool := draws && isF u.ty && decide (u.rnd = stoch)
      let lane (e j : Nat) : BitVec 32 := (List.range e).foldl (fun x i =>
        if u.vstart ≤ i && u.active i && i % 256 == j && draw then xorshift x else x) (Tab.get 0 u.rng j)
      let done (e : Nat) (v : State) (old : Nat → Nat) (r : Lanes) : Prop := ∃ new : Nat → Nat,
        (∀ j, u.covers e j →
          ((∀ l, u.covers e l → l < j → pl l ≠ pl j) → ∀ own : Bool,
            (own = true ↔ far (pl j) = true ∨ ∃ l, u.covers e l ∧ l ≤ j ∧ beside l j ∧ s.hitsL1 z (pl l) = false) →
            old j = s.placeValue own (pl j) z)
          ∧ (∀ m, u.covers e m → m < j → pl m = pl j → (∀ l, u.covers e l → m < l → l < j → pl l ≠ pl j) → old j = new m)
          ∧ ∃ g, Tab.get 0 g (j % 256) = lane j (j % 256)
            ∧ new j = ((op u.ty u.rnd u.sat (old j) (u.read false d w j) 0).narrow u.ty u.rnd u.sat g j).1 % 2 ^ w)
        ∧ s.Scatters (u.covers e) pl z new True v
        ∧ (∀ j, u.covers e j → far (pl j) = true → v.standsHome core z (pl j))
        ∧ ∀ j, j < 256 → Tab.get 0 r j = lane e j
      let lanes (v : State) (r : Lanes) : State := v.linkDone.setHart s.me { v.linkDone.hart s.me with rng := r }
      ((∀ j, u.covers e j → ready j) → Completes instr s (fun t => ∃ v old r, done e v old r
        ∧ (ret = true → (lanes v r).ElemEnds d n (fun j _ g => (old j, g)) t)
        ∧ (ret = false → (lanes v r).PlainEnds n e t)))
      ∧ ∀ i tr, s.linkUp = true → u.covers e i → s.elemCheck s.cur (far (pl i)) (ea i) z .atomic = some tr →
        (∀ j, u.covers e j → j < i → ready j) →
        ∃ v old r y, done i v old r ∧ exec instr s = .next (y.takeTrap { tr with elem := i })
          ∧ (ret = true → (lanes v r).FailsAt d i (fun j _ g => (old j, g)) y)
          ∧ (ret = false → y = (lanes v r).setHart s.me { (lanes v r).hart s.me with vstart := i })
    steps okFI (.vamoadd d b o f) opAdd true ∧ steps okFI (.vamomin d b o f) (roundedStep opMin) true
    ∧ steps okFI (.vamomax d b o f) (roundedStep opMax) true
    ∧ steps okI (.vamoand d b o f) opAnd false ∧ steps okI (.vamoor d b o f) opOr false ∧ steps okI (.vamoxor d b o f) opXor false
    ∧ steps okB (.vamoswp d b o f) (fun _ _ _ _ y _ => .bits y) false

/-- vappend (R118, R121 to R123): the tail rises by the number of active records, once, also over a stop; each active record from
vstart on whose slot lies below the capacity is stored there, at the home slice; with the slot form the first element of each
active record takes its slot or all ones. Where no element from vstart on is active there is no access. A record whose store fails
traps with vstart at its first element, the records below it stored, and leaves the tail it counts from latched; one whose
descriptor a command of its hart holds does not start; a descriptor that fails its checks traps and nothing else happens. It rests on readings of the model's own: that the latch belongs to one vector pc,
and that without one above element 0 the tail it counts from is a free value (log 27); what the slot form reads when it is resumed
(log 11); and the size in a descriptor trap's record (log 30). -/
def Obligations.VectorAppend : Prop :=
  ∀ (s : State) (d o : VOp) (b : BitVec 4) (l : Bool) (q : BitVec 2), (l = true → o.writable = true) →
    s.VectorReady okB (if l then [d, o] else [d]) →
    let u := s.hart s.me
    let w := width u.ty
    let z := w / 8
    let core := s.coreOf s.cur
    let len := 2 ^ q.toNat
    let rs := (List.range (u.vl / len)).filter (fun j => u.active (len * j))
    let latched : Prop := ∃ x, u.latch = some x ∧ x.pc = u.vpc
    let unlatched (v : State) : State := v.setHart s.me { v.hart s.me with latch := none }
    let some_ : Prop := ∃ i, u.covers u.vl i
    (¬ some_ → Completes (.vappend d b o l q) s (fun t =>
      (l = false → (unlatched s).GoesOn { (unlatched s).hart s.me with vstart := 0 } t)
      ∧ (l = true → (unlatched s).ElemResult o u.vl (fun _ p g => (p, g)) t)))
    ∧ (some_ → s.conflicts s.me (rangesOf 32 true [s.getS b]) = true → Waits (.vappend d b o l q) s)
    ∧ (∀ tr, some_ → s.conflicts s.me (rangesOf 32 true [s.getS b]) = false → s.resolve s.cur (s.getS b) 8 .atomic = .error tr →
        tr.cls = 0x02 ∨ (s.getS b).toNat % 32 = 0 → Traps (.vappend d b o l q) s { tr with elem := u.vstart })
    ∧ (some_ → s.conflicts s.me (rangesOf 32 true [s.getS b]) = false → (s.getS b).toNat % 32 ≠ 0 →
        (∀ tr, s.resolve s.cur (s.getS b) 8 .atomic = .error tr → tr.cls ≠ 0x02) →
        Traps (.vappend d b o l q) s { cls := 0x03, addr := s.getS b, acc := Access.atomic.code, sz := 3, elem := u.vstart })
    ∧ ∀ (p : Place) (pl : Nat → Place) (base : W64),
      let word (i : Nat) : W64 := BitVec.ofNat 64 (leNat ((List.range 8).map (fun j => s.placeByte true p (8 * i + j))))
      (∀ x, u.latch = some x → x.pc = u.vpc → base = x.base) →
      (¬ latched → base = if u.vstart = 0 then word 0 else BitVec.ofNat 64 (Config.freeNat s.fresh)) →
      let place (j : Nat) : W64 := base + BitVec.ofNat 64 (rs.filter (· < j)).length
      let covers (f i : Nat) : Prop :=
        i < f ∧ i / len ∈ rs ∧ u.vstart ≤ i ∧ (place (i / len)).toNat < (word 1).toNat
      let ea (i : Nat) : W64 := word 2 + BitVec.ofNat 64 (((place (i / len)).toNat * len + i % len) * z)
      let slot (i : Nat) (p : Nat) (g : Lanes) : Nat × Lanes :=
        (if i % len = 0 ∧ i / len ∈ rs then (if (place (i / len)).toNat < (word 1).toNat then (place (i / len)).toNat else 2 ^ w - 1)
          else if mZero u.mode then 0 else p, g)
      let ready (i : Nat) : Prop := s.resolve s.cur (ea i) z .store = .ok (pl i) ∧ s.homeReady true z (pl i)
      let done (f : Nat) (v : State) : Prop := ∃ v0,
        (latched → s.Rewrites p 8 none v0)
        ∧ (¬ latched → u.vstart = 0 → s.Rewrites p 8 (some (base + BitVec.ofNat 64 rs.length).toNat) v0)
        ∧ (¬ latched → u.vstart ≠ 0 → (s.withFresh (s.fresh + 1)).Rewrites p 8 none v0)
        ∧ v0.standsHome core 8 p ∧ v0.Scatters (covers f) pl z (u.read (l && u.vstart ≠ 0) d w) True v
        ∧ ∀ i, covers f i → v.standsHome core z (pl i)
      some_ → s.resolve s.cur (s.getS b) 8 .atomic = .ok p → (s.getS b).toNat % 32 = 0 → s.homeReady true 32 p → (∀ x ∈ s.cmds, x.hart ≠ s.me) →
      ((∀ i, covers u.vl i → ready i) → Completes (.vappend d b o l q) s (fun t => ∃ v, done u.vl v
        ∧ (l = false → (unlatched v.linkDone).GoesOn { (unlatched v.linkDone).hart s.me with vstart := 0 } t)
        ∧ (l = true → (unlatched v.linkDone).ElemResult o u.vl slot t)))
      ∧ ∀ i tr, covers u.vl i → s.elemCheck s.cur true (ea i) z .store = some tr → (∀ j, covers u.vl j → j < i → ready j) →
        s.linkUp = true →
        let f := i / len * len
        ∃ v y, done f v ∧ exec (.vappend d b o l q) s = .next (y.takeTrap { tr with elem := f })
          ∧ let x := v.linkDone.setHart s.me { v.linkDone.hart s.me with latch := some ⟨base, u.vpc⟩ }
            (l = true → u.vstart ≤ f → x.FailsAt o f slot y)
            ∧ (l = false ∨ f < u.vstart → y = x.setHart s.me { x.hart s.me with vstart := f })

/-! ### Handles -/

/-- hld and hst move the 64 bytes of a handle (R201); vldh and vsth trap at issue for an image of another kind, an ill-formed
one, or one of another element type, and vstart stays (R203, R205). vldh (R196, R202 to R204): each covered element takes the
entry that the image's arrays give for its position, or 0; a stop that has been asked for may cut it (R34). With q4 elements, whose scales must agree in each block of 32, the
scale store takes the entries' scale. It rests on readings of the model's own: which images are ill-formed (log 51) and which
elements a scale check compares (log 52). -/
def Obligations.HandleMovesAndLoads : Prop := (
  ∀ (s : State) (a b : BitVec 4) (d q : VOp) (p : Place),
    let u := s.hart s.me
    let h := Tab.get 0 u.hd a.toNat
    (s.isVector = true → s.conflicts s.me (rangesOf 64 false [s.getS b]) = false →
      s.resolve s.cur (s.getS b) 64 .load = .ok p → s.loadReady 64 p →
      Completes (.hld a b) s (fun t => ∃ v x, s.KeepsBytes (s.coreOf s.cur) v
        ∧ v.linkDone.GoesOn { v.linkDone.hart s.me with hd := x, vstart := 0 } t
        ∧ Tab.get 0 x a.toNat = BitVec.ofNat 512 (s.loadValue false 64 p)
        ∧ ∀ g : BitVec 4, g ≠ a → Tab.get 0 x g.toNat = Tab.get 0 u.hd g.toNat))
    ∧ (s.isVector = true → s.conflicts s.me (rangesOf 64 true [s.getS b]) = false →
      s.resolve s.cur (s.getS b) 64 .store = .ok p → s.storeReady 64 p →
      Completes (.hst a b) s (fun t => ∃ v, s.linkDone.Stores p 64 h.toNat v ∧ v.GoesOn { v.hart s.me with vstart := 0 } t))
    ∧ (d.writable = true → s.VectorReady (fun t => okB t || t.ty = tQ4) [d, q] →
      let fails (n : Nat) : Prop := Traps (.vldh d a q) s { cls := 0x0F, detail := BitVec.ofNat 64 n, elem := u.vstart }
        ∧ Traps (.vsth d a q) s { cls := 0x0F, detail := BitVec.ofNat 64 n, elem := u.vstart }
      (hKind h ≠ 1 ∨ hShape h = none ∨ hOk h = false → fails 1)
      ∧ (hKind h = 1 → hOk h = true → u.ty ≠ hEt h → fails 2))) ∧ (
  ∀ (s : State) (d q : VOp) (a : BitVec 4) (e : Nat → Option Nat) (val sc : Nat → Nat) (c : Nat), d.writable = true →
    s.VectorReady (fun t => okB t || t.ty = tQ4) [d, q] →
    let u := s.hart s.me
    let w := width u.ty
    let h := Tab.get 0 u.hd a.toNat
    let home := decide (mSc u.mode ≠ 0)
    let n := min u.vl (u.bytes / 8)
    let at_ (i : Nat) : Nat := u.read (u.vstart ≠ 0) q 64 i
    s.steady → hCheck u h = none → (∀ x ∈ s.cmds, x.hart ≠ s.me) → s.endsAt n c →
    (∀ i, u.covers c i → s.tensorEntry h home (at_ i % 2 ^ 32) (at_ i / 2 ^ 32) (e i) ∧ (e i = none → val i = 0)) →
    (u.ty ≠ tQ4 → (∀ i p, u.covers c i → e i = some p → s.holds home (hVal h + p * (w / 8)) (w / 8) (val i)) →
      Completes (.vldh d a q) s (fun t => ∃ v, s.KeepsBytes (s.coreOf s.cur) v
        ∧ v.linkDone.ElemEnds d n (fun i _ g => (val i, g)) t))
    ∧ (u.ty = tQ4 → u.vstart = 0 →
      (∀ i p, u.covers c i → e i = some p → (∃ y, s.holds home (hVal h + p / 2) 1 y ∧ val i = y / 16 ^ (p % 2) % 16)
        ∧ (if hSl h = 1 then s.holds home (hScl h + p / 32) 1 (sc (i / 32)) else sc (i / 32) = hUs h)) →
      Completes (.vldh d a q) s (fun t => ∃ v img, s.KeepsBytes (s.coreOf s.cur) v ∧ v.linkDone.MovesEnd d 4 0 n c img t
        ∧ (∀ i, elt 4 img.data i = if i < c ∧ u.active i = true then val i
            else if i < c ∧ mZero u.mode = true then 0 else elt 4 (u.vreg (vopIndex d)).data i)
        ∧ ∀ k, ((∃ i, u.covers c i ∧ i / 32 = k ∧ (e i).isSome = true) → elt 8 img.scale k = sc k)
            ∧ ((∀ i, u.covers c i → i / 32 = k → e i = none) → elt 8 img.scale k = elt 8 (u.vreg (vopIndex d)).scale k))))

/-- vsth (R112, R196, R202 to R204): each covered element's value replaces the entry of its position, one of several for one
entry; a zero is dropped where no entry holds the position. A q4 store replaces its nibble and the entry's scale byte. A stop that
has been asked for may cut it (R34). Of the
model's own: which one stands is a free value (log 5), and the order of the checks is a reading (log 52). -/
def Obligations.HandleStores : Prop :=
  ∀ (s : State) (d q : VOp) (a : BitVec 4) (e : Nat → Option Nat) (pl sl : Nat → Place) (c : Nat),
    s.VectorReady (fun t => okB t || t.ty = tQ4) [d, q] →
    let u := s.hart s.me
    let w := width u.ty
    let h := Tab.get 0 u.hd a.toNat
    let home := decide (mSc u.mode ≠ 0)
    let n := min u.vl (u.bytes / 8)
    let at_ (i : Nat) : Nat := u.read false q 64 i
    let data := u.read false d w
    let stores (i p : Nat) : Prop := u.covers c i ∧ e i = some p
    let ready (k : Nat) (p : Place) : Prop := if home then s.homeReady true k p else s.storeReady k p
    s.steady → hCheck u h = none → (∀ x ∈ s.cmds, x.hart ≠ s.me) → s.endsAt n c →
    (∀ i, u.covers c i → s.tensorEntry h home (at_ i % 2 ^ 32) (at_ i / 2 ^ 32) (e i)) →
    (u.ty ≠ tQ4 →
      (∀ i, u.covers c i → e i = none → data i = 0 ∨ (u.ty ≤ 4 ∧ data i = 2 ^ (w - 1))) →
      (∀ i p, stores i p → s.resolve s.cur (BitVec.ofNat 64 (hVal h + p * (w / 8))) (w / 8) .store = .ok (pl i) ∧ ready (w / 8) (pl i)) →
      Completes (.vsth d a q) s (fun t => ∃ v, s.Scatters (fun i => ∃ p, stores i p) pl (w / 8) data False v
        ∧ (home = true → ∀ i p, stores i p → v.standsHome (s.coreOf s.cur) (w / 8) (pl i)) ∧ v.linkDone.PlainEnds n c t))
    ∧ (u.ty = tQ4 → u.vstart = 0 →
      let scale (i : Nat) : Nat := elt 8 (u.source false d).scale (vopElem d i / 32)
      (∀ i, u.covers c i → u.q4Bad false d i = 0) →
      (∀ i, u.covers c i → e i = none → ∃ g y z, decodeQ4 (scale i) (data i) = .fin g 0 y z) →
      (∀ i p, stores i p → s.resolve s.cur (BitVec.ofNat 64 (hVal h + p / 2)) 1 .store = .ok (pl (p / 2)) ∧ ready 1 (pl (p / 2))
        ∧ (hSl h = 2 → scale i = hUs h)
        ∧ (hSl h = 1 → s.resolve s.cur (BitVec.ofNat 64 (hScl h + p / 32)) 1 .store = .ok (sl (p / 32)) ∧ ready 1 (sl (p / 32)))) →
      (∀ i j p r, stores i p → stores j r → (pl (p / 2) = pl (r / 2) → p / 2 = r / 2)
        ∧ (hSl h = 1 → (p / 32 = r / 32 → scale i = scale j) ∧ (sl (p / 32) = sl (r / 32) → p / 32 = r / 32)
          ∧ pl (p / 2) ≠ sl (r / 32))) →
      Completes (.vsth d a q) s (fun t => ∃ v, s.OnlyBytes (teamOf s.me) v ∧ v.linkDone.PlainEnds n c t
        ∧ (∀ i p, stores i p → (hSl h = 1 → v.placeValue true (sl (p / 32)) 1 = scale i)
          ∧ ∃ j, stores j p ∧ v.placeValue true (pl (p / 2)) 1 / 16 ^ (p % 2) % 16 = data j)
        ∧ ∀ x, x < 2 ^ 52 → (∀ i p, stores i p → pl (p / 2) ≠ .mem x ∧ (hSl h = 1 → sl (p / 32) ≠ .mem x)) →
            v.ownByte (s.coreOf s.cur) x = s.ownByte (s.coreOf s.cur) x))

/-! ### Engine commands -/

/-- Issuing a copy (R217, R221, R223, R224, R226): a reserved completion register, or a bad operand with the number of the lowest
of the five conditions that holds, traps; a conflict with a command in flight holds the instruction; a full interlock table, or
another hart that waits for entries, stalls it; and otherwise it goes out with its operands latched, cpyn with the loop-nest levels
too. RIT_STALL_END gives the turn to the hart that has waited longest once its entries are free, and the instruction is then
executed again with all its checks. That a stopped hart keeps its place and holds back no other is the model's reading (log 26). -/
def Obligations.CopyIssue : Prop :=
  ∀ (s : State) (a b c d : BitVec 4) (r : BitVec 2) (n : BitVec 6), s.isVector = true →
    let u := s.hart s.me
    let dst := s.getS a
    let src := s.getS b
    let z := (s.getS c).toNat
    let cw : W64 := if n = 0 then 0 else s.getS d
    let core := s.coreOf s.cur
    let spad : Nat := (s.team (teamOf s.me)).bytes
    let fromMem : Bool := r = 0 || r = 2
    let toMem : Bool := r = 1 || r = 2
    let issue (i : Instr) (ls : List Level) : Prop :=
      let runs := (ls.map (fun l => l.count.toNat)).prod
      let moves : Prop := runs ≠ 0 ∧ z ≠ 0
      let ext (by_ : Level → W64) : List Int := ls.map (fun l => ((l.count.toNat : Int) - 1) * (by_ l).toInt)
      let sl : Int := src.toNat + ((ext Level.ss).map (min 0)).sum
      let sh : Int := src.toNat + ((ext Level.ss).map (max 0)).sum + z - 1
      let dl : Int := dst.toNat + ((ext Level.ds).map (min 0)).sum
      let dh : Int := dst.toNat + ((ext Level.ds).map (max 0)).sum + z - 1
      let memBad (lo hi : Int) : Prop := lo < 0 ∨ 2 ^ 48 ≤ hi ∨ (0xFF0000000000 ≤ hi ∧ lo < 0xFF0000000000 + 0x50000)
      let spadBad (lo hi : Int) : Prop := lo < 0 ∨ (spad : Int) ≤ hi
      let c1 : Prop := (∃ l ∈ ls, 2 ^ 32 - 1 < l.count.toNat) ∨ 2 ^ 40 < runs ∨ 2 ^ 32 < z
      let c2 : Prop := moves ∧ ((fromMem = true ∧ memBad sl sh) ∨ (toMem = true ∧ memBad dl dh))
      let c3 : Prop := moves ∧ ((fromMem = false ∧ spadBad sl sh) ∨ (toMem = false ∧ spadBad dl dh))
      let c4 : Prop := moves ∧ fromMem = toMem ∧ sl ≤ dh ∧ dl ≤ sh
      let c5 : Prop := n ≠ 0 ∧ (cw.toNat % 8 ≠ 0 ∨ 2 ^ 48 ≤ cw.toNat ∨ (inWindow cw.toNat = true ∧ spad < cw.toNat - 0xFF0000000000 + 8))
      let fails (k : Nat) : Prop := exec i s = .next ((s.setHart s.me { u with vstart := 0 }).takeTrap
        { cls := 0x11, detail := BitVec.ofNat 64 k, eng := true })
      let alone : Prop := ∀ x ∈ s.cmds, x.hart ≠ s.me
      let turn : Prop := s.ritAhead core s.me = []
      (n = 0 → d ≠ 0 → Traps i s { illegal .reservedBit with eng := true })
      ∧ ((n = 0 → d = 0) → (c1 → fails 1) ∧ (¬ c1 → c2 → fails 2) ∧ (¬ c1 → ¬ c2 → c3 → fails 3)
        ∧ (¬ c1 → ¬ c2 → ¬ c3 → c4 → fails 4) ∧ (¬ c1 → ¬ c2 → ¬ c3 → ¬ c4 → c5 → fails 5)
        ∧ (¬ c1 → ¬ c2 → ¬ c3 → ¬ c4 → ¬ c5 → ∀ rs : List Range,
            (moves → rs = [⟨fromMem, sl.toNat, sh.toNat, false⟩, ⟨toMem, dl.toNat, dh.toNat, true⟩]) → (¬ moves → rs = []) →
          ((∃ x ∈ s.cmds, x.hart = s.me ∧ ∃ e ∈ x.ranges, ∃ y ∈ rs,
              e.mem = y.mem ∧ e.lo ≤ y.hi ∧ y.lo ≤ e.hi ∧ (e.write = true ∨ y.write = true)) → Waits i s)
          ∧ (alone → s.ritUsed core + rs.length ≤ 64 → (turn ∨ rs = []) → Completes i s (fun t => ∃ q,
              Tab.get [] q core = (Tab.get [] s.ritQ core).filter (· ≠ s.me)
                ∧ ({ s with ritQ := q }).Issues (.copy r.toNat dst src z ls) cw n.toNat .run t))
          ∧ (alone → u.stalled = none → 64 < s.ritUsed core + rs.length ∨ (¬ turn ∧ rs ≠ []) →
              Completes i s (fun t => t.hart s.me = { u with stalled := some ⟨rs.length, false⟩ }
                ∧ Tab.get [] t.ritQ core = (Tab.get [] s.ritQ core).filter (· ≠ s.me) ++ [s.me] ∧ t.cmds = s.cmds))))
    issue (.cpy a b c d r n) (List.replicate 6 ⟨1, 0, 0⟩)
    ∧ issue (.cpyn a b c d r n) ((List.range 6).map (fun l => Tab.get {} u.nest l))
    ∧ (∀ k h rest y, s.ritWaiters k = h :: rest → (s.hart h).stalled = none →
        s.cmds.find? (fun y => y.hart = h && !y.unmade.isEmpty) = some y →
        (64 < s.ritUsed k + y.unmade.length → Waits (.ritStallEnd k) s)
        ∧ (s.ritUsed k + y.unmade.length ≤ 64 → Completes (.ritStallEnd k) s (fun t =>
            ∃ q, t = { s.withCmd { y with ranges := y.unmade, unmade := [] } with ritQ := q })))
    ∧ (∀ k h rest x, s.ritWaiters k = h :: rest → (s.hart h).stalled = some x →
        (s.ritUsed k + x.need ≤ 64 → Completes (.ritStallEnd k) s (fun t =>
            t = s.setHart h { s.hart h with stalled := some { x with ready := true } }))
        ∧ (64 < s.ritUsed k + x.need → Waits (.ritStallEnd k) s))

/-- COPY_RUN (R220, R228, R273): a turn moves the rest of a run, or of a longer rest as many whole 64-byte pieces of the destination
as 4,096 bytes hold, the source as the core's own stores and the home copies give it; when every run has moved the command gives up
its entries in the interlock table and goes on to its completion add, or ends if it has none (R225; one whose word does not
translate keeps them, R222). COMPLETION_ADD (R222): the addend is added once to the 8 bytes at the completion word, in the
scratchpad or at the home slice, and the command ends; a word whose page does not translate parks it, with the entries that it had, once they are free (R222, R226). The order of the copies of a
hart is the model's reading (log 46). -/
def Obligations.CopyRunsAndCompletions : Prop := (
  ∀ (s : State) (h seq : Nat) (c : Cmd) (r : Nat) (dst src : W64) (z : Nat) (ls : List Level) (from_ to_ : Nat → Nat),
    c.op = .copy r dst src z ls → s.steps h seq c .run EngOp.isCopy → r < 4 →
    let runs := (ls.map (fun l => l.count.toNat)).prod
    let d := (dst + runOffset Level.ds ls c.k).toNat + c.o
    let b := (src + runOffset Level.ss ls c.k).toNat + c.o
    let m := if z - c.o ≤ 4096 then z - c.o else 4096 - d % 64
    let bytes : List Byte := if r = 0 ∨ r = 2 then s.engineBytes h from_ b m else s.spadBytes h b m
    let moved (q : Nat) : Prop := (r = 1 ∨ r = 2) ∧ ∃ i, i < m ∧ q = to_ (d + i)
    (runs ≤ c.k ∨ z = 0 → Completes (.copyRun h seq) s (s.Finishes c))
    ∧ (c.k < runs → c.o < z → b + z ≤ 2 ^ 48 → d + z ≤ 2 ^ 48 →
      (r = 0 ∨ r = 2 → s.enginePages h from_ .engRead b m moved ∧ s.engineClean from_ b m) →
      (r = 1 ∨ r = 2 → s.enginePages h to_ .engWrite d m moved ∧ (∀ i j, i < m → j < m → to_ (d + i) = to_ (d + j) → i = j)) →
      (r = 2 → ∀ i j, i < m → j < m → to_ (d + i) ≠ from_ (b + j)) → (r = 3 → b + m ≤ d ∨ d + m ≤ b) →
      Completes (.copyRun h seq) s (fun t => ∃ u,
        (r = 1 ∨ r = 2 → s.EngineWrites h to_ d bytes u) ∧ (r = 0 ∨ r = 3 → s.SpadWrites h d bytes u)
        ∧ if c.o + m < z then t = u.withCmd { c with o := c.o + m }
          else if c.k + 1 < runs then t = u.withCmd { c with k := c.k + 1, o := 0 } else u.Finishes { c with k := c.k + 1, o := 0 } t))) ∧ (
  ∀ (s : State) (h seq : Nat) (c : Cmd), s.cmd? h seq = some c → c.stage = .add → c.parked = none → s.mayMove c = true →
    let va := c.cw.toNat
    let core := s.coreOfTeam (teamOf h)
    let sum (v : Nat) : List Byte := (List.range 8).map (byteOf ((v + c.add) % 2 ^ 64))
    (inWindow va = true → Completes (.completionAdd h seq) s (fun t => ∃ u,
        s.SpadWrites h (va - windowBase) (sum (leNat (s.spadBytes h (va - windowBase) 8))) u ∧ t = u.withoutCmd c))
    ∧ (inWindow va = false → ∀ pa, s.translate core (s.ctxOf h) va .atomic = .ok pa → s.linkUp = true → pa + 8 ≤ 2 ^ 52 →
        s.anyPoison pa 8 = false → Completes (.completionAdd h seq) s (fun t => ∃ u, s.OnlyBytes (teamOf h) u ∧ t = u.withoutCmd c
          ∧ (∀ i, i < 8 → u.homeByte (pa + i) = (sum (leNat ((List.range 8).map (fun i => s.ownByte core (pa + i))))).getD i 0)
          ∧ (∀ q, q < 2 ^ 52 → ¬ (pa ≤ q ∧ q < pa + 8) → u.ownByte core q = s.ownByte core q)
          ∧ ∀ i, i < 8 → u.l1Byte core (pa + i) = none))
    ∧ (inWindow va = false → ∀ f, s.translate core (s.ctxOf h) va .atomic = .error f → s.entryFor (s.ctxOf h) f.base f.size = none →
        let room : Prop := c.spare = [] ∨ s.onCore h = false ∨ s.ritUsed core + c.spare.length ≤ 64
        (¬ room → Waits (.completionAdd h seq) s)
        ∧ (room → Completes (.completionAdd h seq) s (fun t => ∃ w, w.length = 8 ∧ (w.getD 0 0).toNat % 256 = 0x05
          ∧ w.getD 1 0 = BitVec.ofNat 64 va ∧ t = (s.withReports (s.reports ++ [⟨s.nextRid, w, some core⟩])
            (s.live ++ [⟨s.nextRid, s.ctxOf h, f.base, f.size⟩])).withCmd
              { c with parked := some ⟨s.nextRid, true⟩, kept := false, ranges := c.ranges ++ c.spare, spare := [] }))))

/-! ### The matrix unit -/

/-- Holding and releasing tile rows, and clearing tiles (R125, R126, R151, R159): matt raises the team's rows to the target or
as far as the quad's 8 allow, and never waits; mdet waits for the team's matrix commands; mzero waits for the commands of its
hart that use a tile it clears (R162).
mcvt, mrd, mwr and mdsc (R127, R129, R160, R161): the conversion and the descent step go out as commands when their operands
are in range; mrd reads accumulator elements by flat index and mwr writes them, and a stop that has been asked for may cut them
(R34). A mdsc that is illegal leaves vstart 0 (R129). It rests on readings of the model's own: that the flat index is not reduced
(log 49), and that mzero, mcvt and mdsc leave vstart as it was found when they complete (log 105). -/
def Obligations.MatrixIssue : Prop := (
  ∀ (s : State) (a b : BitVec 4), s.isVector = true →
    let u := s.hart s.me
    let g := teamOf s.me
    let team := s.team g
    let target := min (s.getS b).toNat (min 8 (classRows team.pclass))
    let h := max team.rows (min target (team.rows + (8 - s.rowsHeld (team.core / 4))))
    let busy : Prop := ∃ c ∈ s.cmds, teamOf c.hart = g ∧ c.op.isMatrix = true
    let c := (s.getS a).toNat
    let n := (s.getS b).toNat
    Completes (.matt a b) s ((s.setTeam g { team with rows := h }).ScalarResult false a (BitVec.ofNat 64 h))
    ∧ (busy → Waits .mdet s)
    ∧ (¬ busy → Completes .mdet s ((s.setTeam g { team with rows := 0 }).GoesOn u))
    ∧ (n = 0 → Completes (.mzero a b) s (s.GoesOn u))
    ∧ (n ≠ 0 → team.tiles < c + n → exec (.mzero a b) s = .next ((s.setHart s.me { u with vstart := 0 }).takeTrap
        { cls := 0x0C, detail := 0xFFFFFFFF }))
    ∧ (n ≠ 0 → c + n ≤ team.tiles → (∃ x ∈ s.cmds, x.hart = s.me
        ∧ ((∃ fm z k c0 mt nt rows q pq m, x.op = .prod fm z k c0 mt nt rows q pq m ∧ c < c0 + mt * nt ∧ c0 < c + n)
          ∨ ∃ c0 off k fm rnd sat clr, x.op = .mcvt c0 off k fm rnd sat clr ∧ c < c0 + k ∧ c0 < c + n)) →
        Waits (.mzero a b) s)
    ∧ (n ≠ 0 → c + n ≤ team.tiles → (∀ x ∈ s.cmds, x.hart ≠ s.me) → Completes (.mzero a b) s (fun t => ∃ m,
        (s.withAcc g m).GoesOn u t
        ∧ ∀ e, Tab.get 0 m e = if 1024 * c ≤ e ∧ e < 1024 * (c + n) then 0 else Tab.get 0 team.acc e))) ∧ (
  ∀ (s : State) (a b c : BitVec 4) (v : BitVec 5) (f : BitVec 3) (clr : Bool) (p : BitVec 2) (e : Nat),
    let u := s.hart s.me
    let g := teamOf s.me
    let team := s.team g
    let tile := (s.getS a).toNat
    let off := (s.getS b).toNat
    let n := (s.getS c).toNat
    let geo := n
    let r := codeBytes f.toNat (geo % 2 ^ 16)
    let rows := ((List.range u.vl).filter u.active).map
      (fun i => (i, u.read false (.main v) 32 i, u.read false (.main (v + 1)) 32 i))
    (s.isVector = true → f.toNat ≤ 4 → u.rnd ≠ stoch →
      (n = 0 → Completes (.mcvt a b c clr f) s (s.GoesOn u))
      ∧ (n ≠ 0 → tile + n ≤ team.tiles → off % 64 = 0 → off + n * (128 * width f.toNat) ≤ team.bytes → s.issueFree →
          Completes (.mcvt a b c clr f) s (s.Issues (.mcvt tile off n f.toNat u.rnd u.sat clr) 0 0 .run)))
    ∧ (s.VectorReady (fun t => t.ty = tF32) [.main v] → s.endsAt u.vl e → (∀ x ∈ s.cmds, x.hart ≠ s.me) →
        (∀ i, u.covers e i → tile + i < 1024 * team.tiles) →
        Completes (.mrd a v) s (s.ElemEnds (.main v) u.vl (fun i _ g' => ((Tab.get 0 team.acc (tile + i)).toNat, g')))
        ∧ ((∀ i, ¬ u.covers e i) → Completes (.mwr a v) s (s.PlainEnds u.vl e))
        ∧ ((∃ i, u.covers e i) → Completes (.mwr a v) s (fun t => ∃ m, (s.withAcc g m).PlainEnds u.vl e t
          ∧ (∀ i, u.covers e i → Tab.get 0 m (tile + i) = BitVec.ofNat 32 (u.read false (.main v) 32 i))
          ∧ ∀ x, (∀ i, u.covers e i → x ≠ tile + i) → Tab.get 0 m x = Tab.get 0 team.acc x)))
    ∧ (s.isVector = true → u.ty ≠ tN32 ∨ v.getLsbD 0 = true → exec (.mdsc a b c v f clr p) s =
        .next ((s.setHart s.me { u with vstart := 0 }).takeTrap { illegal .reservedValue with eng := true }))
    ∧ (s.VectorReady (fun t => t.ty = tN32) [.main v, .main (v + 1)] → f.toNat ≤ 4 → v.getLsbD 0 = false → (clr = true ∨ p = 0) →
        (team.rows = 0 ∨ classDescent team.pclass = false →
          exec (.mdsc a b c v f clr p) s = .next ((s.setHart s.me { u with vstart := 0 }).takeTrap { cls := 0x0B, eng := true }))
        ∧ (team.rows ≠ 0 → classDescent team.pclass = true → 1 ≤ geo % 2 ^ 16 → geo % 2 ^ 16 ≤ 4096 → 1 ≤ geo / 2 ^ 16 →
            geo / 2 ^ 16 ≤ 2 ^ 30 → tile % 64 = 0 → off % 64 = 0 →
            (∀ e ∈ rows, e.2.1 < geo / 2 ^ 16 ∧ off + (e.2.1 + 1) * r ≤ team.bytes ∧ tile + (e.2.2 + 1) * r ≤ team.bytes
              ∧ (clr = true → e.2.2 < 512)) → s.issueFree →
            Completes (.mdsc a b c v f clr p) s (s.Issues
              (.desc tile off (s.getS c) f.toNat (if clr then some p.toNat else none) v.toNat u.vl rows) 0 0 .run))))

/-- The product instructions (R154 to R158): a team that holds no rows traps with the matrix-state class; with every operand in
range the command goes out with its row offsets latched, mmas with its mask, mmag with the gathered rows of the active
elements; mmag with none has no effect, and with elements that are no n32 it is illegal and leaves vstart 0. That a product that goes
out, and an mmag with no active element, leave vstart as it was found is the model's reading (log 105). -/
def Obligations.MatrixProducts : Prop :=
  ∀ (s : State) (a b c : BitVec 4) (k : BitVec 3) (v : BitVec 5) (z : Bool) (f : BitVec 3), f.toNat ≤ 5 →
    let u := s.hart s.me
    let g := teamOf s.me
    let team := s.team g
    let fmt := f.toNat
    let pa := (s.getS a).toNat
    let pb := (s.getS b).toNat
    let geo := (s.getS c).toNat
    let depth := geo % 2 ^ 16
    let nt := geo / 2 ^ 20 % 2 ^ 8
    let c0 := geo / 2 ^ 28 % 2 ^ 12
    let pitch (field r : Nat) : Nat := if field = 0 then r else 64 * field
    let mask := Tab.get 0 u.k k.toNat
    let gathered : List (Option Nat) := (List.range u.vl).map (fun i => if u.active i then some (u.read false (.main v) 32 i) else none)
    let product (i : Instr) (ok : Prop) (ka mt : Nat) (mask : Option Nat) (numbers : List (Option Nat)) : Prop :=
      let ra := rowBytes fmt ka
      let rb := rowBytes fmt depth
      let qa := pitch (geo / 2 ^ 40 % 2 ^ 12) ra
      let qb := pitch (geo / 2 ^ 52) rb
      (s.isVector = true → team.rows = 0 → exec i s = .next ((s.setHart s.me { u with vstart := 0 }).takeTrap { cls := 0x0B, eng := true }))
      ∧ (s.isVector = true → ok → team.rows ≠ 0 → 1 ≤ depth → depth ≤ 16384 → 1 ≤ nt → nt ≤ 64 → ra ≤ qa → rb ≤ qb →
          c0 + mt * nt ≤ team.tiles → pa % 64 = 0 → pb % 64 = 0 → (∀ n, some n ∈ numbers → pa + n * qa + ra ≤ team.bytes) →
          pb + (32 * nt - 1) * qb + rb ≤ team.bytes →
          (fmt = tQ4 → (∀ n, some n ∈ numbers → s.rowFormat g (pa + n * qa) ka = none)
            ∧ ∀ n, n < 32 * nt → s.rowFormat g (pb + n * qb) depth = none) →
          s.issueFree →
          Completes i s (s.Issues (.prod fmt z depth c0 mt nt (numbers.map (fun r => r.map (fun n => pa + n * qa))) pb qb mask) 0 0 .run))
    let dense (mt : Nat) : List (Option Nat) := (List.range (32 * mt)).map some
    let mt := geo / 2 ^ 16 % 2 ^ 4
    product (.mma a b c z f) (1 ≤ mt ∧ mt ≤ 8) depth mt none (dense mt)
    ∧ product (.mmas a b c k z f) (1 ≤ mt ∧ mt ≤ 8 ∧ depth ≤ u.maskBits) (popBelow mask depth) mt (some mask) (dense mt)
    ∧ (u.ty = tN32 → v.toNat < u.n → product (.mmag a b c v z f) (mt = 0 ∧ u.vl ≤ 256 ∧ ∃ n, some n ∈ gathered) depth
        ((u.vl + 31) / 32) none gathered)
    ∧ (u.ty ≠ tN32 → s.isVector = true → exec (.mmag a b c v z f) s =
        .next ((s.setHart s.me { u with vstart := 0 }).takeTrap { illegal .reservedValue with eng := true }))
    ∧ (s.isVector = true → u.ty = tN32 → v.toNat < u.n → team.rows ≠ 0 → (∀ n, some n ∉ gathered) →
        Completes (.mmag a b c v z f) s (s.GoesOn u))

/-- MATRIX_TILE (R147, R153, R156, R160) takes one tile of a command: of a product, each of the tile's elements in an active
row becomes the dot of its rows onto what it held, or onto +0; of a conversion, the tile's elements go to the scratchpad in
the format, and the tile is cleared if the command says so. The command then has its next tile to do, or is over.
DESCENT_EXECUTE (R127, R128, R131): each active element's node becomes its left or right child by the sign of the dot of its
token and node rows, and with a write-trace flag its record goes into the path trace; the command is over. Elements of one
command that write one trace record do so in ascending order. It rests on readings of the model's own: the order of the tiles
(log 44). -/
def Obligations.MatrixSteps : Prop := (
  ∀ (s : State) (h seq : Nat) (c : Cmd), s.cmd? h seq = some c → s.mayMove c = true → s.olderMatrix c = false →
    let g := teamOf h
    let team := s.team g
    let acc (e : Nat) : BitVec 32 := Tab.get 0 team.acc e
    let next (total : Nat) (u t : State) : Prop := t = if c.k + 1 < total then u.withCmd { c with k := c.k + 1 } else u.withoutCmd c
    (∀ fmt z k c0 mt nt rows b pb mask, c.op = .prod fmt z k c0 mt nt rows b pb mask →
      let ka := match mask with | some m => popBelow m k | none => k
      let row (r : Nat) : Option Nat := rows.getD (32 * (c.k / nt) + r) none
      let value (r j off : Nat) : Nat := dotOnto (if z then 0 else (acc (1024 * (c0 + c.k) + 32 * r + j)).toNat) (fmtGroup fmt)
        (dotTerms mask k (s.rowValues g off fmt ka) (s.rowValues g (b + (32 * (c.k % nt) + j) * pb) fmt k))
      ((∃ r, r < 32 ∧ row r ≠ none) → Completes (.matrixTile h seq) s (fun t => ∃ m, next (mt * nt) (s.withAcc g m) t
        ∧ (∀ r j, r < 32 → j < 32 → Tab.get 0 m (1024 * (c0 + c.k) + 32 * r + j) =
            match row r with
            | some off => BitVec.ofNat 32 (value r j off)
            | none => acc (1024 * (c0 + c.k) + 32 * r + j))
        ∧ ∀ e, e / 1024 ≠ c0 + c.k → Tab.get 0 m e = acc e))
      ∧ ((∀ r, r < 32 → row r = none) → Completes (.matrixTile h seq) s (next (mt * nt) s)))
    ∧ (∀ tile off n fmt rnd sat clr, c.op = .mcvt tile off n fmt rnd sat clr → fmt ≤ 4 →
      let x (e : Nat) : Nat := (acc (1024 * (tile + c.k) + e)).toNat
      let code (e : Nat) : Nat := (convert tF32 fmt rnd sat (decodeFloat tF32 (x e)) (x e) [] 0).1
      let z := width fmt / 8
      let base := off + c.k * (1024 * z)
      Completes (.matrixTile h seq) s (fun t => ∃ sp m, next n ((s.withSpad g sp).withAcc g m) t
        ∧ (∀ e i, e < 1024 → i < z → Tab.get 0 sp (base + e * z + i) = byteOf (code e) i)
        ∧ (∀ o, (o < base ∨ base + 1024 * z ≤ o) → Tab.get 0 sp o = s.spadByte g o)
        ∧ ∀ e, Tab.get 0 m e = if clr = true ∧ e / 1024 = tile + c.k then 0 else acc e))) ∧ (
  ∀ (s : State) (h seq : Nat) (c : Cmd) (ta na : Nat) (geo : W64) (f : Nat) (trace : Option Nat) (v vl : Nat)
    (rows : List (Nat × Nat × Nat)),
    s.cmd? h seq = some c → s.mayMove c = true → s.olderMatrix c = false →
    c.op = .desc ta na geo f trace v vl rows → rows.Pairwise (fun a b => a.1 < b.1) →
    let u := s.hart h
    let k := geo.toNat % 2 ^ 16
    let size := codeBytes f k
    let dot (e : Nat × Nat × Nat) : Nat := dotOnto 0 (fmtGroup f) (dotTerms none k
      (s.rowValues (teamOf h) (ta + e.2.2 * size) f k) (s.rowValues (teamOf h) (na + e.2.1 * size) f k))
    let bit (e : Nat × Nat × Nat) : Nat := if 0 < dot e ∧ dot e ≤ infCode tF32 then 1 else 0
    Completes (.descentExecute h seq) s (fun t => ∃ w, t = (s.setHart h w).withoutCmd c
      ∧ (∃ vs pt, w = { u with v := vs, pt := pt }) ∧ (∀ r, r ≠ v → w.vreg r = u.vreg r)
      ∧ (∀ e ∈ rows, elt 32 (w.vreg v).data e.1 = (2 * e.2.1 + 1 + bit e) % 2 ^ 32)
      ∧ (∀ i, (∀ e ∈ rows, e.1 ≠ i) → elt 32 (w.vreg v).data i = elt 32 (u.vreg v).data i)
      ∧ (trace = none → w.pt = u.pt)
      ∧ ∀ p, trace = some p → ∀ e ∈ rows, (∀ x ∈ rows, x.2.2 = e.2.2 → x.1 ≤ e.1) →
          leNat ((List.range 8).map (fun i => Tab.get 0 w.pt (4096 * p + 8 * e.2.2 + i))) =
            (dot e * 2 ^ 32 + 2 ^ 31 + e.2.1 % 2 ^ 30 * 2 + bit e) % 2 ^ 64))

/-! ### Lookups -/

/-- klq and klu at issue (R172, R174, R176, R184): without key lookup engines in the team's class the lookup-state trap; with a bad
table or operand, a table range in the scratchpad window among them, the lookup-operand trap; else the command goes out to be probed. An illegal one traps
too, and after any of these traps vstart is 0. That a lookup of no query (m = 0) has no range to check is the model's reading (log 107). -/
def Obligations.LookupIssue : Prop :=
  ∀ (s : State) (hn b c d : BitVec 4) (n : BitVec 6), s.isVector = true → b ≠ 15 → (n = 0 → d = 0) →
    let u := s.hart s.me
    let team := s.team (teamOf s.me)
    let img := Tab.get 0 u.hd hn.toNat
    let a := (s.getS b).toNat
    let r := (s.getS (b + 1)).toNat
    let m := (s.getS c).toNat
    let cw : W64 := if n = 0 then 0 else s.getS d
    let x (update : Bool) : LookupArgs := ⟨img, a, r, m, if update then (s.getS (c + 1)).toNat else 0, cw, n.toNat⟩
    let traps (i : Instr) (t : Trap) : Prop := exec i s = .next ((s.setHart s.me { u with vstart := 0 }).takeTrap t)
    let no : Trap := { cls := 0x0D, eng := true }
    let bad : Trap := { cls := 0x0E, detail := 0xFFFFFFFF, eng := true }
    let q := (tableOf img).queryBytes
    let g := (tableOf img).gradBytes
    let rec_ := (tableOf img).recordBytes
    let t := tableOf img
    let off (a n : Nat) : Prop := 2 ^ 48 < a + n ∨ (0xFF0000000000 < a + n ∧ a < 0xFF0000000000 + 0x50000)
    traps (.klu hn b 15 d n) { illegal .reservedValue with eng := true }
    ∧ (∀ e, e ≠ 0 → traps (.klq hn b c e 0) { illegal .reservedBit with eng := true }
        ∧ traps (.klu hn b c e 0) { illegal .reservedBit with eng := true })
    ∧ (classKle team.pclass = 0 → traps (.klq hn b c d n) no ∧ (c ≠ 15 → traps (.klu hn b c d n) no))
    ∧ (classKle team.pclass ≠ 0 →
        (tableBad img = true ∨ off t.key1 (t.n * t.keyBytes) ∨ off t.key2 (t.n * t.keyBytes) ∨ off t.val (t.n * t.n * t.vpitch)
            ∨ 4096 < m ∨ a % 64 ≠ 0 ∨ r % 64 ≠ 0 →
          traps (.klq hn b c d n) bad ∧ (c ≠ 15 → traps (.klu hn b c d n) bad))
        ∧ (s.lookupFault false (x false) = true → traps (.klq hn b c d n) bad)
        ∧ (c ≠ 15 → s.lookupFault true (x true) = true → traps (.klu hn b c d n) bad)
        ∧ (tableBad img = false → m ≤ 4096 → a % 64 = 0 → r % 64 = 0 → s.wordOk s.me cw n.toNat = true → s.issueFree →
            (m = 0 ∨ (a + m * q ≤ team.bytes ∧ r + m * rec_ ≤ team.bytes ∧ (a + m * q ≤ r ∨ r + m * rec_ ≤ a)) →
              Completes (.klq hn b c d n) s (s.Issues (.klq img a r m []) cw n.toNat .probe))
            ∧ (c ≠ 15 → m = 0 ∨ (a + m * g ≤ team.bytes ∧ r + m * rec_ ≤ team.bytes) → (s.getS (c + 1)).toNat < 2 ^ 32 →
              Completes (.klu hn b c d n) s (s.Issues (.klu img a r m (s.getS (c + 1)).toNat []) cw n.toNat .probe))))

/-- The selection of one query (R173): the k members of highest score, equal scores by lower index, of the candidates that the k
best sub-keys of each half form; a NaN score ranks after every number. The weights are the scores, or the positive scores over
their sum. -/
def Obligations.LookupSelection : Prop :=
  ∀ (t : Table) (s1 s2 : List Nat), t.k ≤ s1.length → t.k ≤ s2.length → s1.length ≤ t.n → s2.length ≤ t.n →
    (∀ x ∈ s1 ++ s2, x < 2 ^ 32) →
    let score (x : Nat) : Exact := decodeFloat tF32 x
    let above (x y : Nat × Nat) : Prop :=
      (score x.1).cmp (score y.1) = some .gt ∨ (score x.1 ≠ .nan ∧ score y.1 = .nan)
      ∨ (((score x.1).cmp (score y.1) = some .eq ∨ (score x.1 = .nan ∧ score y.1 = .nan)) ∧ x.2 < y.2)
    let best (n : Nat) (l r : List (Nat × Nat)) : Prop :=
      r.length = n ∧ r.Nodup ∧ (∀ x ∈ r, x ∈ l) ∧ r.Pairwise above ∧ ∀ x ∈ r, ∀ y ∈ l, y ∉ r → above x y
    let whole (l : List Nat) : List (Nat × Nat) := (List.range l.length).map (fun i => (l.getD i 0, i))
    ∃ a b sel : List (Nat × Nat), best t.k (whole s1) a ∧ best t.k (whole s2) b
      ∧ best t.k (a.flatMap (fun x => b.map (fun y => (addF32 x.1 y.1, x.2 * t.n + y.2)))) sel
      ∧ (selectOf t s1 s2).map Prod.fst = sel.map Prod.snd
      ∧ (t.wm = 0 → (selectOf t s1 s2).map Prod.snd = sel.map Prod.fst)
      ∧ (t.wm ≠ 0 →
          let p := sel.map (fun x => if score x.1 ≠ .nan ∧ (score x.1).cmp (.fin false 0 0 false) = some .gt then x.1 else 0)
          let total := p.tail.foldl addF32 (p.headD 0)
          (selectOf t s1 s2).map Prod.snd = p.map (fun x =>
            if total = 0 then 0 else roundFloat tF32 0 0 false ((score x).div (score total))))

/-- LOOKUP_PROBE and LOOKUP_EXECUTE of a klq (R173, R175, R178): the probe scores every query against the sub-keys, records its
selection and pins the pages of the sub-keys, unless they are pinned already, and of the rows selected; a step then writes one query's record, outputs and
selection entries. A command with no query has only its completion add left. -/
def Obligations.LookupQueries : Prop :=
  ∀ (s : State) (h seq : Nat) (c : Cmd) (img : BitVec 512) (query rec_ m : Nat) (sel : List (List (Nat × Nat))) (at_ : Nat → Nat),
    c.op = .klq img query rec_ m sel → s.cmd? h seq = some c → c.hart = h → c.parked = none →
    let g := teamOf h
    let core := s.coreOfTeam g
    let t := tableOf img
    let nk := t.n * t.keyBytes
    let pages (l : List (Nat × Nat)) : Except (Nat × TFail) (List Page) := s.pagesAll core (s.ctxOf h) .engRead l
    let rows (l : List (List (Nat × Nat))) : List Nat := (l.flatten.map Prod.fst).eraseDups
    let fetched (r : Nat) : List Exact := valuesAt t.fv (s.engineBytes h at_ (t.val + r * t.vpitch) (t.vw * width t.fv / 8)) 0 t.vw
    (c.stage = .probe → (s.team g).st = .resident → s.mayMove c = true → s.lookupTurn c = true →
      (m = 0 → Completes (.lookupProbe h seq) s (fun x => x = s.withCmd { c with stage := .run, k := 0, ranges := [] }))
      ∧ (∀ ps qs, m ≠ 0 → (s.hasPins c = false → pages [(t.key1, nk), (t.key2, nk)] = .ok ps) →
          let s0 := if s.hasPins c then s else s.pin c ps
          (∀ v, s0.OnlyBytes g v → s.HomeKept core (fun _ => False) v →
            ∀ l, v.pagesAll core (s.ctxOf h) .engRead l = pages l) →
          s0.enginePages h at_ .engRead t.key1 nk (fun _ => False) → s0.enginePages h at_ .engRead t.key2 nk (fun _ => False) →
          s0.engineClean at_ t.key1 nk → s0.engineClean at_ t.key2 nk →
          let choose := s.selections g t query m (s.engineBytes h at_ t.key1 nk) (s.engineBytes h at_ t.key2 nk)
          pages ((rows choose).map (fun r => (t.val + r * t.vpitch, t.vw * width t.fv / 8))) = .ok qs →
          Completes (.lookupProbe h seq) s (fun x => ∃ u, s0.OnlyBytes g u
            ∧ (∀ q, q < 2 ^ 52 → u.ownByte core q = s.ownByte core q) ∧ (∀ k o, u.spadByte k o = s.spadByte k o)
            ∧ x = (u.pin c qs).withCmd
                { c with op := .klq img query rec_ m choose, stage := .run, k := 0, ranges := c.afterProbe })))
    ∧ (c.stage = .run → s.mayMove c = true →
      (m ≤ c.k → Completes (.lookupExecute h seq) s (s.Finishes c))
      ∧ (c.k < m → (∀ x ∈ sel.getD c.k [],
            s.enginePages h at_ .engRead (t.val + x.1 * t.vpitch) (t.vw * width t.fv / 8) (fun _ => False)
            ∧ s.engineClean at_ (t.val + x.1 * t.vpitch) (t.vw * width t.fv / 8)) →
          let mine := sel.getD c.k []
          let out (e : Nat) : Nat := mine.foldl (fun acc x => fusedF32 acc x.2 ((fetched x.1).getD e (.fin false 0 0 false))) 0
          mine.length = t.k →
          Completes (.lookupExecute h seq) s (fun x => ∃ u bs, s.SpadWrites h (rec_ + c.k * t.recordBytes) bs u
            ∧ bs.length = t.recordBytes
            ∧ (∀ e, e < t.vw → leNat ((bs.drop (4 * e)).take 4) = out e % 2 ^ 32)
            ∧ (∀ j, j < t.k → leNat ((bs.drop (t.gradBytes + 8 * j)).take 8) =
                (mine.getD j (0, 0)).1 % 2 ^ 32 + (mine.getD j (0, 0)).2 % 2 ^ 32 * 2 ^ 32)
            ∧ (∀ i, (4 * t.vw ≤ i ∧ i < t.gradBytes ∨ t.gradBytes + 8 * t.k ≤ i) → bs.getD i 0 = 0)
            ∧ if c.k + 1 < m then x = u.withCmd { c with k := c.k + 1 } else u.Finishes { c with k := c.k + 1 } x)))

/-- LOOKUP_PROBE and LOOKUP_EXECUTE of a klu (R176): the probe reads the selection entries of every record and pins the rows
they name, or ends the command with a record of the lowest bad entry; a step then adds one scaled gradient row to one value
row, each element rounded once. It rests on readings of the model's own: the kinds in the records of an update (log 54). -/
def Obligations.LookupUpdates : Prop :=
  ∀ (s : State) (h seq : Nat) (c : Cmd) (img : BitVec 512) (grad rec_ m sc : Nat) (work : List (Nat × Nat × Nat)) (at_ : Nat → Nat),
    c.op = .klu img grad rec_ m sc work → s.cmd? h seq = some c → c.hart = h → c.parked = none →
    let g := teamOf h
    let core := s.coreOfTeam g
    let t := tableOf img
    let entry (q j : Nat) : Nat := leNat (s.spadBytes h (rec_ + q * t.recordBytes + t.gradBytes + 8 * j) 8)
    let named : List (Nat × Nat × Nat) := (List.range m).flatMap (fun q => (List.range t.k).map (fun j =>
      (q, entry q j % 2 ^ 32, entry q j / 2 ^ 32)))
    let size := width t.fv / 8
    (c.stage = .probe → (s.team g).st = .resident → s.mayMove c = true → s.lookupTurn c = true → m ≠ 0 →
      (∀ ps, (∀ e ∈ named, e.2.1 < t.n * t.n) →
        s.pagesAll core (s.ctxOf h) .engWrite
          ((named.map (fun e => e.2.1)).eraseDups.map (fun r => (t.val + r * t.vpitch, t.vw * width t.fv / 8))) = .ok ps →
        Completes (.lookupProbe h seq) s (fun x =>
          x = (s.pin c ps).withCmd { c with op := .klu img grad rec_ m sc named, stage := .run, k := 0, ranges := c.afterProbe }))
      ∧ (∀ q j, q < m → j < t.k → t.n * t.n ≤ entry q j % 2 ^ 32 →
          (∀ a b, a < m → b < t.k → (a < q ∨ (a = q ∧ b < j)) → entry a b % 2 ^ 32 < t.n * t.n) →
          Completes (.lookupProbe h seq) s (fun x => ∃ w, w.length = 8 ∧ (w.getD 0 0).toNat % 256 = 0x0E
            ∧ w.getD 6 0 = BitVec.ofNat 64 (q + j * 2 ^ 32)
            ∧ x = (s.withReports (s.reports ++ [⟨s.nextRid, w, some core⟩]) s.live).withoutCmd c)))
    ∧ (c.stage = .run → s.mayMove c = true → ∀ q r w, work[c.k]? = some (q, r, w) → c.k < work.length → t.fv ≤ 2 →
        let va := t.val + r * t.vpitch
        let row := valuesAt t.fv (s.engineBytes h at_ va (t.vw * size)) 0 t.vw
        let gradient := valuesAt tF32 (s.spadBytes h (grad + q * t.gradBytes) (4 * t.vw)) 0 t.vw
        let scale := roundFloat tF32 0 0 false ((decodeFloat tF32 sc).mul (decodeFloat tF32 w))
        let value (e : Nat) : Nat := roundFloat t.fv 0 0 false
          (((decodeFloat tF32 scale).mul (gradient.getD e (.fin false 0 0 false))).add 0 (row.getD e (.fin false 0 0 false)))
        let written (q : Nat) : Prop := ∃ i, i < t.vw * size ∧ q = at_ (va + i)
        codeBytes t.fv t.vw ≤ t.vpitch → s.enginePages h at_ .engRead va (t.vw * size) written →
        s.enginePages h at_ .engWrite va (t.vw * size) written →
        s.engineClean at_ va (t.vw * size) →
        (∀ i j, i < t.vw * size → j < t.vw * size → at_ (va + i) = at_ (va + j) → i = j) →
        Completes (.lookupExecute h seq) s (fun x => ∃ u bs, s.EngineWrites h at_ va bs u ∧ bs.length = t.vw * size
          ∧ (∀ e, e < t.vw → leNat ((bs.drop (size * e)).take size) = value e % 2 ^ (width t.fv))
          ∧ if c.k + 1 < work.length then x = u.withCmd { c with k := c.k + 1 } else u.Finishes { c with k := c.k + 1 } x))

/-! ### Index engines -/

/-- probe, gix and six (R207, R209 to R211): probe marks the active elements whose row is out of bounds, leaves the address space,
meets the scratchpad window or does not translate for reading (that it translates as a read, and that a row's address is the exact
sum and one past the address space is a bad index, are the model's readings, logs 13 and 50);
gix and six go out with the rows of their active elements, or trap when an operand is misaligned or out of range. -/
def Obligations.IndexIssue : Prop :=
  ∀ (s : State) (a b c : BitVec 4) (v : BitVec 5) (k : BitVec 3) (z : BitVec 4) (o : BitVec 2), a ≠ 15 → z.toNat ≤ 12 →
    s.VectorReady (fun t => t.ty = tN32 || t.ty = tN64) [.main v] →
    let u := s.hart s.me
    let core := s.coreOf s.cur
    let base := (s.getS a).toNat
    let bound := (s.getS (a + 1)).toNat
    let pitch := (s.getS c).toNat
    let size := 2 ^ z.toNat
    let align := min size 64
    let index (i : Nat) : Nat := u.read false (.main v) (width u.ty) i
    let row (x : Nat) : Nat := base + x * pitch
    let out (x : Nat) : Prop := bound ≤ x ∨ 2 ^ 48 < row x + size ∨ (row x < windowBase + 0x50000 ∧ windowBase < row x + size)
    let maps (x : Nat) : Prop := ∃ ps, s.pagesOf core (s.ctxOf s.me) (row x) size .engRead = .ok ps
    let pack := (s.getS b).toNat
    let cw := s.getS (b + 1)
    let add := if cw = 0 then 0 else 1
    let rows := ((List.range u.vl).filter u.active).map index
    let sound (op : Nat) : Prop := base % align = 0 ∧ pitch % align = 0 ∧ pack % align = 0
      ∧ (rows = [] ∨ pack + rows.length * size ≤ (s.team (teamOf s.me)).bytes) ∧ s.wordOk s.me cw add = true
      ∧ (op = 1 → 4 ≤ size) ∧ (op = 2 → 2 ≤ size)
    let bad : State := (s.setHart s.me { u with vstart := 0 }).takeTrap { cls := 0x10, detail := 0xFFFFFFFF, eng := true }
    Completes (.probe a k c v z) s (fun t => ∃ m, s.GoesOn { u with k := Tab.put 0 u.k k.toNat m, vstart := 0 } t
      ∧ ∀ i, m.testBit i = true ↔ if i < u.vl then u.active i = true ∧ (out (index i) ∨ ¬ maps (index i))
          else (Tab.get 0 u.k k.toNat).testBit i = true)
    ∧ (b ≠ 15 →
        (sound 0 → s.issueFree → Completes (.gix a b c v z) s (s.Issues (.gix base pitch bound size pack rows) cw add .probe))
        ∧ (¬ sound 0 → exec (.gix a b c v z) s = .next bad)
        ∧ (o ≠ 3 → sound o.toNat → s.issueFree →
            Completes (.six a b c v o z) s (s.Issues (.six base pitch bound size pack rows o.toNat) cw add .probe))
        ∧ (o ≠ 3 → ¬ sound o.toNat → exec (.six a b c v o z) s = .next bad)
        ∧ Traps (.six a b c v 3 z) s { illegal .reservedValue with eng := true })

/-- INDEX_PROBE_PASS (R210, R212; the commands of a hart are probed in order): the lowest bad index ends the command with a record that names it; otherwise, when every row's
pages translate, they are pinned and the command may move its rows. INDEX_MOVE (R208): a gather packs its next row into the
scratchpad; a scatter writes the packed row over its next row, or adds it element by element as f32 or bf16 numbers; after the
last row the completion add is due, or the command is over. It rests on readings of the model's own: the kinds in the records
of a scatter (log 54) and exact row addresses (log 50). -/
def Obligations.IndexSteps : Prop := (
  ∀ (s : State) (h seq : Nat) (c : Cmd) (base pitch bound z pack op : Nat) (rows : List Nat) (store : Bool),
    c.op = (if store then .six base pitch bound z pack rows op else .gix base pitch bound z pack rows) →
    s.cmd? h seq = some c → c.hart = h → c.parked = none → c.stage = .probe → (s.team (teamOf h)).st = .resident →
    s.mayMove c = true → s.unprobed c = false →
    let row (x : Nat) : Nat := base + x * pitch
    let bad (x : Nat) : Prop := bound ≤ x ∨ 2 ^ 48 < row x + z ∨ (row x < windowBase + 0x50000 ∧ windowBase < row x + z)
    let pages (k : Nat) := s.pagesOf (s.coreOfTeam (teamOf h)) (s.ctxOf h) (row (rows.getD k 0)) z (if store then .engWrite else .engRead)
    (∀ k, k < rows.length → bad (rows.getD k 0) → (∀ j, j < k → ¬ bad (rows.getD j 0)) →
      Completes (.indexProbePass h seq) s (fun t => ∃ w, w.length = 8 ∧ (w.getD 0 0).toNat % 256 = 0x10
        ∧ w.getD 4 0 = BitVec.ofNat 64 k ∧ w.getD 6 0 = BitVec.ofNat 64 k
        ∧ t = (s.withReports (s.reports ++ [⟨s.nextRid, w, some (s.coreOfTeam (teamOf h))⟩]) s.live).withoutCmd c))
    ∧ (∀ ps : Nat → List Page, (∀ x ∈ rows, ¬ bad x) → (∀ k, k < rows.length → pages k = .ok (ps k)) →
        Completes (.indexProbePass h seq) s (fun t =>
          t = (s.pin c ((List.range rows.length).flatMap ps)).withCmd { c with stage := .run, k := 0 }))) ∧ (
  ∀ (s : State) (h seq : Nat) (c : Cmd) (base pitch bound z pack op : Nat) (rows : List Nat) (at_ : Nat → Nat),
    s.cmd? h seq = some c → c.hart = h → c.parked = none → c.stage = .run → s.mayMove c = true →
    let va := base + rows.getD c.k 0 * pitch
    let next (u t : State) : Prop := if c.k + 1 < rows.length then t = u.withCmd { c with k := c.k + 1 }
      else u.Finishes { c with k := c.k + 1 } t
    let row : List Byte := s.engineBytes h at_ va z
    let packed : List Byte := s.spadBytes h (pack + c.k * z) z
    let written (q : Nat) : Prop := ∃ i, i < z ∧ q = at_ (va + i)
    (c.op = .gix base pitch bound z pack rows →
      (rows.length ≤ c.k → Completes (.indexMove h seq) s (s.Finishes c))
      ∧ (c.k < rows.length → s.enginePages h at_ .engRead va z (fun _ => False) → s.engineClean at_ va z →
          Completes (.indexMove h seq) s (fun t => ∃ u, s.SpadWrites h (pack + c.k * z) row u ∧ next u t)))
    ∧ (c.op = .six base pitch bound z pack rows op →
      (rows.length ≤ c.k → Completes (.indexMove h seq) s (s.Finishes c))
      ∧ (c.k < rows.length → s.enginePages h at_ .engWrite va z written →
          (op ≠ 0 → s.enginePages h at_ .engRead va z written ∧ s.engineClean at_ va z) →
          (∀ i j, i < z → j < z → at_ (va + i) = at_ (va + j) → i = j) → op ≤ 2 → (op = 1 → z % 4 = 0) → (op = 2 → z % 2 = 0) →
          Completes (.indexMove h seq) s (fun t => ∃ u bs, s.EngineWrites h at_ va bs u ∧ bs.length = z ∧ next u t
            ∧ (op = 0 → bs = packed)
            ∧ (op = 1 → ∀ i, i < z / 4 → leNat ((bs.drop (4 * i)).take 4) =
                addF32 (leNat ((row.drop (4 * i)).take 4)) (leNat ((packed.drop (4 * i)).take 4)))
            ∧ (op = 2 → ∀ i, i < z / 2 → leNat ((bs.drop (2 * i)).take 2) = roundFloat tBf16 0 0 false
                ((decodeFloat tBf16 (leNat ((row.drop (2 * i)).take 2))).add 0 (decodeFloat tBf16 (leNat ((packed.drop (2 * i)).take 2))))))))
)
/-! ### Barriers and launches -/

/-- expect, arrive and bwait (R243, R244): a bad alignment or the host window is a barrier-operand trap, made before the
object is touched, by bwait after its checks as a load of 8 bytes; expect adds to the pending count; arrive takes the set bits of its mask from it, turns the phase and
reloads the count when they are all of it, and answers the phase it found; bwait ends with an acquire once the phase has
turned, and sleeps until then. An expect or arrive has its release first, and is performed at the home slice at every scope. It
rests on readings of the model's own: that the alignment is checked before the translation (log 56), that bwait only reads, as
two words of 8 bytes (log 57), and that a release carries host-window bytes too (log 24). -/
def Obligations.Barriers : Prop :=
  ∀ (s : State) (d a b : BitVec 5) (sc : Scope) (p : Place), s.isControl = true →
    let core := s.coreOf s.cur
    let ea := s.getX a
    let y := s.getX b
    let object := s.placeValue true p 16
    let pending := object % 2 ^ 32
    let phase := object / 2 ^ 32 % 2 ^ 32
    let reload := object / 2 ^ 64
    let c := ((List.range 64).filter y.getLsbD).length
    let image (n ph : Nat) : Nat := n + ph * 2 ^ 32 + reload * 2 ^ 64
    let bad (cls acc : Nat) : Trap := { cls := cls, addr := ea, acc := acc, sz := 4 }
    let badWait : Trap := { cls := 0x12, addr := ea, acc := 1, sz := 3 }
    let fails (i : Instr) (k : Access) : Prop :=
      (∀ tr, s.resolve s.cur ea 16 k = .error tr → Traps i s (if tr.cls = 0x03 then bad 0x12 k.code else tr))
      ∧ (∀ pa, s.resolve s.cur ea 16 k = .ok (.mem pa) → isHost pa = true → Traps i s (bad 0x12 k.code))
    let stops (i : Instr) (t : Trap) : Prop := ∃ u, s.KeepsBytes core u ∧ s.released core sc u ∧ exec i s = .next (u.takeTrap t)
    let changes (i : Instr) (v : Nat) (r : BitVec 5) (x : W64) : Prop :=
      Completes i s (fun t => ∃ u, s.Rewrites p 16 (some v) u
        ∧ u.standsHome core 16 p ∧ s.releasedBut core sc 16 p u ∧ u.ControlResult r x s.nextPc t)
    let at_ (n : Nat) (k : Access) (write : Bool) : Prop :=
      s.resolve s.cur ea n k = .ok p ∧ s.homeReady write 16 p ∧ ∀ pa, p = .mem pa → isHost pa = false
    let sleeps (u : State) : State := match s.cur with
      | .ctrl h => u.setHart h { u.hart h with wait := some .asleep }
      | .vec _ => u
      | .verge n => u.setVerge n { u.verge n with wait := some .asleep }
    fails (.expect a b sc) .atomic ∧ fails (.arrive d a b sc) .atomic
    ∧ (∀ tr, s.resolve s.cur ea 8 .load = .error tr → Traps (.bwait a b sc) s tr)
    ∧ (∀ q, s.resolve s.cur ea 8 .load = .ok q → ea.toNat % 16 ≠ 0 ∨ (∃ pa, q = .mem pa ∧ isHost pa = true) →
        Traps (.bwait a b sc) s badWait)
    ∧ (at_ 16 .atomic true → s.releaseReady sc →
        (2 ^ 96 ≤ object → stops (.expect a b sc) (bad 0x12 3) ∧ stops (.arrive d a b sc) (bad 0x12 3))
        ∧ (object < 2 ^ 96 →
            (2 ^ 32 ≤ pending + y.toNat → stops (.expect a b sc) (bad 0x13 3))
            ∧ (pending + y.toNat < 2 ^ 32 → changes (.expect a b sc) (image (pending + y.toNat) phase) 0 0)
            ∧ (pending < c → stops (.arrive d a b sc) (bad 0x14 3))
            ∧ (c ≤ pending → changes (.arrive d a b sc)
                (if 0 < c ∧ c = pending then image reload ((phase + 1) % 2 ^ 32) else image (pending - c) phase) d (BitVec.ofNat 64 phase))))
    ∧ (at_ 8 .load false → ea.toNat % 16 = 0 →
        (2 ^ 96 ≤ object → ∃ u, s.KeepsBytes core u ∧ exec (.bwait a b sc) s = .next (u.takeTrap badWait))
        ∧ (object < 2 ^ 96 → phase ≠ y.toNat % 2 ^ 32 → Completes (.bwait a b sc) s (fun t => ∃ u, s.Rewrites p 16 none u
            ∧ u.acquired core sc ∧ u.ControlResult 0 0 s.nextPc t))
        ∧ (object < 2 ^ 96 → phase = y.toNat % 2 ^ 32 → Completes (.bwait a b sc) s (fun t => ∃ u, s.Rewrites p 16 none u
            ∧ t = sleeps u)))

/-- launch (R257 to R259, R267, R299): on a hart it waits until the hart's work is done; it releases and acquires at dv; a
record that breaks a rule of R259, or names a context the party may not name, is a launch-operand trap; a full device queue
makes it wait; otherwise the record joins the device queue of its context and priority. A verge core's records are marked
0xFFFF (the model's choice, log 31). It rests on readings of the model's own: that the record is read at the home slice (log
30), and that a release takes the bytes of the host window along (log 24). -/
def Obligations.LaunchInstruction : Prop :=
  ∀ (s : State) (a : BitVec 5) (p : Place), s.isControl = true → s.steady →
    let core := s.coreOf s.cur
    let rec_ := s.recordAt p
    let w (i : Nat) : Nat := (rec_.getD i 0).toNat
    let busy : Prop := (s.hart s.me).blockQ ≠ [] ∨ (s.hart s.me).block ≠ none ∨ s.descending s.me = true ∨ ∃ c ∈ s.cmds, c.hart = s.me
    let created (c : Nat) : Prop := c ≠ 0 ∧ (Tab.get 0 s.ctxroot c).getLsbD 0 = true
    let named (ctx : Nat) : Prop := if s.isVerge = true then ctx = w 0 / 2 ^ 48 ∧ created ctx
      else ctx = s.ctxOf s.me ∧ (w 0 / 2 ^ 48 = 0 ∨ w 0 / 2 ^ 48 = ctx)
    let sound : Prop := w 0 % 4 = 0 ∧ w 1 < 2 ^ 48 ∧ w 1 % 8 = 0 ∧ w 2 % 8 = 0 ∧ w 3 % 8 = 0 ∧ w 4 < 2 ^ 48 ∧ w 4 % 8 = 0
      ∧ w 5 < 2 ^ 48 ∧ w 5 % 32 = 0 ∧ w 6 < 2 ^ 45 ∧ 1 ≤ w 6 % 2 ^ 4 ∧ w 6 % 2 ^ 4 ≤ 8 ∧ w 6 / 2 ^ 4 % 2 ^ 4 ≤ w 6 / 2 ^ 8 % 2 ^ 4
      ∧ w 6 / 2 ^ 16 % 2 ^ 8 ≤ 8 ∧ w 6 / 2 ^ 24 % 2 ^ 8 ≤ 80 ∧ w 6 / 2 ^ 32 % 2 ^ 13 ≤ 2048 ∧ w 7 / 2 ^ 20 % 2 ^ 12 = 0
      ∧ w 7 / 2 ^ 16 % 2 ^ 4 ≤ 6
    (s.isHartControl = true → busy → Waits (.launch a) s)
    ∧ ((s.isHartControl = true → ¬ busy) → s.releaseReady .dv → s.resolve s.cur (s.getX a) 64 .load = .ok p → s.homeReady false 64 p →
        ((∀ ctx, ¬ named ctx) ∨ ¬ sound → ∃ u, s.KeepsBytes core u ∧ exec (.launch a) s = .next (u.takeTrap { cls := 0x15 }))
        ∧ (∀ ctx, named ctx → sound →
            let key := 4 * ctx + w 6 / 2 ^ 14 % 4
            let q := Tab.get [] s.dq key
            (256 ≤ q.length → Completes (.launch a) s (s.KeepsBytes core))
            ∧ (q.length < 256 → Completes (.launch a) s (fun t => ∃ u x, s.KeepsBytes core u ∧ u.acquired core .dv ∧ s.released core .dv u
                ∧ (u.withDq x).ControlResult 0 0 s.nextPc t ∧ (∀ k, k ≠ key → Tab.get [] x k = Tab.get [] s.dq k)
                ∧ Tab.get [] x key = q ++ [⟨rec_, if s.isVerge then 0xFFFF else (s.hart s.me).num, (s.pcOf s.cur).setWidth 48⟩]))))

/-! ### Crossroads -/

/-- TAKE_RECORD (R260, R264, R266 to R268) with one device queue that holds records: a record whose wait counters have not
reached their targets stays; one whose context is no longer created finishes with no team; otherwise it leaves its queue and
forms one pending team, or, with a team list, one for each group of records, whose harts have the group's address in x13 and
its number of records in x14. It rests on readings of the model's own: that a record of a context that is gone ends without a
report (log 70) and how the round robin is kept (log 61). -/
def Obligations.TakenRecords : Prop :=
  ∀ (s : State) (ctx prio : Nat) (r : DevRecord) (rest : List DevRecord), s.linkUp = true →
    (∀ q, q < 64 → s.hostReady q = false ∧ s.overrun q = false) →
    (∀ l, l < s.nlaunch → (s.launch l).finished = true ∨ (s.launch l).retired < (s.launch l).teams) →
    let w (i : Nat) : W64 := r.words.getD i 0
    let created : Prop := ctx ≠ 0 ∧ (Tab.get 0 s.ctxroot ctx).getLsbD 0 = true
    let ready (i : Nat) : Prop := (w i).toNat % 2 ^ 48 = 0
      ∨ ∃ v, s.ctxWord (.queue (64 + 4 * ctx + prio)) ctx ((w i).toNat % 2 ^ 48) .load = .ok v ∧ (w i).toNat / 2 ^ 48 ≤ v.toNat
    let early (i : Nat) : Prop := (w i).toNat % 2 ^ 48 ≠ 0
      ∧ ∃ v, s.ctxWord (.queue (64 + 4 * ctx + prio)) ctx ((w i).toNat % 2 ^ 48) .load = .ok v ∧ v.toNat < (w i).toNat / 2 ^ 48
    let new (n : Nat) : Launch := { src := .device r.hart r.pc, words := r.words, ctx := ctx, teams := n }
    let formed (n : Nat) (l : Launch) (t : State) : Prop :=
      t.nlaunch = s.nlaunch + 1 ∧ t.launch s.nlaunch = l ∧ t.nage = s.nage + 1 ∧ t.nteam = s.nteam + n
      ∧ Tab.get [] t.dq (4 * ctx + prio) = rest ∧ t.mem = s.mem
      ∧ (∀ k, k < n → t.team (s.nteam + k) =
          { launch := s.nlaunch, index := k, shape := w 6, ctx := ctx, age := s.nage + 1, since := s.cycle })
      ∧ (∀ g, g < s.nteam → t.team g = s.team g)
    ((∀ e ∈ s.dq, e.2 = []) → Waits .takeRecord s)
    ∧ (s.dq = [(4 * ctx + prio, r :: rest)] → prio < 4 → (w 6).toNat / 2 ^ 14 % 4 = prio →
        (created → early 2 ∨ (ready 2 ∧ early 3) → Waits .takeRecord s)
        ∧ (¬ created → Completes .takeRecord s (formed 0 { new 0 with finished := true }))
        ∧ (created → ready 2 → ready 3 → w 5 = 0 → Completes .takeRecord s (fun t => formed 1 (new 1) t ∧ ∀ h, t.hart h = s.hart h))
        ∧ (∀ bs, created → ready 2 → ready 3 → w 5 ≠ 0 → s.ctxRead (.queue (64 + 4 * ctx + prio)) ctx .load 1 (w 5).toNat 24 = .ok bs →
            let d (i : Nat) : Nat := leNat ((bs.drop (8 * i)).take 8)
            let n := min (d 0 % 2 ^ 64) (d 1 % 2 ^ 64)
            let per := max 1 ((w 7).toNat % 2 ^ 16)
            (n = 0 → w 4 = 0 → Completes .takeRecord s (formed 0 { new 0 with finished := true }))
            ∧ (0 < n → (w 6).toNat % 2 ^ 4 ≤ 8 → Completes .takeRecord s (fun t => formed ((n + per - 1) / per) (new ((n + per - 1) / per)) t
                ∧ ∀ k j, k < (n + per - 1) / per → j < (w 6).toNat % 2 ^ 4 → ∃ x, t.hart (8 * (s.nteam + k) + j) = { x := x }
                  ∧ Tab.get 0 x 13 = BitVec.ofNat 64 (d 2 + k * per * 2 ^ ((w 7).toNat / 2 ^ 16 % 2 ^ 4))
                  ∧ Tab.get 0 x 14 = BitVec.ofNat 64 (min per (n - k * per))))))

/-- SCHEDULER_PASS, TEAM_AGEING and LANE_GROUP_RETURN (R14, R29, R143, R271, R272, R335): with nothing pending and
no hart that awaits its grant, or in power state 4, a pass changes nothing; a pending team that fits the empty device starts on core 0, at scratchpad unit 0, its harts
as R14 says with disjoint lane groups between the declared minimum and maximum. It rests on readings of the model's own: that
a pass does not ask whether the start is complete (log 43), that harts of placed teams take their grants together, each once its
minimum is left (log 103), and that the scratchpad is the lowest run of free units (log 104). -/
def Obligations.PlacementAndAgeing : Prop :=
  ∀ (s : State) (g h : Nat),
    let v := s.team g
    let launch := s.launch v.launch
    let w (i : Nat) : W64 := launch.words.getD i 0
    let entry := (w 0).toNat % 2 ^ 48
    let n := v.nharts
    (s.pstate = 4 ∨ (∀ k, k < s.nteam → (s.team k).st ≠ .pending ∧ ((s.team k).st = .saved → (s.team k).held = true ∨ (s.team k).killed = true))
          ∧ (∀ k, (s.hart k).awaitsGrant = false) → Waits .schedulerPass s)
    ∧ (s.pstate ≠ 4 → g < s.nteam → v.st = .pending → (∀ k, k < s.nteam → k ≠ g → (s.team k).st = .retired) →
        1 ≤ n → n ≤ 8 → v.lgmin ≤ v.lgmax → n * v.lgmin ≤ 16 → v.units ≤ 80 → v.tiles ≤ 2048 → v.pclass ≤ 8 → v.rows = 0 →
        classUnits v.pclass ≤ s.power → (∀ m ∈ s.images, ¬ (m.ctx = v.ctx ∧ m.base ≤ entry ∧ entry < m.base + m.size)) →
        Completes .schedulerPass s (fun t =>
          t.team g = { v with
            st := .resident, core := 0, unit0 := 0, waited := v.waited + (s.cycle - v.since), placed := s.nplace + 1, started := true,
            request := false, held := false, victimOf := none, forPower := false, jpf := false, image := none }
          ∧ t.launch v.launch = { launch with started := launch.started + 1 }
          ∧ (∀ k, k ≠ g → t.team k = s.team k) ∧ (∀ k, k / 8 ≠ g → t.hart k = s.hart k)
          ∧ (∀ i, i < n → ∃ x m lg rng, t.hart (8 * g + i) = {
                resident := true, num := i, x := x, cpc := BitVec.ofNat 48 entry, n := v.regs, groups := m, lg := lg, rngseed := (w 7).extractLsb' 32 32 + 0x9E3779B9 * BitVec.ofNat 32 i, rng := rng }
              ∧ Tab.get 0 x 10 = w 1 ∧ Tab.get 0 x 11 = BitVec.ofNat 64 i ∧ Tab.get 0 x 12 = BitVec.ofNat 64 n
              ∧ (∀ r, r ≠ 10 → r ≠ 11 → r ≠ 12 → Tab.get 0 x r = Tab.get 0 (s.hart (8 * g + i)).x r)
              ∧ v.lgmin ≤ lg ∧ lg ≤ v.lgmax ∧ lg = ((List.range 16).filter m.testBit).length
              ∧ ∀ j b, j < n → j ≠ i → b < 16 → ¬ (m.testBit b = true ∧ (t.hart (8 * g + j)).groups.testBit b = true))))
    ∧ (g < s.nteam → v.st = .pending ∨ v.st = .saved → 2 ^ 24 ≤ v.waited + (s.cycle - v.since) →
        Completes (.teamAgeing g) s (fun t => t = s.setTeam g { v with aged := true }))
    ∧ (v.waited + (s.cycle - v.since) < 2 ^ 24 → Waits (.teamAgeing g) s)
    ∧ (let u := s.hart h
       let done : Prop := s.onCore h = true ∧ u.exited = true ∧ u.blockQ = [] ∧ u.block = none ∧ s.descending h = false
       (done → Completes (.laneGroupReturn h) s (fun t => t = s.setHart h { u with groups := 0, lg := 0 }))
       ∧ (¬ done → Waits (.laneGroupReturn h) s))

/-- Stopping, saving, retiring and terminating teams (R261, R274, R275, R277, R341): a save waits for the commands that are
never split; a save and a retirement release at dv, and free the team's harts and groups; the last retirement adds 1 to the
launch's completion counter; a termination retires what has not started or is saved, once the commands it had begun are
complete, and stops what stands on a core. It rests on readings of the model's own: what a termination does to each team (log
68), and that a release carries host-window bytes too (log 24). -/
def Obligations.StoppingTeams : Prop :=
  ∀ (s : State) (g n : Nat),
    let v := s.team g
    let core := v.core
    let mine (c : Cmd) : Prop := teamOf c.hart = g
    let l := s.launch v.launch
    let settled (t : State) : Prop := ∀ q, q < 2 ^ 52 → (isHost q = true → s.linkUp = true) → t.homeByte q = s.ownByte core q
    let stays (c : Cmd) : Prop := c.begun = true ∧ c.parked = none
    let ended (h : Nat) : Prop := (s.hart h).exited = true ∧ (s.hart h).blockQ = [] ∧ (s.hart h).block = none ∧ s.descending h = false
    (v.st = .resident → v.request = true → Completes (.preemptStop g) s (fun t => t = s.setTeam g { v with st := .stopping }))
    ∧ (v.st ≠ .resident ∨ v.request = false → Waits (.preemptStop g) s)
    ∧ (v.st = .stopping → (∃ c ∈ s.cmds, mine c ∧ c.mustEnd = true) → Waits (.teamSave g) s)
    ∧ (v.st = .stopping → (∀ c ∈ s.cmds, mine c → c.mustEnd = false) → v.killed = false → Completes (.teamSave g) s (fun t =>
        settled t ∧ t.cmds = s.cmds
        ∧ (∀ j, j < v.nharts → (∀ i, j < i → i < v.nharts → (s.hart (8 * g + i)).num ≠ (s.hart (8 * g + j)).num) →
            Tab.get none t.savedFrom (s.hart (8 * g + j)).num = some (8 * g + j))
        ∧ t.team g = { v with st := .saved, since := s.cycle, request := false, victimOf := none, forPower := false }
        ∧ ∀ j, j < v.nharts → t.hart (8 * g + j) =
            let u := s.hart (8 * g + j)
            { u with
              resident := false, groups := 0, stalled := none, halted := if u.haltReq then some (u.halted.getD 1) else u.halted,
              haltReq := false }))
    ∧ ((∃ c ∈ s.cmds, mine c) ∨ (v.st = .resident ∧ v.killed = false ∧ ∃ j, j < v.nharts ∧ ¬ ended (8 * g + j))
        ∨ (v.st ≠ .resident ∧ (v.st ≠ .saved ∨ v.killed = false)) → Waits (.teamRetire g) s)
    ∧ (v.st = .saved → v.killed = true → (∀ c ∈ s.cmds, ¬ mine c) → l.finished = false → l.retired + 1 < l.teams →
        Completes (.teamRetire g) s (fun t => t.team g = { v with st := .retired, held := false } ∧ t.harts = s.harts
          ∧ t.launch v.launch = { l with retired := l.retired + 1 }))
    ∧ (v.st = .resident → (∀ c ∈ s.cmds, ¬ mine c) → v.killed = true ∨ (∀ j, j < v.nharts → ended (8 * g + j)) →
        l.finished = false → (∃ a b, l.src = .device a b) →
        let va := (l.words.getD 4 0).toNat
        let retires (t : State) : Prop := t.team g = { v with st := .retired, request := false, victimOf := none, forPower := false, rows := 0 }
          ∧ (∀ j, j < v.nharts → t.hart (8 * g + j) = { s.hart (8 * g + j) with resident := false, groups := 0, stalled := none })
        (l.retired + 1 < l.teams → Completes (.teamRetire g) s (fun t => retires t ∧ settled t ∧ t.launch v.launch = { l with retired := l.retired + 1 }))
        ∧ (l.teams ≤ l.retired + 1 → va = 0 → Completes (.teamRetire g) s (fun t => retires t ∧ settled t
            ∧ t.launch v.launch = { l with retired := l.retired + 1, finished := true }))
        ∧ (∀ pa, l.teams ≤ l.retired + 1 → va ≠ 0 → pa + 8 ≤ 2 ^ 48 → s.linkUp = true → (∀ u, s.KeepsBytes core u → settled u →
            (∀ m, u.poisoned m = true → s.poisoned m = true) → u.reach (.launch v.launch) l.ctx va .atomic = .ok pa) →
            Completes (.teamRetire g) s (fun t => retires t ∧ t.launch v.launch = { l with retired := l.retired + 1, finished := true }
              ∧ leNat (t.home pa 8) = (leNat ((List.range 8).map (fun i => s.ownByte core (pa + i))) + 1) % 2 ^ 64
              ∧ ∀ q, q < 2 ^ 52 → (q < pa ∨ pa + 8 ≤ q) → t.homeByte q = s.ownByte core q)))
    ∧ (s.hartAt n = none → Waits (.hctlPreempt n) s ∧ Waits (.hctlTerminate n) s)
    ∧ (∀ h, s.hartAt n = some h →
        let k := teamOf h
        let x := s.team k
        let hold : Prop := s.dbgctl.getLsbD 18 = true ∧ ∃ j, s.hartAt (s.dbgctl.extractLsb' 0 9).toNat = some j ∧ teamOf j = k
        (Completes (.hctlPreempt n) s (fun t => ∃ q b, t = s.setTeam k { x with request := q, held := b }
          ∧ (q = true ↔ x.request = true ∨ x.st = .resident) ∧ (b = true ↔ x.held = true ∨ hold)))
        ∧ ((s.launch x.launch).finished = true → Waits (.hctlTerminate n) s)
        ∧ ((s.launch x.launch).finished = false → (∀ j, (s.team j).nharts ≤ 8) → Completes (.hctlTerminate n) s (fun t =>
            (t.launch x.launch).killed = true
            ∧ ∀ j, j < s.nteam → (s.team j).launch = x.launch →
                ((s.team j).st = .pending ∨ (s.team j).st = .saved →
                  ((∀ c ∈ s.cmds, teamOf c.hart = j → ¬ stays c) → (t.team j).st = .retired)
                  ∧ (∀ c ∈ s.cmds, teamOf c.hart = j → ¬ stays c → ∀ d ∈ t.cmds, ¬ (d.hart = c.hart ∧ d.seq = c.seq))
                  ∧ (∀ c ∈ s.cmds, teamOf c.hart = j → stays c → (∀ d ∈ s.cmds, d.hart = c.hart → d.seq = c.seq → stays d) →
                      c ∈ t.cmds ∧ (t.team j).st = (s.team j).st ∧ (t.team j).killed = true))
                ∧ ((s.team j).st = .resident ∨ (s.team j).st = .stopping → t.team j = { s.team j with killed := true }
                  ∧ ∀ i, i < (s.team j).nharts → let y := t.hart (8 * j + i)
                      y.exited = true ∧ y.blockQ = [] ∧ y.block = none ∧ y.parkC = none ∧ y.parkV = none ∧ y.wait = none))))

/-! ### Debugging -/

/-- RFDATA_ACCESS (R294) reaches a hart that is stopped on a report or saved, at a place of its files that exists, and
advances the selector by 8; elsewhere it reads 0 and writes nothing. What it writes, it reads back; of the last word of a
scale store, whose length is a multiple of 4, only the bytes inside it. It rests on readings of the model's own: the numbers
of the scale stores (log 40) and what an access to no hart returns (log 80). -/
def Obligations.RegisterFiles : Prop :=
  ∀ (s : State) (g h : Nat) (v : W64), s.hartAt g = some h →
    let u := s.hart h
    let f := (u.rfsel.extractLsb' 56 8).toNat
    let r := (u.rfsel.extractLsb' 48 8).toNat
    let off := (u.rfsel.extractLsb' 0 48).toNat
    let open_ : Prop := (u.parkC ≠ none ∨ u.parkV ≠ none ∨ (s.team (teamOf h)).st = .saved) ∧ f ≤ 11 ∧ off % 8 = 0
      ∧ ∃ len, s.fileLen h f r = some len ∧ off < len
    let next (x : W64) : Prop := (∀ i, 48 ≤ i → x.getLsbD i = u.rfsel.getLsbD i) ∧ (x.extractLsb' 0 48).toNat = (off + 8) % 2 ^ 48
    (¬ open_ → Completes (.rfdataAccess g none) s (fun t => t.hostData = 0 ∧ t.harts = s.harts ∧ t.teams = s.teams)
      ∧ Waits (.rfdataAccess g (some v)) s)
    ∧ (open_ →
        Completes (.rfdataAccess g none) s (fun t => t.hostData = s.fileRead h f r off ∧ t.teams = s.teams
          ∧ ∃ x, next x ∧ t.hart h = { u with rfsel := x } ∧ ∀ k, k ≠ h → t.hart k = s.hart k)
        ∧ Completes (.rfdataAccess g (some v)) s (fun t => next (t.hart h).rfsel
          ∧ t.fileRead h f r off = (if f = 11 ∧ r = 0 then 0 else if f = 3 then BitVec.ofNat 64 (v.toNat % 2 ^ (8 * min 8 (u.bytes / 16 - off))) else v)
          ∧ ∀ k, k / 8 ≠ h / 8 → t.hart k = s.hart k))

/-- HALTREQ, RESUMEREQ, HOLD_RELEASE and BREAKPOINT_HALT (R323, R326, R327, R328): a hart on a core stops after a release at
dv, and goes on after an acquire, past a brk that stopped it; away from a core, or while a descent step of the hart is in
flight (R130, R274), the request is kept; a matching breakpoint
stops the hart before its instruction, which executes once after the resumption. It rests on readings of the model's own:
where a hart stands while brk has halted it (log 58), the order of the requests (log 75), and that a release takes the bytes of the
host window along (log 24). -/
def Obligations.HaltingHarts : Prop :=
  ∀ (s : State) (g h : Nat),
    let u := s.hart h
    let core := s.coreOfTeam (teamOf h)
    let selects (on : Bool) (t : State) : Prop := (t.dbgctl.extractLsb' 0 9).toNat = g % 512 ∧ t.dbgctl.getLsbD 16 = on
      ∧ ∀ i, 9 ≤ i → i ≠ 16 → t.dbgctl.getLsbD i = s.dbgctl.getLsbD i
    let only (t : State) : Prop := t.teams = s.teams ∧ ∀ k, k ≠ h → t.hart k = s.hart k
    let seen (q : Nat) : Prop := q < 2 ^ 52 ∧ (isHost q = true → s.linkUp = true)
    let own (t : State) : Prop := ∀ q, seen q → t.ownByte core q = s.ownByte core q
    let hit (kind pc : Nat) : Prop := ∃ i, i < 4 ∧ let w : W64 := Tab.get 0 s.bp i
      (w.extractLsb' 0 2).toNat = kind ∧ ((w.extractLsb' 48 16).toNat = 0 ∨ (w.extractLsb' 48 16).toNat = s.ctxOf h)
        ∧ (w.extractLsb' 2 46).toNat = pc / 4
    (s.hartAt g = none → Completes (.haltreq g) s (fun t => selects true t ∧ t.harts = s.harts)
      ∧ Completes (.resumereq g) s (fun t => selects false t ∧ t.harts = s.harts))
    ∧ (s.hartAt g = some h → s.onCore h = true → u.halted = none → s.descending h = false →
        Completes (.haltreq g) s (fun t => selects true t ∧ only t ∧ own t
          ∧ t.hart h = { u with halted := some 1, haltReq := false } ∧ ∀ q, seen q → t.homeByte q = s.ownByte core q))
    ∧ (s.hartAt g = some h → s.onCore h = true → u.halted ≠ none → Completes (.haltreq g) s (fun t => selects true t ∧ only t ∧ t.hart h = u))
    ∧ (s.hartAt g = some h → s.onCore h = false ∨ (u.halted = none ∧ s.descending h = true) → Completes (.haltreq g) s (fun t => selects true t ∧ only t
        ∧ t.hart h = { u with haltReq := true }))
    ∧ (∀ c, s.hartAt g = some h → s.onCore h = true → u.halted = some c → Completes (.resumereq g) s (fun t => selects false t ∧ only t ∧ own t
        ∧ t.acquired core .dv
        ∧ t.hart h = { u with
            halted := none, resumeReq := false, wait := if u.wait = some .asleep then none else u.wait,
            cpc := if c = 3 then u.cpc + BitVec.ofNat 48 (s.wordBytes (.ctrl h)) else u.cpc, bpSkipC := if c = 3 then false else u.bpSkipC }))
    ∧ (s.hartAt g = some h → s.onCore h = false → Completes (.resumereq g) s (fun t => selects false t ∧ only t
        ∧ t.hart h = { u with resumeReq := u.halted.isSome, haltReq := false }))
    ∧ Completes .holdRelease s (fun t => (∀ i, t.dbgctl.getLsbD i = (s.dbgctl.getLsbD i && i != 18))
        ∧ (∀ k, k < s.nteam → t.team k = { s.team k with held := false }) ∧ t.harts = s.harts)
    ∧ (∀ vec : Bool, let p : Party := if vec then .vec h else .ctrl h
        let due : Prop := s.running h = true ∧ s.descending h = false ∧ (if vec then u.bpSkipV = false ∧ u.block ≠ none ∧ u.loopDue = false ∧ hit 2 u.vpc.toNat
          else u.bpSkipC = false ∧ u.exited = false ∧ hit 1 u.cpc.toNat)
        (¬ due → Waits (.breakpointHalt p) s)
        ∧ (due → Completes (.breakpointHalt p) s (fun t => only t ∧ own t
            ∧ t.hart h = { u with
                halted := some 2, haltReq := false, bpSkipC := if vec then u.bpSkipC else true, bpSkipV := if vec then true else u.bpSkipV })))

/-- Abstract commands and the Milestone stream (R323 to R325, R329, R330): a malformed command leaves error 2 and a hart that
may not be accessed error 4, and one made while another is to be performed error 1; an access moves eight bytes of a file, or a
datum of memory at its home slice; a tick writes the next record at the ring's place, with the issues, stalls and parked cycles
of each core since the last, or drops it when the ring is full, by the difference of msptr and msrd modulo 2^64. It rests on readings of the model's own: the errors of commands
(logs 42 and 75), the layout of files 14 and 17 (log 41), the free values of the other counters and when a word counts as issued
(log 6), and the number of a record (log 76). -/
def Obligations.DebugAndMilestone : Prop :=
  ∀ (s : State) (c : BitVec 32) (v : W64),
    let f := (c.extractLsb' 8 8).toNat
    let r := (c.extractLsb' 0 8).toNat
    let off := s.data1.toNat
    let free : Prop := s.dbgCmd = none ∨ s.dbgCmd = some c
    let does (i : Instr) (f : State → Prop) : Prop :=
      (¬ free → Completes i s (fun t => t = s.cmdError 1)) ∧ (free → Completes i s (fun t => t.dbgCmd = none ∧ f t))
    let waiters : List (Waiter × Nat) := s.hostWaits.filter (fun w => w.1 ≠ .debug)
    let fails (i : Instr) (e : Nat) : Prop := does i (fun t => t = { s.cmdError e with dbgCmd := none, hostWaits := waiters })
    let goes (on : Bool) : Prop := on = true ∧ s.cmderr = 0
    let formed : Prop := c.extractLsb' 24 8 = 0 ∧ c.getLsbD 23 = false ∧ (c.extractLsb' 20 3).toNat = 3 ∧ c.getLsbD 18 = false
    let n := 2 ^ (c.extractLsb' 20 3).toNat
    let va := s.data2.toNat % 2 ^ 48
    let formedM : Prop := (c.extractLsb' 24 8).toNat = 2 ∧ (c.extractLsb' 20 3).toNat ≤ 3 ∧ c.extractLsb' 17 2 = 0 ∧ c.extractLsb' 0 16 = 0
    let stepped (t : State) : Prop := t.data2 = if goes (c.getLsbD 19) then BitVec.ofNat 64 ((va + n) % 2 ^ 48) else s.data2
    (c.extractLsb' 24 8 ≠ 0 → Waits (.accessRegister c) s)
    ∧ ((c.extractLsb' 24 8).toNat ≠ 2 → Waits (.accessMemory c) s)
    ∧ (c.extractLsb' 24 8 = 0 → ¬ formed → fails (.accessRegister c) 2)
    ∧ (formed → c.getLsbD 17 = false → does (.accessRegister c) (fun t => t = { s with dbgCmd := none, hostWaits := waiters }))
    ∧ (formed → c.getLsbD 17 = true →
        (s.hartAt (s.dbgctl.extractLsb' 0 9).toNat = none → fails (.accessRegister c) 4)
        ∧ (∀ h, s.hartAt (s.dbgctl.extractLsb' 0 9).toNat = some h →
            let open_ : Prop := (s.hart h).halted ≠ none ∨ (s.hart h).parkC ≠ none ∨ (s.hart h).parkV ≠ none ∨ (s.team (teamOf h)).st = .saved
            let place : Prop := off % 8 = 0 ∧ ∃ len, s.fileLen h f r = some len ∧ off < len
            (¬ open_ → fails (.accessRegister c) 4)
            ∧ (open_ → ¬ place ∨ (c.getLsbD 16 = true ∧ fileWritable f r = false) → fails (.accessRegister c) 2)
            ∧ (open_ → place → c.getLsbD 16 = false → does (.accessRegister c) (fun t =>
                t.data0 = s.fileRead h f r off ∧ t.data1 = (if goes (c.getLsbD 19) then s.data1 + 8 else s.data1) ∧ t.harts = s.harts
                ∧ t.teams = s.teams ∧ t.cmderr = s.cmderr))
            ∧ (open_ → place → c.getLsbD 16 = true → fileWritable f r = true → f ≤ 11 → does (.accessRegister c) (fun t =>
                t.fileRead h f r off = (if f = 11 ∧ r = 0 then 0
                  else if f = 3 then BitVec.ofNat 64 (s.data0.toNat % 2 ^ (8 * min 8 ((s.hart h).bytes / 16 - off))) else s.data0) ∧ t.data0 = s.data0
                ∧ t.data1 = (if goes (c.getLsbD 19) then s.data1 + 8 else s.data1) ∧ ∀ k, k / 8 ≠ h / 8 → t.hart k = s.hart k))))
    ∧ ((c.extractLsb' 24 8).toNat = 2 → ¬ formedM → fails (.accessMemory c) 2)
    ∧ (formedM → s.debugPa (c.getLsbD 23) (c.getLsbD 16) va = none ∨ va % n ≠ 0 → fails (.accessMemory c) 3)
    ∧ (∀ pa, formedM → s.debugPa (c.getLsbD 23) (c.getLsbD 16) va = some pa → va % n = 0 →
        let gone : Prop := isHost pa = true ∧ s.linkUp = false
        let late : Prop := ∃ e ∈ s.hostWaits, e.1 = .debug ∧ e.2 + 2 ^ 20 ≤ s.cycle
        let bad : Prop := s.poisoned (pa / 64) = true ∨ gone
        (gone → ¬ late → (¬ free → Completes (.accessMemory c) s (fun t => t = s.cmdError 1))
          ∧ (free → Completes (.accessMemory c) s (fun t => t = { s with
              dbgCmd := some c
              hostWaits := if s.hostWaits.any (fun e => e.1 = .debug) then s.hostWaits else s.hostWaits ++ [(.debug, s.cycle)] })))
        ∧ (bad → ¬ gone ∨ late → fails (.accessMemory c) 5)
        ∧ (¬ bad → c.getLsbD 16 = false → does (.accessMemory c) (fun t =>
            t.data0 = BitVec.ofNat 64 (leNat (s.home pa n)) ∧ t.mem = s.mem ∧ stepped t))
        ∧ (¬ bad → c.getLsbD 16 = true → does (.accessMemory c) (fun t => stepped t ∧ t.data0 = s.data0 ∧ t.l1 = s.l1
            ∧ ∀ q, t.homeByte q = if pa ≤ q ∧ q < pa + n then byteOf s.data0.toNat (q - pa) else s.homeByte q)))
    ∧ Completes (.dbgstatWrite v) s (fun t => ∃ e, t = s.cmdError e ∧ ∀ i, i < 3 → e.testBit i = (s.cmderr.testBit i && !v.getLsbD (8 + i)))
    ∧ (let k := (s.msctl.extractLsb' 8 5).toNat
       let size := 2 ^ (s.msbase.extractLsb' 52 4).toNat
       let due : Prop := s.msctl.getLsbD 0 = true ∧ s.cycle % 2 ^ k = 0 ∧ s.mstick ≠ s.cycle + 1
       let pa := (s.msbase.extractLsb' 12 40).toNat * 4096 + 4096 * (s.msptr % size)
       let word (t : State) (i : Nat) : Nat := leNat (t.home (pa + 8 * i) 8)
       (¬ due → Waits .milestoneTick s)
       ∧ (due → (s.msptr + 2 ^ 64 - s.msrd.toNat) % 2 ^ 64 = size → Completes .milestoneTick s (fun t =>
            t.msdrop = s.msdrop + 1 ∧ t.msgap = true ∧ t.counts = [] ∧ t.msptr = s.msptr ∧ t.mem = s.mem))
       ∧ (due → (s.msptr + 2 ^ 64 - s.msrd.toNat) % 2 ^ 64 ≠ size → Completes .milestoneTick s (fun t =>
            t.msptr = s.msptr + 1 ∧ t.msgap = false ∧ t.msdrop = s.msdrop ∧ t.harts = s.harts ∧ t.counts = []
            ∧ (let shows (at_ kind u i : Nat) : Prop := leNat (t.home (pa + at_) 4) = min (Tab.get 0 s.counts (48 * u + 8 * kind + i)) 0xFFFFFFFF
               let cores := if s.a48 then 48 else 64
               (∀ u i, u < cores → i < 8 → shows (64 + 32 * u + 4 * i) 0 u i)
               ∧ (∀ u i, u < cores / 4 → i = 0 ∨ i = 2 ∨ i = 3 → shows (2112 + 16 * u + 4 * i) 1 u i)
               ∧ (∀ u i, u < (if s.a48 then 18 else 24) → i = 2 ∨ i = 3 → shows (2368 + 16 * u + 4 * i) 2 u i)
               ∧ (∀ u i, u < 64 → i = 2 ∨ i = 3 → shows (2752 + 16 * u + 4 * i) 3 u i) ∧ ∀ u i, u < 16 → i < 2 → shows (3800 + 8 * u + 4 * i) 5 u i)
            ∧ word t 0 = s.msptr % 2 ^ 64 ∧ word t 511 = s.msptr % 2 ^ 64 ∧ word t 1 = s.cycle % 2 ^ 64
            ∧ word t 2 = k + (if s.a48 then 48 else 64) * 2 ^ 8 + s.msgap.toNat * 2 ^ 16
            ∧ ∀ q, (q < pa ∨ pa + 4096 ≤ q) → t.homeByte q = s.homeByte q)))
    ∧ Completes .msptrRead s (fun t => t.hostData = BitVec.ofNat 64 s.msptr ∧ t.mem = s.mem ∧ t.harts = s.harts
        ∧ ∀ m, s.cur = .verge m → t.acquired (64 + m) .dv)

/-! ### The host link, the caches and the fault queue -/

/-- The Onistyan link (R190, R193, R302 to R304, R306): a tail write, a read of olink, the link going down and coming back,
with the waiting writes then made in order but for those that waited too long, an access that goes on without the host after
2^20 cycles, a host write, and an expander that leaves. It rests on readings of the model's own: from when a wait is counted
(log 22), where waiting bytes stand (log 23), where host memory beyond the window stands (log 45), and that an expander that leaves
keeps its width and capacity bits (log 82). -/
def Obligations.HostLink : Prop :=
  ∀ (s : State) (q h n e pa : Nat) (v : W64) (bs : List Byte),
    let late (w : Option Wait) : Prop := ∃ c, w = some (.host c) ∧ c + 2 ^ 20 ≤ s.cycle
    let freed (w : Option Wait) : Option Wait := match w with | some (.host _) => none | w => w
    (q < 64 → Completes (.qtailWrite q v) s (fun t => (∃ m, t = { s with hq := m })
      ∧ ∀ k, Tab.get 0 t.hq k = if k = 4 * q + 3 then v else Tab.get 0 s.hq k))
    ∧ (64 ≤ q → Waits (.qtailWrite q v) s)
    ∧ Completes .olinkRead s (fun t => t = { s with hostData := BitVec.ofNat 64 (s.linkUp.toNat + 2 * s.linkDown.toNat), linkDown := false })
    ∧ (s.linkUp = true → Completes .hostLinkDown s (fun t => t = { s with linkUp := false, linkDown := true }))
    ∧ (s.linkUp = false → Waits .hostLinkDown s)
    ∧ (s.linkUp = true → Waits .hostLinkUp s)
    ∧ (s.linkUp = false → s.dueEntries = [] → (∀ l, l < s.nlaunch → (s.launch l).finished = true ∨ (s.launch l).retired < (s.launch l).teams) →
        Completes .hostLinkUp s (fun t => t.linkUp = true ∧ t.linkQ = [] ∧ t.linkDown = s.linkDown ∧ t.teams = s.teams
          ∧ t.hostWaits = []
          ∧ (∀ p, t.homeByte p = (((s.linkQ.filter (fun w => w.pa ≤ p && p < w.pa + w.vals.length && s.cycle < w.since + 2 ^ 20)).getLast?).map
              (fun w => w.vals.getD (p - w.pa) 0)).getD (s.homeByte p))
          ∧ (∀ l, t.poisoned l = (s.poisoned l
              && !s.linkQ.any (fun w => s.cycle < w.since + 2 ^ 20 && w.pa ≤ 64 * l && 64 * l + 64 ≤ w.pa + w.vals.length)))
          ∧ (∀ g j, g < s.nteam → (s.team g).st ≠ .retired → j < (s.team g).nharts → t.hart (8 * g + j) = { s.hart (8 * g + j) with
              wait := freed (s.hart (8 * g + j)).wait, vwait := freed (s.hart (8 * g + j)).vwait, linkDeadC := false, linkDeadV := false })
          ∧ ∀ m, m ≤ 8 → t.verge m = { s.verge m with wait := freed (s.verge m).wait, linkDead := false }))
    ∧ (late (s.hart h).wait → Completes (.hostAccessTimeout (.ctrl h)) s (fun t =>
        t = s.setHart h { s.hart h with wait := none, linkDeadC := true }))
    ∧ (¬ late (s.hart h).wait → Waits (.hostAccessTimeout (.ctrl h)) s)
    ∧ (late (s.hart h).vwait → Completes (.hostAccessTimeout (.vec h)) s (fun t =>
        t = s.setHart h { s.hart h with vwait := none, linkDeadV := true }))
    ∧ (¬ late (s.hart h).vwait → Waits (.hostAccessTimeout (.vec h)) s)
    ∧ (late (s.verge n).wait → Completes (.hostAccessTimeout (.verge n)) s (fun t =>
        t = s.setVerge n { s.verge n with wait := none, linkDead := true }))
    ∧ (¬ late (s.verge n).wait → Waits (.hostAccessTimeout (.verge n)) s)
    ∧ (bs ≠ [] → (pa + bs.length ≤ 4000000000 * s.channels ∧ s.linkUp = true) ∨ (2 ^ 48 ≤ pa ∧ pa + bs.length ≤ 2 ^ 49) ∨ 2 ^ 52 ≤ pa →
        Completes (.hostWrite pa bs) s (fun t => t.l1 = s.l1 ∧ t = s.withCaches t
          ∧ (∀ p, t.homeByte p = if pa ≤ p ∧ p < pa + bs.length then bs.getD (p - pa) 0 else s.homeByte p)
          ∧ ∀ l, t.poisoned l = (s.poisoned l && !(decide (pa ≤ 64 * l) && decide (64 * l + 64 ≤ pa + bs.length)))))
    ∧ (s.linkUp = false → pa < 2 ^ 48 → Waits (.hostWrite pa bs) s)
    ∧ (e < 4 → Completes (.cxlExpanderLeave e) s (fun t => (∃ m, t = { s with cxlstat := m })
        ∧ (∀ i, (Tab.get 0 t.cxlstat e).getLsbD i = ((Tab.get 0 s.cxlstat e).getLsbD i && i != 0))
        ∧ ∀ k, k ≠ e → Tab.get 0 t.cxlstat k = Tab.get 0 s.cxlstat k))
    ∧ (4 ≤ e → Waits (.cxlExpanderLeave e) s)

/-- The horizons of the L1 (R187, R188) and the fault queue (R285): a line with a byte that became dirty 65,536 cycles ago is written
back, the clean bytes of a line that were filled that long ago leave, and younger ones stay; the oldest waiting report
enters a usable ring that has room, after a release at dv of the core that it is made for: what that core had stored stands at
home. It rests on a reading of the model's own: that a release carries host-window bytes too (log 24). -/
def Obligations.HorizonsAndFaultRing : Prop :=
  ∀ (s : State) (core line : Nat) (v : W64),
    let old (y : L1Byte) : Prop := y.at_ + 65536 ≤ s.cycle
    let here (q : Nat) : Prop := 64 * line ≤ q ∧ q < 64 * line + 64
    let due : Prop := ∃ q y, here q ∧ s.l1Byte core q = some y ∧ y.dirty = true ∧ old y
    let ring := (s.fqring.extractLsb' 0 48).toNat
    let k := (s.fqring.extractLsb' 48 4).toNat
    let size := 2 ^ k
    let usable : Prop := 6 ≤ k ∧ ring ≠ 0 ∧ ring % 4096 = 0 ∧ s.fqring.extractLsb' 52 12 = 0
      ∧ ring + 64 * size ≤ 4000000000 * s.channels
    (64 * line + 64 ≤ 2 ^ 52 →
      (¬ due → Waits (.l1WritebackHorizon core line) s)
      ∧ (due → s.linkUp = true → Completes (.l1WritebackHorizon core line) s (fun t => s.KeepsBytes core t
          ∧ (∀ q, here q → t.homeByte q = s.ownByte core q ∧ ∀ y, t.l1Byte core q = some y → y.dirty = false)
          ∧ (∀ q, ¬ here q → t.homeByte q = s.homeByte q)
          ∧ ∀ q, q < 2 ^ 52 → ¬ here q → t.l1Byte core q = s.l1Byte core q))
      ∧ Completes (.l1InvalidateHorizon core line) s (fun t => (∃ l, t = s.withL1 l)
          ∧ (∀ q, here q → t.l1Byte core q = match s.l1Byte core q with
              | some y => if y.dirty = false ∧ y.at_ + 65536 ≤ s.cycle then none else some y
              | none => none)
          ∧ ∀ c q, q < 2 ^ 52 → (c ≠ core ∨ ¬ here q) → t.l1Byte c q = s.l1Byte c q))
    ∧ (s.reports = [] ∨ ¬ usable ∨ size ≤ s.fqtail - s.fqhead → Waits .faultRecordWrite s)
    ∧ (∀ r rest, s.reports = r :: rest → usable → s.fqtail - s.fqhead < size → r.words.length = 8 → Completes .faultRecordWrite s (fun t =>
        t.reports = rest ∧ t.fqtail = s.fqtail + 1 ∧ t.fqhead = s.fqhead ∧ t.harts = s.harts
        ∧ (∀ i, i < 8 → t.entryAt (ring + 64 * (s.fqtail % size) + 8 * i) = r.words.getD i 0)
        ∧ ∀ q, (q < ring + 64 * (s.fqtail % size) ∨ ring + 64 * (s.fqtail % size) + 64 ≤ q) →
            (r.core = none → t.homeByte q = s.homeByte q ∧ t.l1 = s.l1)
            ∧ ∀ c, r.core = some c → q < 2 ^ 52 → (isHost q = true → s.linkUp = true) → t.homeByte q = s.ownByte c q))
    ∧ Completes (.fqringWrite v) s (fun t => t = { s with fqring := v })

/-! ### The fabric -/

/-- The fabric port (R307 to R311): a descriptor is taken in order once a permit is held and a rail is up, and uses the
permit, and its payload leaves as cells of 256 bytes, each over a rail of the channel that is up; a message's first cell takes
the next slot and its payload is written there; a cell of a parked message is held; an acknowledgement adds to the message's
completion word; permits come from the peer or are granted to it for freed slots while fewer than 16 messages are parked; a reset
forgets them and is announced. It rests on readings of the model's own: how permits are counted (log 72) and what a send-side
fault parks (logs 73 and 74). -/
def Obligations.FabricPort : Prop :=
  ∀ (s : State) (ch msg peer n : Nat) (c : Cell),
    let word (i : Nat) : W64 := s.entryAt ((s.fchan.extractLsb' 12 40).toNat * 4096 + 64 * ch + 8 * i)
    let on : Prop := ch < 256 ∧ (word 0).getLsbD 52 = true
    let ctx := ((word 4).extractLsb' 48 16).toNat
    let parked : Prop := Tab.get none s.sendPark ch ≠ none
    let base := (word 0).toNat % 2 ^ 48
    let size := 2 ^ ((word 0).extractLsb' 48 4).toNat
    let stuck : Prop := 16 ≤ (s.recvs.filter (fun m => m.parked.isSome)).length
    let peerOf := (word 4).toNat % 2 ^ 16
    let peerChan := ((word 4).extractLsb' 16 8).toNat
    let quiet : Prop := ∀ m ∈ s.recvs, m.ch = ch → m.parked = none → m.held = [] ∧ m.aborted = false ∧ m.seen.length ≠ (m.len + 255) / 256
    (¬ on ∨ parked → Waits (.fabricSendTake ch) s)
    ∧ (∀ tail, on → ¬ parked → s.ctxWord (.send ch) ctx (base + 32 * size) .engRead = .ok tail →
        let i := word 5
        let rails := (word 4).extractLsb' 32 16 &&& s.railstat.extractLsb' 0 16
        (i = tail ∨ Tab.get 0 s.permits ch = 0 ∨ rails = 0 → Waits (.fabricSendTake ch) s)
        ∧ (∀ (bs : List Byte) (at_ : Nat → Nat), i ≠ tail → Tab.get 0 s.permits ch ≠ 0 → rails ≠ 0 →
            s.ctxRead (.send ch) ctx .engRead 1 (base + 32 * (i.toNat % size)) 32 = .ok bs →
            let d (k : Nat) : W64 := BitVec.ofNat 64 (leNat ((bs.drop (8 * k)).take 8))
            let src := (d 0).toNat % 2 ^ 48
            let len := (d 1).toNat
            let pay := (List.range len).map (fun i => s.homeByte (at_ i))
            (∀ i, i < len → s.reach (.send ch) ctx (src + i) .engRead = .ok (at_ i)
              ∧ (i + 1 < len → (src + i + 1) % 64 ≠ 0 → at_ (i + 1) = at_ i + 1)) →
            Completes (.fabricSendTake ch) s (fun t =>
              t.sends = s.sends ++ [⟨ch, Tab.get 0 s.sendSeq ch, d 0, len, d 2, d 3, none⟩]
              ∧ (∃ rail : Nat → Nat, (∀ i, rail i < 16 ∧ rails.getLsbD (rail i) = true)
                  ∧ t.outbox = s.outbox ++ (List.range ((len + 255) / 256)).map (fun i =>
                      .cell (rail i) peerOf ⟨peerChan, Tab.get 0 s.sendSeq ch, i, len, d 3, (pay.drop (256 * i)).take 256, rail i⟩))
              ∧ Tab.get 0 t.sendSeq ch = Tab.get 0 s.sendSeq ch + 1 ∧ Tab.get 0 t.permits ch = Tab.get 0 s.permits ch - 1
              ∧ (∀ k, k ≠ ch → Tab.get 0 t.permits k = Tab.get 0 s.permits k) ∧ t.chan ch 5 = i + 1
              ∧ ∀ k, k < 8 → k ≠ 5 → t.chan ch k = word k)))
    ∧ (s.sends.find? (fun m => m.ch = ch && m.msg = msg) = none → Waits (.fabricAck ch msg) s)
    ∧ (∀ m, s.sends.find? (fun m => m.ch = ch && m.msg = msg) = some m → m.parked ≠ none → Waits (.fabricAck ch msg) s)
    ∧ (∀ m, s.sends.find? (fun m => m.ch = ch && m.msg = msg) = some m → m.parked = none →
        let va := m.cw.toNat % 2 ^ 48
        let rest := s.sends.filter (fun d => !(d.ch = ch && d.msg = msg))
        (va = 0 → Completes (.fabricAck ch msg) s (fun t => t = { s with sends := rest }))
        ∧ (∀ pa, va ≠ 0 → s.reach (.ack ch msg) ctx va .atomic = .ok pa → Completes (.fabricAck ch msg) s (fun t => t.sends = rest ∧ t.harts = s.harts
            ∧ leNat (t.home pa 8) = (leNat (s.home pa 8) + (m.cw.extractLsb' 48 6).toNat) % 2 ^ 64
            ∧ ∀ q, (q < pa ∨ pa + 8 ≤ q) → t.homeByte q = s.homeByte q)))
    ∧ Completes (.fabricPermitGrant ch (some n)) s (fun t => (∃ m, t = { s with permits := m })
        ∧ ∀ k, Tab.get 0 t.permits k = if k = ch then Tab.get 0 s.permits ch + n else Tab.get 0 s.permits k)
    ∧ (¬ on ∨ stuck → Waits (.fabricPermitGrant ch none) s)
    ∧ (∀ freed, on → ¬ stuck → s.ctxWord (.recv ch 0 0) ctx ((word 2).toNat % 2 ^ 48) .engRead = .ok freed →
        let old := Tab.get 0 s.granted ch
        (freed.toNat ≤ old → Waits (.fabricPermitGrant ch none) s)
        ∧ (old < freed.toNat → Completes (.fabricPermitGrant ch none) s (fun t =>
            (∃ m, t = { s with granted := m, outbox := s.outbox ++ [.permits peerOf peerChan (freed.toNat - old)] })
            ∧ ∀ k, Tab.get 0 t.granted k = if k = ch then freed.toNat else Tab.get 0 s.granted k)))
    ∧ Completes .portReset s (fun t => t = { s with permits := [], outbox := s.outbox ++ [.resetNotice] })
    ∧ ((∀ k, k < 256 → s.chanOn k = true → s.chanPeer k ≠ peer) → Waits (.fabricResetNotice peer) s)
    ∧ ((∀ m ∈ s.recvs, ¬ (s.chanOn m.ch = true ∧ s.chanPeer m.ch = peer)) → Completes (.fabricResetNotice peer) s (fun t =>
        t.permits = s.permits ∧ t.recvs = s.recvs ∧ t.mem = s.mem
        ∧ ∀ k, Tab.get 0 t.granted k =
            if k < 256 ∧ s.chanOn k = true ∧ s.chanPeer k = peer then (s.chan k 6).toNat else Tab.get 0 s.granted k))
    ∧ (c.ch = ch → quiet →
        let slot := 2 ^ (((word 1).extractLsb' 52 4).toNat + 8)
        let count := 2 ^ ((word 1).extractLsb' 48 4).toNat
        let fits : Prop := 1 ≤ c.len ∧ c.idx < (c.len + 255) / 256 ∧ c.data.length = min 256 (c.len - 256 * c.idx) ∧ c.len ≤ slot - 16
        (¬ on ∨ ¬ fits → Waits (.fabricCellArrive c) s)
        ∧ (∀ m, on → fits → s.recvs.find? (fun m => m.ch = ch && m.msg = c.msg && !m.aborted) = some m →
            (c.idx ∈ m.seen ∨ (∃ d ∈ m.held, d.idx = c.idx) → Waits (.fabricCellArrive c) s)
            ∧ (c.idx ∉ m.seen → (∀ d ∈ m.held, d.idx ≠ c.idx) → m.parked ≠ none → Completes (.fabricCellArrive c) s (fun t =>
                t = { s with recvs := s.recvs.map (fun d => if d.ch = ch ∧ d.msg = c.msg ∧ d.slot = m.slot then { m with held := m.held ++ [c] } else d) })))
        ∧ (∀ at_ : Nat → Nat, on → fits → s.recvs.find? (fun m => m.ch = ch && m.msg = c.msg && !m.aborted) = none → 256 < c.len →
            let start := (word 1).toNat % 2 ^ 48 + slot * ((word 6).toNat % count)
            let va (i : Nat) : Nat := start + 16 + 256 * c.idx + i
            let place := (s.fchan.extractLsb' 12 40).toNat * 4096 + 64 * ch
            let touched (q : Nat) : Prop := (place ≤ q ∧ q < place + 64) ∨ ∃ i, i < c.data.length ∧ q = at_ i
            (∀ m ∈ s.recvs, m.ch = ch → m.msg = c.msg → m.slot ≠ start) →
            (∀ t : State, t.roots = s.roots → t.strec1 = s.strec1 → t.cxlstat = s.cxlstat → t.a48 = s.a48 →
              (∀ l, t.poisoned l = true → s.poisoned l = true) → (∀ q, ¬ touched q → t.homeByte q = s.homeByte q) →
              ∀ i, i < c.data.length → t.translateRoot false (t.rootOf ctx) (va i) .engWrite = .ok (at_ i)) →
            (∀ i, i < c.data.length → (at_ i < place ∨ place + 64 ≤ at_ i)
              ∧ (i + 1 < c.data.length → va (i + 1) % 64 ≠ 0 → at_ (i + 1) = at_ i + 1)
              ∧ (∀ j, j < c.data.length → at_ i = at_ j → i = j)) → s.linkUp = true →
            Completes (.fabricCellArrive c) s (fun t =>
              t.recvs = s.recvs ++ [⟨ch, c.msg, start, c.len, c.tag, [c.idx], [], none, false⟩]
              ∧ (∀ i, i < c.data.length → t.homeByte (at_ i) = c.data.getD i 0) ∧ t.chan ch 6 = word 6 + 1
              ∧ ∀ q, ¬ touched q → t.homeByte q = s.homeByte q)))

/-! ### Code images, power and start -/

/-- Code images (R315, R317, R319, R320): a write of imgaddr starts a load unless one is under way; a load that fails its checks
leaves the number of the failure; one that passes registers the image, whose form is fixed by the configuration hash, or, where
it relies on errata that only translated code reproduces, once it has been translated; either way no core's cached code of its
range stays; a translation marks its image; a dropped image stays only while a team runs it. It rests on readings of the model's
own: the order of the checks and the number of an image (log 63), and when a dropped one goes (log 64). -/
def Obligations.CodeImages : Prop :=
  ∀ (s : State) (v : W64) (id : Nat),
    let dropped (m : Image) : Image := if m.id = v.toNat then { m with dropped := true } else m
    let inside (m : Image) (a : W48) : Prop := m.base ≤ a.toNat ∧ a.toNat < m.base + m.size
    let runs (m : Image) : Prop := ∃ g, g < s.nteam ∧ (s.team g).st ≠ .retired ∧ ((s.team g).image = some m.id
      ∨ ((s.team g).started = true ∧ (s.team g).ctx = m.ctx ∧ ∃ j, j < (s.team g).nharts ∧
          let h := s.hart (8 * g + j)
          (h.exited = false ∧ inside m h.cpc) ∨ (h.block ≠ none ∧ inside m h.vpc) ∨ ∃ b ∈ h.blockQ, inside m b.addr))
    let swept (l : List Image) (t : State) : Prop := ∀ m, m ∈ t.images ↔ m ∈ l ∧ (m.dropped = true → runs m)
    let u := s.sweepImages
    (s.imgcode = 1 → Waits (.imgaddrWrite v) s)
    ∧ (s.imgcode ≠ 1 → Completes (.imgaddrWrite v) s (fun t =>
        t = { s with
          imgload := some (BitVec.ofNat 64 (v.toNat % 2 ^ 48 + s.imgctx * 2 ^ 48)), imgcode := 1, imgerr := 0, imgdone := false }))
    ∧ (s.imgload = none → Waits .imageLoadDone s)
    ∧ (∀ l : W64, s.imgload = some l →
        let ctx := l.toNat / 2 ^ 48
        let base := l.toNat % 2 ^ 48
        let waits : List (Waiter × Nat) := s.hostWaits.filter (fun w => w.1 ≠ .image)
        let drops (n : Nat) (t : State) : Prop :=
          (∀ c l size leaf, base / 64 ≤ l → 64 * l < base + n →
            (s.tableOk (s.rootOf ctx) = true ∧ ∃ b, s.walk (64 * l) 4 (s.rootOf ctx) = .ok ⟨b, size, leaf⟩)
              ∨ (∃ b k, (⟨k, ctx, b, size, leaf⟩ : TlbEntry) ∈ s.tlb ∧ b ≤ 64 * l ∧ 64 * l < b + size) →
            Tab.get none t.icache (c * 2 ^ 46 + (entryPa leaf / size * size + 64 * l % size) / 64) = none)
          ∧ ∀ k, Tab.get none t.icache k = none ∨ Tab.get none t.icache k = Tab.get none s.icache k
        let fails (n c e : Nat) : Prop := Completes .imageLoadDone s (fun t => swept s.images t ∧ drops n t
          ∧ t = { s with images := t.images, icache := t.icache, imgload := none, imgcode := c, imgerr := e, hostWaits := waits })
        let code (c : Nat) : Prop := fails 64 c 0
        let registers (i : Instr) (hd : Header) (ks : List Kernel) (done : Bool) : Prop :=
          let native : Bool := decide (hd.nsec.toNat / 2 ^ 32 ≠ 0)
          Completes i s (fun t => ∃ (v : State) (er : Nat), (if done then v = s else v = u)
            ∧ t.images = v.images ++ [⟨s.nimage + 1, ctx, base, hd.size.toNat, native, native && hd.hash == s.cfghash hd.errmask, ks, er, done, false⟩]
            ∧ (∀ k, er.testBit k = (decide (k < 64) && hd.errmask.getLsbD k && !Config.erratumPresent s.stepping k
                && Config.erratumReproducible s.stepping k))
            ∧ drops hd.size.toNat t ∧ t = { s with
              images := t.images, icache := t.icache, imgid := s.nimage + 1, nimage := s.nimage + 1, imgcode := 0, imgerr := 0, imgdone := done, imgload := none, hostWaits := waits })
        ((Tab.get 0 s.ctxroot ctx).getLsbD 0 = false → code 6)
        ∧ ((Tab.get 0 s.ctxroot ctx).getLsbD 0 = true →
            (base % 4096 ≠ 0 → code 2)
            ∧ (base % 4096 = 0 → ∀ f, s.ctxRead .image ctx .load 1 base 64 = .error (.lost f) → code (if f = 0 then 7 else 6))
            ∧ (base % 4096 = 0 → ∀ bs, s.ctxRead .image ctx .load 1 base 64 = .ok bs → (bs.take 4) ≠ [0x49, 0x43, 0x39, 0x4A] → bs.length = 64 → code 2))
        ∧ (∀ c e, u.checkImage ctx base = .bad c e → fails (s.loadSize ctx base) c e)
        ∧ (∀ hd ks, u.checkImage ctx base = .good hd ks →
            (s.corrected hd.errmask true = none → registers .imageLoadDone hd ks false)
            ∧ (s.corrected hd.errmask true ≠ none → Completes .imageLoadDone s (fun t => swept s.images t ∧ t = { s with images := t.images })))
        ∧ (∀ hd ks, s.checkImage ctx base = .good hd ks → s.corrected hd.errmask true ≠ none → (∀ m ∈ s.images, m.id ≠ s.nimage + 1) →
            registers (.nativeTranslationDone (s.nimage + 1)) hd ks true))
    ∧ ((∃ m ∈ s.images, m.id = id) → Completes (.nativeTranslationDone id) s (fun t => ∃ d,
        t = { s with images := s.images.map (fun m => if m.id = id then { m with translated := true } else m), imgdone := d }
        ∧ (d = true ↔ s.imgdone = true ∨ (id = s.imgid ∧ s.imgcode ≠ 1))))
    ∧ ((∀ m ∈ s.images, m.id ≠ id) → s.imgload = none → Waits (.nativeTranslationDone id) s)
    ∧ swept s.images u
    ∧ Completes (.imgdropWrite v) s (fun t => t = { s with images := t.images } ∧ swept (s.images.map dropped) t)

/-- Power states, the thermal trip and attestation (R270, R333, R335 to R337): a legal write of pstate sets state and budget
and asks the least important teams that hold heavy units to stop, of one priority the last placed first, until the rest fits,
and all teams in state 4; a trip stops the clocks and the device's memory is lost; an
attestation request starts a report, whose end writes it behind the nonce, with a signature that verifies under the identity key, or
refuses a bad request. It rests on readings of the model's own: that lost memory reads 0 (log 1), which teams count as gone (log 78),
which requests are bad (log 79), and that the secret of the key pair is free and the scheme that of FIPS 205 (logs 7 and 86). -/
def Obligations.PowerAndAttestation : Prop :=
  ∀ (s : State) (v : W64),
    let st := (v.extractLsb' 0 3).toNat
    let budget := if v.getLsbD 16 then [152, 96, 48, 0, 0].getD st 0 else min 152 (v.extractLsb' 8 8).toNat
    let legal_ : Prop := s.strec2.getLsbD 16 = true ∧ st ≤ 4 ∧ s.changing = false
    let quick : State := { s with pstate := st, power := budget, former := (s.pstate, s.power) }
    let units (g : Nat) : Nat := classUnits (s.team g).pclass
    let counts (g : Nat) : Bool := (s.team g).st == .resident && !(s.team g).request
    let going (g : Nat) : Prop := ((s.team g).st = .resident ∧ (s.team g).request = true) ∨ (s.team g).st = .stopping
    let before (k g : Nat) : Bool := decide ((s.team k).prio < (s.team g).prio
      ∨ ((s.team k).prio = (s.team g).prio ∧ (s.team g).placed < (s.team k).placed))
    let left (g : Nat) : Nat := ((List.range s.nteam).map (fun k => if counts k && !before k g then units k else 0)).sum
    let asked (g : Nat) : Prop := counts g = true ∧ (st = 4 ∨ (0 < units g ∧ budget < left g))
    (¬ legal_ → Waits (.pstateWrite v) s)
    ∧ (legal_ → Completes (.pstateWrite v) s (fun t => t.pstate = st ∧ t.power = budget ∧ t.harts = s.harts ∧ t.mem = s.mem
        ∧ t.former = (s.pstate, s.power)
        ∧ (t.changing = true ↔ ∃ g, g < s.nteam ∧ ((s.team g).st = .resident ∨ (s.team g).st = .stopping) ∧ (t.team g).forPower = true)
        ∧ (∀ g, ∃ r p, t.team g = { s.team g with request := r, forPower := p })))
    ∧ (legal_ → (∀ k g, k < s.nteam → g < s.nteam → counts k = true → counts g = true → (s.team k).prio = (s.team g).prio →
          (s.team k).placed = (s.team g).placed → k = g) →
        Completes (.pstateWrite v) s (fun t => ∀ g, g < s.nteam →
          (asked g → t.team g = { s.team g with request := true, forPower := true })
          ∧ (¬ asked g → (t.team g).request = (s.team g).request ∧ (¬ going g → t.team g = s.team g))))
    ∧ (legal_ → s.resident = [] → Completes (.pstateWrite v) s (fun t => t = quick))
    ∧ (∀ g, legal_ → g < s.nteam → (s.team g).st = .resident → (∀ k, k < s.nteam → k ≠ g → (s.team k).st ≠ .resident ∧ (s.team k).st ≠ .stopping) →
        (s.team g).request = false → (s.team g).forPower = false →
        let units := classUnits (s.team g).pclass
        (st ≠ 4 → units ≤ budget → Completes (.pstateWrite v) s (fun t => t = quick))
        ∧ (st = 4 ∨ budget < units → Completes (.pstateWrite v) s (fun t => t.changing = true
            ∧ t.team g = { s.team g with request := true, forPower := true } ∧ ∀ k, k ≠ g → t.team k = s.team k)))
    ∧ Completes .thermalTrip s (fun t => t.tripped = true ∧ t.recovery = false ∧ t.harts = s.harts
        ∧ (t.strec0.extractLsb' 0 8 = if s.recovery then 0 else s.strec0.extractLsb' 0 8)
        ∧ t.strec0.extractLsb' 8 56 = s.strec0.extractLsb' 8 56
        ∧ ∀ q, t.homeByte q = if isHost q = true ∨ 2 ^ 52 ≤ q then s.homeByte q else 0)
    ∧ (s.attstat.getLsbD 0 = true → Waits (.attestationRequest v) s)
    ∧ (s.attstat.getLsbD 0 = false → Completes (.attestationRequest v) s (fun t =>
        t = { s with attaddr := BitVec.ofNat 64 (v.toNat % 2 ^ 48), attstat := 1 }))
    ∧ (s.attstat.getLsbD 0 = false → Waits .attestationDone s)
    ∧ (s.attstat.getLsbD 0 = true →
        let pa := s.attaddr.toNat
        let good : Prop := pa % 64 = 0 ∧ pa + 30016 ≤ 4000000000 * s.channels ∧ s.poisoned (pa / 64) = false
          ∧ ∀ i, i < 32 → s.homeByte (pa + 32 + i) = 0
        (¬ good → Completes .attestationDone s (fun t => t = { s with attstat := 4 }))
        ∧ (good → Completes .attestationDone s (fun t => t.attstat = 2 ∧ t.harts = s.harts ∧ t.l1 = s.l1
            ∧ (∀ i, i < 32 → t.homeByte (pa + 64 + i) = s.homeByte (pa + i))
            ∧ (∀ j, j < 4 → t.entryAt (pa + 96 + 8 * j) = Tab.get 0 s.meas j) ∧ t.entryAt (pa + 128) = s.cfghash 0
            ∧ t.entryAt (pa + 136) = s.strec0 ∧ t.entryAt (pa + 144) = s.strec1 ∧ t.entryAt (pa + 152) = s.strec2
            ∧ (∀ i, i < 64 → t.homeByte (pa + 160 + i) = deviceKey.getD i 0)
            ∧ slhVerify deviceKey ((List.range 160).map (fun i => t.homeByte (pa + 64 + i)))
                ((List.range 29792).map (fun i => t.homeByte (pa + 224 + i))) = true
            ∧ ∀ q, (q < pa + 64 ∨ pa + 30016 ≤ q) → t.homeByte q = s.homeByte q)))

/-- DEVICE_START and RECOVERY_IMAGE_FETCH (R331 to R334): the steps run in order, each as its fallback when the previous start
recorded it as failed, and leave their outcomes in the start record; a step that fails ends the start (the model's reading,
log 45), and a thermal trip during a step leaves it and the later ones not reached; a failed first step waits for a recovery
image, which is fetched from host memory; and a start makes the registers what reset makes them, and the fabric port sends its notice
(R309). The key that firmware is verified against, and where a recovery image's signature lies, are free values (log 45). It rests on readings of the model's own: the causes and masks of a start (log 77), that every byte of device memory reads 0 after a
start (log 1), and that a measurement is the SHAKE256 of FIPS 202 (log 86). -/
def Obligations.DeviceStarts : Prop :=
  ∀ (s : State) (r : StartRun) (a : W64),
    let outcome (w : W64) (i : Nat) : Nat := (w.extractLsb' (8 * (i - 1)) 8).toNat
    let fb (i : Nat) : Prop := outcome s.strec0 i = 2
    let verifies (image sig : List Byte) : Prop := slhVerify ((List.range 64).map Config.fusedKey) image sig = true
    let passes (i : Nat) : Prop := if i = 1 then verifies r.firmware r.signature else r.pass.getD (i - 1) false = true
    let reached (first i : Nat) : Prop := (∀ j, first ≤ j → j < i → passes j) ∧ ∀ j, first ≤ j → j ≤ i → r.trip ≠ some j
    let trips (first : Nat) : Prop := ∃ i, first ≤ i ∧ i ≤ 7 ∧ r.trip = some i ∧ ∀ j, first ≤ j → j < i → passes j
    let place (i : Nat) : Nat := let b := a.toNat % 2 ^ 52 + i; if b < 2 ^ 48 then 2 ^ 48 + b else 2 ^ 52 + b
    let bytes (i n : Nat) : List Byte := (List.range n).map (fun j => s.homeByte (place (i + j)))
    let image := bytes 0 (Config.recoveryLength (bytes 0 64))
    let sig := bytes (Config.recoverySignature (bytes 0 64)) 29792
    let cause : Nat := s.tripped.toNat + (if s.booted = true ∧ s.strec2.getLsbD 16 = false then 2 else 0)
    let fresh (t : State) : Prop := t.teams = [] ∧ t.harts = [] ∧ t.verges = [] ∧ t.cmds = [] ∧ t.l1 = [] ∧ t.tlb = [] ∧ t.icache = []
      ∧ t.ctxroot = [] ∧ t.fqring = 0 ∧ t.fqhead = 0 ∧ t.fqtail = 0 ∧ t.reports = [] ∧ t.dq = [] ∧ t.images = [] ∧ t.cycle = 0
      ∧ t.booted = true ∧ t.prevStart = s.strec0 ∧ t.agenda = s.agenda ∧ t.a48 = s.a48 ∧ t.stepping = s.stepping
      ∧ (∀ q, t.homeByte q = if isHost q = true ∨ 2 ^ 52 ≤ q then s.homeByte q else 0) ∧ outcome t.strec0 8 = cause ∧ t.outbox = [.resetNotice]
    (fb 1 → Completes (.deviceStart r) s (fun t => fresh t ∧ t.recovery = true ∧ t.tripped = false
      ∧ ∀ i, 1 ≤ i → i ≤ 7 → outcome t.strec0 i = 0))
    ∧ (¬ fb 1 → Completes (.deviceStart r) s (fun t => fresh t
        ∧ (t.tripped = true ↔ trips 1) ∧ (t.recovery = true ↔ reached 1 1 ∧ ¬ passes 1)
        ∧ (∀ i, 1 ≤ i → i ≤ 7 →
          (reached 1 i → passes i → outcome t.strec0 i = if fb i ∧ i ≠ 7 then 4 else 1)
          ∧ (reached 1 i → ¬ passes i → outcome t.strec0 i = 2) ∧ (¬ reached 1 i → outcome t.strec0 i = 0))
        ∧ (reached 1 1 → passes 1 → ∀ j, j < 4 → Tab.get 0 t.meas j = (shake256 r.firmware 4).getD j 0)
        ∧ (reached 1 7 → passes 7 → t.strec2.getLsbD 16 = true ∧ t.pstate = 3 ∧ t.power = 0 ∧ t.linkUp = true
          ∧ (t.halfRate = true ↔ fb 2) ∧ (t.slowMem = true ↔ fb 3)
          ∧ t.strec1 = (if fb 3 then r.channels &&& BitVec.ofNat 64 (2 ^ (if s.a48 then 36 else 48) - 1) else 0)
          ∧ (∀ e, e < 4 → Tab.get 0 t.cxlstat e = r.cxl.getD e 0 &&& 0xFFFFFFF)
          ∧ t.railstat.extractLsb' 0 16 = (if fb 6 then ~~~r.rails else 0xFFFF)
          ∧ t.strec2.extractLsb' 0 16 = (if fb 6 then r.rails else 0))))
    ∧ (s.recovery = false ∨ s.tripped = true → Waits (.recoveryImageFetch a r) s)
    ∧ (s.recovery = true → s.tripped = false → Completes (.recoveryImageFetch a r) s (fun t =>
        (¬ verifies image sig → t = s)
        ∧ (verifies image sig → t.recovery = false ∧ outcome t.strec0 1 = 4 ∧ (t.tripped = true ↔ trips 2) ∧ (¬ trips 2 → t.mem = s.mem)
          ∧ (∀ j, j < 4 → Tab.get 0 t.meas j = (shake256 image 4).getD j 0)
          ∧ ∀ i, 2 ≤ i → i ≤ 7 →
            (reached 2 i → passes i → outcome t.strec0 i = if outcome s.prevStart i = 2 ∧ i ≠ 7 then 4 else 1)
            ∧ (reached 2 i → ¬ passes i → outcome t.strec0 i = 2)
            ∧ (¬ reached 2 i → outcome t.strec0 i = outcome s.strec0 i))))

/-! ### The machine as a whole -/

/-- Reset (R1, R3, R293, R295, R302, R323, R333): the values that the spec states; nothing is listed in memory, which is in its
canonical form, no team or command exists, and the device waits for its start. The values that the spec leaves open are the
model's (logs 1 to 3). -/
def Obligations.ResetState : Prop :=
  let s := State.reset
  Memory.wf s.mem = true ∧ s.teams = [] ∧ s.harts = [] ∧ s.cmds = [] ∧ s.reports = [] ∧ s.live = [] ∧ s.cycle = 0 ∧ s.ctxsel = 0
  ∧ s.fqring = 0 ∧ s.fqhead = 0 ∧ s.fqtail = 0 ∧ s.linkUp = false ∧ s.linkDown = false ∧ s.dbgctl = 0 ∧ s.cmderr = 0
  ∧ s.msctl = 0 ∧ s.pstate = 0 ∧ s.tripped = false ∧ (∀ n, Tab.get 0 s.ctxroot n = 0) ∧ (∀ n, Tab.get 0 s.hq n = 0)
  ∧ (∀ n, Tab.get 0 s.bp n = 0) ∧ ∀ q, q < 16 → Tab.get 0 s.qplace q = BitVec.ofNat 64 (16 + q)

/-- Decode and encode agree (R46 to R54): every well-formed instruction has a word, which has 32 bits and decodes to it, whatever
the operands; what decodes is well-formed and no event; an event, which the opcode table gives no encoding, has no word. -/
def Obligations.DecodeEncode : Prop :=
  let event (i : Instr) : Bool := match i with
      | .blockStart _ | .loopEndCheck _ | .faultRecordWrite | .fqringWrite _ | .copyRun _ _ | .ritStallEnd _
      | .completionAdd _ _ | .matrixTile _ _ | .descentExecute _ _ | .lookupProbe _ _ | .lookupExecute _ _
      | .indexProbePass _ _ | .indexMove _ _ | .l1WritebackHorizon _ _ | .l1InvalidateHorizon _ _ | .waitRetest _
      | .laneGroupReturn _ | .takeRecord | .schedulerPass | .teamAgeing _ | .preemptStop _ | .teamSave _ | .teamRetire _
      | .hctlPreempt _ | .hctlTerminate _ | .rfdataAccess _ _ | .rngseedWrite _ _ | .qtailWrite _ _ | .olinkRead
      | .hostLinkDown | .hostLinkUp | .hostAccessTimeout _ | .cxlExpanderLeave _ | .fabricSendTake _ | .fabricCellArrive _
      | .fabricAck _ _ | .fabricPermitGrant _ _ | .fabricResetNotice _ | .imgaddrWrite _ | .imageLoadDone
      | .nativeTranslationDone _ | .imgdropWrite _ | .haltreq _ | .resumereq _ | .holdRelease | .breakpointHalt _
      | .accessRegister _ | .accessMemory _ | .dbgstatWrite _ | .milestoneTick | .msptrRead | .pstateWrite _ | .deviceStart _
      | .recoveryImageFetch _ _ | .thermalTrip | .attestationRequest _ | .attestationDone | .registerWrite _ _ _
      | .yieldWaitEnd _ | .hostWrite _ _ | .portReset => true
      | _ => false
  (∀ i : Instr, i.illFormed = none → event i = false →
    ∃ w, encode i = some w ∧ w < 2 ^ 32 ∧ decode w = .ok i ∧ decodeTableWord 32 w = some i)
  ∧ (∀ i : Instr, event i = true → encode i = none)
  ∧ ∀ (w : Nat) (i : Instr), decode w = .ok i → i.illFormed = none ∧ event i = false

/-- A step runs the decoded instruction (R13, R57, R58): when the word at the pc of the party whose turn it is decodes to an
instruction, and neither a halt, a breakpoint, a loop end nor a block start comes first, the step is exec of that instruction with
the party as the executing one, in JPF with the mode half in the mode register (R50); what the step adds is that the cut of a
pre-emption is forgotten, a passed breakpoint armed again and the issue counted, that a JPF word that stands where it stood leaves
the mode register and vl as they were, and that an L1 that holds more than its capacity evicts lines (R2, R186). A machine that
has tripped stops, unless it starts (R336). It rests on readings of the model's own: when a word counts as issued (log 6), what
L1s evict (log 18), what translated code with reproduced errata executes as (log 91), that JPF outside images waits (log 65), and
the standing JPF word (log 96). Before a turn the accesses that are still unperformed and that the rules order before the
instruction are performed, and a step may perform one that is, after one that is ordered before it (R248, R338; log 93); with none the
state is as it stands. -/
def Obligations.StepRunsDecoded : Prop :=
  ∀ (s : State) (p : Party) (cut : Option Nat) (rest : List Mover) (i : Instr) (pa : Nat),
    s.agenda = .run p cut :: rest →
    let r : State := ({ s with agenda := rest } : State).ready p cut
    let n := r.wordBytes p
    let core := r.coreOf p
    let u : State := r.prepare p cut
    let bytes := leNat ((List.range n).map (fun j => r.codeByte core (pa + j)))
    let word := r.translatedWord p bytes
    let v : State := match p with
      | .vec h => if n = 8 then u.setHart h ((u.hart h).setMode (BitVec.ofNat 32 (word / 2 ^ 32))) else u
      | _ => u
    (s.tripped = true → step s = .fault .clocksStopped)
    ∧ (s.late = [] → r = { s with agenda := rest })
    ∧ (∀ (w : State) (k : Nat) (l : List Mover) (e : Pending), w.agenda = .perform k :: l → w.tripped = false → w.late[k]? = some e →
        ((∀ a ∈ w.late.take k, a.precedes e = false) →
          step w = withinL1 (.next (({ w with agenda := l, late := w.late.eraseIdx k } : State).performOne e)))
        ∧ (∀ a, w.late = [a, e] → k = 1 → a.precedes e = true →
          step w = withinL1 (.next ((({ w with agenda := l, late := [] } : State).performOne a).performOne e))))
    ∧ (s.tripped = false → r.canRun p = true → r.haltDue p = false → r.bpHit p = false →
        (∀ h, p = .vec h → (r.hart h).loopDue = false ∧ (r.hart h).block ≠ none) →
        r.fetchAt p (r.pcOf p).toNat n = .ok pa → r.codePoisoned core pa = false → r.linkUp = true → (n = 8 → r.imageOf p ≠ none) →
        decodeFor p (decide (n = 8)) word = .ok i → u.bpSeq p i = false → step s = withinL1 (settle p u i (exec i v)))
    ∧ (n = 4 → word = bytes)
    ∧ (∀ t, withinL1 (settle p u i (.next t)) = .next (t.settled u p i).settleL1)
    ∧ (∀ t : State, (∀ c, (t.linesOf c).length ≤ 16) → t.settleL1 = t)
    ∧ (∀ t : State, (∀ h, (t.hart h).bpSkipC = false ∧ (t.hart h).bpSkipV = false) → t.pcOf p ≠ u.pcOf p ∨ u.wordBytes p ≠ 8 →
        ∃ c, t.settled u p i = { t with cut := none, counts := c }
          ∧ (t.pcOf p ≠ u.pcOf p → ∀ h, (p = .ctrl h → Tab.get 0 c (48 * t.coreOf p) = Tab.get 0 t.counts (48 * t.coreOf p) + 1)
            ∧ (p = .vec h → Tab.get 0 c (48 * t.coreOf p + 1) = Tab.get 0 t.counts (48 * t.coreOf p + 1) + 1)))
    ∧ (∀ (t : State) h, p = .vec h → n = 8 → t.pcOf p = u.pcOf p → (t.hart h).block ≠ none →
        ∃ c, t.settled u p i = ({ t with cut := none, counts := c } : State).setHart h { t.hart h with mode := (u.hart h).mode, vl := (u.hart h).vl })

/-- Words written out from the tables of the spec decode to the instructions they stand for (R46 to R52). -/
def Obligations.DecodeWords : Prop :=
  decode 0x1D392345 = .ok (.lui 7 0x12345) ∧ decode 0x27B50000 = .ok (.std 22 20 0) ∧ decode 0x99A40000 = .ok (.vfchk 5 1)
  ∧ decode 0xA2020003 = .ok (.vlds (.main 2) 0 3) ∧ decode 0xF2000000 = .ok .ecall ∧ decode 0xF501C000 = .ok (.yield 7)
  ∧ decode 0xF7029600 = .ok (.tinv 10 11 0) ∧ decode 0xFF000000 = .error .unassigned

/-- Every step keeps memory in its canonical form (R181, R190): no address listed twice, in rising order, and none that holds 0,
which is what an unlisted address reads as, the model's choice (log 1). -/
def Obligations.MemoryStaysCanonical : Prop :=
  ∀ s t : State, Memory.wf s.mem = true → step s = .next t → Memory.wf t.mem = true
end

