-- ==== Sys2Proof/Laws/Tab.lean ====
section
/-! SUPPORT. The laws of tables: reading after writing, and that writing keeps the canonical form. -/

namespace Sys2Proof.Machine

variable {α : Type}

theorem Tab.get_cons (d : α) (j : Nat) (v : α) (t : Tab α) (k : Nat) :
    Tab.get d ((j, v) :: t) k = if k < j then d else if j = k then v else Tab.get d t k := rfl

theorem Tab.get_above (d : α) (k : Nat) (t : Tab α) (j : Nat) (h : k < j) :
    Tab.get d (Tab.above k t) j = Tab.get d t j := by
  induction t with
  | nil => rfl
  | cons e t ih =>
    obtain ⟨i, w⟩ := e
    simp only [Tab.above]
    split
    · rw [ih, Tab.get_cons, if_neg (by omega), if_neg (by omega)]
    · rfl

theorem Tab.get_above_of_le (d : α) (k : Nat) (t : Tab α) (j : Nat) (h : j ≤ k) :
    Tab.get d (Tab.above k t) j = d := by
  induction t with
  | nil => rfl
  | cons e t ih =>
    obtain ⟨i, w⟩ := e
    simp only [Tab.above]
    split
    · exact ih
    · rw [Tab.get_cons, if_pos (by omega)]

variable [DecidableEq α]

/-- A read after a write: the value written at its own key, everything else as before. -/
theorem Tab.get_put (d : α) (m : Tab α) (k : Nat) (v : α) (j : Nat) :
    Tab.get d (Tab.put d m k v) j = if j = k then v else Tab.get d m j := by
  induction m with
  | nil =>
    simp only [Tab.put]
    split
    · subst_vars; simp [Tab.get]
    · simp only [Tab.get]
      by_cases h : j = k
      · subst h; simp
      · rw [if_neg h]; split <;> first | rfl | (rw [if_neg (Ne.symm h)])
  | cons e t ih =>
    obtain ⟨i, w⟩ := e
    simp only [Tab.put]
    split
    · rename_i hik
      rw [Tab.get_cons, Tab.get_cons, ih]
      by_cases h : j = k
      · subst h; rw [if_neg (by omega), if_neg (by omega)]; simp
      · simp [h]
    · rename_i hik
      have tail : ∀ j, j ≠ k → (j < k → Tab.get d ((i, w) :: t) j = d) := by
        intro j _ hj; rw [Tab.get_cons, if_pos (by omega)]
      split
      · subst_vars
        by_cases h : j = k
        · subst h; rw [if_pos rfl, Tab.get_above_of_le _ _ _ _ (Nat.le_refl _)]
        · rw [if_neg h]
          rcases Nat.lt_or_gt_of_ne h with hl | hg
          · rw [Tab.get_above_of_le _ _ _ _ (by omega), tail j h hl]
          · rw [Tab.get_above _ _ _ _ hg]
      · rw [Tab.get_cons]
        by_cases h : j = k
        · subst h; simp
        · rw [if_neg h]
          rcases Nat.lt_or_gt_of_ne h with hl | hg
          · rw [if_pos hl, tail j h hl]
          · rw [if_neg (by omega), if_neg (by omega), Tab.get_above _ _ _ _ hg]

@[simp] theorem Tab.get_put_self (d : α) (m : Tab α) (k : Nat) (v : α) :
    Tab.get d (Tab.put d m k v) k = v := by rw [Tab.get_put, if_pos rfl]

theorem Tab.get_put_ne (d : α) (m : Tab α) (k : Nat) (v : α) (j : Nat) (h : j ≠ k) :
    Tab.get d (Tab.put d m k v) j = Tab.get d m j := by rw [Tab.get_put, if_neg h]

theorem Tab.above_above {α : Type} (k : Nat) (t : Tab α) : Tab.above k (Tab.above k t) = Tab.above k t := by
  induction t with
  | nil => rfl
  | cons e t ih =>
    obtain ⟨i, w⟩ := e
    simp only [Tab.above]
    split
    · exact ih
    · rename_i h; simp only [Tab.above, if_neg h]

theorem Tab.put_above (d : α) (t : Tab α) (k : Nat) (v : α) :
    Tab.put d (Tab.above k t) k v = if v = d then Tab.above k t else (k, v) :: Tab.above k t := by
  induction t with
  | nil => simp [Tab.above, Tab.put]
  | cons e t ih =>
    obtain ⟨i, w⟩ := e
    simp only [Tab.above]
    split
    · exact ih
    · rename_i h
      have hab : Tab.above k ((i, w) :: t) = (i, w) :: t := by simp only [Tab.above, if_neg h]
      simp only [Tab.put, if_neg (show ¬ i < k by omega), hab]

/-- Of two writes to one key the later stands. -/
theorem Tab.put_put (d : α) (m : Tab α) (k : Nat) (v w : α) :
    Tab.put d (Tab.put d m k v) k w = Tab.put d m k w := by
  induction m with
  | nil =>
    simp only [Tab.put]
    split
    · simp [Tab.put]
    · simp [Tab.put, Tab.above]
  | cons e t ih =>
    obtain ⟨i, x⟩ := e
    by_cases h : i < k
    · simp only [Tab.put, if_pos h, ih]
    · simp only [Tab.put, if_neg h]
      split
      · rw [Tab.put_above]
      · simp only [Tab.put, Nat.lt_irrefl, if_false]
        have ha : Tab.above k ((k, v) :: Tab.above k ((i, x) :: t)) = Tab.above k ((i, x) :: t) := by
          rw [Tab.above, if_pos (Nat.le_refl k), Tab.above_above]
        rw [ha]

theorem Tab.rising_mono {α : Type} {lo lo' : Nat} (h : lo' ≤ lo) (m : Tab α) (hm : Tab.rising lo m = true) :
    Tab.rising lo' m = true := by
  cases m with
  | nil => rfl
  | cons e t =>
    simp only [Tab.rising, Bool.and_eq_true, decide_eq_true_eq] at hm ⊢
    exact ⟨Nat.le_trans h hm.1, hm.2⟩

theorem Tab.rising_above {α : Type} (k lo : Nat) (m : Tab α) (hm : Tab.rising lo m = true) :
    Tab.rising (max lo (k + 1)) (Tab.above k m) = true := by
  induction m generalizing lo with
  | nil => rfl
  | cons e t ih =>
    obtain ⟨i, w⟩ := e
    simp only [Tab.rising, Bool.and_eq_true, decide_eq_true_eq] at hm
    simp only [Tab.above]
    split
    · exact Tab.rising_mono (by omega) _ (ih _ hm.2)
    · simp only [Tab.rising, Bool.and_eq_true, decide_eq_true_eq]
      exact ⟨by omega, hm.2⟩

theorem Tab.mem_above {α : Type} (k : Nat) (m : Tab α) (e : Nat × α) (h : e ∈ Tab.above k m) : e ∈ m := by
  induction m with
  | nil => exact h
  | cons f t ih =>
    simp only [Tab.above] at h
    split at h
    · exact List.mem_cons_of_mem _ (ih h)
    · exact h

theorem Tab.rising_put (d : α) (m : Tab α) (k : Nat) (v : α) (lo : Nat) (hk : lo ≤ k)
    (hm : Tab.rising lo m = true) : Tab.rising lo (Tab.put d m k v) = true := by
  induction m generalizing lo with
  | nil => simp only [Tab.put]; split <;> simp [Tab.rising, hk]
  | cons e t ih =>
    obtain ⟨i, w⟩ := e
    simp only [Tab.put]
    split
    · simp only [Tab.rising, Bool.and_eq_true, decide_eq_true_eq] at hm ⊢
      exact ⟨hm.1, ih _ (by omega) hm.2⟩
    · split
      · exact Tab.rising_mono (by omega) _ (Tab.rising_above k lo _ hm)
      · simp only [Tab.rising, Bool.and_eq_true, decide_eq_true_eq]
        exact ⟨hk, Tab.rising_mono (by omega) _ (Tab.rising_above k lo _ hm)⟩

/-- A write keeps the canonical form. -/
theorem Tab.wf_put (d : α) (m : Tab α) (k : Nat) (v : α) (hm : Tab.wf d m = true) :
    Tab.wf d (Tab.put d m k v) = true := by
  simp only [Tab.wf, Bool.and_eq_true, List.all_eq_true, Bool.not_eq_true', decide_eq_false_iff_not] at hm ⊢
  refine ⟨Tab.rising_put d m k v 0 (Nat.zero_le _) hm.1, ?_⟩
  have mem : ∀ (m : Tab α) (e : Nat × α), e ∈ Tab.put d m k v → e ∈ m ∨ (e = (k, v) ∧ v ≠ d) := by
    intro m
    induction m with
    | nil =>
      intro e he
      simp only [Tab.put] at he
      split at he
      · cases he
      · simp only [List.mem_singleton] at he; exact .inr ⟨he, by assumption⟩
    | cons f t ih =>
      intro e he
      simp only [Tab.put] at he
      split at he
      · rcases List.mem_cons.mp he with rfl | h
        · exact .inl (List.mem_cons_self ..)
        · rcases ih e h with h | h
          · exact .inl (List.mem_cons_of_mem _ h)
          · exact .inr h
      · split at he
        · exact .inl (Tab.mem_above _ _ _ he)
        · rcases List.mem_cons.mp he with rfl | h
          · exact .inr ⟨rfl, by assumption⟩
          · exact .inl (Tab.mem_above _ _ _ h)
  intro e he
  rcases mem m e he with h | ⟨rfl, h⟩
  · exact hm.2 e h
  · exact h

theorem Tab.get_only (d : α) (p : Nat → Bool) (m : Tab α) (lo k : Nat) :
    Tab.get d (Tab.only p lo m) k = if lo ≤ k ∧ p k = true then Tab.get d m k else d := by
  induction m generalizing lo with
  | nil => simp [Tab.only, Tab.get]
  | cons e t ih =>
    obtain ⟨j, v⟩ := e
    simp only [Tab.only, Tab.get_cons]
    by_cases hj : j < lo
    · rw [if_pos hj, ih]
      by_cases hk : lo ≤ k
      · rw [if_neg (show ¬ k < j by omega), if_neg (show ¬ j = k by omega)]
      · rw [if_neg (fun h => hk h.1), if_neg (fun h => hk h.1)]
    · rw [if_neg hj]
      by_cases hp : p j = true
      · rw [if_pos hp, Tab.get_cons, ih]
        by_cases h1 : k < j
        · simp [h1]
        · rw [if_neg h1, if_neg h1]
          by_cases h2 : j = k
          · subst h2; simp [hp]; omega
          · rw [if_neg h2, if_neg h2]
            simp only [show (j + 1 ≤ k) = True from by simp; omega, show (lo ≤ k) = True from by simp; omega]
      · rw [if_neg hp, ih]
        by_cases h1 : j + 1 ≤ k
        · rw [if_neg (show ¬ k < j by omega), if_neg (show ¬ j = k by omega)]
          simp only [h1, show (lo ≤ k) = True from by simp; omega]
        · rw [if_neg (fun h => h1 h.1)]
          by_cases h2 : k < j
          · simp [h2]
          · have : j = k := by omega
            subst this
            rw [if_neg (fun h => hp h.2)]

/-- What a table keeps reads as before, the rest as unlisted. -/
theorem Tab.get_keep (d : α) (p : Nat → Bool) (m : Tab α) (k : Nat) :
    Tab.get d (Tab.keep p m) k = if p k then Tab.get d m k else d := by
  rw [Tab.keep, Tab.get_only]
  simp

theorem Tab.rising_only {α : Type} (p : Nat → Bool) (m : Tab α) (lo : Nat) : Tab.rising lo (Tab.only p lo m) = true := by
  induction m generalizing lo with
  | nil => rfl
  | cons e t ih =>
    obtain ⟨j, v⟩ := e
    simp only [Tab.only]
    split
    · exact ih lo
    · split
      · simp only [Tab.rising, ih, Bool.and_true, decide_eq_true_eq]; omega
      · exact Tab.rising_mono (by omega) _ (ih (j + 1))

theorem Tab.mem_only {α : Type} (p : Nat → Bool) (m : Tab α) (lo : Nat) (e : Nat × α) (h : e ∈ Tab.only p lo m) : e ∈ m := by
  induction m generalizing lo with
  | nil => exact h
  | cons f t ih =>
    obtain ⟨j, v⟩ := f
    simp only [Tab.only] at h
    split at h
    · exact List.mem_cons_of_mem _ (ih _ h)
    · split at h
      · rcases List.mem_cons.mp h with h | h
        · exact h ▸ List.mem_cons_self ..
        · exact List.mem_cons_of_mem _ (ih _ h)
      · exact List.mem_cons_of_mem _ (ih _ h)

/-- What a table keeps is in canonical form if it was. -/
theorem Tab.wf_keep (d : α) (p : Nat → Bool) (m : Tab α) (hm : Tab.wf d m = true) : Tab.wf d (Tab.keep p m) = true := by
  simp only [Tab.wf, Bool.and_eq_true, List.all_eq_true] at hm ⊢
  exact ⟨Tab.rising_only p m 0, fun e he => hm.2 e (Tab.mem_only p m 0 e he)⟩

end Sys2Proof.Machine
end

