-- ==== Sys2Proof/Laws/State.lean ====
section
/-! SUPPORT. The laws of the state's updates: one lemma for each field under each update, and reading back a hart, a
team, a verge core, a register after a write. -/

namespace Sys2Proof.Machine

/-! ### A hart, a team or a verge core replaced -/

@[simp] theorem State.hart_setHart (s : State) (h : Nat) (v : Hart) (j : Nat) :
    (s.setHart h v).hart j = if j = h then v else s.hart j := Tab.get_put ..
@[simp] theorem State.team_setTeam (s : State) (h : Nat) (v : Team) (j : Nat) :
    (s.setTeam h v).team j = if j = h then v else s.team j := Tab.get_put ..
@[simp] theorem State.verge_setVerge (s : State) (h : Nat) (v : Verge) (j : Nat) :
    (s.setVerge h v).verge j = if j = h then v else s.verge j := Tab.get_put ..

theorem State.hart_setHart_self (s : State) (h : Nat) (v : Hart) : (s.setHart h v).hart h = v := by simp
theorem State.verge_setVerge_self (s : State) (h : Nat) (v : Verge) : (s.setVerge h v).verge h = v := by simp

/-- Of two writes of one hart the later stands. -/
theorem State.setHart_setHart (s : State) (h : Nat) (v w : Hart) : (s.setHart h v).setHart h w = s.setHart h w := by
  simp only [State.setHart, Tab.put_put]
theorem State.setVerge_setVerge (s : State) (h : Nat) (v w : Verge) : (s.setVerge h v).setVerge h w = s.setVerge h w := by
  simp only [State.setVerge, Tab.put_put]
theorem State.setTeam_setTeam (s : State) (h : Nat) (v w : Team) : (s.setTeam h v).setTeam h w = s.setTeam h w := by
  simp only [State.setTeam, Tab.put_put]

@[simp] theorem State.hart_setTeam (s : State) (h : Nat) (v : Team) (j : Nat) : (s.setTeam h v).hart j = s.hart j := rfl
@[simp] theorem State.hart_setVerge (s : State) (h : Nat) (v : Verge) (j : Nat) : (s.setVerge h v).hart j = s.hart j := rfl
@[simp] theorem State.team_setHart (s : State) (h : Nat) (v : Hart) (j : Nat) : (s.setHart h v).team j = s.team j := rfl
@[simp] theorem State.team_setVerge (s : State) (h : Nat) (v : Verge) (j : Nat) : (s.setVerge h v).team j = s.team j := rfl
@[simp] theorem State.verge_setHart (s : State) (h : Nat) (v : Hart) (j : Nat) : (s.setHart h v).verge j = s.verge j := rfl
@[simp] theorem State.verge_setTeam (s : State) (h : Nat) (v : Team) (j : Nat) : (s.setTeam h v).verge j = s.verge j := rfl

theorem State.modHart_eq (s : State) (h : Nat) (f : Hart → Hart) : s.modHart h f = s.setHart h (f (s.hart h)) := rfl
theorem State.modTeam_eq (s : State) (h : Nat) (f : Team → Team) : s.modTeam h f = s.setTeam h (f (s.team h)) := rfl
theorem State.modVerge_eq (s : State) (h : Nat) (f : Verge → Verge) : s.modVerge h f = s.setVerge h (f (s.verge h)) := rfl

@[simp] theorem State.cur_setHart (s : State) (h : Nat) (v : Hart) : (s.setHart h v).cur = s.cur := rfl
@[simp] theorem State.agenda_setHart (s : State) (h : Nat) (v : Hart) : (s.setHart h v).agenda = s.agenda := rfl
@[simp] theorem State.cut_setHart (s : State) (h : Nat) (v : Hart) : (s.setHart h v).cut = s.cut := rfl
@[simp] theorem State.fresh_setHart (s : State) (h : Nat) (v : Hart) : (s.setHart h v).fresh = s.fresh := rfl
@[simp] theorem State.hostData_setHart (s : State) (h : Nat) (v : Hart) : (s.setHart h v).hostData = s.hostData := rfl
@[simp] theorem State.a48_setHart (s : State) (h : Nat) (v : Hart) : (s.setHart h v).a48 = s.a48 := rfl
@[simp] theorem State.stepping_setHart (s : State) (h : Nat) (v : Hart) : (s.setHart h v).stepping = s.stepping := rfl
@[simp] theorem State.qplace_setHart (s : State) (h : Nat) (v : Hart) : (s.setHart h v).qplace = s.qplace := rfl
@[simp] theorem State.cycle_setHart (s : State) (h : Nat) (v : Hart) : (s.setHart h v).cycle = s.cycle := rfl
@[simp] theorem State.mem_setHart (s : State) (h : Nat) (v : Hart) : (s.setHart h v).mem = s.mem := rfl
@[simp] theorem State.poison_setHart (s : State) (h : Nat) (v : Hart) : (s.setHart h v).poison = s.poison := rfl
@[simp] theorem State.l1_setHart (s : State) (h : Nat) (v : Hart) : (s.setHart h v).l1 = s.l1 := rfl
@[simp] theorem State.late_setHart (s : State) (h : Nat) (v : Hart) : (s.setHart h v).late = s.late := rfl
@[simp] theorem State.icache_setHart (s : State) (h : Nat) (v : Hart) : (s.setHart h v).icache = s.icache := rfl
@[simp] theorem State.tlb_setHart (s : State) (h : Nat) (v : Hart) : (s.setHart h v).tlb = s.tlb := rfl
@[simp] theorem State.pins_setHart (s : State) (h : Nat) (v : Hart) : (s.setHart h v).pins = s.pins := rfl
@[simp] theorem State.ctxsel_setHart (s : State) (h : Nat) (v : Hart) : (s.setHart h v).ctxsel = s.ctxsel := rfl
@[simp] theorem State.ctxroot_setHart (s : State) (h : Nat) (v : Hart) : (s.setHart h v).ctxroot = s.ctxroot := rfl
@[simp] theorem State.roots_setHart (s : State) (h : Nat) (v : Hart) : (s.setHart h v).roots = s.roots := rfl
@[simp] theorem State.fqring_setHart (s : State) (h : Nat) (v : Hart) : (s.setHart h v).fqring = s.fqring := rfl
@[simp] theorem State.fqhead_setHart (s : State) (h : Nat) (v : Hart) : (s.setHart h v).fqhead = s.fqhead := rfl
@[simp] theorem State.fqtail_setHart (s : State) (h : Nat) (v : Hart) : (s.setHart h v).fqtail = s.fqtail := rfl
@[simp] theorem State.reports_setHart (s : State) (h : Nat) (v : Hart) : (s.setHart h v).reports = s.reports := rfl
@[simp] theorem State.live_setHart (s : State) (h : Nat) (v : Hart) : (s.setHart h v).live = s.live := rfl
@[simp] theorem State.hq_setHart (s : State) (h : Nat) (v : Hart) : (s.setHart h v).hq = s.hq := rfl
@[simp] theorem State.dq_setHart (s : State) (h : Nat) (v : Hart) : (s.setHart h v).dq = s.dq := rfl
@[simp] theorem State.rr_setHart (s : State) (h : Nat) (v : Hart) : (s.setHart h v).rr = s.rr := rfl
@[simp] theorem State.launches_setHart (s : State) (h : Nat) (v : Hart) : (s.setHart h v).launches = s.launches := rfl
@[simp] theorem State.teams_setHart (s : State) (h : Nat) (v : Hart) : (s.setHart h v).teams = s.teams := rfl
@[simp] theorem State.nlaunch_setHart (s : State) (h : Nat) (v : Hart) : (s.setHart h v).nlaunch = s.nlaunch := rfl
@[simp] theorem State.nteam_setHart (s : State) (h : Nat) (v : Hart) : (s.setHart h v).nteam = s.nteam := rfl
@[simp] theorem State.nage_setHart (s : State) (h : Nat) (v : Hart) : (s.setHart h v).nage = s.nage := rfl
@[simp] theorem State.nplace_setHart (s : State) (h : Nat) (v : Hart) : (s.setHart h v).nplace = s.nplace := rfl
@[simp] theorem State.savedFrom_setHart (s : State) (h : Nat) (v : Hart) : (s.setHart h v).savedFrom = s.savedFrom := rfl
@[simp] theorem State.cmds_setHart (s : State) (h : Nat) (v : Hart) : (s.setHart h v).cmds = s.cmds := rfl
@[simp] theorem State.ritQ_setHart (s : State) (h : Nat) (v : Hart) : (s.setHart h v).ritQ = s.ritQ := rfl
@[simp] theorem State.dueEntries_setHart (s : State) (h : Nat) (v : Hart) : (s.setHart h v).dueEntries = s.dueEntries := rfl
@[simp] theorem State.linkUp_setHart (s : State) (h : Nat) (v : Hart) : (s.setHart h v).linkUp = s.linkUp := rfl
@[simp] theorem State.linkDown_setHart (s : State) (h : Nat) (v : Hart) : (s.setHart h v).linkDown = s.linkDown := rfl
@[simp] theorem State.hostWaits_setHart (s : State) (h : Nat) (v : Hart) : (s.setHart h v).hostWaits = s.hostWaits := rfl
@[simp] theorem State.linkQ_setHart (s : State) (h : Nat) (v : Hart) : (s.setHart h v).linkQ = s.linkQ := rfl
@[simp] theorem State.cxlstat_setHart (s : State) (h : Nat) (v : Hart) : (s.setHart h v).cxlstat = s.cxlstat := rfl
@[simp] theorem State.fabid_setHart (s : State) (h : Nat) (v : Hart) : (s.setHart h v).fabid = s.fabid := rfl
@[simp] theorem State.fchan_setHart (s : State) (h : Nat) (v : Hart) : (s.setHart h v).fchan = s.fchan := rfl
@[simp] theorem State.railstat_setHart (s : State) (h : Nat) (v : Hart) : (s.setHart h v).railstat = s.railstat := rfl
@[simp] theorem State.permits_setHart (s : State) (h : Nat) (v : Hart) : (s.setHart h v).permits = s.permits := rfl
@[simp] theorem State.granted_setHart (s : State) (h : Nat) (v : Hart) : (s.setHart h v).granted = s.granted := rfl
@[simp] theorem State.sends_setHart (s : State) (h : Nat) (v : Hart) : (s.setHart h v).sends = s.sends := rfl
@[simp] theorem State.sendSeq_setHart (s : State) (h : Nat) (v : Hart) : (s.setHart h v).sendSeq = s.sendSeq := rfl
@[simp] theorem State.sendPark_setHart (s : State) (h : Nat) (v : Hart) : (s.setHart h v).sendPark = s.sendPark := rfl
@[simp] theorem State.recvs_setHart (s : State) (h : Nat) (v : Hart) : (s.setHart h v).recvs = s.recvs := rfl
@[simp] theorem State.outbox_setHart (s : State) (h : Nat) (v : Hart) : (s.setHart h v).outbox = s.outbox := rfl
@[simp] theorem State.imgctx_setHart (s : State) (h : Nat) (v : Hart) : (s.setHart h v).imgctx = s.imgctx := rfl
@[simp] theorem State.imgcode_setHart (s : State) (h : Nat) (v : Hart) : (s.setHart h v).imgcode = s.imgcode := rfl
@[simp] theorem State.imgerr_setHart (s : State) (h : Nat) (v : Hart) : (s.setHart h v).imgerr = s.imgerr := rfl
@[simp] theorem State.imgdone_setHart (s : State) (h : Nat) (v : Hart) : (s.setHart h v).imgdone = s.imgdone := rfl
@[simp] theorem State.imgid_setHart (s : State) (h : Nat) (v : Hart) : (s.setHart h v).imgid = s.imgid := rfl
@[simp] theorem State.imgload_setHart (s : State) (h : Nat) (v : Hart) : (s.setHart h v).imgload = s.imgload := rfl
@[simp] theorem State.images_setHart (s : State) (h : Nat) (v : Hart) : (s.setHart h v).images = s.images := rfl
@[simp] theorem State.nimage_setHart (s : State) (h : Nat) (v : Hart) : (s.setHart h v).nimage = s.nimage := rfl
@[simp] theorem State.dbgctl_setHart (s : State) (h : Nat) (v : Hart) : (s.setHart h v).dbgctl = s.dbgctl := rfl
@[simp] theorem State.cmderr_setHart (s : State) (h : Nat) (v : Hart) : (s.setHart h v).cmderr = s.cmderr := rfl
@[simp] theorem State.data0_setHart (s : State) (h : Nat) (v : Hart) : (s.setHart h v).data0 = s.data0 := rfl
@[simp] theorem State.data1_setHart (s : State) (h : Nat) (v : Hart) : (s.setHart h v).data1 = s.data1 := rfl
@[simp] theorem State.data2_setHart (s : State) (h : Nat) (v : Hart) : (s.setHart h v).data2 = s.data2 := rfl
@[simp] theorem State.dbgCmd_setHart (s : State) (h : Nat) (v : Hart) : (s.setHart h v).dbgCmd = s.dbgCmd := rfl
@[simp] theorem State.bp_setHart (s : State) (h : Nat) (v : Hart) : (s.setHart h v).bp = s.bp := rfl
@[simp] theorem State.msctl_setHart (s : State) (h : Nat) (v : Hart) : (s.setHart h v).msctl = s.msctl := rfl
@[simp] theorem State.msbase_setHart (s : State) (h : Nat) (v : Hart) : (s.setHart h v).msbase = s.msbase := rfl
@[simp] theorem State.msptr_setHart (s : State) (h : Nat) (v : Hart) : (s.setHart h v).msptr = s.msptr := rfl
@[simp] theorem State.msrd_setHart (s : State) (h : Nat) (v : Hart) : (s.setHart h v).msrd = s.msrd := rfl
@[simp] theorem State.msdrop_setHart (s : State) (h : Nat) (v : Hart) : (s.setHart h v).msdrop = s.msdrop := rfl
@[simp] theorem State.msgap_setHart (s : State) (h : Nat) (v : Hart) : (s.setHart h v).msgap = s.msgap := rfl
@[simp] theorem State.mstick_setHart (s : State) (h : Nat) (v : Hart) : (s.setHart h v).mstick = s.mstick := rfl
@[simp] theorem State.counts_setHart (s : State) (h : Nat) (v : Hart) : (s.setHart h v).counts = s.counts := rfl
@[simp] theorem State.pstate_setHart (s : State) (h : Nat) (v : Hart) : (s.setHart h v).pstate = s.pstate := rfl
@[simp] theorem State.power_setHart (s : State) (h : Nat) (v : Hart) : (s.setHart h v).power = s.power := rfl
@[simp] theorem State.former_setHart (s : State) (h : Nat) (v : Hart) : (s.setHart h v).former = s.former := rfl
@[simp] theorem State.changing_setHart (s : State) (h : Nat) (v : Hart) : (s.setHart h v).changing = s.changing := rfl
@[simp] theorem State.halfRate_setHart (s : State) (h : Nat) (v : Hart) : (s.setHart h v).halfRate = s.halfRate := rfl
@[simp] theorem State.slowMem_setHart (s : State) (h : Nat) (v : Hart) : (s.setHart h v).slowMem = s.slowMem := rfl
@[simp] theorem State.strec0_setHart (s : State) (h : Nat) (v : Hart) : (s.setHart h v).strec0 = s.strec0 := rfl
@[simp] theorem State.strec1_setHart (s : State) (h : Nat) (v : Hart) : (s.setHart h v).strec1 = s.strec1 := rfl
@[simp] theorem State.strec2_setHart (s : State) (h : Nat) (v : Hart) : (s.setHart h v).strec2 = s.strec2 := rfl
@[simp] theorem State.prevStart_setHart (s : State) (h : Nat) (v : Hart) : (s.setHart h v).prevStart = s.prevStart := rfl
@[simp] theorem State.booted_setHart (s : State) (h : Nat) (v : Hart) : (s.setHart h v).booted = s.booted := rfl
@[simp] theorem State.recovery_setHart (s : State) (h : Nat) (v : Hart) : (s.setHart h v).recovery = s.recovery := rfl
@[simp] theorem State.tripped_setHart (s : State) (h : Nat) (v : Hart) : (s.setHart h v).tripped = s.tripped := rfl
@[simp] theorem State.meas_setHart (s : State) (h : Nat) (v : Hart) : (s.setHart h v).meas = s.meas := rfl
@[simp] theorem State.attaddr_setHart (s : State) (h : Nat) (v : Hart) : (s.setHart h v).attaddr = s.attaddr := rfl
@[simp] theorem State.attstat_setHart (s : State) (h : Nat) (v : Hart) : (s.setHart h v).attstat = s.attstat := rfl
@[simp] theorem State.verges_setHart (s : State) (h : Nat) (v : Hart) : (s.setHart h v).verges = s.verges := rfl

@[simp] theorem State.cur_setTeam (s : State) (h : Nat) (v : Team) : (s.setTeam h v).cur = s.cur := rfl
@[simp] theorem State.agenda_setTeam (s : State) (h : Nat) (v : Team) : (s.setTeam h v).agenda = s.agenda := rfl
@[simp] theorem State.cut_setTeam (s : State) (h : Nat) (v : Team) : (s.setTeam h v).cut = s.cut := rfl
@[simp] theorem State.fresh_setTeam (s : State) (h : Nat) (v : Team) : (s.setTeam h v).fresh = s.fresh := rfl
@[simp] theorem State.hostData_setTeam (s : State) (h : Nat) (v : Team) : (s.setTeam h v).hostData = s.hostData := rfl
@[simp] theorem State.a48_setTeam (s : State) (h : Nat) (v : Team) : (s.setTeam h v).a48 = s.a48 := rfl
@[simp] theorem State.stepping_setTeam (s : State) (h : Nat) (v : Team) : (s.setTeam h v).stepping = s.stepping := rfl
@[simp] theorem State.qplace_setTeam (s : State) (h : Nat) (v : Team) : (s.setTeam h v).qplace = s.qplace := rfl
@[simp] theorem State.cycle_setTeam (s : State) (h : Nat) (v : Team) : (s.setTeam h v).cycle = s.cycle := rfl
@[simp] theorem State.mem_setTeam (s : State) (h : Nat) (v : Team) : (s.setTeam h v).mem = s.mem := rfl
@[simp] theorem State.poison_setTeam (s : State) (h : Nat) (v : Team) : (s.setTeam h v).poison = s.poison := rfl
@[simp] theorem State.l1_setTeam (s : State) (h : Nat) (v : Team) : (s.setTeam h v).l1 = s.l1 := rfl
@[simp] theorem State.late_setTeam (s : State) (h : Nat) (v : Team) : (s.setTeam h v).late = s.late := rfl
@[simp] theorem State.icache_setTeam (s : State) (h : Nat) (v : Team) : (s.setTeam h v).icache = s.icache := rfl
@[simp] theorem State.tlb_setTeam (s : State) (h : Nat) (v : Team) : (s.setTeam h v).tlb = s.tlb := rfl
@[simp] theorem State.pins_setTeam (s : State) (h : Nat) (v : Team) : (s.setTeam h v).pins = s.pins := rfl
@[simp] theorem State.ctxsel_setTeam (s : State) (h : Nat) (v : Team) : (s.setTeam h v).ctxsel = s.ctxsel := rfl
@[simp] theorem State.ctxroot_setTeam (s : State) (h : Nat) (v : Team) : (s.setTeam h v).ctxroot = s.ctxroot := rfl
@[simp] theorem State.roots_setTeam (s : State) (h : Nat) (v : Team) : (s.setTeam h v).roots = s.roots := rfl
@[simp] theorem State.fqring_setTeam (s : State) (h : Nat) (v : Team) : (s.setTeam h v).fqring = s.fqring := rfl
@[simp] theorem State.fqhead_setTeam (s : State) (h : Nat) (v : Team) : (s.setTeam h v).fqhead = s.fqhead := rfl
@[simp] theorem State.fqtail_setTeam (s : State) (h : Nat) (v : Team) : (s.setTeam h v).fqtail = s.fqtail := rfl
@[simp] theorem State.reports_setTeam (s : State) (h : Nat) (v : Team) : (s.setTeam h v).reports = s.reports := rfl
@[simp] theorem State.live_setTeam (s : State) (h : Nat) (v : Team) : (s.setTeam h v).live = s.live := rfl
@[simp] theorem State.hq_setTeam (s : State) (h : Nat) (v : Team) : (s.setTeam h v).hq = s.hq := rfl
@[simp] theorem State.dq_setTeam (s : State) (h : Nat) (v : Team) : (s.setTeam h v).dq = s.dq := rfl
@[simp] theorem State.rr_setTeam (s : State) (h : Nat) (v : Team) : (s.setTeam h v).rr = s.rr := rfl
@[simp] theorem State.launches_setTeam (s : State) (h : Nat) (v : Team) : (s.setTeam h v).launches = s.launches := rfl
@[simp] theorem State.harts_setTeam (s : State) (h : Nat) (v : Team) : (s.setTeam h v).harts = s.harts := rfl
@[simp] theorem State.nlaunch_setTeam (s : State) (h : Nat) (v : Team) : (s.setTeam h v).nlaunch = s.nlaunch := rfl
@[simp] theorem State.nteam_setTeam (s : State) (h : Nat) (v : Team) : (s.setTeam h v).nteam = s.nteam := rfl
@[simp] theorem State.nage_setTeam (s : State) (h : Nat) (v : Team) : (s.setTeam h v).nage = s.nage := rfl
@[simp] theorem State.nplace_setTeam (s : State) (h : Nat) (v : Team) : (s.setTeam h v).nplace = s.nplace := rfl
@[simp] theorem State.savedFrom_setTeam (s : State) (h : Nat) (v : Team) : (s.setTeam h v).savedFrom = s.savedFrom := rfl
@[simp] theorem State.cmds_setTeam (s : State) (h : Nat) (v : Team) : (s.setTeam h v).cmds = s.cmds := rfl
@[simp] theorem State.ritQ_setTeam (s : State) (h : Nat) (v : Team) : (s.setTeam h v).ritQ = s.ritQ := rfl
@[simp] theorem State.dueEntries_setTeam (s : State) (h : Nat) (v : Team) : (s.setTeam h v).dueEntries = s.dueEntries := rfl
@[simp] theorem State.linkUp_setTeam (s : State) (h : Nat) (v : Team) : (s.setTeam h v).linkUp = s.linkUp := rfl
@[simp] theorem State.linkDown_setTeam (s : State) (h : Nat) (v : Team) : (s.setTeam h v).linkDown = s.linkDown := rfl
@[simp] theorem State.hostWaits_setTeam (s : State) (h : Nat) (v : Team) : (s.setTeam h v).hostWaits = s.hostWaits := rfl
@[simp] theorem State.linkQ_setTeam (s : State) (h : Nat) (v : Team) : (s.setTeam h v).linkQ = s.linkQ := rfl
@[simp] theorem State.cxlstat_setTeam (s : State) (h : Nat) (v : Team) : (s.setTeam h v).cxlstat = s.cxlstat := rfl
@[simp] theorem State.fabid_setTeam (s : State) (h : Nat) (v : Team) : (s.setTeam h v).fabid = s.fabid := rfl
@[simp] theorem State.fchan_setTeam (s : State) (h : Nat) (v : Team) : (s.setTeam h v).fchan = s.fchan := rfl
@[simp] theorem State.railstat_setTeam (s : State) (h : Nat) (v : Team) : (s.setTeam h v).railstat = s.railstat := rfl
@[simp] theorem State.permits_setTeam (s : State) (h : Nat) (v : Team) : (s.setTeam h v).permits = s.permits := rfl
@[simp] theorem State.granted_setTeam (s : State) (h : Nat) (v : Team) : (s.setTeam h v).granted = s.granted := rfl
@[simp] theorem State.sends_setTeam (s : State) (h : Nat) (v : Team) : (s.setTeam h v).sends = s.sends := rfl
@[simp] theorem State.sendSeq_setTeam (s : State) (h : Nat) (v : Team) : (s.setTeam h v).sendSeq = s.sendSeq := rfl
@[simp] theorem State.sendPark_setTeam (s : State) (h : Nat) (v : Team) : (s.setTeam h v).sendPark = s.sendPark := rfl
@[simp] theorem State.recvs_setTeam (s : State) (h : Nat) (v : Team) : (s.setTeam h v).recvs = s.recvs := rfl
@[simp] theorem State.outbox_setTeam (s : State) (h : Nat) (v : Team) : (s.setTeam h v).outbox = s.outbox := rfl
@[simp] theorem State.imgctx_setTeam (s : State) (h : Nat) (v : Team) : (s.setTeam h v).imgctx = s.imgctx := rfl
@[simp] theorem State.imgcode_setTeam (s : State) (h : Nat) (v : Team) : (s.setTeam h v).imgcode = s.imgcode := rfl
@[simp] theorem State.imgerr_setTeam (s : State) (h : Nat) (v : Team) : (s.setTeam h v).imgerr = s.imgerr := rfl
@[simp] theorem State.imgdone_setTeam (s : State) (h : Nat) (v : Team) : (s.setTeam h v).imgdone = s.imgdone := rfl
@[simp] theorem State.imgid_setTeam (s : State) (h : Nat) (v : Team) : (s.setTeam h v).imgid = s.imgid := rfl
@[simp] theorem State.imgload_setTeam (s : State) (h : Nat) (v : Team) : (s.setTeam h v).imgload = s.imgload := rfl
@[simp] theorem State.images_setTeam (s : State) (h : Nat) (v : Team) : (s.setTeam h v).images = s.images := rfl
@[simp] theorem State.nimage_setTeam (s : State) (h : Nat) (v : Team) : (s.setTeam h v).nimage = s.nimage := rfl
@[simp] theorem State.dbgctl_setTeam (s : State) (h : Nat) (v : Team) : (s.setTeam h v).dbgctl = s.dbgctl := rfl
@[simp] theorem State.cmderr_setTeam (s : State) (h : Nat) (v : Team) : (s.setTeam h v).cmderr = s.cmderr := rfl
@[simp] theorem State.data0_setTeam (s : State) (h : Nat) (v : Team) : (s.setTeam h v).data0 = s.data0 := rfl
@[simp] theorem State.data1_setTeam (s : State) (h : Nat) (v : Team) : (s.setTeam h v).data1 = s.data1 := rfl
@[simp] theorem State.data2_setTeam (s : State) (h : Nat) (v : Team) : (s.setTeam h v).data2 = s.data2 := rfl
@[simp] theorem State.dbgCmd_setTeam (s : State) (h : Nat) (v : Team) : (s.setTeam h v).dbgCmd = s.dbgCmd := rfl
@[simp] theorem State.bp_setTeam (s : State) (h : Nat) (v : Team) : (s.setTeam h v).bp = s.bp := rfl
@[simp] theorem State.msctl_setTeam (s : State) (h : Nat) (v : Team) : (s.setTeam h v).msctl = s.msctl := rfl
@[simp] theorem State.msbase_setTeam (s : State) (h : Nat) (v : Team) : (s.setTeam h v).msbase = s.msbase := rfl
@[simp] theorem State.msptr_setTeam (s : State) (h : Nat) (v : Team) : (s.setTeam h v).msptr = s.msptr := rfl
@[simp] theorem State.msrd_setTeam (s : State) (h : Nat) (v : Team) : (s.setTeam h v).msrd = s.msrd := rfl
@[simp] theorem State.msdrop_setTeam (s : State) (h : Nat) (v : Team) : (s.setTeam h v).msdrop = s.msdrop := rfl
@[simp] theorem State.msgap_setTeam (s : State) (h : Nat) (v : Team) : (s.setTeam h v).msgap = s.msgap := rfl
@[simp] theorem State.mstick_setTeam (s : State) (h : Nat) (v : Team) : (s.setTeam h v).mstick = s.mstick := rfl
@[simp] theorem State.counts_setTeam (s : State) (h : Nat) (v : Team) : (s.setTeam h v).counts = s.counts := rfl
@[simp] theorem State.pstate_setTeam (s : State) (h : Nat) (v : Team) : (s.setTeam h v).pstate = s.pstate := rfl
@[simp] theorem State.power_setTeam (s : State) (h : Nat) (v : Team) : (s.setTeam h v).power = s.power := rfl
@[simp] theorem State.former_setTeam (s : State) (h : Nat) (v : Team) : (s.setTeam h v).former = s.former := rfl
@[simp] theorem State.changing_setTeam (s : State) (h : Nat) (v : Team) : (s.setTeam h v).changing = s.changing := rfl
@[simp] theorem State.halfRate_setTeam (s : State) (h : Nat) (v : Team) : (s.setTeam h v).halfRate = s.halfRate := rfl
@[simp] theorem State.slowMem_setTeam (s : State) (h : Nat) (v : Team) : (s.setTeam h v).slowMem = s.slowMem := rfl
@[simp] theorem State.strec0_setTeam (s : State) (h : Nat) (v : Team) : (s.setTeam h v).strec0 = s.strec0 := rfl
@[simp] theorem State.strec1_setTeam (s : State) (h : Nat) (v : Team) : (s.setTeam h v).strec1 = s.strec1 := rfl
@[simp] theorem State.strec2_setTeam (s : State) (h : Nat) (v : Team) : (s.setTeam h v).strec2 = s.strec2 := rfl
@[simp] theorem State.prevStart_setTeam (s : State) (h : Nat) (v : Team) : (s.setTeam h v).prevStart = s.prevStart := rfl
@[simp] theorem State.booted_setTeam (s : State) (h : Nat) (v : Team) : (s.setTeam h v).booted = s.booted := rfl
@[simp] theorem State.recovery_setTeam (s : State) (h : Nat) (v : Team) : (s.setTeam h v).recovery = s.recovery := rfl
@[simp] theorem State.tripped_setTeam (s : State) (h : Nat) (v : Team) : (s.setTeam h v).tripped = s.tripped := rfl
@[simp] theorem State.meas_setTeam (s : State) (h : Nat) (v : Team) : (s.setTeam h v).meas = s.meas := rfl
@[simp] theorem State.attaddr_setTeam (s : State) (h : Nat) (v : Team) : (s.setTeam h v).attaddr = s.attaddr := rfl
@[simp] theorem State.attstat_setTeam (s : State) (h : Nat) (v : Team) : (s.setTeam h v).attstat = s.attstat := rfl
@[simp] theorem State.verges_setTeam (s : State) (h : Nat) (v : Team) : (s.setTeam h v).verges = s.verges := rfl

@[simp] theorem State.cur_setVerge (s : State) (h : Nat) (v : Verge) : (s.setVerge h v).cur = s.cur := rfl
@[simp] theorem State.agenda_setVerge (s : State) (h : Nat) (v : Verge) : (s.setVerge h v).agenda = s.agenda := rfl
@[simp] theorem State.cut_setVerge (s : State) (h : Nat) (v : Verge) : (s.setVerge h v).cut = s.cut := rfl
@[simp] theorem State.fresh_setVerge (s : State) (h : Nat) (v : Verge) : (s.setVerge h v).fresh = s.fresh := rfl
@[simp] theorem State.hostData_setVerge (s : State) (h : Nat) (v : Verge) : (s.setVerge h v).hostData = s.hostData := rfl
@[simp] theorem State.a48_setVerge (s : State) (h : Nat) (v : Verge) : (s.setVerge h v).a48 = s.a48 := rfl
@[simp] theorem State.stepping_setVerge (s : State) (h : Nat) (v : Verge) : (s.setVerge h v).stepping = s.stepping := rfl
@[simp] theorem State.qplace_setVerge (s : State) (h : Nat) (v : Verge) : (s.setVerge h v).qplace = s.qplace := rfl
@[simp] theorem State.cycle_setVerge (s : State) (h : Nat) (v : Verge) : (s.setVerge h v).cycle = s.cycle := rfl
@[simp] theorem State.mem_setVerge (s : State) (h : Nat) (v : Verge) : (s.setVerge h v).mem = s.mem := rfl
@[simp] theorem State.poison_setVerge (s : State) (h : Nat) (v : Verge) : (s.setVerge h v).poison = s.poison := rfl
@[simp] theorem State.l1_setVerge (s : State) (h : Nat) (v : Verge) : (s.setVerge h v).l1 = s.l1 := rfl
@[simp] theorem State.late_setVerge (s : State) (h : Nat) (v : Verge) : (s.setVerge h v).late = s.late := rfl
@[simp] theorem State.icache_setVerge (s : State) (h : Nat) (v : Verge) : (s.setVerge h v).icache = s.icache := rfl
@[simp] theorem State.tlb_setVerge (s : State) (h : Nat) (v : Verge) : (s.setVerge h v).tlb = s.tlb := rfl
@[simp] theorem State.pins_setVerge (s : State) (h : Nat) (v : Verge) : (s.setVerge h v).pins = s.pins := rfl
@[simp] theorem State.ctxsel_setVerge (s : State) (h : Nat) (v : Verge) : (s.setVerge h v).ctxsel = s.ctxsel := rfl
@[simp] theorem State.ctxroot_setVerge (s : State) (h : Nat) (v : Verge) : (s.setVerge h v).ctxroot = s.ctxroot := rfl
@[simp] theorem State.roots_setVerge (s : State) (h : Nat) (v : Verge) : (s.setVerge h v).roots = s.roots := rfl
@[simp] theorem State.fqring_setVerge (s : State) (h : Nat) (v : Verge) : (s.setVerge h v).fqring = s.fqring := rfl
@[simp] theorem State.fqhead_setVerge (s : State) (h : Nat) (v : Verge) : (s.setVerge h v).fqhead = s.fqhead := rfl
@[simp] theorem State.fqtail_setVerge (s : State) (h : Nat) (v : Verge) : (s.setVerge h v).fqtail = s.fqtail := rfl
@[simp] theorem State.reports_setVerge (s : State) (h : Nat) (v : Verge) : (s.setVerge h v).reports = s.reports := rfl
@[simp] theorem State.live_setVerge (s : State) (h : Nat) (v : Verge) : (s.setVerge h v).live = s.live := rfl
@[simp] theorem State.hq_setVerge (s : State) (h : Nat) (v : Verge) : (s.setVerge h v).hq = s.hq := rfl
@[simp] theorem State.dq_setVerge (s : State) (h : Nat) (v : Verge) : (s.setVerge h v).dq = s.dq := rfl
@[simp] theorem State.rr_setVerge (s : State) (h : Nat) (v : Verge) : (s.setVerge h v).rr = s.rr := rfl
@[simp] theorem State.launches_setVerge (s : State) (h : Nat) (v : Verge) : (s.setVerge h v).launches = s.launches := rfl
@[simp] theorem State.teams_setVerge (s : State) (h : Nat) (v : Verge) : (s.setVerge h v).teams = s.teams := rfl
@[simp] theorem State.harts_setVerge (s : State) (h : Nat) (v : Verge) : (s.setVerge h v).harts = s.harts := rfl
@[simp] theorem State.nlaunch_setVerge (s : State) (h : Nat) (v : Verge) : (s.setVerge h v).nlaunch = s.nlaunch := rfl
@[simp] theorem State.nteam_setVerge (s : State) (h : Nat) (v : Verge) : (s.setVerge h v).nteam = s.nteam := rfl
@[simp] theorem State.nage_setVerge (s : State) (h : Nat) (v : Verge) : (s.setVerge h v).nage = s.nage := rfl
@[simp] theorem State.nplace_setVerge (s : State) (h : Nat) (v : Verge) : (s.setVerge h v).nplace = s.nplace := rfl
@[simp] theorem State.savedFrom_setVerge (s : State) (h : Nat) (v : Verge) : (s.setVerge h v).savedFrom = s.savedFrom := rfl
@[simp] theorem State.cmds_setVerge (s : State) (h : Nat) (v : Verge) : (s.setVerge h v).cmds = s.cmds := rfl
@[simp] theorem State.ritQ_setVerge (s : State) (h : Nat) (v : Verge) : (s.setVerge h v).ritQ = s.ritQ := rfl
@[simp] theorem State.dueEntries_setVerge (s : State) (h : Nat) (v : Verge) : (s.setVerge h v).dueEntries = s.dueEntries := rfl
@[simp] theorem State.linkUp_setVerge (s : State) (h : Nat) (v : Verge) : (s.setVerge h v).linkUp = s.linkUp := rfl
@[simp] theorem State.linkDown_setVerge (s : State) (h : Nat) (v : Verge) : (s.setVerge h v).linkDown = s.linkDown := rfl
@[simp] theorem State.hostWaits_setVerge (s : State) (h : Nat) (v : Verge) : (s.setVerge h v).hostWaits = s.hostWaits := rfl
@[simp] theorem State.linkQ_setVerge (s : State) (h : Nat) (v : Verge) : (s.setVerge h v).linkQ = s.linkQ := rfl
@[simp] theorem State.cxlstat_setVerge (s : State) (h : Nat) (v : Verge) : (s.setVerge h v).cxlstat = s.cxlstat := rfl
@[simp] theorem State.fabid_setVerge (s : State) (h : Nat) (v : Verge) : (s.setVerge h v).fabid = s.fabid := rfl
@[simp] theorem State.fchan_setVerge (s : State) (h : Nat) (v : Verge) : (s.setVerge h v).fchan = s.fchan := rfl
@[simp] theorem State.railstat_setVerge (s : State) (h : Nat) (v : Verge) : (s.setVerge h v).railstat = s.railstat := rfl
@[simp] theorem State.permits_setVerge (s : State) (h : Nat) (v : Verge) : (s.setVerge h v).permits = s.permits := rfl
@[simp] theorem State.granted_setVerge (s : State) (h : Nat) (v : Verge) : (s.setVerge h v).granted = s.granted := rfl
@[simp] theorem State.sends_setVerge (s : State) (h : Nat) (v : Verge) : (s.setVerge h v).sends = s.sends := rfl
@[simp] theorem State.sendSeq_setVerge (s : State) (h : Nat) (v : Verge) : (s.setVerge h v).sendSeq = s.sendSeq := rfl
@[simp] theorem State.sendPark_setVerge (s : State) (h : Nat) (v : Verge) : (s.setVerge h v).sendPark = s.sendPark := rfl
@[simp] theorem State.recvs_setVerge (s : State) (h : Nat) (v : Verge) : (s.setVerge h v).recvs = s.recvs := rfl
@[simp] theorem State.outbox_setVerge (s : State) (h : Nat) (v : Verge) : (s.setVerge h v).outbox = s.outbox := rfl
@[simp] theorem State.imgctx_setVerge (s : State) (h : Nat) (v : Verge) : (s.setVerge h v).imgctx = s.imgctx := rfl
@[simp] theorem State.imgcode_setVerge (s : State) (h : Nat) (v : Verge) : (s.setVerge h v).imgcode = s.imgcode := rfl
@[simp] theorem State.imgerr_setVerge (s : State) (h : Nat) (v : Verge) : (s.setVerge h v).imgerr = s.imgerr := rfl
@[simp] theorem State.imgdone_setVerge (s : State) (h : Nat) (v : Verge) : (s.setVerge h v).imgdone = s.imgdone := rfl
@[simp] theorem State.imgid_setVerge (s : State) (h : Nat) (v : Verge) : (s.setVerge h v).imgid = s.imgid := rfl
@[simp] theorem State.imgload_setVerge (s : State) (h : Nat) (v : Verge) : (s.setVerge h v).imgload = s.imgload := rfl
@[simp] theorem State.images_setVerge (s : State) (h : Nat) (v : Verge) : (s.setVerge h v).images = s.images := rfl
@[simp] theorem State.nimage_setVerge (s : State) (h : Nat) (v : Verge) : (s.setVerge h v).nimage = s.nimage := rfl
@[simp] theorem State.dbgctl_setVerge (s : State) (h : Nat) (v : Verge) : (s.setVerge h v).dbgctl = s.dbgctl := rfl
@[simp] theorem State.cmderr_setVerge (s : State) (h : Nat) (v : Verge) : (s.setVerge h v).cmderr = s.cmderr := rfl
@[simp] theorem State.data0_setVerge (s : State) (h : Nat) (v : Verge) : (s.setVerge h v).data0 = s.data0 := rfl
@[simp] theorem State.data1_setVerge (s : State) (h : Nat) (v : Verge) : (s.setVerge h v).data1 = s.data1 := rfl
@[simp] theorem State.data2_setVerge (s : State) (h : Nat) (v : Verge) : (s.setVerge h v).data2 = s.data2 := rfl
@[simp] theorem State.dbgCmd_setVerge (s : State) (h : Nat) (v : Verge) : (s.setVerge h v).dbgCmd = s.dbgCmd := rfl
@[simp] theorem State.bp_setVerge (s : State) (h : Nat) (v : Verge) : (s.setVerge h v).bp = s.bp := rfl
@[simp] theorem State.msctl_setVerge (s : State) (h : Nat) (v : Verge) : (s.setVerge h v).msctl = s.msctl := rfl
@[simp] theorem State.msbase_setVerge (s : State) (h : Nat) (v : Verge) : (s.setVerge h v).msbase = s.msbase := rfl
@[simp] theorem State.msptr_setVerge (s : State) (h : Nat) (v : Verge) : (s.setVerge h v).msptr = s.msptr := rfl
@[simp] theorem State.msrd_setVerge (s : State) (h : Nat) (v : Verge) : (s.setVerge h v).msrd = s.msrd := rfl
@[simp] theorem State.msdrop_setVerge (s : State) (h : Nat) (v : Verge) : (s.setVerge h v).msdrop = s.msdrop := rfl
@[simp] theorem State.msgap_setVerge (s : State) (h : Nat) (v : Verge) : (s.setVerge h v).msgap = s.msgap := rfl
@[simp] theorem State.mstick_setVerge (s : State) (h : Nat) (v : Verge) : (s.setVerge h v).mstick = s.mstick := rfl
@[simp] theorem State.counts_setVerge (s : State) (h : Nat) (v : Verge) : (s.setVerge h v).counts = s.counts := rfl
@[simp] theorem State.pstate_setVerge (s : State) (h : Nat) (v : Verge) : (s.setVerge h v).pstate = s.pstate := rfl
@[simp] theorem State.power_setVerge (s : State) (h : Nat) (v : Verge) : (s.setVerge h v).power = s.power := rfl
@[simp] theorem State.former_setVerge (s : State) (h : Nat) (v : Verge) : (s.setVerge h v).former = s.former := rfl
@[simp] theorem State.changing_setVerge (s : State) (h : Nat) (v : Verge) : (s.setVerge h v).changing = s.changing := rfl
@[simp] theorem State.halfRate_setVerge (s : State) (h : Nat) (v : Verge) : (s.setVerge h v).halfRate = s.halfRate := rfl
@[simp] theorem State.slowMem_setVerge (s : State) (h : Nat) (v : Verge) : (s.setVerge h v).slowMem = s.slowMem := rfl
@[simp] theorem State.strec0_setVerge (s : State) (h : Nat) (v : Verge) : (s.setVerge h v).strec0 = s.strec0 := rfl
@[simp] theorem State.strec1_setVerge (s : State) (h : Nat) (v : Verge) : (s.setVerge h v).strec1 = s.strec1 := rfl
@[simp] theorem State.strec2_setVerge (s : State) (h : Nat) (v : Verge) : (s.setVerge h v).strec2 = s.strec2 := rfl
@[simp] theorem State.prevStart_setVerge (s : State) (h : Nat) (v : Verge) : (s.setVerge h v).prevStart = s.prevStart := rfl
@[simp] theorem State.booted_setVerge (s : State) (h : Nat) (v : Verge) : (s.setVerge h v).booted = s.booted := rfl
@[simp] theorem State.recovery_setVerge (s : State) (h : Nat) (v : Verge) : (s.setVerge h v).recovery = s.recovery := rfl
@[simp] theorem State.tripped_setVerge (s : State) (h : Nat) (v : Verge) : (s.setVerge h v).tripped = s.tripped := rfl
@[simp] theorem State.meas_setVerge (s : State) (h : Nat) (v : Verge) : (s.setVerge h v).meas = s.meas := rfl
@[simp] theorem State.attaddr_setVerge (s : State) (h : Nat) (v : Verge) : (s.setVerge h v).attaddr = s.attaddr := rfl
@[simp] theorem State.attstat_setVerge (s : State) (h : Nat) (v : Verge) : (s.setVerge h v).attstat = s.attstat := rfl

/-! ### The program counter, the x and s registers, and going on -/

@[simp] theorem State.cur_setPc (s : State) (p : Party) (a : W64) : (s.setPc p a).cur = s.cur := by cases p <;> rfl
@[simp] theorem State.agenda_setPc (s : State) (p : Party) (a : W64) : (s.setPc p a).agenda = s.agenda := by cases p <;> rfl
@[simp] theorem State.cut_setPc (s : State) (p : Party) (a : W64) : (s.setPc p a).cut = s.cut := by cases p <;> rfl
@[simp] theorem State.fresh_setPc (s : State) (p : Party) (a : W64) : (s.setPc p a).fresh = s.fresh := by cases p <;> rfl
@[simp] theorem State.hostData_setPc (s : State) (p : Party) (a : W64) : (s.setPc p a).hostData = s.hostData := by cases p <;> rfl
@[simp] theorem State.a48_setPc (s : State) (p : Party) (a : W64) : (s.setPc p a).a48 = s.a48 := by cases p <;> rfl
@[simp] theorem State.stepping_setPc (s : State) (p : Party) (a : W64) : (s.setPc p a).stepping = s.stepping := by cases p <;> rfl
@[simp] theorem State.qplace_setPc (s : State) (p : Party) (a : W64) : (s.setPc p a).qplace = s.qplace := by cases p <;> rfl
@[simp] theorem State.cycle_setPc (s : State) (p : Party) (a : W64) : (s.setPc p a).cycle = s.cycle := by cases p <;> rfl
@[simp] theorem State.mem_setPc (s : State) (p : Party) (a : W64) : (s.setPc p a).mem = s.mem := by cases p <;> rfl
@[simp] theorem State.poison_setPc (s : State) (p : Party) (a : W64) : (s.setPc p a).poison = s.poison := by cases p <;> rfl
@[simp] theorem State.l1_setPc (s : State) (p : Party) (a : W64) : (s.setPc p a).l1 = s.l1 := by cases p <;> rfl
@[simp] theorem State.late_setPc (s : State) (p : Party) (a : W64) : (s.setPc p a).late = s.late := by cases p <;> rfl
@[simp] theorem State.icache_setPc (s : State) (p : Party) (a : W64) : (s.setPc p a).icache = s.icache := by cases p <;> rfl
@[simp] theorem State.tlb_setPc (s : State) (p : Party) (a : W64) : (s.setPc p a).tlb = s.tlb := by cases p <;> rfl
@[simp] theorem State.pins_setPc (s : State) (p : Party) (a : W64) : (s.setPc p a).pins = s.pins := by cases p <;> rfl
@[simp] theorem State.ctxsel_setPc (s : State) (p : Party) (a : W64) : (s.setPc p a).ctxsel = s.ctxsel := by cases p <;> rfl
@[simp] theorem State.ctxroot_setPc (s : State) (p : Party) (a : W64) : (s.setPc p a).ctxroot = s.ctxroot := by cases p <;> rfl
@[simp] theorem State.roots_setPc (s : State) (p : Party) (a : W64) : (s.setPc p a).roots = s.roots := by cases p <;> rfl
@[simp] theorem State.fqring_setPc (s : State) (p : Party) (a : W64) : (s.setPc p a).fqring = s.fqring := by cases p <;> rfl
@[simp] theorem State.fqhead_setPc (s : State) (p : Party) (a : W64) : (s.setPc p a).fqhead = s.fqhead := by cases p <;> rfl
@[simp] theorem State.fqtail_setPc (s : State) (p : Party) (a : W64) : (s.setPc p a).fqtail = s.fqtail := by cases p <;> rfl
@[simp] theorem State.reports_setPc (s : State) (p : Party) (a : W64) : (s.setPc p a).reports = s.reports := by cases p <;> rfl
@[simp] theorem State.live_setPc (s : State) (p : Party) (a : W64) : (s.setPc p a).live = s.live := by cases p <;> rfl
@[simp] theorem State.hq_setPc (s : State) (p : Party) (a : W64) : (s.setPc p a).hq = s.hq := by cases p <;> rfl
@[simp] theorem State.dq_setPc (s : State) (p : Party) (a : W64) : (s.setPc p a).dq = s.dq := by cases p <;> rfl
@[simp] theorem State.rr_setPc (s : State) (p : Party) (a : W64) : (s.setPc p a).rr = s.rr := by cases p <;> rfl
@[simp] theorem State.launches_setPc (s : State) (p : Party) (a : W64) : (s.setPc p a).launches = s.launches := by cases p <;> rfl
@[simp] theorem State.teams_setPc (s : State) (p : Party) (a : W64) : (s.setPc p a).teams = s.teams := by cases p <;> rfl
@[simp] theorem State.nlaunch_setPc (s : State) (p : Party) (a : W64) : (s.setPc p a).nlaunch = s.nlaunch := by cases p <;> rfl
@[simp] theorem State.nteam_setPc (s : State) (p : Party) (a : W64) : (s.setPc p a).nteam = s.nteam := by cases p <;> rfl
@[simp] theorem State.nage_setPc (s : State) (p : Party) (a : W64) : (s.setPc p a).nage = s.nage := by cases p <;> rfl
@[simp] theorem State.nplace_setPc (s : State) (p : Party) (a : W64) : (s.setPc p a).nplace = s.nplace := by cases p <;> rfl
@[simp] theorem State.savedFrom_setPc (s : State) (p : Party) (a : W64) : (s.setPc p a).savedFrom = s.savedFrom := by cases p <;> rfl
@[simp] theorem State.cmds_setPc (s : State) (p : Party) (a : W64) : (s.setPc p a).cmds = s.cmds := by cases p <;> rfl
@[simp] theorem State.ritQ_setPc (s : State) (p : Party) (a : W64) : (s.setPc p a).ritQ = s.ritQ := by cases p <;> rfl
@[simp] theorem State.dueEntries_setPc (s : State) (p : Party) (a : W64) : (s.setPc p a).dueEntries = s.dueEntries := by cases p <;> rfl
@[simp] theorem State.linkUp_setPc (s : State) (p : Party) (a : W64) : (s.setPc p a).linkUp = s.linkUp := by cases p <;> rfl
@[simp] theorem State.linkDown_setPc (s : State) (p : Party) (a : W64) : (s.setPc p a).linkDown = s.linkDown := by cases p <;> rfl
@[simp] theorem State.hostWaits_setPc (s : State) (p : Party) (a : W64) : (s.setPc p a).hostWaits = s.hostWaits := by cases p <;> rfl
@[simp] theorem State.linkQ_setPc (s : State) (p : Party) (a : W64) : (s.setPc p a).linkQ = s.linkQ := by cases p <;> rfl
@[simp] theorem State.cxlstat_setPc (s : State) (p : Party) (a : W64) : (s.setPc p a).cxlstat = s.cxlstat := by cases p <;> rfl
@[simp] theorem State.fabid_setPc (s : State) (p : Party) (a : W64) : (s.setPc p a).fabid = s.fabid := by cases p <;> rfl
@[simp] theorem State.fchan_setPc (s : State) (p : Party) (a : W64) : (s.setPc p a).fchan = s.fchan := by cases p <;> rfl
@[simp] theorem State.railstat_setPc (s : State) (p : Party) (a : W64) : (s.setPc p a).railstat = s.railstat := by cases p <;> rfl
@[simp] theorem State.permits_setPc (s : State) (p : Party) (a : W64) : (s.setPc p a).permits = s.permits := by cases p <;> rfl
@[simp] theorem State.granted_setPc (s : State) (p : Party) (a : W64) : (s.setPc p a).granted = s.granted := by cases p <;> rfl
@[simp] theorem State.sends_setPc (s : State) (p : Party) (a : W64) : (s.setPc p a).sends = s.sends := by cases p <;> rfl
@[simp] theorem State.sendSeq_setPc (s : State) (p : Party) (a : W64) : (s.setPc p a).sendSeq = s.sendSeq := by cases p <;> rfl
@[simp] theorem State.sendPark_setPc (s : State) (p : Party) (a : W64) : (s.setPc p a).sendPark = s.sendPark := by cases p <;> rfl
@[simp] theorem State.recvs_setPc (s : State) (p : Party) (a : W64) : (s.setPc p a).recvs = s.recvs := by cases p <;> rfl
@[simp] theorem State.outbox_setPc (s : State) (p : Party) (a : W64) : (s.setPc p a).outbox = s.outbox := by cases p <;> rfl
@[simp] theorem State.imgctx_setPc (s : State) (p : Party) (a : W64) : (s.setPc p a).imgctx = s.imgctx := by cases p <;> rfl
@[simp] theorem State.imgcode_setPc (s : State) (p : Party) (a : W64) : (s.setPc p a).imgcode = s.imgcode := by cases p <;> rfl
@[simp] theorem State.imgerr_setPc (s : State) (p : Party) (a : W64) : (s.setPc p a).imgerr = s.imgerr := by cases p <;> rfl
@[simp] theorem State.imgdone_setPc (s : State) (p : Party) (a : W64) : (s.setPc p a).imgdone = s.imgdone := by cases p <;> rfl
@[simp] theorem State.imgid_setPc (s : State) (p : Party) (a : W64) : (s.setPc p a).imgid = s.imgid := by cases p <;> rfl
@[simp] theorem State.imgload_setPc (s : State) (p : Party) (a : W64) : (s.setPc p a).imgload = s.imgload := by cases p <;> rfl
@[simp] theorem State.images_setPc (s : State) (p : Party) (a : W64) : (s.setPc p a).images = s.images := by cases p <;> rfl
@[simp] theorem State.nimage_setPc (s : State) (p : Party) (a : W64) : (s.setPc p a).nimage = s.nimage := by cases p <;> rfl
@[simp] theorem State.dbgctl_setPc (s : State) (p : Party) (a : W64) : (s.setPc p a).dbgctl = s.dbgctl := by cases p <;> rfl
@[simp] theorem State.cmderr_setPc (s : State) (p : Party) (a : W64) : (s.setPc p a).cmderr = s.cmderr := by cases p <;> rfl
@[simp] theorem State.data0_setPc (s : State) (p : Party) (a : W64) : (s.setPc p a).data0 = s.data0 := by cases p <;> rfl
@[simp] theorem State.data1_setPc (s : State) (p : Party) (a : W64) : (s.setPc p a).data1 = s.data1 := by cases p <;> rfl
@[simp] theorem State.data2_setPc (s : State) (p : Party) (a : W64) : (s.setPc p a).data2 = s.data2 := by cases p <;> rfl
@[simp] theorem State.dbgCmd_setPc (s : State) (p : Party) (a : W64) : (s.setPc p a).dbgCmd = s.dbgCmd := by cases p <;> rfl
@[simp] theorem State.bp_setPc (s : State) (p : Party) (a : W64) : (s.setPc p a).bp = s.bp := by cases p <;> rfl
@[simp] theorem State.msctl_setPc (s : State) (p : Party) (a : W64) : (s.setPc p a).msctl = s.msctl := by cases p <;> rfl
@[simp] theorem State.msbase_setPc (s : State) (p : Party) (a : W64) : (s.setPc p a).msbase = s.msbase := by cases p <;> rfl
@[simp] theorem State.msptr_setPc (s : State) (p : Party) (a : W64) : (s.setPc p a).msptr = s.msptr := by cases p <;> rfl
@[simp] theorem State.msrd_setPc (s : State) (p : Party) (a : W64) : (s.setPc p a).msrd = s.msrd := by cases p <;> rfl
@[simp] theorem State.msdrop_setPc (s : State) (p : Party) (a : W64) : (s.setPc p a).msdrop = s.msdrop := by cases p <;> rfl
@[simp] theorem State.msgap_setPc (s : State) (p : Party) (a : W64) : (s.setPc p a).msgap = s.msgap := by cases p <;> rfl
@[simp] theorem State.mstick_setPc (s : State) (p : Party) (a : W64) : (s.setPc p a).mstick = s.mstick := by cases p <;> rfl
@[simp] theorem State.counts_setPc (s : State) (p : Party) (a : W64) : (s.setPc p a).counts = s.counts := by cases p <;> rfl
@[simp] theorem State.pstate_setPc (s : State) (p : Party) (a : W64) : (s.setPc p a).pstate = s.pstate := by cases p <;> rfl
@[simp] theorem State.power_setPc (s : State) (p : Party) (a : W64) : (s.setPc p a).power = s.power := by cases p <;> rfl
@[simp] theorem State.former_setPc (s : State) (p : Party) (a : W64) : (s.setPc p a).former = s.former := by cases p <;> rfl
@[simp] theorem State.changing_setPc (s : State) (p : Party) (a : W64) : (s.setPc p a).changing = s.changing := by cases p <;> rfl
@[simp] theorem State.halfRate_setPc (s : State) (p : Party) (a : W64) : (s.setPc p a).halfRate = s.halfRate := by cases p <;> rfl
@[simp] theorem State.slowMem_setPc (s : State) (p : Party) (a : W64) : (s.setPc p a).slowMem = s.slowMem := by cases p <;> rfl
@[simp] theorem State.strec0_setPc (s : State) (p : Party) (a : W64) : (s.setPc p a).strec0 = s.strec0 := by cases p <;> rfl
@[simp] theorem State.strec1_setPc (s : State) (p : Party) (a : W64) : (s.setPc p a).strec1 = s.strec1 := by cases p <;> rfl
@[simp] theorem State.strec2_setPc (s : State) (p : Party) (a : W64) : (s.setPc p a).strec2 = s.strec2 := by cases p <;> rfl
@[simp] theorem State.prevStart_setPc (s : State) (p : Party) (a : W64) : (s.setPc p a).prevStart = s.prevStart := by cases p <;> rfl
@[simp] theorem State.booted_setPc (s : State) (p : Party) (a : W64) : (s.setPc p a).booted = s.booted := by cases p <;> rfl
@[simp] theorem State.recovery_setPc (s : State) (p : Party) (a : W64) : (s.setPc p a).recovery = s.recovery := by cases p <;> rfl
@[simp] theorem State.tripped_setPc (s : State) (p : Party) (a : W64) : (s.setPc p a).tripped = s.tripped := by cases p <;> rfl
@[simp] theorem State.meas_setPc (s : State) (p : Party) (a : W64) : (s.setPc p a).meas = s.meas := by cases p <;> rfl
@[simp] theorem State.attaddr_setPc (s : State) (p : Party) (a : W64) : (s.setPc p a).attaddr = s.attaddr := by cases p <;> rfl
@[simp] theorem State.attstat_setPc (s : State) (p : Party) (a : W64) : (s.setPc p a).attstat = s.attstat := by cases p <;> rfl

@[simp] theorem State.cur_writeX (s : State) (p : Party) (r : Nat) (v : W64) : (s.writeX p r v).cur = s.cur := by cases p <;> simp only [State.writeX] <;> split <;> rfl
@[simp] theorem State.agenda_writeX (s : State) (p : Party) (r : Nat) (v : W64) : (s.writeX p r v).agenda = s.agenda := by cases p <;> simp only [State.writeX] <;> split <;> rfl
@[simp] theorem State.cut_writeX (s : State) (p : Party) (r : Nat) (v : W64) : (s.writeX p r v).cut = s.cut := by cases p <;> simp only [State.writeX] <;> split <;> rfl
@[simp] theorem State.fresh_writeX (s : State) (p : Party) (r : Nat) (v : W64) : (s.writeX p r v).fresh = s.fresh := by cases p <;> simp only [State.writeX] <;> split <;> rfl
@[simp] theorem State.hostData_writeX (s : State) (p : Party) (r : Nat) (v : W64) : (s.writeX p r v).hostData = s.hostData := by cases p <;> simp only [State.writeX] <;> split <;> rfl
@[simp] theorem State.a48_writeX (s : State) (p : Party) (r : Nat) (v : W64) : (s.writeX p r v).a48 = s.a48 := by cases p <;> simp only [State.writeX] <;> split <;> rfl
@[simp] theorem State.stepping_writeX (s : State) (p : Party) (r : Nat) (v : W64) : (s.writeX p r v).stepping = s.stepping := by cases p <;> simp only [State.writeX] <;> split <;> rfl
@[simp] theorem State.qplace_writeX (s : State) (p : Party) (r : Nat) (v : W64) : (s.writeX p r v).qplace = s.qplace := by cases p <;> simp only [State.writeX] <;> split <;> rfl
@[simp] theorem State.cycle_writeX (s : State) (p : Party) (r : Nat) (v : W64) : (s.writeX p r v).cycle = s.cycle := by cases p <;> simp only [State.writeX] <;> split <;> rfl
@[simp] theorem State.mem_writeX (s : State) (p : Party) (r : Nat) (v : W64) : (s.writeX p r v).mem = s.mem := by cases p <;> simp only [State.writeX] <;> split <;> rfl
@[simp] theorem State.poison_writeX (s : State) (p : Party) (r : Nat) (v : W64) : (s.writeX p r v).poison = s.poison := by cases p <;> simp only [State.writeX] <;> split <;> rfl
@[simp] theorem State.l1_writeX (s : State) (p : Party) (r : Nat) (v : W64) : (s.writeX p r v).l1 = s.l1 := by cases p <;> simp only [State.writeX] <;> split <;> rfl
@[simp] theorem State.late_writeX (s : State) (p : Party) (r : Nat) (v : W64) : (s.writeX p r v).late = s.late := by cases p <;> simp only [State.writeX] <;> split <;> rfl
@[simp] theorem State.icache_writeX (s : State) (p : Party) (r : Nat) (v : W64) : (s.writeX p r v).icache = s.icache := by cases p <;> simp only [State.writeX] <;> split <;> rfl
@[simp] theorem State.tlb_writeX (s : State) (p : Party) (r : Nat) (v : W64) : (s.writeX p r v).tlb = s.tlb := by cases p <;> simp only [State.writeX] <;> split <;> rfl
@[simp] theorem State.pins_writeX (s : State) (p : Party) (r : Nat) (v : W64) : (s.writeX p r v).pins = s.pins := by cases p <;> simp only [State.writeX] <;> split <;> rfl
@[simp] theorem State.ctxsel_writeX (s : State) (p : Party) (r : Nat) (v : W64) : (s.writeX p r v).ctxsel = s.ctxsel := by cases p <;> simp only [State.writeX] <;> split <;> rfl
@[simp] theorem State.ctxroot_writeX (s : State) (p : Party) (r : Nat) (v : W64) : (s.writeX p r v).ctxroot = s.ctxroot := by cases p <;> simp only [State.writeX] <;> split <;> rfl
@[simp] theorem State.roots_writeX (s : State) (p : Party) (r : Nat) (v : W64) : (s.writeX p r v).roots = s.roots := by cases p <;> simp only [State.writeX] <;> split <;> rfl
@[simp] theorem State.fqring_writeX (s : State) (p : Party) (r : Nat) (v : W64) : (s.writeX p r v).fqring = s.fqring := by cases p <;> simp only [State.writeX] <;> split <;> rfl
@[simp] theorem State.fqhead_writeX (s : State) (p : Party) (r : Nat) (v : W64) : (s.writeX p r v).fqhead = s.fqhead := by cases p <;> simp only [State.writeX] <;> split <;> rfl
@[simp] theorem State.fqtail_writeX (s : State) (p : Party) (r : Nat) (v : W64) : (s.writeX p r v).fqtail = s.fqtail := by cases p <;> simp only [State.writeX] <;> split <;> rfl
@[simp] theorem State.reports_writeX (s : State) (p : Party) (r : Nat) (v : W64) : (s.writeX p r v).reports = s.reports := by cases p <;> simp only [State.writeX] <;> split <;> rfl
@[simp] theorem State.live_writeX (s : State) (p : Party) (r : Nat) (v : W64) : (s.writeX p r v).live = s.live := by cases p <;> simp only [State.writeX] <;> split <;> rfl
@[simp] theorem State.hq_writeX (s : State) (p : Party) (r : Nat) (v : W64) : (s.writeX p r v).hq = s.hq := by cases p <;> simp only [State.writeX] <;> split <;> rfl
@[simp] theorem State.dq_writeX (s : State) (p : Party) (r : Nat) (v : W64) : (s.writeX p r v).dq = s.dq := by cases p <;> simp only [State.writeX] <;> split <;> rfl
@[simp] theorem State.rr_writeX (s : State) (p : Party) (r : Nat) (v : W64) : (s.writeX p r v).rr = s.rr := by cases p <;> simp only [State.writeX] <;> split <;> rfl
@[simp] theorem State.launches_writeX (s : State) (p : Party) (r : Nat) (v : W64) : (s.writeX p r v).launches = s.launches := by cases p <;> simp only [State.writeX] <;> split <;> rfl
@[simp] theorem State.teams_writeX (s : State) (p : Party) (r : Nat) (v : W64) : (s.writeX p r v).teams = s.teams := by cases p <;> simp only [State.writeX] <;> split <;> rfl
@[simp] theorem State.nlaunch_writeX (s : State) (p : Party) (r : Nat) (v : W64) : (s.writeX p r v).nlaunch = s.nlaunch := by cases p <;> simp only [State.writeX] <;> split <;> rfl
@[simp] theorem State.nteam_writeX (s : State) (p : Party) (r : Nat) (v : W64) : (s.writeX p r v).nteam = s.nteam := by cases p <;> simp only [State.writeX] <;> split <;> rfl
@[simp] theorem State.nage_writeX (s : State) (p : Party) (r : Nat) (v : W64) : (s.writeX p r v).nage = s.nage := by cases p <;> simp only [State.writeX] <;> split <;> rfl
@[simp] theorem State.nplace_writeX (s : State) (p : Party) (r : Nat) (v : W64) : (s.writeX p r v).nplace = s.nplace := by cases p <;> simp only [State.writeX] <;> split <;> rfl
@[simp] theorem State.savedFrom_writeX (s : State) (p : Party) (r : Nat) (v : W64) : (s.writeX p r v).savedFrom = s.savedFrom := by cases p <;> simp only [State.writeX] <;> split <;> rfl
@[simp] theorem State.cmds_writeX (s : State) (p : Party) (r : Nat) (v : W64) : (s.writeX p r v).cmds = s.cmds := by cases p <;> simp only [State.writeX] <;> split <;> rfl
@[simp] theorem State.ritQ_writeX (s : State) (p : Party) (r : Nat) (v : W64) : (s.writeX p r v).ritQ = s.ritQ := by cases p <;> simp only [State.writeX] <;> split <;> rfl
@[simp] theorem State.dueEntries_writeX (s : State) (p : Party) (r : Nat) (v : W64) : (s.writeX p r v).dueEntries = s.dueEntries := by cases p <;> simp only [State.writeX] <;> split <;> rfl
@[simp] theorem State.linkUp_writeX (s : State) (p : Party) (r : Nat) (v : W64) : (s.writeX p r v).linkUp = s.linkUp := by cases p <;> simp only [State.writeX] <;> split <;> rfl
@[simp] theorem State.linkDown_writeX (s : State) (p : Party) (r : Nat) (v : W64) : (s.writeX p r v).linkDown = s.linkDown := by cases p <;> simp only [State.writeX] <;> split <;> rfl
@[simp] theorem State.hostWaits_writeX (s : State) (p : Party) (r : Nat) (v : W64) : (s.writeX p r v).hostWaits = s.hostWaits := by cases p <;> simp only [State.writeX] <;> split <;> rfl
@[simp] theorem State.linkQ_writeX (s : State) (p : Party) (r : Nat) (v : W64) : (s.writeX p r v).linkQ = s.linkQ := by cases p <;> simp only [State.writeX] <;> split <;> rfl
@[simp] theorem State.cxlstat_writeX (s : State) (p : Party) (r : Nat) (v : W64) : (s.writeX p r v).cxlstat = s.cxlstat := by cases p <;> simp only [State.writeX] <;> split <;> rfl
@[simp] theorem State.fabid_writeX (s : State) (p : Party) (r : Nat) (v : W64) : (s.writeX p r v).fabid = s.fabid := by cases p <;> simp only [State.writeX] <;> split <;> rfl
@[simp] theorem State.fchan_writeX (s : State) (p : Party) (r : Nat) (v : W64) : (s.writeX p r v).fchan = s.fchan := by cases p <;> simp only [State.writeX] <;> split <;> rfl
@[simp] theorem State.railstat_writeX (s : State) (p : Party) (r : Nat) (v : W64) : (s.writeX p r v).railstat = s.railstat := by cases p <;> simp only [State.writeX] <;> split <;> rfl
@[simp] theorem State.permits_writeX (s : State) (p : Party) (r : Nat) (v : W64) : (s.writeX p r v).permits = s.permits := by cases p <;> simp only [State.writeX] <;> split <;> rfl
@[simp] theorem State.granted_writeX (s : State) (p : Party) (r : Nat) (v : W64) : (s.writeX p r v).granted = s.granted := by cases p <;> simp only [State.writeX] <;> split <;> rfl
@[simp] theorem State.sends_writeX (s : State) (p : Party) (r : Nat) (v : W64) : (s.writeX p r v).sends = s.sends := by cases p <;> simp only [State.writeX] <;> split <;> rfl
@[simp] theorem State.sendSeq_writeX (s : State) (p : Party) (r : Nat) (v : W64) : (s.writeX p r v).sendSeq = s.sendSeq := by cases p <;> simp only [State.writeX] <;> split <;> rfl
@[simp] theorem State.sendPark_writeX (s : State) (p : Party) (r : Nat) (v : W64) : (s.writeX p r v).sendPark = s.sendPark := by cases p <;> simp only [State.writeX] <;> split <;> rfl
@[simp] theorem State.recvs_writeX (s : State) (p : Party) (r : Nat) (v : W64) : (s.writeX p r v).recvs = s.recvs := by cases p <;> simp only [State.writeX] <;> split <;> rfl
@[simp] theorem State.outbox_writeX (s : State) (p : Party) (r : Nat) (v : W64) : (s.writeX p r v).outbox = s.outbox := by cases p <;> simp only [State.writeX] <;> split <;> rfl
@[simp] theorem State.imgctx_writeX (s : State) (p : Party) (r : Nat) (v : W64) : (s.writeX p r v).imgctx = s.imgctx := by cases p <;> simp only [State.writeX] <;> split <;> rfl
@[simp] theorem State.imgcode_writeX (s : State) (p : Party) (r : Nat) (v : W64) : (s.writeX p r v).imgcode = s.imgcode := by cases p <;> simp only [State.writeX] <;> split <;> rfl
@[simp] theorem State.imgerr_writeX (s : State) (p : Party) (r : Nat) (v : W64) : (s.writeX p r v).imgerr = s.imgerr := by cases p <;> simp only [State.writeX] <;> split <;> rfl
@[simp] theorem State.imgdone_writeX (s : State) (p : Party) (r : Nat) (v : W64) : (s.writeX p r v).imgdone = s.imgdone := by cases p <;> simp only [State.writeX] <;> split <;> rfl
@[simp] theorem State.imgid_writeX (s : State) (p : Party) (r : Nat) (v : W64) : (s.writeX p r v).imgid = s.imgid := by cases p <;> simp only [State.writeX] <;> split <;> rfl
@[simp] theorem State.imgload_writeX (s : State) (p : Party) (r : Nat) (v : W64) : (s.writeX p r v).imgload = s.imgload := by cases p <;> simp only [State.writeX] <;> split <;> rfl
@[simp] theorem State.images_writeX (s : State) (p : Party) (r : Nat) (v : W64) : (s.writeX p r v).images = s.images := by cases p <;> simp only [State.writeX] <;> split <;> rfl
@[simp] theorem State.nimage_writeX (s : State) (p : Party) (r : Nat) (v : W64) : (s.writeX p r v).nimage = s.nimage := by cases p <;> simp only [State.writeX] <;> split <;> rfl
@[simp] theorem State.dbgctl_writeX (s : State) (p : Party) (r : Nat) (v : W64) : (s.writeX p r v).dbgctl = s.dbgctl := by cases p <;> simp only [State.writeX] <;> split <;> rfl
@[simp] theorem State.cmderr_writeX (s : State) (p : Party) (r : Nat) (v : W64) : (s.writeX p r v).cmderr = s.cmderr := by cases p <;> simp only [State.writeX] <;> split <;> rfl
@[simp] theorem State.data0_writeX (s : State) (p : Party) (r : Nat) (v : W64) : (s.writeX p r v).data0 = s.data0 := by cases p <;> simp only [State.writeX] <;> split <;> rfl
@[simp] theorem State.data1_writeX (s : State) (p : Party) (r : Nat) (v : W64) : (s.writeX p r v).data1 = s.data1 := by cases p <;> simp only [State.writeX] <;> split <;> rfl
@[simp] theorem State.data2_writeX (s : State) (p : Party) (r : Nat) (v : W64) : (s.writeX p r v).data2 = s.data2 := by cases p <;> simp only [State.writeX] <;> split <;> rfl
@[simp] theorem State.dbgCmd_writeX (s : State) (p : Party) (r : Nat) (v : W64) : (s.writeX p r v).dbgCmd = s.dbgCmd := by cases p <;> simp only [State.writeX] <;> split <;> rfl
@[simp] theorem State.bp_writeX (s : State) (p : Party) (r : Nat) (v : W64) : (s.writeX p r v).bp = s.bp := by cases p <;> simp only [State.writeX] <;> split <;> rfl
@[simp] theorem State.msctl_writeX (s : State) (p : Party) (r : Nat) (v : W64) : (s.writeX p r v).msctl = s.msctl := by cases p <;> simp only [State.writeX] <;> split <;> rfl
@[simp] theorem State.msbase_writeX (s : State) (p : Party) (r : Nat) (v : W64) : (s.writeX p r v).msbase = s.msbase := by cases p <;> simp only [State.writeX] <;> split <;> rfl
@[simp] theorem State.msptr_writeX (s : State) (p : Party) (r : Nat) (v : W64) : (s.writeX p r v).msptr = s.msptr := by cases p <;> simp only [State.writeX] <;> split <;> rfl
@[simp] theorem State.msrd_writeX (s : State) (p : Party) (r : Nat) (v : W64) : (s.writeX p r v).msrd = s.msrd := by cases p <;> simp only [State.writeX] <;> split <;> rfl
@[simp] theorem State.msdrop_writeX (s : State) (p : Party) (r : Nat) (v : W64) : (s.writeX p r v).msdrop = s.msdrop := by cases p <;> simp only [State.writeX] <;> split <;> rfl
@[simp] theorem State.msgap_writeX (s : State) (p : Party) (r : Nat) (v : W64) : (s.writeX p r v).msgap = s.msgap := by cases p <;> simp only [State.writeX] <;> split <;> rfl
@[simp] theorem State.mstick_writeX (s : State) (p : Party) (r : Nat) (v : W64) : (s.writeX p r v).mstick = s.mstick := by cases p <;> simp only [State.writeX] <;> split <;> rfl
@[simp] theorem State.counts_writeX (s : State) (p : Party) (r : Nat) (v : W64) : (s.writeX p r v).counts = s.counts := by cases p <;> simp only [State.writeX] <;> split <;> rfl
@[simp] theorem State.pstate_writeX (s : State) (p : Party) (r : Nat) (v : W64) : (s.writeX p r v).pstate = s.pstate := by cases p <;> simp only [State.writeX] <;> split <;> rfl
@[simp] theorem State.power_writeX (s : State) (p : Party) (r : Nat) (v : W64) : (s.writeX p r v).power = s.power := by cases p <;> simp only [State.writeX] <;> split <;> rfl
@[simp] theorem State.former_writeX (s : State) (p : Party) (r : Nat) (v : W64) : (s.writeX p r v).former = s.former := by cases p <;> simp only [State.writeX] <;> split <;> rfl
@[simp] theorem State.changing_writeX (s : State) (p : Party) (r : Nat) (v : W64) : (s.writeX p r v).changing = s.changing := by cases p <;> simp only [State.writeX] <;> split <;> rfl
@[simp] theorem State.halfRate_writeX (s : State) (p : Party) (r : Nat) (v : W64) : (s.writeX p r v).halfRate = s.halfRate := by cases p <;> simp only [State.writeX] <;> split <;> rfl
@[simp] theorem State.slowMem_writeX (s : State) (p : Party) (r : Nat) (v : W64) : (s.writeX p r v).slowMem = s.slowMem := by cases p <;> simp only [State.writeX] <;> split <;> rfl
@[simp] theorem State.strec0_writeX (s : State) (p : Party) (r : Nat) (v : W64) : (s.writeX p r v).strec0 = s.strec0 := by cases p <;> simp only [State.writeX] <;> split <;> rfl
@[simp] theorem State.strec1_writeX (s : State) (p : Party) (r : Nat) (v : W64) : (s.writeX p r v).strec1 = s.strec1 := by cases p <;> simp only [State.writeX] <;> split <;> rfl
@[simp] theorem State.strec2_writeX (s : State) (p : Party) (r : Nat) (v : W64) : (s.writeX p r v).strec2 = s.strec2 := by cases p <;> simp only [State.writeX] <;> split <;> rfl
@[simp] theorem State.prevStart_writeX (s : State) (p : Party) (r : Nat) (v : W64) : (s.writeX p r v).prevStart = s.prevStart := by cases p <;> simp only [State.writeX] <;> split <;> rfl
@[simp] theorem State.booted_writeX (s : State) (p : Party) (r : Nat) (v : W64) : (s.writeX p r v).booted = s.booted := by cases p <;> simp only [State.writeX] <;> split <;> rfl
@[simp] theorem State.recovery_writeX (s : State) (p : Party) (r : Nat) (v : W64) : (s.writeX p r v).recovery = s.recovery := by cases p <;> simp only [State.writeX] <;> split <;> rfl
@[simp] theorem State.tripped_writeX (s : State) (p : Party) (r : Nat) (v : W64) : (s.writeX p r v).tripped = s.tripped := by cases p <;> simp only [State.writeX] <;> split <;> rfl
@[simp] theorem State.meas_writeX (s : State) (p : Party) (r : Nat) (v : W64) : (s.writeX p r v).meas = s.meas := by cases p <;> simp only [State.writeX] <;> split <;> rfl
@[simp] theorem State.attaddr_writeX (s : State) (p : Party) (r : Nat) (v : W64) : (s.writeX p r v).attaddr = s.attaddr := by cases p <;> simp only [State.writeX] <;> split <;> rfl
@[simp] theorem State.attstat_writeX (s : State) (p : Party) (r : Nat) (v : W64) : (s.writeX p r v).attstat = s.attstat := by cases p <;> simp only [State.writeX] <;> split <;> rfl

@[simp] theorem State.cur_writeS (s : State) (h n : Nat) (v : W64) : (s.writeS h n v).cur = s.cur := rfl
@[simp] theorem State.agenda_writeS (s : State) (h n : Nat) (v : W64) : (s.writeS h n v).agenda = s.agenda := rfl
@[simp] theorem State.cut_writeS (s : State) (h n : Nat) (v : W64) : (s.writeS h n v).cut = s.cut := rfl
@[simp] theorem State.fresh_writeS (s : State) (h n : Nat) (v : W64) : (s.writeS h n v).fresh = s.fresh := rfl
@[simp] theorem State.hostData_writeS (s : State) (h n : Nat) (v : W64) : (s.writeS h n v).hostData = s.hostData := rfl
@[simp] theorem State.a48_writeS (s : State) (h n : Nat) (v : W64) : (s.writeS h n v).a48 = s.a48 := rfl
@[simp] theorem State.stepping_writeS (s : State) (h n : Nat) (v : W64) : (s.writeS h n v).stepping = s.stepping := rfl
@[simp] theorem State.qplace_writeS (s : State) (h n : Nat) (v : W64) : (s.writeS h n v).qplace = s.qplace := rfl
@[simp] theorem State.cycle_writeS (s : State) (h n : Nat) (v : W64) : (s.writeS h n v).cycle = s.cycle := rfl
@[simp] theorem State.mem_writeS (s : State) (h n : Nat) (v : W64) : (s.writeS h n v).mem = s.mem := rfl
@[simp] theorem State.poison_writeS (s : State) (h n : Nat) (v : W64) : (s.writeS h n v).poison = s.poison := rfl
@[simp] theorem State.l1_writeS (s : State) (h n : Nat) (v : W64) : (s.writeS h n v).l1 = s.l1 := rfl
@[simp] theorem State.late_writeS (s : State) (h n : Nat) (v : W64) : (s.writeS h n v).late = s.late := rfl
@[simp] theorem State.icache_writeS (s : State) (h n : Nat) (v : W64) : (s.writeS h n v).icache = s.icache := rfl
@[simp] theorem State.tlb_writeS (s : State) (h n : Nat) (v : W64) : (s.writeS h n v).tlb = s.tlb := rfl
@[simp] theorem State.pins_writeS (s : State) (h n : Nat) (v : W64) : (s.writeS h n v).pins = s.pins := rfl
@[simp] theorem State.ctxsel_writeS (s : State) (h n : Nat) (v : W64) : (s.writeS h n v).ctxsel = s.ctxsel := rfl
@[simp] theorem State.ctxroot_writeS (s : State) (h n : Nat) (v : W64) : (s.writeS h n v).ctxroot = s.ctxroot := rfl
@[simp] theorem State.roots_writeS (s : State) (h n : Nat) (v : W64) : (s.writeS h n v).roots = s.roots := rfl
@[simp] theorem State.fqring_writeS (s : State) (h n : Nat) (v : W64) : (s.writeS h n v).fqring = s.fqring := rfl
@[simp] theorem State.fqhead_writeS (s : State) (h n : Nat) (v : W64) : (s.writeS h n v).fqhead = s.fqhead := rfl
@[simp] theorem State.fqtail_writeS (s : State) (h n : Nat) (v : W64) : (s.writeS h n v).fqtail = s.fqtail := rfl
@[simp] theorem State.reports_writeS (s : State) (h n : Nat) (v : W64) : (s.writeS h n v).reports = s.reports := rfl
@[simp] theorem State.live_writeS (s : State) (h n : Nat) (v : W64) : (s.writeS h n v).live = s.live := rfl
@[simp] theorem State.hq_writeS (s : State) (h n : Nat) (v : W64) : (s.writeS h n v).hq = s.hq := rfl
@[simp] theorem State.dq_writeS (s : State) (h n : Nat) (v : W64) : (s.writeS h n v).dq = s.dq := rfl
@[simp] theorem State.rr_writeS (s : State) (h n : Nat) (v : W64) : (s.writeS h n v).rr = s.rr := rfl
@[simp] theorem State.launches_writeS (s : State) (h n : Nat) (v : W64) : (s.writeS h n v).launches = s.launches := rfl
@[simp] theorem State.teams_writeS (s : State) (h n : Nat) (v : W64) : (s.writeS h n v).teams = s.teams := rfl
@[simp] theorem State.nlaunch_writeS (s : State) (h n : Nat) (v : W64) : (s.writeS h n v).nlaunch = s.nlaunch := rfl
@[simp] theorem State.nteam_writeS (s : State) (h n : Nat) (v : W64) : (s.writeS h n v).nteam = s.nteam := rfl
@[simp] theorem State.nage_writeS (s : State) (h n : Nat) (v : W64) : (s.writeS h n v).nage = s.nage := rfl
@[simp] theorem State.nplace_writeS (s : State) (h n : Nat) (v : W64) : (s.writeS h n v).nplace = s.nplace := rfl
@[simp] theorem State.savedFrom_writeS (s : State) (h n : Nat) (v : W64) : (s.writeS h n v).savedFrom = s.savedFrom := rfl
@[simp] theorem State.cmds_writeS (s : State) (h n : Nat) (v : W64) : (s.writeS h n v).cmds = s.cmds := rfl
@[simp] theorem State.ritQ_writeS (s : State) (h n : Nat) (v : W64) : (s.writeS h n v).ritQ = s.ritQ := rfl
@[simp] theorem State.dueEntries_writeS (s : State) (h n : Nat) (v : W64) : (s.writeS h n v).dueEntries = s.dueEntries := rfl
@[simp] theorem State.linkUp_writeS (s : State) (h n : Nat) (v : W64) : (s.writeS h n v).linkUp = s.linkUp := rfl
@[simp] theorem State.linkDown_writeS (s : State) (h n : Nat) (v : W64) : (s.writeS h n v).linkDown = s.linkDown := rfl
@[simp] theorem State.hostWaits_writeS (s : State) (h n : Nat) (v : W64) : (s.writeS h n v).hostWaits = s.hostWaits := rfl
@[simp] theorem State.linkQ_writeS (s : State) (h n : Nat) (v : W64) : (s.writeS h n v).linkQ = s.linkQ := rfl
@[simp] theorem State.cxlstat_writeS (s : State) (h n : Nat) (v : W64) : (s.writeS h n v).cxlstat = s.cxlstat := rfl
@[simp] theorem State.fabid_writeS (s : State) (h n : Nat) (v : W64) : (s.writeS h n v).fabid = s.fabid := rfl
@[simp] theorem State.fchan_writeS (s : State) (h n : Nat) (v : W64) : (s.writeS h n v).fchan = s.fchan := rfl
@[simp] theorem State.railstat_writeS (s : State) (h n : Nat) (v : W64) : (s.writeS h n v).railstat = s.railstat := rfl
@[simp] theorem State.permits_writeS (s : State) (h n : Nat) (v : W64) : (s.writeS h n v).permits = s.permits := rfl
@[simp] theorem State.granted_writeS (s : State) (h n : Nat) (v : W64) : (s.writeS h n v).granted = s.granted := rfl
@[simp] theorem State.sends_writeS (s : State) (h n : Nat) (v : W64) : (s.writeS h n v).sends = s.sends := rfl
@[simp] theorem State.sendSeq_writeS (s : State) (h n : Nat) (v : W64) : (s.writeS h n v).sendSeq = s.sendSeq := rfl
@[simp] theorem State.sendPark_writeS (s : State) (h n : Nat) (v : W64) : (s.writeS h n v).sendPark = s.sendPark := rfl
@[simp] theorem State.recvs_writeS (s : State) (h n : Nat) (v : W64) : (s.writeS h n v).recvs = s.recvs := rfl
@[simp] theorem State.outbox_writeS (s : State) (h n : Nat) (v : W64) : (s.writeS h n v).outbox = s.outbox := rfl
@[simp] theorem State.imgctx_writeS (s : State) (h n : Nat) (v : W64) : (s.writeS h n v).imgctx = s.imgctx := rfl
@[simp] theorem State.imgcode_writeS (s : State) (h n : Nat) (v : W64) : (s.writeS h n v).imgcode = s.imgcode := rfl
@[simp] theorem State.imgerr_writeS (s : State) (h n : Nat) (v : W64) : (s.writeS h n v).imgerr = s.imgerr := rfl
@[simp] theorem State.imgdone_writeS (s : State) (h n : Nat) (v : W64) : (s.writeS h n v).imgdone = s.imgdone := rfl
@[simp] theorem State.imgid_writeS (s : State) (h n : Nat) (v : W64) : (s.writeS h n v).imgid = s.imgid := rfl
@[simp] theorem State.imgload_writeS (s : State) (h n : Nat) (v : W64) : (s.writeS h n v).imgload = s.imgload := rfl
@[simp] theorem State.images_writeS (s : State) (h n : Nat) (v : W64) : (s.writeS h n v).images = s.images := rfl
@[simp] theorem State.nimage_writeS (s : State) (h n : Nat) (v : W64) : (s.writeS h n v).nimage = s.nimage := rfl
@[simp] theorem State.dbgctl_writeS (s : State) (h n : Nat) (v : W64) : (s.writeS h n v).dbgctl = s.dbgctl := rfl
@[simp] theorem State.cmderr_writeS (s : State) (h n : Nat) (v : W64) : (s.writeS h n v).cmderr = s.cmderr := rfl
@[simp] theorem State.data0_writeS (s : State) (h n : Nat) (v : W64) : (s.writeS h n v).data0 = s.data0 := rfl
@[simp] theorem State.data1_writeS (s : State) (h n : Nat) (v : W64) : (s.writeS h n v).data1 = s.data1 := rfl
@[simp] theorem State.data2_writeS (s : State) (h n : Nat) (v : W64) : (s.writeS h n v).data2 = s.data2 := rfl
@[simp] theorem State.dbgCmd_writeS (s : State) (h n : Nat) (v : W64) : (s.writeS h n v).dbgCmd = s.dbgCmd := rfl
@[simp] theorem State.bp_writeS (s : State) (h n : Nat) (v : W64) : (s.writeS h n v).bp = s.bp := rfl
@[simp] theorem State.msctl_writeS (s : State) (h n : Nat) (v : W64) : (s.writeS h n v).msctl = s.msctl := rfl
@[simp] theorem State.msbase_writeS (s : State) (h n : Nat) (v : W64) : (s.writeS h n v).msbase = s.msbase := rfl
@[simp] theorem State.msptr_writeS (s : State) (h n : Nat) (v : W64) : (s.writeS h n v).msptr = s.msptr := rfl
@[simp] theorem State.msrd_writeS (s : State) (h n : Nat) (v : W64) : (s.writeS h n v).msrd = s.msrd := rfl
@[simp] theorem State.msdrop_writeS (s : State) (h n : Nat) (v : W64) : (s.writeS h n v).msdrop = s.msdrop := rfl
@[simp] theorem State.msgap_writeS (s : State) (h n : Nat) (v : W64) : (s.writeS h n v).msgap = s.msgap := rfl
@[simp] theorem State.mstick_writeS (s : State) (h n : Nat) (v : W64) : (s.writeS h n v).mstick = s.mstick := rfl
@[simp] theorem State.counts_writeS (s : State) (h n : Nat) (v : W64) : (s.writeS h n v).counts = s.counts := rfl
@[simp] theorem State.pstate_writeS (s : State) (h n : Nat) (v : W64) : (s.writeS h n v).pstate = s.pstate := rfl
@[simp] theorem State.power_writeS (s : State) (h n : Nat) (v : W64) : (s.writeS h n v).power = s.power := rfl
@[simp] theorem State.former_writeS (s : State) (h n : Nat) (v : W64) : (s.writeS h n v).former = s.former := rfl
@[simp] theorem State.changing_writeS (s : State) (h n : Nat) (v : W64) : (s.writeS h n v).changing = s.changing := rfl
@[simp] theorem State.halfRate_writeS (s : State) (h n : Nat) (v : W64) : (s.writeS h n v).halfRate = s.halfRate := rfl
@[simp] theorem State.slowMem_writeS (s : State) (h n : Nat) (v : W64) : (s.writeS h n v).slowMem = s.slowMem := rfl
@[simp] theorem State.strec0_writeS (s : State) (h n : Nat) (v : W64) : (s.writeS h n v).strec0 = s.strec0 := rfl
@[simp] theorem State.strec1_writeS (s : State) (h n : Nat) (v : W64) : (s.writeS h n v).strec1 = s.strec1 := rfl
@[simp] theorem State.strec2_writeS (s : State) (h n : Nat) (v : W64) : (s.writeS h n v).strec2 = s.strec2 := rfl
@[simp] theorem State.prevStart_writeS (s : State) (h n : Nat) (v : W64) : (s.writeS h n v).prevStart = s.prevStart := rfl
@[simp] theorem State.booted_writeS (s : State) (h n : Nat) (v : W64) : (s.writeS h n v).booted = s.booted := rfl
@[simp] theorem State.recovery_writeS (s : State) (h n : Nat) (v : W64) : (s.writeS h n v).recovery = s.recovery := rfl
@[simp] theorem State.tripped_writeS (s : State) (h n : Nat) (v : W64) : (s.writeS h n v).tripped = s.tripped := rfl
@[simp] theorem State.meas_writeS (s : State) (h n : Nat) (v : W64) : (s.writeS h n v).meas = s.meas := rfl
@[simp] theorem State.attaddr_writeS (s : State) (h n : Nat) (v : W64) : (s.writeS h n v).attaddr = s.attaddr := rfl
@[simp] theorem State.attstat_writeS (s : State) (h n : Nat) (v : W64) : (s.writeS h n v).attstat = s.attstat := rfl
@[simp] theorem State.verges_writeS (s : State) (h n : Nat) (v : W64) : (s.writeS h n v).verges = s.verges := rfl

@[simp] theorem State.cur_advance (s : State) : s.advance.cur = s.cur := by unfold State.advance; split <;> simp [State.modHart_eq]
@[simp] theorem State.agenda_advance (s : State) : s.advance.agenda = s.agenda := by unfold State.advance; split <;> simp [State.modHart_eq]
@[simp] theorem State.cut_advance (s : State) : s.advance.cut = s.cut := by unfold State.advance; split <;> simp [State.modHart_eq]
@[simp] theorem State.fresh_advance (s : State) : s.advance.fresh = s.fresh := by unfold State.advance; split <;> simp [State.modHart_eq]
@[simp] theorem State.hostData_advance (s : State) : s.advance.hostData = s.hostData := by unfold State.advance; split <;> simp [State.modHart_eq]
@[simp] theorem State.a48_advance (s : State) : s.advance.a48 = s.a48 := by unfold State.advance; split <;> simp [State.modHart_eq]
@[simp] theorem State.stepping_advance (s : State) : s.advance.stepping = s.stepping := by unfold State.advance; split <;> simp [State.modHart_eq]
@[simp] theorem State.qplace_advance (s : State) : s.advance.qplace = s.qplace := by unfold State.advance; split <;> simp [State.modHart_eq]
@[simp] theorem State.cycle_advance (s : State) : s.advance.cycle = s.cycle := by unfold State.advance; split <;> simp [State.modHart_eq]
@[simp] theorem State.mem_advance (s : State) : s.advance.mem = s.mem := by unfold State.advance; split <;> simp [State.modHart_eq]
@[simp] theorem State.poison_advance (s : State) : s.advance.poison = s.poison := by unfold State.advance; split <;> simp [State.modHart_eq]
@[simp] theorem State.l1_advance (s : State) : s.advance.l1 = s.l1 := by unfold State.advance; split <;> simp [State.modHart_eq]
@[simp] theorem State.late_advance (s : State) : s.advance.late = s.late := by unfold State.advance; split <;> simp [State.modHart_eq]
@[simp] theorem State.icache_advance (s : State) : s.advance.icache = s.icache := by unfold State.advance; split <;> simp [State.modHart_eq]
@[simp] theorem State.tlb_advance (s : State) : s.advance.tlb = s.tlb := by unfold State.advance; split <;> simp [State.modHart_eq]
@[simp] theorem State.pins_advance (s : State) : s.advance.pins = s.pins := by unfold State.advance; split <;> simp [State.modHart_eq]
@[simp] theorem State.ctxsel_advance (s : State) : s.advance.ctxsel = s.ctxsel := by unfold State.advance; split <;> simp [State.modHart_eq]
@[simp] theorem State.ctxroot_advance (s : State) : s.advance.ctxroot = s.ctxroot := by unfold State.advance; split <;> simp [State.modHart_eq]
@[simp] theorem State.roots_advance (s : State) : s.advance.roots = s.roots := by unfold State.advance; split <;> simp [State.modHart_eq]
@[simp] theorem State.fqring_advance (s : State) : s.advance.fqring = s.fqring := by unfold State.advance; split <;> simp [State.modHart_eq]
@[simp] theorem State.fqhead_advance (s : State) : s.advance.fqhead = s.fqhead := by unfold State.advance; split <;> simp [State.modHart_eq]
@[simp] theorem State.fqtail_advance (s : State) : s.advance.fqtail = s.fqtail := by unfold State.advance; split <;> simp [State.modHart_eq]
@[simp] theorem State.reports_advance (s : State) : s.advance.reports = s.reports := by unfold State.advance; split <;> simp [State.modHart_eq]
@[simp] theorem State.live_advance (s : State) : s.advance.live = s.live := by unfold State.advance; split <;> simp [State.modHart_eq]
@[simp] theorem State.hq_advance (s : State) : s.advance.hq = s.hq := by unfold State.advance; split <;> simp [State.modHart_eq]
@[simp] theorem State.dq_advance (s : State) : s.advance.dq = s.dq := by unfold State.advance; split <;> simp [State.modHart_eq]
@[simp] theorem State.rr_advance (s : State) : s.advance.rr = s.rr := by unfold State.advance; split <;> simp [State.modHart_eq]
@[simp] theorem State.launches_advance (s : State) : s.advance.launches = s.launches := by unfold State.advance; split <;> simp [State.modHart_eq]
@[simp] theorem State.teams_advance (s : State) : s.advance.teams = s.teams := by unfold State.advance; split <;> simp [State.modHart_eq]
@[simp] theorem State.nlaunch_advance (s : State) : s.advance.nlaunch = s.nlaunch := by unfold State.advance; split <;> simp [State.modHart_eq]
@[simp] theorem State.nteam_advance (s : State) : s.advance.nteam = s.nteam := by unfold State.advance; split <;> simp [State.modHart_eq]
@[simp] theorem State.nage_advance (s : State) : s.advance.nage = s.nage := by unfold State.advance; split <;> simp [State.modHart_eq]
@[simp] theorem State.nplace_advance (s : State) : s.advance.nplace = s.nplace := by unfold State.advance; split <;> simp [State.modHart_eq]
@[simp] theorem State.savedFrom_advance (s : State) : s.advance.savedFrom = s.savedFrom := by unfold State.advance; split <;> simp [State.modHart_eq]
@[simp] theorem State.cmds_advance (s : State) : s.advance.cmds = s.cmds := by unfold State.advance; split <;> simp [State.modHart_eq]
@[simp] theorem State.ritQ_advance (s : State) : s.advance.ritQ = s.ritQ := by unfold State.advance; split <;> simp [State.modHart_eq]
@[simp] theorem State.dueEntries_advance (s : State) : s.advance.dueEntries = s.dueEntries := by unfold State.advance; split <;> simp [State.modHart_eq]
@[simp] theorem State.linkUp_advance (s : State) : s.advance.linkUp = s.linkUp := by unfold State.advance; split <;> simp [State.modHart_eq]
@[simp] theorem State.linkDown_advance (s : State) : s.advance.linkDown = s.linkDown := by unfold State.advance; split <;> simp [State.modHart_eq]
@[simp] theorem State.hostWaits_advance (s : State) : s.advance.hostWaits = s.hostWaits := by unfold State.advance; split <;> simp [State.modHart_eq]
@[simp] theorem State.linkQ_advance (s : State) : s.advance.linkQ = s.linkQ := by unfold State.advance; split <;> simp [State.modHart_eq]
@[simp] theorem State.cxlstat_advance (s : State) : s.advance.cxlstat = s.cxlstat := by unfold State.advance; split <;> simp [State.modHart_eq]
@[simp] theorem State.fabid_advance (s : State) : s.advance.fabid = s.fabid := by unfold State.advance; split <;> simp [State.modHart_eq]
@[simp] theorem State.fchan_advance (s : State) : s.advance.fchan = s.fchan := by unfold State.advance; split <;> simp [State.modHart_eq]
@[simp] theorem State.railstat_advance (s : State) : s.advance.railstat = s.railstat := by unfold State.advance; split <;> simp [State.modHart_eq]
@[simp] theorem State.permits_advance (s : State) : s.advance.permits = s.permits := by unfold State.advance; split <;> simp [State.modHart_eq]
@[simp] theorem State.granted_advance (s : State) : s.advance.granted = s.granted := by unfold State.advance; split <;> simp [State.modHart_eq]
@[simp] theorem State.sends_advance (s : State) : s.advance.sends = s.sends := by unfold State.advance; split <;> simp [State.modHart_eq]
@[simp] theorem State.sendSeq_advance (s : State) : s.advance.sendSeq = s.sendSeq := by unfold State.advance; split <;> simp [State.modHart_eq]
@[simp] theorem State.sendPark_advance (s : State) : s.advance.sendPark = s.sendPark := by unfold State.advance; split <;> simp [State.modHart_eq]
@[simp] theorem State.recvs_advance (s : State) : s.advance.recvs = s.recvs := by unfold State.advance; split <;> simp [State.modHart_eq]
@[simp] theorem State.outbox_advance (s : State) : s.advance.outbox = s.outbox := by unfold State.advance; split <;> simp [State.modHart_eq]
@[simp] theorem State.imgctx_advance (s : State) : s.advance.imgctx = s.imgctx := by unfold State.advance; split <;> simp [State.modHart_eq]
@[simp] theorem State.imgcode_advance (s : State) : s.advance.imgcode = s.imgcode := by unfold State.advance; split <;> simp [State.modHart_eq]
@[simp] theorem State.imgerr_advance (s : State) : s.advance.imgerr = s.imgerr := by unfold State.advance; split <;> simp [State.modHart_eq]
@[simp] theorem State.imgdone_advance (s : State) : s.advance.imgdone = s.imgdone := by unfold State.advance; split <;> simp [State.modHart_eq]
@[simp] theorem State.imgid_advance (s : State) : s.advance.imgid = s.imgid := by unfold State.advance; split <;> simp [State.modHart_eq]
@[simp] theorem State.imgload_advance (s : State) : s.advance.imgload = s.imgload := by unfold State.advance; split <;> simp [State.modHart_eq]
@[simp] theorem State.images_advance (s : State) : s.advance.images = s.images := by unfold State.advance; split <;> simp [State.modHart_eq]
@[simp] theorem State.nimage_advance (s : State) : s.advance.nimage = s.nimage := by unfold State.advance; split <;> simp [State.modHart_eq]
@[simp] theorem State.dbgctl_advance (s : State) : s.advance.dbgctl = s.dbgctl := by unfold State.advance; split <;> simp [State.modHart_eq]
@[simp] theorem State.cmderr_advance (s : State) : s.advance.cmderr = s.cmderr := by unfold State.advance; split <;> simp [State.modHart_eq]
@[simp] theorem State.data0_advance (s : State) : s.advance.data0 = s.data0 := by unfold State.advance; split <;> simp [State.modHart_eq]
@[simp] theorem State.data1_advance (s : State) : s.advance.data1 = s.data1 := by unfold State.advance; split <;> simp [State.modHart_eq]
@[simp] theorem State.data2_advance (s : State) : s.advance.data2 = s.data2 := by unfold State.advance; split <;> simp [State.modHart_eq]
@[simp] theorem State.dbgCmd_advance (s : State) : s.advance.dbgCmd = s.dbgCmd := by unfold State.advance; split <;> simp [State.modHart_eq]
@[simp] theorem State.bp_advance (s : State) : s.advance.bp = s.bp := by unfold State.advance; split <;> simp [State.modHart_eq]
@[simp] theorem State.msctl_advance (s : State) : s.advance.msctl = s.msctl := by unfold State.advance; split <;> simp [State.modHart_eq]
@[simp] theorem State.msbase_advance (s : State) : s.advance.msbase = s.msbase := by unfold State.advance; split <;> simp [State.modHart_eq]
@[simp] theorem State.msptr_advance (s : State) : s.advance.msptr = s.msptr := by unfold State.advance; split <;> simp [State.modHart_eq]
@[simp] theorem State.msrd_advance (s : State) : s.advance.msrd = s.msrd := by unfold State.advance; split <;> simp [State.modHart_eq]
@[simp] theorem State.msdrop_advance (s : State) : s.advance.msdrop = s.msdrop := by unfold State.advance; split <;> simp [State.modHart_eq]
@[simp] theorem State.msgap_advance (s : State) : s.advance.msgap = s.msgap := by unfold State.advance; split <;> simp [State.modHart_eq]
@[simp] theorem State.mstick_advance (s : State) : s.advance.mstick = s.mstick := by unfold State.advance; split <;> simp [State.modHart_eq]
@[simp] theorem State.counts_advance (s : State) : s.advance.counts = s.counts := by unfold State.advance; split <;> simp [State.modHart_eq]
@[simp] theorem State.pstate_advance (s : State) : s.advance.pstate = s.pstate := by unfold State.advance; split <;> simp [State.modHart_eq]
@[simp] theorem State.power_advance (s : State) : s.advance.power = s.power := by unfold State.advance; split <;> simp [State.modHart_eq]
@[simp] theorem State.former_advance (s : State) : s.advance.former = s.former := by unfold State.advance; split <;> simp [State.modHart_eq]
@[simp] theorem State.changing_advance (s : State) : s.advance.changing = s.changing := by unfold State.advance; split <;> simp [State.modHart_eq]
@[simp] theorem State.halfRate_advance (s : State) : s.advance.halfRate = s.halfRate := by unfold State.advance; split <;> simp [State.modHart_eq]
@[simp] theorem State.slowMem_advance (s : State) : s.advance.slowMem = s.slowMem := by unfold State.advance; split <;> simp [State.modHart_eq]
@[simp] theorem State.strec0_advance (s : State) : s.advance.strec0 = s.strec0 := by unfold State.advance; split <;> simp [State.modHart_eq]
@[simp] theorem State.strec1_advance (s : State) : s.advance.strec1 = s.strec1 := by unfold State.advance; split <;> simp [State.modHart_eq]
@[simp] theorem State.strec2_advance (s : State) : s.advance.strec2 = s.strec2 := by unfold State.advance; split <;> simp [State.modHart_eq]
@[simp] theorem State.prevStart_advance (s : State) : s.advance.prevStart = s.prevStart := by unfold State.advance; split <;> simp [State.modHart_eq]
@[simp] theorem State.booted_advance (s : State) : s.advance.booted = s.booted := by unfold State.advance; split <;> simp [State.modHart_eq]
@[simp] theorem State.recovery_advance (s : State) : s.advance.recovery = s.recovery := by unfold State.advance; split <;> simp [State.modHart_eq]
@[simp] theorem State.tripped_advance (s : State) : s.advance.tripped = s.tripped := by unfold State.advance; split <;> simp [State.modHart_eq]
@[simp] theorem State.meas_advance (s : State) : s.advance.meas = s.meas := by unfold State.advance; split <;> simp [State.modHart_eq]
@[simp] theorem State.attaddr_advance (s : State) : s.advance.attaddr = s.attaddr := by unfold State.advance; split <;> simp [State.modHart_eq]
@[simp] theorem State.attstat_advance (s : State) : s.advance.attstat = s.attstat := by unfold State.advance; split <;> simp [State.modHart_eq]

@[simp] theorem State.team_setPc (s : State) (p : Party) (a : W64) (j : Nat) : (s.setPc p a).team j = s.team j := by cases p <;> rfl
@[simp] theorem State.team_writeX (s : State) (p : Party) (r : Nat) (v : W64) (j : Nat) : (s.writeX p r v).team j = s.team j := by
  cases p <;> simp only [State.writeX] <;> split <;> rfl
@[simp] theorem State.team_advance (s : State) (j : Nat) : s.advance.team j = s.team j := by
  unfold State.advance; split <;> simp [State.modHart_eq]
@[simp] theorem State.wordBytes_setPc (s : State) (p q : Party) (a : W64) : (s.setPc p a).wordBytes q = s.wordBytes q := by
  cases q <;> simp [State.wordBytes]
@[simp] theorem State.wordBytes_writeX (s : State) (p q : Party) (r : Nat) (v : W64) :
    (s.writeX p r v).wordBytes q = s.wordBytes q := by cases q <;> simp [State.wordBytes]

/-- A write of a control register changes no program counter. -/
@[simp] theorem State.pcOf_writeX (s : State) (p q : Party) (r : Nat) (v : W64) : (s.writeX p r v).pcOf q = s.pcOf q := by
  unfold State.writeX
  split
  · rfl
  · cases p <;> cases q <;> simp [State.pcOf, State.modHart_eq, State.modVerge_eq] <;> split <;> simp_all

/-- A control register reads what was last written to it; x0 reads 0. -/
theorem State.readX_writeX (s : State) (p : Party) (r : Nat) (v : W64) (q : Nat) :
    (s.writeX p r v).readX p q = if q = r then (if r = 0 then 0 else v) else s.readX p q := by
  unfold State.writeX State.readX
  by_cases hr : r = 0
  · subst hr; by_cases hq : q = 0 <;> simp [hq]
  · by_cases hq : q = 0
    · subst hq; rw [if_neg (Ne.symm hr)]; simp
    · rw [if_neg hr, if_neg hq, if_neg hr]
      cases p <;> simp only [State.modHart_eq, State.modVerge_eq, State.hart_setHart, State.verge_setVerge, if_true, Tab.get_put]
      <;> split <;> simp_all

/-- Moving a program counter changes no control register. -/
@[simp] theorem State.readX_setPc (s : State) (p : Party) (a : W64) (q : Party) (r : Nat) :
    (s.setPc p a).readX q r = s.readX q r := by
  unfold State.readX
  split
  · rfl
  · cases p <;> cases q <;> simp [State.setPc, State.modHart_eq, State.modVerge_eq] <;> split <;> simp_all

@[simp] theorem State.readX_advance (s : State) (p : Party) (r : Nat) : s.advance.readX p r = s.readX p r := by
  unfold State.advance
  split
  · unfold State.readX
    split
    · rfl
    · cases p <;> simp [State.setPc, State.modHart_eq] <;> split <;> simp_all
  · simp

/-- Other s registers keep their values. -/
theorem State.readS_writeS (s : State) (h n : Nat) (v : W64) (j m : Nat) :
    (s.writeS h n v).readS j m = if j = h ∧ m = n then v else s.readS j m := by
  unfold State.readS State.writeS
  rw [State.modHart_eq, State.hart_setHart]
  by_cases hj : j = h
  · subst hj; simp [Tab.get_put]
  · simp [hj]

end Sys2Proof.Machine
end

