-- ==== Sys2Proof/Laws/Control.lean ====
section
/-! SUPPORT. What the shared operations of the control stream do. -/

namespace Sys2Proof.Machine

/-- A completion, from what exec calls for the instruction. -/
theorem Completes.of {i : Instr} {s : State} {P : State → Prop} {r : Result} (he : exec i s = r)
    (h : ∃ t, r = .next t ∧ P t) : Completes i s P := by
  obtain ⟨t, h1, h2⟩ := h
  exact ⟨t, he.trans h1, h2⟩

/-- Nothing under the table of harts or verge cores is memory. -/
theorem State.sameBytes_of (s t : State) (hm : t.mem = s.mem) (hl : t.l1 = s.l1) (ht : ∀ g, t.team g = s.team g) :
    s.SameBytes t := by
  refine ⟨fun pa => by rw [State.homeByte, hm], fun c pa => by rw [State.l1Byte, State.l1Byte, hl], fun g o => ?_⟩
  rw [State.spadByte, ht]

/-- A register written and the pc moved, by the control party that executes. -/
theorem State.controlFrame_write (s : State) (d : BitVec 5) (v a : W64) (hc : s.isControl = true) :
    s.ControlFrame ((s.putX d v).setPc s.cur a) := by
  unfold State.ControlFrame State.putX State.writeX State.setPc
  unfold State.isControl at hc
  split
  · rename_i h e
    try rw [e]
    by_cases hd : d.toNat = 0
    · simp only [hd, if_true, State.modHart_eq]
      exact ⟨_, _, rfl⟩
    · simp only [hd, if_false, State.modHart_eq, State.hart_setHart_self, State.setHart_setHart]
      exact ⟨_, _, rfl⟩
  · simp_all
  · rename_i n e
    try rw [e]
    by_cases hd : d.toNat = 0
    · simp only [hd, if_true, State.modVerge_eq]
      exact ⟨_, _, rfl⟩
    · simp only [hd, if_false, State.modVerge_eq, State.verge_setVerge_self, State.setVerge_setVerge]
      exact ⟨_, _, rfl⟩

/-- Going on, for a control party. -/
theorem State.advance_control (s : State) (hc : s.isControl = true) :
    s.advance = s.setPc s.cur (s.pcOf s.cur + BitVec.ofNat 64 (s.wordBytes s.cur)) := by
  unfold State.advance
  unfold State.isControl at hc
  split <;> simp_all

/-- The pc of a party after it has been set: a hart's keeps 48 bits. -/
theorem State.pcOf_setPc (s : State) (p : Party) (a : W64) :
    (s.setPc p a).pcOf p = (match p with | .verge _ => a | _ => (a.setWidth 48).setWidth 64) := by
  cases p <;> simp [State.setPc, State.pcOf, State.modHart_eq, State.modVerge_eq]

theorem State.pcOf_advance (s : State) (hc : s.isControl = true) : s.advance.pcOf s.cur = s.nextPc := by
  rw [State.advance_control s hc, State.pcOf_setPc]
  unfold State.nextPc
  cases e : s.cur with
  | ctrl h =>
    simp only [State.pcOf]
    congr 1
    apply BitVec.eq_of_toNat_eq
    simp only [BitVec.toNat_setWidth, BitVec.toNat_add, BitVec.toNat_ofNat]
    omega
  | vec h => simp [State.isControl, e] at hc
  | verge n => rfl

@[simp] theorem State.isControl_putX (s : State) (d : BitVec 5) (v : W64) : (s.putX d v).isControl = s.isControl := by
  simp [State.isControl, State.putX]

@[simp] theorem State.nextPc_putX (s : State) (d : BitVec 5) (v : W64) : (s.putX d v).nextPc = s.nextPc := by
  have h := State.pcOf_writeX s s.cur s.cur d.toNat v
  unfold State.nextPc
  simp only [State.putX, State.cur_writeX, State.wordBytes_writeX]
  cases e : s.cur <;> simp only [e, State.pcOf] at h ⊢
  · have h' := congrArg (BitVec.setWidth 48) h
    simp at h'
    rw [h']
  · have h' := congrArg (BitVec.setWidth 48) h
    simp at h'
    rw [h']
  · rw [h]

/-- THE EFFECT OF A CONTROL INSTRUCTION WITH A REGISTER RESULT: the value in rd, the pc at the next word, all else as
before. -/
theorem State.controlResult_putX (s : State) (d : BitVec 5) (v : W64) (hc : s.isControl = true) :
    s.ControlResult d v s.nextPc (s.putX d v).advance := by
  have hd : (d = 0) ↔ d.toNat = 0 := by
    constructor
    · intro h; subst h; rfl
    · intro h; exact BitVec.eq_of_toNat_eq h
  have hc' : (s.putX d v).isControl = true := by rw [State.isControl_putX, hc]
  refine ⟨?_, ?_, ?_, ?_, ?_⟩
  · rw [State.readX_advance, State.putX, State.readX_writeX, if_pos rfl]
    simp only [hd]
  · intro r hr
    have hr' : r.toNat ≠ d.toNat := fun h => hr (BitVec.eq_of_toNat_eq h)
    rw [State.readX_advance, State.putX, State.readX_writeX, if_neg hr']
  · have h := State.pcOf_advance (s.putX d v) hc'
    rw [State.nextPc_putX] at h
    simpa [State.putX] using h
  · rw [State.advance_control _ hc']
    have h1 : (s.putX d v).cur = s.cur := by simp [State.putX]
    rw [h1]
    exact State.controlFrame_write s d v _ hc
  · exact State.sameBytes_of _ _ (by simp [State.putX]) (by simp [State.putX]) (fun g => by simp [State.putX])

/-- A pure control instruction whose effect is one register write. -/
theorem onControl_putX (s : State) (d : BitVec 5) (v : W64) (hc : s.isControl = true) :
    ∃ t, onControl s (fun s => s.putX d v) = .next t ∧ s.ControlResult d v s.nextPc t :=
  ⟨_, by simp [onControl, hc], State.controlResult_putX s d v hc⟩

theorem aluRR_result (f : W64 → W64 → W64) (s : State) (d a b : BitVec 5) (hc : s.isControl = true) :
    ∃ t, aluRR f d a b s = .next t ∧ s.ControlResult d (f (s.getX a) (s.getX b)) s.nextPc t :=
  ⟨_, by simp [aluRR, onControl, hc], State.controlResult_putX s d _ hc⟩

theorem aluRI_result (f : W64 → W64 → W64) (s : State) (d a : BitVec 5) (i : BitVec 14) (hc : s.isControl = true) :
    ∃ t, aluRI f d a i s = .next t ∧ s.ControlResult d (f (s.getX a) (i.signExtend 64)) s.nextPc t :=
  ⟨_, by simp [aluRI, onControl, hc], State.controlResult_putX s d _ hc⟩

theorem aluShift_result (f : W64 → Nat → W64) (s : State) (d a : BitVec 5) (i : BitVec 14) (hc : s.isControl = true)
    (hi : i.toNat ≤ 63) :
    ∃ t, aluShift f d a i s = .next t ∧ s.ControlResult d (f (s.getX a) i.toNat) s.nextPc t :=
  ⟨_, by simp [aluShift, onControl, hc, show ¬ 63 < i.toNat by omega], State.controlResult_putX s d _ hc⟩

theorem aluShift_reserved (f : W64 → Nat → W64) (s : State) (d a : BitVec 5) (i : BitVec 14) (hc : s.isControl = true)
    (hi : 63 < i.toNat) : aluShift f d a i s = .next (s.takeTrap (illegal .reservedValue)) := by
  simp [aluShift, hc, hi, trapNow]

end Sys2Proof.Machine
end

