-- ==== Sys2Proof/Laws/Memory.lean ====
section
/-! SUPPORT. The laws of memory: every operation keeps the canonical form; what a read gives after a write; what fills,
write-backs, releases and acquires leave as it was. -/

namespace Sys2Proof.Machine

/-- The value a core's own latest store or the home copy gives a byte: what a write-back would leave at home. -/
theorem State.ownByte_eq (s : State) (core pa : Nat) :
    s.ownByte core pa = (match s.l1Byte core pa with | some b => if b.dirty then b.val else s.homeByte pa | none => s.homeByte pa) := rfl

/-! ### Writes at the home copies -/

theorem State.homeByte_putHome (s : State) (pa : Nat) (bs : List Byte) (q : Nat) :
    (s.putHome pa bs).homeByte q = if pa ≤ q ∧ q < pa + bs.length then bs.getD (q - pa) 0 else s.homeByte q := by
  induction bs generalizing s pa with
  | nil => simp [State.putHome] <;> omega
  | cons b t ih =>
    rw [State.putHome, ih]
    by_cases h : q = pa
    · subst h; rw [if_neg (by omega), if_pos (by simp)]; simp [State.homeByte]
    · simp only [State.homeByte, Tab.get_put, if_neg h, List.length_cons]
      by_cases h2 : pa + 1 ≤ q ∧ q < pa + 1 + t.length
      · rw [if_pos h2, if_pos (by omega), show q - pa = (q - (pa + 1)) + 1 by omega, List.getD_cons_succ]
      · rw [if_neg h2, if_neg (by omega)]

/-- Writing home bytes touches no field but the bytes. -/
theorem State.putHome_eq (s : State) (pa : Nat) (bs : List Byte) : s.putHome pa bs = { s with mem := (s.putHome pa bs).mem } := by
  induction bs generalizing s pa with
  | nil => rfl
  | cons b t ih => rw [State.putHome, ih]

theorem State.homeWrite_eq (s : State) (pa : Nat) (bs : List Byte) :
    s.homeWrite pa bs = { s with mem := (s.putHome pa bs).mem, poison := (s.homeWrite pa bs).poison } := by
  rw [State.homeWrite, State.putHome_eq]

/-- A home write stores its bytes and leaves every other byte alone. -/
theorem State.homeByte_homeWrite (s : State) (pa : Nat) (bs : List Byte) (q : Nat) :
    (s.homeWrite pa bs).homeByte q = if pa ≤ q ∧ q < pa + bs.length then bs.getD (q - pa) 0 else s.homeByte q :=
  State.homeByte_putHome s pa bs q

@[simp] theorem State.l1Byte_homeWrite (s : State) (pa : Nat) (bs : List Byte) (c q : Nat) :
    (s.homeWrite pa bs).l1Byte c q = s.l1Byte c q := by rw [State.homeWrite_eq]; rfl

theorem State.outWrite_eq (s : State) (pa : Nat) (bs : List Byte) :
    s.outWrite pa bs = { s with mem := (s.outWrite pa bs).mem, poison := (s.outWrite pa bs).poison, linkQ := (s.outWrite pa bs).linkQ } := by
  unfold State.outWrite
  split
  · rfl
  · rw [State.homeWrite_eq]

@[simp] theorem State.l1Byte_outWrite (s : State) (pa : Nat) (bs : List Byte) (c q : Nat) :
    (s.outWrite pa bs).l1Byte c q = s.l1Byte c q := by rw [State.outWrite_eq]; rfl

/-! ### The canonical form -/

theorem State.wf_putHome (s : State) (pa : Nat) (bs : List Byte) (h : Memory.wf s.mem = true) :
    Memory.wf (s.putHome pa bs).mem = true := by
  induction bs generalizing s pa with
  | nil => exact h
  | cons b t ih => exact ih _ _ (Tab.wf_put _ _ _ _ h)

theorem State.wf_homeWrite (s : State) (pa : Nat) (bs : List Byte) (h : Memory.wf s.mem = true) :
    Memory.wf (s.homeWrite pa bs).mem = true := State.wf_putHome s pa bs h

theorem State.wf_outWrite (s : State) (pa : Nat) (bs : List Byte) (h : Memory.wf s.mem = true) :
    Memory.wf (s.outWrite pa bs).mem = true := by
  unfold State.outWrite
  split
  · exact h
  · exact State.wf_homeWrite s pa bs h

/-- A fold of steps that keep a property keeps it. -/
theorem foldl_keeps {α β : Type} (P : α → Prop) (f : α → β → α) (hf : ∀ a b, P a → P (f a b)) (l : List β) (a : α) (h : P a) :
    P (l.foldl f a) := by
  induction l generalizing a with
  | nil => exact h
  | cons b t ih => exact ih _ (hf a b h)

theorem State.wf_sendLine (s : State) (core line : Nat) (h : Memory.wf s.mem = true) :
    Memory.wf (s.sendLine core line).mem = true := by
  unfold State.sendLine
  dsimp only
  split
  · exact State.wf_outWrite s _ _ h
  · exact foldl_keeps (fun s : State => Memory.wf s.mem = true) _ (fun s e => State.wf_outWrite s _ _) _ _ h

@[simp] theorem State.mem_writeBack (s : State) (core line : Nat) : (s.writeBack core line).mem = (s.sendLine core line).mem :=
  foldl_keeps (fun t : State => t.mem = (s.sendLine core line).mem) (fun s e => s.cleanByte core e) (fun _ _ h => h) _ _ rfl

theorem State.wf_writeBack (s : State) (core line : Nat) (h : Memory.wf s.mem = true) :
    Memory.wf (s.writeBack core line).mem = true := by
  rw [State.mem_writeBack]; exact State.wf_sendLine s core line h

@[simp] theorem State.mem_putL1 (s : State) (core pa : Nat) (b : Option L1Byte) : (s.putL1 core pa b).mem = s.mem := rfl

@[simp] theorem State.mem_dropLine (s : State) (core line : Nat) (all : Bool) : (s.dropLine core line all).mem = s.mem := by
  refine foldl_keeps (fun t : State => t.mem = s.mem) _ (fun a i h => ?_) _ _ rfl
  split
  · split
    · exact h
    · exact h
  · exact h

theorem State.wf_flushLine (s : State) (core line : Nat) (h : Memory.wf s.mem = true) :
    Memory.wf (s.flushLine core line).mem = true := by
  rw [State.flushLine, State.mem_dropLine]; exact State.wf_writeBack s core line h

theorem State.wf_flush (s : State) (core pa n : Nat) (h : Memory.wf s.mem = true) :
    Memory.wf (s.flush core pa n).mem = true :=
  foldl_keeps (fun s : State => Memory.wf s.mem = true) _ (fun s l => State.wf_flushLine s core l) _ _ h

theorem State.wf_release (s : State) (core : Nat) (sc : Scope) (h : Memory.wf s.mem = true) :
    Memory.wf (s.release core sc).mem = true := by
  unfold State.release
  split
  · exact h
  · exact foldl_keeps (fun s : State => Memory.wf s.mem = true) _ (fun s l => State.wf_writeBack s core l) _ _ h

@[simp] theorem State.mem_acquire (s : State) (core : Nat) (sc : Scope) : (s.acquire core sc).mem = s.mem := by
  unfold State.acquire
  split
  · rfl
  · have h := foldl_keeps (fun t : State => t.mem = s.mem) (fun s l => s.dropLine core l false)
      (fun a l h => by rw [State.mem_dropLine, h]) (s.linesOf core) s rfl
    dsimp only
    split
    · exact h
    · exact h

@[simp] theorem State.mem_fill (s : State) (core pa n : Nat) : (s.fill core pa n).mem = s.mem := by
  induction n generalizing s pa with
  | zero => rfl
  | succ n ih => rw [State.fill, ih]; split <;> rfl

@[simp] theorem State.mem_l1Write (s : State) (core pa : Nat) (bs : List Byte) : (s.l1Write core pa bs).mem = s.mem := by
  induction bs generalizing s pa with
  | nil => rfl
  | cons b t ih => rw [State.l1Write, ih]; rfl

/-- Reset's memory has the canonical form. -/
theorem State.wf_reset : Memory.wf State.reset.mem = true := rfl

/-! ### The L1 -/

theorem l1key_inj {c c' q q' : Nat} (h : q < 2 ^ 52) (h' : q' < 2 ^ 52) : l1key c q = l1key c' q' ↔ c = c' ∧ q = q' := by
  unfold l1key
  constructor
  · intro e; constructor <;> omega
  · rintro ⟨rfl, rfl⟩; rfl

theorem State.l1Byte_putL1 (s : State) (core pa : Nat) (b : Option L1Byte) (c q : Nat) (hp : pa < 2 ^ 52) (hq : q < 2 ^ 52) :
    (s.putL1 core pa b).l1Byte c q = if c = core ∧ q = pa then b else s.l1Byte c q := by
  simp only [State.l1Byte, State.putL1, Tab.get_put, l1key_inj hq hp]

@[simp] theorem State.homeByte_putL1 (s : State) (core pa : Nat) (b : Option L1Byte) (q : Nat) :
    (s.putL1 core pa b).homeByte q = s.homeByte q := rfl

/-- A fill touches no field but the L1. -/
theorem State.fill_eq (s : State) (core pa n : Nat) : s.fill core pa n = { s with l1 := (s.fill core pa n).l1 } := by
  induction n generalizing s pa with
  | zero => rfl
  | succ n ih =>
    rw [State.fill, ih]
    split <;> rfl

/-- The core holds a byte as dirty, in terms of the byte. -/
theorem State.dirtyAt_eq (s : State) (core q : Nat) : s.dirtyAt core q = true ↔ ∃ b, s.l1Byte core q = some b ∧ b.dirty = true := by
  unfold State.dirtyAt
  cases h : s.l1Byte core q <;> simp

/-- WHAT A FILL DOES (R186, R251): each byte of the range that the core does not hold as dirty is valid and as it stands at home;
every other L1 byte is as before. -/
theorem State.l1Byte_fill (s : State) (core pa n : Nat) (c q : Nat) (hp : pa + n ≤ 2 ^ 52) (hq : q < 2 ^ 52) :
    (s.fill core pa n).l1Byte c q
      = if c = core ∧ pa ≤ q ∧ q < pa + n ∧ s.dirtyAt core q = false then some ⟨s.homeByte q, false, s.cycle⟩ else s.l1Byte c q := by
  induction n generalizing s pa with
  | zero => rw [if_neg (by omega)]; rfl
  | succ n ih =>
    have step (hqp : q ≠ pa) : (c = core ∧ pa + 1 ≤ q ∧ q < pa + 1 + n ∧ s.dirtyAt core q = false)
        ↔ (c = core ∧ pa ≤ q ∧ q < pa + (n + 1) ∧ s.dirtyAt core q = false) :=
      ⟨fun h => ⟨h.1, by omega, by omega, h.2.2.2⟩, fun h => ⟨h.1, by omega, by omega, h.2.2.2⟩⟩
    rw [State.fill]
    by_cases hd : s.dirtyAt core pa = true
    · rw [if_pos hd, ih s (pa + 1) (by omega)]
      by_cases hqp : q = pa
      · subst hqp; rw [if_neg (by omega), if_neg (by simp [hd])]
      · simp only [step hqp]
    · rw [if_neg hd, ih _ (pa + 1) (by omega)]
      have h1 := State.l1Byte_putL1 s core pa (some ⟨Tab.get 0 s.mem pa, false, s.cycle⟩)
      by_cases hqp : q = pa
      · subst hqp
        rw [if_neg (by omega), h1 c q (by omega) hq]
        by_cases hc : c = core
        · rw [if_pos ⟨hc, rfl⟩, if_pos ⟨hc, by omega, by omega, by simpa using hd⟩]
        · rw [if_neg (by omega), if_neg (by omega)]
      · have e : (s.putL1 core pa (some ⟨Tab.get 0 s.mem pa, false, s.cycle⟩)).dirtyAt core q = s.dirtyAt core q := by
          unfold State.dirtyAt
          rw [h1 core q (by omega) hq, if_neg (fun h => hqp h.2)]
        rw [e, h1 c q (by omega) hq, if_neg (c := c = core ∧ q = pa) (fun h => hqp h.2)]
        simp only [step hqp]
        rfl

/-- A fill changes no byte as the core's own stores give it. -/
theorem State.ownByte_fill (s : State) (core pa n : Nat) (c q : Nat) (hp : pa + n ≤ 2 ^ 52) (hq : q < 2 ^ 52) :
    (s.fill core pa n).ownByte c q = s.ownByte c q := by
  have hm : (s.fill core pa n).homeByte q = s.homeByte q := by rw [State.homeByte, State.mem_fill]
  have hf := State.l1Byte_fill s core pa n c q hp hq
  by_cases h : c = core ∧ pa ≤ q ∧ q < pa + n ∧ s.dirtyAt core q = false
  · rw [if_pos h] at hf
    obtain ⟨rfl, -, -, hd⟩ := h
    have hc : s.ownByte c q = s.homeByte q := by
      unfold State.dirtyAt at hd
      unfold State.ownByte
      cases e : s.l1Byte c q with
      | none => rfl
      | some b => rw [e] at hd; simp_all
    rw [hc, State.ownByte, hf, ← hm]
    rfl
  · rw [if_neg h] at hf
    rw [State.ownByte, State.ownByte, hf, hm]

/-- After a fill of the line a load sees each of its bytes as the core's own stores give it. -/
theorem State.seenByte_fill (s : State) (core pa n : Nat) (q : Nat) (hp : pa + n ≤ 2 ^ 52) (h1 : pa ≤ q) (h2 : q < pa + n) :
    (s.fill core pa n).seenByte core q = s.ownByte core q := by
  have hq : q < 2 ^ 52 := by omega
  have hm : (s.fill core pa n).homeByte q = s.homeByte q := by rw [State.homeByte, State.mem_fill]
  have hf := State.l1Byte_fill s core pa n core q hp hq
  cases hd : s.dirtyAt core q with
  | false =>
    rw [if_pos ⟨rfl, h1, h2, hd⟩] at hf
    unfold State.seenByte State.ownByte
    rw [hf]
    unfold State.dirtyAt at hd
    split
    · rename_i b e; cases e; split <;> simp_all
    · rename_i e; cases e
  | true =>
    obtain ⟨b, hb, hbd⟩ := (State.dirtyAt_eq s core q).mp hd
    rw [if_neg (by simp [hd]), hb] at hf
    simp [State.seenByte, State.ownByte, hf, hb, hbd]

/-- What a load gives: the values its core sees. -/
theorem State.l1Read_eq (s : State) (core pa n : Nat) : s.l1Read core pa n = (List.range n).map (fun i => s.seenByte core (pa + i)) := rfl

/-- A store touches no field but the L1. -/
theorem State.l1Write_eq (s : State) (core pa : Nat) (bs : List Byte) :
    s.l1Write core pa bs = { s with l1 := (s.l1Write core pa bs).l1 } := by
  induction bs generalizing s pa with
  | nil => rfl
  | cons b t ih => rw [State.l1Write, ih]; rfl

/-- A store makes its bytes valid and dirty in its core's L1 and leaves every other L1 byte alone. -/
theorem State.l1Byte_l1Write (s : State) (core pa : Nat) (bs : List Byte) (c q : Nat) (hp : pa + bs.length ≤ 2 ^ 52) (hq : q < 2 ^ 52) :
    if c = core ∧ pa ≤ q ∧ q < pa + bs.length then
      ∃ k, (s.l1Write core pa bs).l1Byte c q = some ⟨bs.getD (q - pa) 0, true, k⟩
    else (s.l1Write core pa bs).l1Byte c q = s.l1Byte c q := by
  induction bs generalizing s pa with
  | nil => rw [if_neg (by simp)]; rfl
  | cons b t ih =>
    rw [List.length_cons] at hp ⊢
    obtain ⟨k, hk⟩ : ∃ k, s.l1Write core pa (b :: t) = (s.putL1 core pa (some ⟨b, true, k⟩)).l1Write core (pa + 1) t := ⟨_, rfl⟩
    rw [hk]
    have h := ih (s.putL1 core pa (some ⟨b, true, k⟩)) (pa + 1) (by omega)
    have h1 := State.l1Byte_putL1 s core pa (some ⟨b, true, k⟩) c q (by omega) hq
    by_cases hc : c = core ∧ q = pa
    · obtain ⟨rfl, rfl⟩ := hc
      rw [if_pos ⟨rfl, by omega, by omega⟩, Nat.sub_self]
      rw [if_neg (by omega)] at h
      rw [if_pos ⟨rfl, rfl⟩] at h1
      exact ⟨k, by rw [h, h1]; rfl⟩
    · rw [if_neg hc] at h1
      by_cases h2 : c = core ∧ pa + 1 ≤ q ∧ q < pa + 1 + t.length
      · rw [if_pos h2] at h
        rw [if_pos (by omega)]
        obtain ⟨k', hk⟩ := h
        exact ⟨k', by rw [hk, show q - pa = (q - (pa + 1)) + 1 by omega, List.getD_cons_succ]⟩
      · rw [if_neg h2] at h
        rw [if_neg (by omega), h, h1]

/-! ### Write-backs, releases and acquires: what a core's own stores give a byte does not change -/

theorem State.KeepsBytes.refl (s : State) (core : Nat) : s.KeepsBytes core s := ⟨fun _ _ => rfl, fun _ _ _ _ => rfl, rfl⟩

theorem State.KeepsBytes.trans {s t u : State} {core : Nat} (h : s.KeepsBytes core t) (k : t.KeepsBytes core u) :
    s.KeepsBytes core u := by
  refine ⟨fun q hq => (k.1 q hq).trans (h.1 q hq), fun c q hc hq => (k.2.1 c q hc hq).trans (h.2.1 c q hc hq), ?_⟩
  rw [k.2.2, h.2.2]; rfl

/-- The fields that cache traffic does not touch. -/
theorem State.KeepsBytes.linkUp {s t : State} {core : Nat} (h : s.KeepsBytes core t) : t.linkUp = s.linkUp := by rw [h.2.2]; rfl
theorem State.KeepsBytes.cycle {s t : State} {core : Nat} (h : s.KeepsBytes core t) : t.cycle = s.cycle := by rw [h.2.2]; rfl

/-- A fold of steps that keep the bytes keeps them. -/
theorem State.keepsBytes_foldl {β : Type} (core : Nat) (f : State → β → State) (l : List β) (s : State)
    (hf : ∀ t, s.KeepsBytes core t → ∀ b ∈ l, t.KeepsBytes core (f t b)) : s.KeepsBytes core (l.foldl f s) := by
  suffices H : ∀ t, s.KeepsBytes core t → s.KeepsBytes core (l.foldl f t) from H s (.refl s core)
  induction l with
  | nil => exact fun t h => h
  | cons b r ih =>
    intro t h
    exact ih (fun t h b hb => hf t h b (List.mem_cons_of_mem _ hb)) _ (h.trans (hf t h b (List.mem_cons_self ..)))

/-- The dirty bytes of a line are the core's own. -/
theorem State.mem_dirtyOf (s : State) (core line : Nat) (e : Nat × Byte) (h : e ∈ s.dirtyOf core line) :
    s.ownByte core e.1 = e.2 ∧ e.1 / 64 = line := by
  unfold State.dirtyOf at h
  obtain ⟨i, hi, h⟩ := List.mem_filterMap.mp h
  have hi' := List.mem_range.mp hi
  cases hb : s.l1Byte core (line * 64 + i) with
  | none => simp [hb] at h
  | some b =>
    simp only [hb] at h
    by_cases hd : b.dirty = true
    · rw [if_pos hd] at h
      have := Option.some.inj h
      subst this
      refine ⟨?_, by dsimp only; omega⟩
      simp [State.ownByte, hb, hd]
    · rw [if_neg hd] at h; cases h

/-- The dirty bytes of a line, in terms of the L1 (R187). -/
theorem State.mem_dirtyOf_iff (s : State) (core line q : Nat) (v : Byte) :
    (q, v) ∈ s.dirtyOf core line ↔ q / 64 = line ∧ s.dirtyAt core q = true ∧ v = s.ownByte core q := by
  constructor
  · intro h
    have h1 := State.mem_dirtyOf s core line _ h
    refine ⟨h1.2, ?_, h1.1.symm⟩
    unfold State.dirtyOf at h
    obtain ⟨i, -, h⟩ := List.mem_filterMap.mp h
    cases hb : s.l1Byte core (line * 64 + i) with
    | none => simp [hb] at h
    | some b =>
      simp only [hb] at h
      split at h
      · rename_i hd
        cases h
        exact (State.dirtyAt_eq s core _).mpr ⟨b, hb, hd⟩
      · cases h
  · rintro ⟨hl, hd, rfl⟩
    obtain ⟨b, hb, hbd⟩ := (State.dirtyAt_eq s core q).mp hd
    unfold State.dirtyOf
    refine List.mem_filterMap.mpr ⟨q % 64, List.mem_range.mpr (Nat.mod_lt _ (by decide)), ?_⟩
    have e : line * 64 + q % 64 = q := by omega
    simp [e, hb, hbd, State.ownByte]

/-- A filter that drops nothing. -/
theorem filterMap_full {α β : Type} (f : α → Option β) (l : List α) (h : (l.filterMap f).length = l.length) :
    ∀ (g : α → β), (∀ a b, f a = some b → b = g a) → l.filterMap f = l.map g := by
  induction l with
  | nil => intro g _; rfl
  | cons a t ih =>
    intro g hg
    have ht := List.length_filterMap_le f t
    cases hf : f a with
    | none => rw [List.filterMap_cons_none hf, List.length_cons] at h; omega
    | some b =>
      rw [List.filterMap_cons_some hf, List.length_cons, List.length_cons] at h
      rw [List.filterMap_cons_some hf, List.map_cons, ih (by omega) g hg, hg a b hf]

/-- A line all of whose bytes are dirty. -/
theorem State.dirtyOf_full (s : State) (core line : Nat) (h : (s.dirtyOf core line).length = 64) :
    s.dirtyOf core line = (List.range 64).map (fun i => (line * 64 + i, s.ownByte core (line * 64 + i))) := by
  unfold State.dirtyOf at h ⊢
  refine filterMap_full _ _ (by rw [h, List.length_range]) _ (fun i e he => ?_)
  cases hb : s.l1Byte core (line * 64 + i) with
  | none => simp [hb] at he
  | some b =>
    simp only [hb] at he
    split at he
    · rename_i hd; cases he; simp [State.ownByte, hb, hd]
    · cases he

/-- The writes of a write-back touch memory, poison marks and the waiting link writes alone. -/
theorem State.sendLine_eq (s : State) (core line : Nat) :
    s.sendLine core line = { s with
      mem := (s.sendLine core line).mem, poison := (s.sendLine core line).poison, linkQ := (s.sendLine core line).linkQ } := by
  have hf : ∀ (d : List (Nat × Byte)) (t : State), d.foldl (fun s e => s.outWrite e.1 [e.2]) t = { t with
      mem := (d.foldl (fun s e => s.outWrite e.1 [e.2]) t).mem, poison := (d.foldl (fun s e => s.outWrite e.1 [e.2]) t).poison,
      linkQ := (d.foldl (fun s e => s.outWrite e.1 [e.2]) t).linkQ } := by
    intro d
    induction d with
    | nil => intro t; rfl
    | cons e r ih =>
      intro t
      rw [List.foldl_cons, ih, State.outWrite_eq]
  unfold State.sendLine
  dsimp only
  split
  · rw [State.outWrite_eq]
  · rw [hf]

@[simp] theorem State.l1Byte_sendLine (s : State) (core line c q : Nat) : (s.sendLine core line).l1Byte c q = s.l1Byte c q := by
  rw [State.sendLine_eq]; rfl

theorem foldl_homeWrite (f : Nat → Byte) (d : List (Nat × Byte)) (t : State) (hl : t.linkUp = true) (hd : ∀ e ∈ d, e.2 = f e.1) (q : Nat) :
    (d.foldl (fun s e => s.outWrite e.1 [e.2]) t).homeByte q = if q ∈ d.map Prod.fst then f q else t.homeByte q := by
  induction d generalizing t with
  | nil => simp
  | cons e r ih =>
    have hw : t.outWrite e.1 [e.2] = t.homeWrite e.1 [e.2] := by simp [State.outWrite, hl]
    rw [List.foldl_cons, hw, ih _ (by rw [State.homeWrite_eq]; exact hl) (fun x hx => hd x (List.mem_cons_of_mem _ hx)),
      State.homeByte_homeWrite, List.map_cons]
    by_cases hr : q ∈ r.map Prod.fst
    · rw [if_pos hr, if_pos (List.mem_cons_of_mem _ hr)]
    · rw [if_neg hr]
      by_cases hq : q = e.1
      · subst hq
        rw [if_pos (by simp), if_pos List.mem_cons_self, Nat.sub_self, List.getD_cons_zero, hd e List.mem_cons_self]
      · rw [if_neg (by simp only [List.length_singleton]; omega), if_neg]
        intro hm
        rcases List.mem_cons.mp hm with h | h
        · exact hq h
        · exact hr h

/-- While the link is up, the writes of a write-back put at home what the core holds as dirty, and nothing else. -/
theorem State.homeByte_sendLine (s : State) (core line q : Nat) (hl : s.linkUp = true) :
    (s.sendLine core line).homeByte q = if q / 64 = line ∧ s.dirtyAt core q = true then s.ownByte core q else s.homeByte q := by
  have hmem : q ∈ (s.dirtyOf core line).map Prod.fst ↔ q / 64 = line ∧ s.dirtyAt core q = true := by
    rw [List.mem_map]
    constructor
    · rintro ⟨⟨q', v⟩, h, rfl⟩
      have := (State.mem_dirtyOf_iff s core line q' v).mp h
      exact ⟨this.1, this.2.1⟩
    · exact fun h => ⟨(q, s.ownByte core q), (State.mem_dirtyOf_iff s core line q _).mpr ⟨h.1, h.2, rfl⟩, rfl⟩
  unfold State.sendLine
  dsimp only
  split
  · rename_i h64
    have hw : ∀ bs, s.outWrite (line * 64) bs = s.homeWrite (line * 64) bs := fun bs => by simp [State.outWrite, hl]
    have hfull := State.dirtyOf_full s core line h64
    rw [hw, State.homeByte_homeWrite, List.length_map, h64]
    have hin : q ∈ (s.dirtyOf core line).map Prod.fst ↔ line * 64 ≤ q ∧ q < line * 64 + 64 := by
      rw [hfull, List.map_map, List.mem_map]
      constructor
      · rintro ⟨i, hi, rfl⟩
        have := List.mem_range.mp hi
        simp only [Function.comp]
        omega
      · rintro ⟨h1, h2⟩
        exact ⟨q - line * 64, List.mem_range.mpr (by omega), by simp only [Function.comp]; omega⟩
    by_cases hq : line * 64 ≤ q ∧ q < line * 64 + 64
    · rw [if_pos hq, if_pos (hmem.mp (hin.mpr hq)), hfull, List.map_map, List.getD_eq_getElem?_getD, List.getElem?_map,
        List.getElem?_range (by omega)]
      simp only [Option.map_some, Option.getD_some, Function.comp]
      rw [show line * 64 + (q - line * 64) = q by omega]
    · rw [if_neg hq, if_neg (fun h => hq (hin.mp (hmem.mpr h)))]
  · rw [foldl_homeWrite (s.ownByte core) _ _ hl (fun e he => ((State.mem_dirtyOf s core line e he).1).symm)]
    by_cases hq : q ∈ (s.dirtyOf core line).map Prod.fst
    · rw [if_pos hq, if_pos (hmem.mp hq)]
    · rw [if_neg hq, if_neg (fun h => hq (hmem.mpr h))]

theorem foldl_cleanByte (core c q : Nat) (f : Nat → Byte) (d : List (Nat × Byte)) (t : State) (hd : ∀ e ∈ d, e.1 < 2 ^ 52 ∧ e.2 = f e.1)
    (hq : q < 2 ^ 52) : (d.foldl (fun s e => s.cleanByte core e) t).l1Byte c q
      = if c = core ∧ q ∈ d.map Prod.fst then some ⟨f q, false, t.cycle⟩ else t.l1Byte c q := by
  induction d generalizing t with
  | nil => rw [if_neg (by simp)]; rfl
  | cons e r ih =>
    have he := hd e List.mem_cons_self
    rw [List.foldl_cons, ih _ (fun x hx => hd x (List.mem_cons_of_mem _ hx)), State.cleanByte, State.l1Byte_putL1 _ _ _ _ _ _ he.1 hq,
      List.map_cons]
    by_cases hr : c = core ∧ q ∈ r.map Prod.fst
    · rw [if_pos hr, if_pos ⟨hr.1, List.mem_cons_of_mem _ hr.2⟩]; rfl
    · rw [if_neg hr]
      by_cases hqe : c = core ∧ q = e.1
      · rw [if_pos hqe, if_pos ⟨hqe.1, hqe.2 ▸ List.mem_cons_self⟩, he.2, hqe.2]
      · rw [if_neg hqe, if_neg]
        rintro ⟨hc, hm⟩
        rcases List.mem_cons.mp hm with h | h
        · exact hqe ⟨hc, h⟩
        · exact hr ⟨hc, h⟩

/-- WHAT A WRITE-BACK DOES to the L1s (R187): the dirty bytes of the line become clean; every other byte is as before. -/
theorem State.l1Byte_writeBack (s : State) (core line : Nat) (hline : line < 2 ^ 46) (c q : Nat) (hq : q < 2 ^ 52) :
    (s.writeBack core line).l1Byte c q
      = if c = core ∧ q / 64 = line ∧ s.dirtyAt core q = true then some ⟨s.ownByte core q, false, s.cycle⟩ else s.l1Byte c q := by
  have hcyc : (s.sendLine core line).cycle = s.cycle := by rw [State.sendLine_eq]
  rw [State.writeBack, foldl_cleanByte core c q (s.ownByte core) _ _ (fun e he => ?_) hq, hcyc, State.l1Byte_sendLine]
  · have hmem : q ∈ (s.dirtyOf core line).map Prod.fst ↔ q / 64 = line ∧ s.dirtyAt core q = true := by
      rw [List.mem_map]
      constructor
      · rintro ⟨⟨q', v⟩, h, rfl⟩
        have := (State.mem_dirtyOf_iff s core line q' v).mp h
        exact ⟨this.1, this.2.1⟩
      · exact fun h => ⟨(q, s.ownByte core q), (State.mem_dirtyOf_iff s core line q _).mpr ⟨h.1, h.2, rfl⟩, rfl⟩
    simp only [hmem]
  · have := State.mem_dirtyOf s core line e he
    exact ⟨by omega, this.1.symm⟩

/-- A write-back touches memory, poison marks, the waiting link writes and the L1 alone. -/
theorem State.writeBack_eq (s : State) (core line : Nat) :
    s.writeBack core line = { s with
      mem := (s.sendLine core line).mem, poison := (s.sendLine core line).poison, linkQ := (s.sendLine core line).linkQ,
      l1 := (s.writeBack core line).l1 } := by
  have hf : ∀ (d : List (Nat × Byte)) (t : State), d.foldl (fun s e => s.cleanByte core e) t
      = { t with l1 := (d.foldl (fun s e => s.cleanByte core e) t).l1 } := by
    intro d
    induction d with
    | nil => intro t; rfl
    | cons e r ih => intro t; rw [List.foldl_cons, ih]; rfl
  rw [State.writeBack, hf, State.sendLine_eq]

theorem State.homeByte_writeBack (s : State) (core line q : Nat) (hl : s.linkUp = true) :
    (s.writeBack core line).homeByte q = if q / 64 = line ∧ s.dirtyAt core q = true then s.ownByte core q else s.homeByte q := by
  rw [← State.homeByte_sendLine s core line q hl, State.homeByte, State.mem_writeBack]

theorem State.keepsBytes_writeBack (s : State) (core line : Nat) (hl : s.linkUp = true) (hline : line < 2 ^ 46) :
    s.KeepsBytes core (s.writeBack core line) := by
  refine ⟨fun q hq => ?_, fun c q hc hq => ?_, by rw [State.writeBack_eq]; rfl⟩
  · rw [State.ownByte_eq, State.l1Byte_writeBack s core line hline core q hq, State.homeByte_writeBack s core line q hl]
    by_cases h : q / 64 = line ∧ s.dirtyAt core q = true
    · rw [if_pos ⟨rfl, h⟩, if_pos h]; rfl
    · rw [if_neg (fun x => h x.2), if_neg h]; rfl
  · rw [State.l1Byte_writeBack s core line hline c q hq, if_neg (fun x => hc x.1)]

/-- After a write-back no byte of the line is dirty. -/
theorem State.clean_writeBack (s : State) (core line : Nat) (hline : line < 2 ^ 46) (q : Nat) (hq : q / 64 = line) (b : L1Byte)
    (hb : (s.writeBack core line).l1Byte core q = some b) : b.dirty = false := by
  rw [State.l1Byte_writeBack s core line hline core q (by omega)] at hb
  split at hb
  · cases hb; rfl
  · rename_i h
    cases hd : b.dirty with
    | false => rfl
    | true => exact absurd ⟨rfl, hq, (State.dirtyAt_eq s core q).mpr ⟨b, hb, hd⟩⟩ h

/-- WHAT DROPPING A LINE DOES (R188, R189): the core's bytes of the line are invalid, but for the dirty ones where those stay. -/
theorem State.l1Byte_dropLine (s : State) (core line : Nat) (all : Bool) (hline : line < 2 ^ 46) (c q : Nat) (hq : q < 2 ^ 52) :
    (s.dropLine core line all).l1Byte c q
      = if c = core ∧ q / 64 = line ∧ (all = true ∨ s.dirtyAt core q = false) then none else s.l1Byte c q := by
  have fold : ∀ (l : List Nat) (t : State), (∀ i ∈ l, i < 64) →
      (l.foldl (fun s i => match s.l1Byte core (line * 64 + i) with
        | some b => if b.dirty && !all then s else s.putL1 core (line * 64 + i) none
        | none => s) t).l1Byte c q
      = if c = core ∧ (∃ i, i ∈ l ∧ q = line * 64 + i) ∧ (all = true ∨ t.dirtyAt core q = false) then none else t.l1Byte c q := by
    intro l
    induction l with
    | nil => intro t _; rw [if_neg (by simp)]; rfl
    | cons i r ih =>
      intro t hl
      have hi := hl i List.mem_cons_self
      have hr : ∀ j ∈ r, j < 64 := fun j hj => hl j (List.mem_cons_of_mem _ hj)
      have hlt : line * 64 + i < 2 ^ 52 := by omega
      rw [List.foldl_cons]
      by_cases hqi : c = core ∧ q = line * 64 + i
      · obtain ⟨rfl, hqi⟩ := hqi
        have hm : ∃ j, j ∈ i :: r ∧ q = line * 64 + j := ⟨i, List.mem_cons_self, hqi⟩
        rw [← hqi]
        cases hb : t.l1Byte c q with
        | none => dsimp only; rw [ih _ hr, hb, ite_self, ite_self]
        | some b =>
          dsimp only
          have hd : t.dirtyAt c q = b.dirty := by simp [State.dirtyAt, hb]
          by_cases hk : (b.dirty && !all) = true
          · have : ¬ (all = true ∨ t.dirtyAt c q = false) := by
              simp only [Bool.and_eq_true, Bool.not_eq_true'] at hk
              rw [hd, hk.1, hk.2]; simp
            rw [if_pos hk, ih _ hr, hb, if_neg (fun h => this h.2.2), if_neg (fun h => this h.2.2)]
          · have hp := State.l1Byte_putL1 t c q none c q hq hq
            rw [if_pos ⟨rfl, rfl⟩] at hp
            have : all = true ∨ t.dirtyAt c q = false := by
              cases all with
              | true => exact .inl rfl
              | false => exact .inr (hd.trans (by simpa using hk))
            rw [if_neg hk, ih _ hr, hp, ite_self, if_pos ⟨rfl, hm, this⟩]
      · have same : ∀ u, u = t ∨ u = t.putL1 core (line * 64 + i) none → u.l1Byte c q = t.l1Byte c q
            ∧ (c = core → u.dirtyAt core q = t.dirtyAt core q) := by
          rintro u (rfl | rfl)
          · exact ⟨rfl, fun _ => rfl⟩
          · have h := State.l1Byte_putL1 t core (line * 64 + i) none c q hlt hq
            rw [if_neg hqi] at h
            exact ⟨h, fun hc => by subst hc; unfold State.dirtyAt; rw [h]⟩
        have step : ∀ u, u = t ∨ u = t.putL1 core (line * 64 + i) none →
            (r.foldl (fun s i => match s.l1Byte core (line * 64 + i) with
              | some b => if b.dirty && !all then s else s.putL1 core (line * 64 + i) none
              | none => s) u).l1Byte c q
            = if c = core ∧ (∃ j, j ∈ i :: r ∧ q = line * 64 + j) ∧ (all = true ∨ t.dirtyAt core q = false) then none else t.l1Byte c q := by
          intro u hu
          obtain ⟨h1, h2⟩ := same u hu
          rw [ih u hr, h1]
          by_cases hc : c = core
          · have e : (∃ j, j ∈ r ∧ q = line * 64 + j) ↔ ∃ j, j ∈ i :: r ∧ q = line * 64 + j := by
              constructor
              · rintro ⟨j, hj, e⟩; exact ⟨j, List.mem_cons_of_mem _ hj, e⟩
              · rintro ⟨j, hj, e⟩
                rcases List.mem_cons.mp hj with rfl | hj
                · exact absurd ⟨hc, e⟩ hqi
                · exact ⟨j, hj, e⟩
            simp only [e, h2 hc]
          · rw [if_neg (fun h => hc h.1), if_neg (fun h => hc h.1)]
        cases t.l1Byte core (line * 64 + i) with
        | none => exact step _ (.inl rfl)
        | some b =>
          dsimp only
          split
          · exact step _ (.inl rfl)
          · exact step _ (.inr rfl)
  have h := fold (List.range 64) s (fun i hi => List.mem_range.mp hi)
  have e : (∃ i, i ∈ List.range 64 ∧ q = line * 64 + i) ↔ q / 64 = line :=
    ⟨fun ⟨i, hi, e⟩ => by have := List.mem_range.mp hi; omega, fun e => ⟨q % 64, List.mem_range.mpr (Nat.mod_lt _ (by decide)), by omega⟩⟩
  simp only [e] at h
  exact h

theorem State.dropLine_eq (s : State) (core line : Nat) (all : Bool) : ∃ l, s.dropLine core line all = { s with l1 := l } := by
  refine foldl_keeps (fun t : State => ∃ l, t = { s with l1 := l }) _ (fun a i h => ?_) _ _ ⟨s.l1, rfl⟩
  split
  · split
    · exact h
    · obtain ⟨l, rfl⟩ := h; exact ⟨_, rfl⟩
  · exact h

/-- Dropping the clean bytes of a line, or a line that holds no dirty byte. -/
theorem State.keepsBytes_dropLine (s : State) (core line : Nat) (all : Bool) (hline : line < 2 ^ 46)
    (hc : all = true → ∀ q b, q / 64 = line → s.l1Byte core q = some b → b.dirty = false) :
    s.KeepsBytes core (s.dropLine core line all) := by
  refine ⟨fun q hq => ?_, fun c q hcc hq => ?_, by obtain ⟨l, h⟩ := State.dropLine_eq s core line all; rw [h]; rfl⟩
  · have hm : (s.dropLine core line all).homeByte q = s.homeByte q := by rw [State.homeByte, State.mem_dropLine]
    have hl := State.l1Byte_dropLine s core line all hline core q hq
    by_cases h : core = core ∧ q / 64 = line ∧ (all = true ∨ s.dirtyAt core q = false)
    · rw [if_pos h] at hl
      have hd : ∀ b, s.l1Byte core q = some b → b.dirty = false := fun b hb => by
        rcases h.2.2 with ha | hd
        · exact hc ha q b h.2.1 hb
        · simpa [State.dirtyAt, hb] using hd
      rw [State.ownByte_eq, hl, State.ownByte_eq, hm]
      cases hb : s.l1Byte core q with
      | none => rfl
      | some b => simp [hd b hb]
    · rw [if_neg h] at hl
      rw [State.ownByte_eq, hl, hm]; rfl
  · rw [State.l1Byte_dropLine s core line all hline c q hq, if_neg (fun h => hcc h.1)]

/-- A flush of a core's lines (R189) changes no byte as the core's own stores give it. -/
theorem State.keepsBytes_flushLine (s : State) (core line : Nat) (hl : s.linkUp = true) (hline : line < 2 ^ 46) :
    s.KeepsBytes core (s.flushLine core line) :=
  (State.keepsBytes_writeBack s core line hl hline).trans
    (State.keepsBytes_dropLine _ core line true hline (fun _ q b hq hb => State.clean_writeBack s core line hline q hq b hb))

/-- A flushed line has left its core's L1. -/
theorem State.l1Byte_flushLine (s : State) (core line : Nat) (hline : line < 2 ^ 46) (q : Nat) (hq : q < 2 ^ 52)
    (h : q / 64 = line ∨ s.l1Byte core q = none) : (s.flushLine core line).l1Byte core q = none := by
  rw [State.flushLine, State.l1Byte_dropLine _ core line true hline core q hq]
  split
  · rfl
  · rename_i hn
    have h := h.resolve_left (fun e => hn ⟨rfl, e, .inl rfl⟩)
    rw [State.l1Byte_writeBack s core line hline core q hq, if_neg, h]
    rintro ⟨-, e, -⟩
    exact hn ⟨rfl, e, .inl rfl⟩

theorem mem_linesIn {pa n l : Nat} (h : l ∈ linesIn pa n) : pa / 64 ≤ l ∧ l ≤ (pa + n - 1) / 64 ∧ 0 < n := by
  unfold linesIn at h
  split at h
  · cases h
  · obtain ⟨i, hi, rfl⟩ := List.mem_map.mp h
    have := List.mem_range.mp hi
    have : pa / 64 ≤ (pa + n - 1) / 64 := Nat.div_le_div_right (by omega)
    omega

theorem State.keepsBytes_flush (s : State) (core pa n : Nat) (hl : s.linkUp = true) (hp : pa + n ≤ 2 ^ 52) :
    s.KeepsBytes core (s.flush core pa n) := by
  refine State.keepsBytes_foldl core _ _ s (fun t ht l h => ?_)
  have := mem_linesIn h
  exact State.keepsBytes_flushLine t core l (ht.linkUp.trans hl) (by omega)

theorem mem_eraseReps_loop {α : Type} [BEq α] [LawfulBEq α] (a b : α) (l acc : List α) :
    b ∈ List.eraseRepsBy.loop (· == ·) a l acc ↔ b = a ∨ b ∈ l ∨ b ∈ acc := by
  induction l generalizing a acc with
  | nil => simp [List.eraseRepsBy.loop, or_comm]
  | cons c t ih =>
    simp only [List.eraseRepsBy.loop]
    split
    · rename_i hac
      have hac' : a = c := by simpa using hac
      subst hac'
      rw [ih]
      simp only [List.mem_cons]
      constructor
      · rintro (h | h | h)
        · exact .inl h
        · exact .inr (.inl (.inr h))
        · exact .inr (.inr h)
      · rintro (h | (h | h) | h)
        · exact .inl h
        · exact .inl h
        · exact .inr (.inl h)
        · exact .inr (.inr h)
    · rw [ih]
      simp only [List.mem_cons]
      constructor
      · rintro (h | h | h | h)
        · exact .inr (.inl (.inl h))
        · exact .inr (.inl (.inr h))
        · exact .inl h
        · exact .inr (.inr h)
      · rintro (h | (h | h) | h)
        · exact .inr (.inr (.inl h))
        · exact .inl h
        · exact .inr (.inl h)
        · exact .inr (.inr (.inr h))

theorem mem_eraseReps {α : Type} [BEq α] [LawfulBEq α] (b : α) (l : List α) : b ∈ l.eraseReps ↔ b ∈ l := by
  cases l with
  | nil => simp [List.eraseReps, List.eraseRepsBy]
  | cons a t =>
    unfold List.eraseReps List.eraseRepsBy
    rw [mem_eraseReps_loop]
    simp

theorem State.mem_linesOf (s : State) (core l : Nat) (h : l ∈ s.linesOf core) : l < 2 ^ 46 := by
  unfold State.linesOf at h
  rw [mem_eraseReps] at h
  obtain ⟨e, -, rfl⟩ := List.mem_map.mp h
  omega

/-- A release (R188) changes no byte as the core's own stores give it. -/
theorem State.keepsBytes_release (s : State) (core : Nat) (sc : Scope) (hl : s.linkUp = true) :
    s.KeepsBytes core (s.release core sc) := by
  unfold State.release
  split
  · exact .refl s core
  · exact State.keepsBytes_foldl core _ _ s (fun t ht l h =>
      State.keepsBytes_writeBack t core l (ht.linkUp.trans hl) (State.mem_linesOf s core l h))

/-- A line that holds a valid byte of a core is among its lines. -/
theorem State.linesOf_mem (s : State) (core q : Nat) (b : L1Byte) (hq : q < 2 ^ 52) (h : s.l1Byte core q = some b) :
    q / 64 ∈ s.linesOf core := by
  have key : ∀ (m : Tab (Option L1Byte)) (k : Nat), Tab.get none m k = some b → (k, some b) ∈ m := by
    intro m k
    induction m with
    | nil => intro h; simp [Tab.get] at h
    | cons e t ih =>
      obtain ⟨i, v⟩ := e
      intro h
      rw [Tab.get_cons] at h
      split at h
      · cases h
      · split at h
        · rename_i hik; subst hik; subst h; exact List.mem_cons_self ..
        · exact List.mem_cons_of_mem _ (ih h)
  have hm := key s.l1 _ h
  unfold State.linesOf
  rw [mem_eraseReps]
  refine List.mem_map.mpr ⟨(l1key core q, some b), List.mem_filter.mpr ⟨hm, ?_⟩, ?_⟩
  · exact decide_eq_true (by simp only [l1key]; omega)
  · simp only [l1key]; omega

/-- A byte that is not dirty reads its home copy as its own. -/
theorem State.ownByte_clean (s : State) (core q : Nat) (h : ∀ b, s.l1Byte core q = some b → b.dirty = false) :
    s.ownByte core q = s.homeByte q := by
  rw [State.ownByte_eq]
  cases hb : s.l1Byte core q with
  | none => rfl
  | some b => simp [h b hb]

/-- A RELEASE at qd and wider (R188): every byte the core has stored is at home. -/
theorem State.homeByte_release (s : State) (core : Nat) (sc : Scope) (hl : s.linkUp = true) (hs : sc ≠ .tm) (q : Nat)
    (hq : q < 2 ^ 52) : (s.release core sc).homeByte q = s.ownByte core q := by
  have hk := State.keepsBytes_release s core sc hl
  rw [← hk.1 q hq]
  refine (State.ownByte_clean _ core q (fun b hb => ?_)).symm
  unfold State.release at hb
  rw [if_neg hs] at hb
  -- a dirty byte afterwards was dirty in every line's turn, its own line's included
  have fold : ∀ (l : List Nat) (t : State), (∀ x ∈ l, x < 2 ^ 46) →
      ∀ b, (l.foldl (fun s l => s.writeBack core l) t).l1Byte core q = some b →
        b.dirty = true → q / 64 ∉ l ∧ ∃ b', t.l1Byte core q = some b' ∧ b'.dirty = true := by
    intro l
    induction l with
    | nil => exact fun t _ b h hd => ⟨by simp, b, h, hd⟩
    | cons x r ih =>
      intro t hx b h hd
      rw [List.foldl_cons] at h
      obtain ⟨hn, b', hb', hd'⟩ := ih _ (fun y hy => hx y (List.mem_cons_of_mem _ hy)) b h hd
      have hx46 := hx x List.mem_cons_self
      refine ⟨fun hm => ?_, ?_⟩
      · rcases List.mem_cons.mp hm with he | hm
        · rw [State.clean_writeBack t core x hx46 q he b' hb'] at hd'; cases hd'
        · exact hn hm
      · rw [State.l1Byte_writeBack t core x hx46 core q hq] at hb'
        split at hb'
        · cases hb'; cases hd'
        · exact ⟨b', hb', hd'⟩
  cases hd : b.dirty with
  | false => rfl
  | true =>
    obtain ⟨hn, b', hb', -⟩ := fold _ s (fun x hx => State.mem_linesOf s core x hx) b hb hd
    exact absurd (State.linesOf_mem s core q b' hq hb') hn

/-- AN ACQUIRE (R188) changes no byte as the core's own stores give it. -/
theorem State.keepsBytes_acquire (s : State) (core : Nat) (sc : Scope) : s.KeepsBytes core (s.acquire core sc) := by
  unfold State.acquire
  split
  · exact .refl s core
  · have hf := State.keepsBytes_foldl core (fun s l => s.dropLine core l false) (s.linesOf core) s
      (fun t _ l h => State.keepsBytes_dropLine t core l false (State.mem_linesOf s core l h) (by simp))
    dsimp only
    split
    · exact hf.trans ⟨fun _ _ => rfl, fun _ _ _ _ => rfl, rfl⟩
    · exact hf

/-- AN ACQUIRE at qd and wider (R188): only the core's dirty bytes stay valid. -/
theorem State.l1Byte_acquire (s : State) (core : Nat) (sc : Scope) (hs : sc ≠ .tm) (q : Nat) (hq : q < 2 ^ 52) (b : L1Byte)
    (h : (s.acquire core sc).l1Byte core q = some b) : s.l1Byte core q = some b ∧ b.dirty = true := by
  have fold : ∀ (l : List Nat) (t : State), (∀ x ∈ l, x < 2 ^ 46) →
      (l.foldl (fun s l => s.dropLine core l false) t).l1Byte core q = some b →
        t.l1Byte core q = some b ∧ (q / 64 ∈ l → b.dirty = true) := by
    intro l
    induction l with
    | nil => exact fun t _ h => ⟨h, by simp⟩
    | cons x r ih =>
      intro t hx h
      rw [List.foldl_cons] at h
      obtain ⟨h1, h2⟩ := ih (t.dropLine core x false) (fun y hy => hx y (List.mem_cons_of_mem _ hy)) h
      rw [State.l1Byte_dropLine t core x false (hx x List.mem_cons_self) core q hq] at h1
      split at h1
      · cases h1
      · rename_i hn
        refine ⟨h1, fun hm => ?_⟩
        rcases List.mem_cons.mp hm with he | hm
        · cases hd : b.dirty with
          | true => rfl
          | false => exact absurd ⟨rfl, he, .inr (by simp [State.dirtyAt, h1, hd])⟩ hn
        · exact h2 hm
  have h' : ((s.linesOf core).foldl (fun s l => s.dropLine core l false) s).l1Byte core q = some b := by
    unfold State.acquire at h
    rw [if_neg hs] at h
    dsimp only at h
    split at h
    · exact h
    · exact h
  have hlines : ∀ x ∈ s.linesOf core, x < 2 ^ 46 := fun x hx => State.mem_linesOf s core x hx
  obtain ⟨h1, h2⟩ := fold (s.linesOf core) s hlines h'
  exact ⟨h1, h2 (State.linesOf_mem s core q b hq h1)⟩

/-! ### Walks read device memory alone -/

/-- A smaller address of device memory lies in it too. -/
theorem State.isDevice_le {s : State} {a b : Nat} (h : s.isDevice b = true) (hab : a ≤ b) : s.isDevice a = true :=
  decide_eq_true (Nat.lt_of_le_of_lt hab (of_decide_eq_true h))
/-- A table entry reads the same where the bytes of device memory do. -/
theorem State.entryAt_same {s v : State} (hb : ∀ q, s.isDevice q = true → v.homeByte q = s.homeByte q) {pa : Nat}
    (h : s.isDevice (pa + 7) = true) : v.entryAt pa = s.entryAt pa := by
  have k : ∀ n pa, (∀ i, i < n → v.homeByte (pa + i) = s.homeByte (pa + i)) → v.home pa n = s.home pa n := by
    intro n
    induction n with
    | zero => intro pa _; rfl
    | succ n ih =>
      intro pa h
      rw [State.home, State.home, ih (pa + 1) (fun i hi => by rw [Nat.add_assoc, Nat.add_comm 1 i]; exact h (i + 1) (Nat.succ_lt_succ hi))]
      exact congrArg (· :: _) (h 0 (Nat.zero_lt_succ n))
  rw [State.entryAt, State.entryAt, k 8 pa (fun i hi => hb _ (State.isDevice_le h (by omega)))]
/-- A walk reads nothing but device memory and poison marks. -/
theorem State.walk_same {s v : State} (hd : ∀ pa, v.isDevice pa = s.isDevice pa)
    (hb : ∀ q, s.isDevice q = true → v.homeByte q = s.homeByte q) (hp : ∀ l, v.poisoned l = s.poisoned l) (va : Nat) :
    ∀ n table, s.tableOk table = true → v.walk va n table = s.walk va n table := by
  intro n
  induction n with
  | zero => intro table _; rfl
  | succ n ih =>
    intro table ht
    have he : ∀ i, i < 512 → v.entryAt (table + 8 * i) = s.entryAt (table + 8 * i) := fun i hi =>
      State.entryAt_same hb (State.isDevice_le ht (by omega))
    have hi : va / 2 ^ (12 + 9 * n) % 512 < 512 := Nat.mod_lt _ (by decide)
    have hg : ∀ idx, idx < 512 → v.groupOk table idx = s.groupOk table idx := by
      intro idx hi
      unfold State.groupOk
      simp only [he idx hi]
      have hj : ∀ j, j ∈ List.range 16 → v.entryAt (table + 8 * (idx / 16 * 16 + j)) = s.entryAt (table + 8 * (idx / 16 * 16 + j)) := by
        intro j hj
        have := List.mem_range.mp hj
        exact he _ (by omega)
      rw [Bool.eq_iff_iff, List.all_eq_true, List.all_eq_true]
      exact ⟨fun h x hx => by rw [← hj x hx]; exact h x hx, fun h x hx => by rw [hj x hx]; exact h x hx⟩
    have hm : ∀ l idx e, idx < 512 → v.malformed l table idx e = s.malformed l table idx e := by
      intro l idx e h
      unfold State.malformed State.tableOk
      simp only [hg idx h, hd]
    rw [State.walk, State.walk]
    simp only [he _ hi, hp, hm _ _ _ hi]
    split
    · rfl
    · split
      · rfl
      · split
        · rfl
        · split
          · rfl
          · split
            · rfl
            · next h1 h2 h3 h4 h5 =>
              refine ih _ ?_
              cases hk : s.tableOk (entryPa (s.entryAt (table + 8 * (va / 2 ^ (12 + 9 * n) % 512))))
              · exfalso
                apply h4
                unfold State.malformed
                simp only [Bool.not_eq_true] at h5
                simp only [h5, hk, Bool.not_false, Bool.and_self, Bool.or_true]
              · rfl

end Sys2Proof.Machine
end

