-- ==== Sys2Proof/Laws/Access.lean ====
section
/-! SUPPORT. What the memory accesses of the control stream do: running a meaning, reads and writes at a place, releases and
acquires as steps of a meaning. -/

namespace Sys2Proof.Machine

/-! ### Running a meaning -/

theorem M.bind_ok {α β : Type} {m : M α} {f : α → M β} {s t : State} {a : α} (h : m s = .ok a t) : (m >>= f) s = f a t := by
  show EStateM.bind m f s = _
  simp [EStateM.bind, h]

theorem M.bind_error {α β : Type} {m : M α} {f : α → M β} {s t : State} {e : Stop} (h : m s = .error e t) :
    (m >>= f) s = .error e t := by
  show EStateM.bind m f s = _
  simp [EStateM.bind, h]

theorem M.ite_ok {α : Type} {c : Bool} {m : M Unit} {k : Unit → M α} {s u : State} (h : (if c then m else pure () : M Unit) s = .ok () u) :
    (if c then m >>= k else k ()) s = k () u := by
  cases c with
  | true => exact M.bind_ok h
  | false => injection h with _ h; rw [h]; rfl

/-- A meaning of the control stream that completes. -/
theorem controlOp_ok {s u : State} {m : M Unit} (hc : s.isControl = true) (h : m s = .ok () u) : controlOp s m = .next u.advance := by
  unfold controlOp finish
  rw [if_pos hc, M.bind_ok h]
  rfl

/-- A meaning of the control stream that traps. -/
theorem controlOp_trap {s u : State} {m : M Unit} {t : Trap} (hc : s.isControl = true) (h : m s = .error (.trap t) u) :
    controlOp s m = .next (u.takeTrap t) := by
  unfold controlOp finish
  rw [if_pos hc, M.bind_error h]

/-- A meaning of the control stream that waits. -/
theorem controlOp_wait {s u : State} {m : M Unit} (hc : s.isControl = true) (h : m s = .error .wait u) : controlOp s m = .next u := by
  unfold controlOp finish
  rw [if_pos hc, M.bind_error h]

theorem resolveM_ok {s : State} {ea : W64} {n : Nat} {a : Access} {p : Place} (h : s.resolve s.cur ea n a = .ok p) :
    resolveM ea n a s = .ok p s := by
  show (match s.resolve s.cur ea n a with | .ok p => pure p | .error t => raise t : M Place) s = _
  rw [h]; rfl

theorem resolveM_error {s : State} {ea : W64} {n : Nat} {a : Access} {t : Trap} (h : s.resolve s.cur ea n a = .error t) :
    resolveM ea n a s = .error (.trap t) s := by
  show (match s.resolve s.cur ea n a with | .ok p => pure p | .error t => raise t : M Place) s = _
  rw [h]; rfl

theorem holdWindow_ok {s : State} {off n : Nat} {w : Bool} (h : s.windowFree off n w) : holdWindow off n w s = .ok () s := by
  show (if s.conflicts s.me [⟨false, off, off + n - 1, w⟩] then waitHere else pure () : M Unit) s = _
  rw [if_neg (by rw [h]; decide)]
  rfl

theorem needLink_ok {s : State} {pa : Nat} (h : s.linkUp = true) : needLink pa s = .ok false s := by
  show (if isHost pa && !s.linkUp then
    (if s.linkDead then do modify State.linkDone; return true else do linkWait; return true) else return false : M Bool) s = _
  rw [h]
  simp only [Bool.not_true, Bool.and_false, Bool.false_eq_true, if_false]
  rfl

/-! ### Bytes as they are seen -/

/-- A read that needs no line leaves the L1 as it was. -/
theorem State.FillsLine.refl (s : State) (core n : Nat) (p : Place) (h : s.hitsL1 n p = true ∨ ∀ pa, p ≠ .mem pa) :
    s.FillsLine core n p s.l1 := by
  refine ⟨fun _ => rfl, fun c q hq => ⟨fun hf => ?_, fun _ => rfl⟩⟩
  rcases h with h | h
  · rw [h] at hf; cases hf.2.1
  · obtain ⟨pa, hp, -⟩ := hf.2.2.1; exact absurd hp (h pa)

/-- The line fill of a read that misses. -/
theorem State.fillsLine_fill (s : State) (n pa : Nat) (hp : pa < 2 ^ 52) (hh : s.hitsL1 n (.mem pa) = false) :
    s.FillsLine (s.coreOf s.cur) n (.mem pa) (s.fill (s.coreOf s.cur) (pa / 64 * 64) 64).l1
      ∧ s.fill (s.coreOf s.cur) (pa / 64 * 64) 64 = s.withL1 (s.fill (s.coreOf s.cur) (pa / 64 * 64) 64).l1 := by
  have hn : pa / 64 * 64 + 64 ≤ 2 ^ 52 := by omega
  have he := State.fill_eq s (s.coreOf s.cur) (pa / 64 * 64) 64
  refine ⟨⟨fun h => (by rw [hh] at h; cases h), fun c q hq => ?_⟩, he⟩
  have hf := State.l1Byte_fill s (s.coreOf s.cur) (pa / 64 * 64) 64 c q hn hq
  have hi : (s.withL1 (s.fill (s.coreOf s.cur) (pa / 64 * 64) 64).l1).l1Byte c q
      = (s.fill (s.coreOf s.cur) (pa / 64 * 64) 64).l1Byte c q := by
    simp only [State.l1Byte, State.withL1]
  rw [hi, hf]
  refine ⟨fun h => ?_, fun h => if_neg (fun h' => h ⟨h'.1, hh, ⟨pa, rfl, by have := h'.2.1; have := h'.2.2.1; omega⟩, h'.2.2.2⟩)⟩
  · obtain ⟨pa', hp', hl⟩ := h.2.2.1
    cases hp'
    rw [if_pos ⟨h.1, by omega, by omega, h.2.2.2⟩]
    exact ⟨_, rfl, rfl, rfl⟩

theorem byteOf_succ (v i : Nat) : byteOf v (i + 1) = byteOf (v / 256) i := by
  rw [byteOf, byteOf, Nat.pow_succ, Nat.mul_comm, Nat.div_div_eq_div_mul]

theorem leNat_bytes (v n : Nat) : leNat ((List.range n).map (byteOf v)) = v % 256 ^ n := by
  induction n generalizing v with
  | zero => rw [Nat.pow_zero, Nat.mod_one]; rfl
  | succ n ih =>
    rw [List.range_succ_eq_map, List.map_cons, List.map_map, leNat]
    have h : byteOf v ∘ Nat.succ = byteOf (v / 256) := funext fun i => byteOf_succ v i
    rw [h, ih, Nat.pow_succ, Nat.mul_comm (256 ^ n), Nat.mod_mul]
    congr 1
    rw [byteOf, Nat.pow_zero, Nat.div_one, BitVec.toNat_ofNat]

theorem leBytes_length (n v : Nat) : (leBytes n v).length = n := by
  induction n generalizing v with
  | zero => rfl
  | succ n ih => rw [leBytes, List.length_cons, ih]

theorem getD_leBytes (n v i : Nat) (h : i < n) : (leBytes n v).getD i 0 = byteOf v i := by
  induction n generalizing v i with
  | zero => omega
  | succ n ih =>
    rw [leBytes]
    cases i with
    | zero => simp [byteOf]
    | succ i =>
      rw [List.getD_cons_succ, ih _ _ (by omega), byteOf_succ]

theorem State.home_eq (s : State) (pa n : Nat) : s.home pa n = (List.range n).map (fun i => s.homeByte (pa + i)) := by
  induction n generalizing pa with
  | zero => rfl
  | succ n ih =>
    rw [State.home, ih, List.range_succ_eq_map, List.map_cons, List.map_map]
    congr 1
    apply List.map_congr_left
    intro i _
    simp only [Function.comp, Nat.succ_eq_add_one]
    rw [show pa + 1 + i = pa + (i + 1) by omega]

/-! ### Reading at a place -/

/-- A line no byte of which is poisoned meets no poison. -/
theorem State.meetsPoison_of (s : State) (core pa n : Nat) (h : s.anyPoison pa n = false) : s.meetsPoison core pa n = false := by
  unfold State.anyPoison at h
  unfold State.meetsPoison
  rw [List.any_eq_false] at h ⊢
  intro l hl
  have := h l hl
  simp only [Bool.not_eq_true] at this
  rw [this]
  simp

/-- A load at a place (R64, R186, R251): the bytes as the L1 holds them or, where it does not hold them all, as the core's own
stores and the home copies give them; nothing but the line that is read changes in the L1. -/
theorem readPlace_load (s : State) (ea : W64) (p : Place) (n : Nat) (a : Access) (ha : (a == .atomic) = false ∨ ∃ pa, p = .mem pa)
    (h : s.loadReady n p) :
    ∃ l, readPlace ea p n false a s = .ok ((List.range n).map (s.placeByte (!s.hitsL1 n p) p)) (s.withL1 l)
      ∧ s.FillsLine (s.coreOf s.cur) n p l := by
  cases p with
  | spad team off =>
    refine ⟨s.l1, ?_, .refl s _ _ _ (.inr (by simp))⟩
    have hw : s.windowFree off n false := h.2.resolve_right (by rintro ⟨pa, h, -⟩; cases h)
    show (do holdWindow off n (a == .atomic); return (← get).spadRead team off n : M (List Byte)) s = _
    rw [show (a == .atomic) = false from ha.resolve_right (by rintro ⟨pa, h⟩; cases h), M.bind_ok (holdWindow_ok hw)]
    rfl
  | view pa =>
    exact absurd h.2 (by rintro (h | ⟨pa, h, -⟩); exact h; cases h)
  | mem pa =>
    show ∃ l, (do let c ← myCore; readL1 ea c pa n a : M (List Byte)) s = _ ∧ _
    rw [M.bind_ok (show myCore s = .ok (s.coreOf s.cur) s from rfl)]
    have hu : ∀ c, readL1 ea c pa n a s = (if s.l1Has c pa n then (do
          check (!s.meetsPoison c pa n) (poisonTrap ea n a); return s.l1Read c pa n) else (do
        let dead ← needLink pa
        check (!dead && !s.meetsPoison c pa n) (poisonTrap ea n a)
        modify fun s => s.fill c (pa / 64 * 64) 64
        let s ← get
        return s.l1Read c pa n) : M (List Byte)) s := fun c => rfl
    rw [hu]
    by_cases hh : s.l1Has (s.coreOf s.cur) pa n = true
    · rw [if_pos hh]
      have hit : s.hitsL1 n (.mem pa) = true := hh
      have hp : s.meetsPoison (s.coreOf s.cur) pa n = false := by
        rcases h.2 with h | ⟨q, hq, -, -, h⟩
        · exact State.meetsPoison_of s _ pa n h.2.2
        · injection hq with hq; subst hq; exact h
      refine ⟨s.l1, ?_, .refl s _ _ _ (.inl hit)⟩
      rw [hp, hit]
      rfl
    · rw [if_neg hh]
      have miss : s.hitsL1 n (.mem pa) = false := by simpa [State.hitsL1] using hh
      have hr : pa + n ≤ 2 ^ 52 ∧ s.linkUp = true ∧ s.anyPoison pa n = false :=
        h.2.resolve_right (by rintro ⟨q, hq, -, h3, -⟩; injection hq with hq; subst hq; exact hh h3)
      have hlt : pa < 2 ^ 52 := by
        have : n ≠ 0 := by rintro rfl; exact hh rfl
        omega
      obtain ⟨hs, he⟩ := State.fillsLine_fill s n pa hlt miss
      refine ⟨_, ?_, hs⟩
      rw [M.bind_ok (needLink_ok hr.2.1), State.meetsPoison_of s _ pa n hr.2.2]
      show EStateM.Result.ok ((s.fill (s.coreOf s.cur) (pa / 64 * 64) 64).l1Read (s.coreOf s.cur) pa n)
        (s.fill (s.coreOf s.cur) (pa / 64 * 64) 64) = _
      have hline := h.1 pa rfl
      have hv : (s.fill (s.coreOf s.cur) (pa / 64 * 64) 64).l1Read (s.coreOf s.cur) pa n
          = (List.range n).map (s.placeByte (!s.hitsL1 n (.mem pa)) (.mem pa)) := by
        rw [State.l1Read_eq, miss]
        apply List.map_congr_left
        intro i hi
        rw [List.mem_range] at hi
        exact State.seenByte_fill s _ _ 64 _ (by omega) (by omega) (by omega)
      rw [hv, ← he]

theorem State.poison_mono_writeBack (s : State) (core line l : Nat) (h : s.poisoned l = false) :
    (s.writeBack core line).poisoned l = false := by
  have hw : ∀ (t : State) (pa : Nat) (bs : List Byte), t.poisoned l = false → (t.outWrite pa bs).poisoned l = false := by
    intro t pa bs ht
    unfold State.outWrite
    split
    · exact ht
    · refine foldl_keeps (fun m : Tab Bool => Tab.get false m l = false) _ (fun m i hm => ?_) _ _ (by rw [State.putHome_eq]; exact ht)
      rw [Tab.get_put]
      split
      · rfl
      · exact hm
  have hs : (s.sendLine core line).poisoned l = false := by
    unfold State.sendLine
    dsimp only
    split
    · exact hw s _ _ h
    · exact foldl_keeps (fun t : State => t.poisoned l = false) _ (fun t e ht => hw t _ _ ht) _ _ h
  rw [State.writeBack_eq]
  exact hs

theorem State.poison_dropLine (s : State) (core line : Nat) (all : Bool) : (s.dropLine core line all).poison = s.poison := by
  refine foldl_keeps (fun t : State => t.poison = s.poison) _ (fun a i h => ?_) _ _ rfl
  split
  · split
    · exact h
    · exact h
  · exact h

/-- A flush or a release poisons nothing. -/
theorem State.anyPoison_flush (s : State) (core pa n qa m : Nat) (h : s.anyPoison qa m = false) :
    (s.flush core pa n).anyPoison qa m = false := by
  unfold State.anyPoison at h ⊢
  rw [List.any_eq_false] at h ⊢
  intro l hl
  have := h l hl
  simp only [Bool.not_eq_true] at this ⊢
  refine foldl_keeps (fun t : State => t.poisoned l = false) _ (fun t x ht => ?_) _ _ this
  show (t.flushLine core x).poisoned l = false
  rw [State.flushLine, State.poisoned, State.poison_dropLine]
  exact State.poison_mono_writeBack t core x l ht

theorem State.anyPoison_release (s : State) (core : Nat) (sc : Scope) (qa m : Nat) (h : s.anyPoison qa m = false) :
    (s.release core sc).anyPoison qa m = false := by
  unfold State.anyPoison at h ⊢
  rw [List.any_eq_false] at h ⊢
  intro l hl
  have := h l hl
  simp only [Bool.not_eq_true] at this ⊢
  unfold State.release
  split
  · exact this
  · exact foldl_keeps (fun t : State => t.poisoned l = false) _ (fun t x ht => State.poison_mono_writeBack t core x l ht) _ _ this

/-- A core holds no dirty byte at an address. -/
def State.CleanAt (s : State) (core q : Nat) : Prop := ∀ b, s.l1Byte core q = some b → b.dirty = false

theorem State.cleanAt_flushLine (s : State) (core line q : Nat) (hl : line < 2 ^ 46) (hq : q < 2 ^ 52)
    (h : q / 64 = line ∨ s.CleanAt core q) : (s.flushLine core line).CleanAt core q := by
  have hw : (s.writeBack core line).CleanAt core q := by
    rcases h with h | h
    · exact fun b hb => State.clean_writeBack s core line hl q h b hb
    · intro b hb
      rw [State.l1Byte_writeBack s core line hl core q hq] at hb
      split at hb
      · cases hb; rfl
      · exact h b hb
  refine foldl_keeps (fun u : State => u.CleanAt core q) _ (fun u i hu => ?_) _ _ hw
  split
  · split
    · exact hu
    · intro b hb
      rw [State.putL1, State.l1Byte, Tab.get_put] at hb
      split at hb
      · cases hb
      · exact hu b hb
  · exact hu

/-- After a flush of a range the core holds no dirty byte there. -/
theorem State.cleanAt_flush (s : State) (core pa n q : Nat) (hp : pa + n ≤ 2 ^ 52) (h1 : pa ≤ q) (h2 : q < pa + n) :
    (s.flush core pa n).CleanAt core q := by
  have hm : q / 64 ∈ linesIn pa n := by
    unfold linesIn
    rw [if_neg (by omega), List.mem_map]
    have a1 : pa / 64 ≤ q / 64 := Nat.div_le_div_right h1
    have a2 : q / 64 ≤ (pa + n - 1) / 64 := Nat.div_le_div_right (by omega)
    exact ⟨q / 64 - pa / 64, List.mem_range.mpr (by omega), by omega⟩
  have fold : ∀ (l : List Nat) (t : State), (∀ x ∈ l, x < 2 ^ 46) → (q / 64 ∈ l ∨ t.CleanAt core q) →
      (l.foldl (fun s l => s.flushLine core l) t).CleanAt core q := by
    intro l
    induction l with
    | nil => rintro t - (h | h); cases h; exact h
    | cons x l ih =>
      intro t hx h
      have hx1 := hx x List.mem_cons_self
      have hq : q < 2 ^ 52 := by omega
      rw [List.foldl_cons]
      refine ih (t.flushLine core x) (fun y hy => hx y (List.mem_cons_of_mem _ hy)) ?_
      rcases h with h | h
      · rcases List.mem_cons.mp h with h | h
        · exact .inr (State.cleanAt_flushLine t core x q hx1 hq (.inl h))
        · exact .inl h
      · exact .inr (State.cleanAt_flushLine t core x q hx1 hq (.inr h))
  refine fold _ s (fun x hx => ?_) (.inl hm)
  have := mem_linesIn hx
  omega

/-- After a flush of a range the core's own bytes there are the home copies. -/
theorem State.homeByte_flush (s : State) (core pa n q : Nat) (hl : s.linkUp = true) (hp : pa + n ≤ 2 ^ 52) (h1 : pa ≤ q)
    (h2 : q < pa + n) : (s.flush core pa n).homeByte q = s.ownByte core q := by
  have hk := State.keepsBytes_flush s core pa n hl hp
  rw [← hk.1 q (by omega)]
  exact (State.ownByte_clean _ core q (State.cleanAt_flush s core pa n q hp h1 h2)).symm

/-- The lines of a flushed range have left the core's L1, and no byte enters it. -/
theorem State.l1Byte_flush (s : State) (core pa n q : Nat) (hp : pa + n ≤ 2 ^ 52) (hq : q < 2 ^ 52)
    (h : q / 64 ∈ linesIn pa n ∨ s.l1Byte core q = none) : (s.flush core pa n).l1Byte core q = none := by
  have fold : ∀ (l : List Nat) (t : State), (∀ x ∈ l, x < 2 ^ 46) → (q / 64 ∈ l ∨ t.l1Byte core q = none) →
      (l.foldl (fun s l => s.flushLine core l) t).l1Byte core q = none := by
    intro l
    induction l with
    | nil => rintro t - (h | h); cases h; exact h
    | cons x r ih =>
      intro t hx h
      rw [List.foldl_cons]
      refine ih _ (fun y hy => hx y (List.mem_cons_of_mem _ hy)) ?_
      rcases h with h | h
      · rcases List.mem_cons.mp h with h | h
        · exact .inr (State.l1Byte_flushLine t core x (hx x List.mem_cons_self) q hq (.inl h))
        · exact .inl h
      · exact .inr (State.l1Byte_flushLine t core x (hx x List.mem_cons_self) q hq (.inr h))
  refine fold _ s (fun x hx => ?_) h
  have := mem_linesIn hx
  omega

/-- A flush puts at home the bytes that the core has stored, and no other. -/
theorem State.homeByte_flush_or (s : State) (core pa n q : Nat) (hl : s.linkUp = true) (hp : pa + n ≤ 2 ^ 52) (hq : q < 2 ^ 52) :
    (s.flush core pa n).homeByte q = s.homeByte q ∨ (s.flush core pa n).homeByte q = s.ownByte core q := by
  have fold : ∀ (l : List Nat) (t : State), (∀ x ∈ l, x < 2 ^ 46) → s.KeepsBytes core t →
      (t.homeByte q = s.homeByte q ∨ t.homeByte q = s.ownByte core q) →
      ((l.foldl (fun s l => s.flushLine core l) t).homeByte q = s.homeByte q
        ∨ (l.foldl (fun s l => s.flushLine core l) t).homeByte q = s.ownByte core q) := by
    intro l
    induction l with
    | nil => exact fun t _ _ h => h
    | cons x r ih =>
      intro t hx k h
      have hx1 := hx x List.mem_cons_self
      rw [List.foldl_cons]
      refine ih _ (fun y hy => hx y (List.mem_cons_of_mem _ hy))
        (k.trans (State.keepsBytes_flushLine t core x (k.linkUp.trans hl) hx1)) ?_
      have e : (t.flushLine core x).homeByte q = (t.writeBack core x).homeByte q := by
        rw [State.flushLine, State.homeByte, State.mem_dropLine]
      rw [e, State.homeByte_writeBack t core x q (k.linkUp.trans hl)]
      split
      · exact .inr (k.1 q hq)
      · exact h
  refine fold _ s (fun x hx => ?_) (.refl s core) (.inl rfl)
  have := mem_linesIn hx
  omega

theorem mem_linesIn_self {pa n : Nat} (h : n ≠ 0) : pa / 64 ∈ linesIn pa n := by
  unfold linesIn
  rw [if_neg h, List.mem_map]
  exact ⟨0, List.mem_range.mpr (by omega), by omega⟩

/-- An access whose line has left the L1 stands home. -/
theorem State.standsHome_of (u : State) (core n : Nat) (p : Place) (hp : ∀ pa, p = .mem pa → pa % 64 + n ≤ 64 ∧ pa + n ≤ 2 ^ 52)
    (h : ∀ pa, p = .mem pa → ∀ q, q / 64 = pa / 64 → q < 2 ^ 52 → u.l1Byte core q = none) : u.standsHome core n p := by
  intro pa e
  refine ⟨fun q h1 h2 => ?_, h pa e⟩
  have := hp pa e
  rw [State.ownByte_eq, h pa e q (by omega) (by omega)]

/-! ### Reading and writing at the home slice -/

theorem State.KeepsBytes.cur {s t : State} {core : Nat} (h : s.KeepsBytes core t) : t.cur = s.cur := by rw [h.2.2]; rfl
theorem State.KeepsBytes.teams {s t : State} {core : Nat} (h : s.KeepsBytes core t) : t.teams = s.teams := by rw [h.2.2]; rfl
theorem State.KeepsBytes.coreOf {s t : State} {core : Nat} (h : s.KeepsBytes core t) (p : Party) : t.coreOf p = s.coreOf p := by
  rw [h.2.2]; rfl
theorem State.KeepsBytes.windowFree {s t : State} {core off n : Nat} {w : Bool} (h : s.KeepsBytes core t)
    (hw : s.windowFree off n w) : t.windowFree off n w := by rw [h.2.2]; exact hw
theorem State.KeepsBytes.spadByte {s t : State} {core : Nat} (h : s.KeepsBytes core t) (g o : Nat) : t.spadByte g o = s.spadByte g o := by
  rw [h.2.2]; rfl

theorem readHome_ok (s : State) (ea : W64) (core pa n : Nat) (a : Access) (hp : pa + n ≤ 2 ^ 52) (hl : s.linkUp = true)
    (hn : s.anyPoison pa n = false) :
    readHome ea core pa n a s = .ok ((List.range n).map (fun i => s.ownByte core (pa + i))) (s.flush core pa n) := by
  show (do let dead ← needLink pa; modify fun s => s.flush core pa n; let s ← get
           check (!dead && !s.anyPoison pa n) (poisonTrap ea n a); return s.home pa n : M (List Byte)) s = _
  rw [M.bind_ok (needLink_ok hl)]
  show (do check (!false && !(s.flush core pa n).anyPoison pa n) (poisonTrap ea n a)
           return (s.flush core pa n).home pa n : M (List Byte)) (s.flush core pa n) = _
  rw [State.anyPoison_flush s core pa n pa n hn]
  show EStateM.Result.ok ((s.flush core pa n).home pa n) _ = _
  rw [State.home_eq]
  congr 1
  apply List.map_congr_left
  intro i hi
  rw [List.mem_range] at hi
  exact State.homeByte_flush s core pa n (pa + i) hl hp (by omega) (by omega)

/-- A read at the home slice or of the scratchpad gives the bytes as the core's own stores give them, and changes none. -/
theorem readPlace_home (s : State) (ea : W64) (p : Place) (n : Nat) (a : Access) (h : s.homeReady (a == .atomic) n p) :
    ∃ u, readPlace ea p n true a s = .ok ((List.range n).map (s.placeByte true p)) u ∧ s.KeepsBytes (s.coreOf s.cur) u
      ∧ ∀ qa m, s.anyPoison qa m = false → u.anyPoison qa m = false := by
  cases p with
  | spad team off =>
    refine ⟨s, ?_, .refl s _, fun _ _ h => h⟩
    show (do holdWindow off n (a == .atomic); return (← get).spadRead team off n : M (List Byte)) s = _
    rw [M.bind_ok (holdWindow_ok h)]
    rfl
  | view pa => exact h.elim
  | mem pa =>
    refine ⟨s.flush (s.coreOf s.cur) pa n, ?_, State.keepsBytes_flush s _ pa n h.2.1 h.1,
      fun qa m hq => State.anyPoison_flush s _ pa n qa m hq⟩
    show (do let c ← myCore; readHome ea c pa n a : M (List Byte)) s = _
    rw [M.bind_ok (show myCore s = .ok (s.coreOf s.cur) s from rfl), readHome_ok s ea _ pa n a h.1 h.2.1 h.2.2]
    rfl

/-- While the link is up a write-back leaves nothing waiting for it. -/
theorem State.linkQ_writeBack (s : State) (core line : Nat) (hl : s.linkUp = true) : (s.writeBack core line).linkQ = s.linkQ := by
  have hw : ∀ (t : State) (pa : Nat) (bs : List Byte), t.linkUp = true → t.outWrite pa bs = t.homeWrite pa bs := fun t pa bs h => by
    simp [State.outWrite, h]
  rw [State.writeBack_eq]
  show (s.sendLine core line).linkQ = s.linkQ
  unfold State.sendLine
  dsimp only
  split
  · rw [hw _ _ _ hl, State.homeWrite_eq]
  · refine (foldl_keeps (fun u : State => u.linkUp = true ∧ u.linkQ = s.linkQ) _ (fun u e hu => ?_) _ _ ⟨hl, rfl⟩).2
    rw [hw _ _ _ hu.1, State.homeWrite_eq]
    exact hu

theorem State.linkQ_release (s : State) (core : Nat) (sc : Scope) (hl : s.linkUp = true) : (s.release core sc).linkQ = s.linkQ := by
  unfold State.release
  split
  · rfl
  · refine (foldl_keeps (fun u : State => u.linkUp = true ∧ u.linkQ = s.linkQ) _ (fun u l hu => ?_) _ _ ⟨hl, rfl⟩).2
    exact ⟨by rw [State.writeBack_eq]; exact hu.1, by rw [State.linkQ_writeBack u core l hu.1]; exact hu.2⟩

/-- A release that need not wait. -/
theorem releaseM_ok (s : State) (sc : Scope) (h : s.releaseReady sc) : releaseM sc s = .ok () (s.release (s.coreOf s.cur) sc) := by
  have hu : (s.isHartControl && s.untranslated s.me) = false := by
    cases e : s.isHartControl
    · rfl
    · rw [h.1 e]; rfl
  show (do if s.isHartControl && s.untranslated s.me then waitHere
           modify fun s => s.release (s.coreOf s.cur) sc
           let s ← get
           if sc = .sy && s.linkPending then waitHere : M Unit) s = _
  rw [hu]
  have hk := State.keepsBytes_release s (s.coreOf s.cur) sc h.2.1
  show (if (decide (sc = .sy) && (s.release (s.coreOf s.cur) sc).linkPending) = true then waitHere else pure () : M Unit)
    (s.release (s.coreOf s.cur) sc) = _
  have hp : (decide (sc = .sy) && (s.release (s.coreOf s.cur) sc).linkPending) = false := by
    have e : (s.release (s.coreOf s.cur) sc).linkPending = s.linkPending := by
      unfold State.linkPending
      rw [State.linkQ_release s _ sc h.2.1, hk.cycle]
    by_cases hs : sc = .sy
    · rw [e, h.2.2 hs, Bool.and_false]
    · simp [hs]
  rw [hp]
  rfl

end Sys2Proof.Machine
end

