-- ==== Sys2Proof/Laws/Elements.lean ====
section
/-! SUPPORT. The laws of vector elements and of the element-wise and whole-vector steps. -/

namespace Sys2Proof.Machine

/-! ### Elements of a register's bits -/

theorem testBit_elt (w d i k : Nat) : (elt w d i).testBit k = (decide (k < w) && d.testBit (w * i + k)) := by
  rw [elt, Nat.testBit_mod_two_pow, Nat.testBit_shiftRight]

theorem testBit_setElt (w d i v n : Nat) :
    (setElt w d i v).testBit n = if w * i ≤ n ∧ n < w * i + w then v.testBit (n - w * i) else d.testBit n := by
  rw [setElt, Nat.testBit_xor, Nat.testBit_shiftLeft, Nat.testBit_xor, testBit_elt, Nat.testBit_mod_two_pow]
  by_cases h1 : w * i ≤ n
  · by_cases h2 : n < w * i + w
    · rw [if_pos ⟨h1, h2⟩]
      have e1 : n - w * i < w := by omega
      have e2 : w * i + (n - w * i) = n := by omega
      simp only [h1, e1, e2, decide_true, Bool.true_and]
      cases d.testBit n <;> simp
    · rw [if_neg (fun h => h2 h.2)]
      have e1 : ¬ n - w * i < w := by omega
      simp [e1]
  · rw [if_neg (fun h => h1 h.1)]
    simp [h1]

/-- Reading an element after writing one. -/
theorem elt_setElt (w d i v j : Nat) : elt w (setElt w d i v) j = if j = i then v % 2 ^ w else elt w d j := by
  apply Nat.eq_of_testBit_eq
  intro k
  rw [testBit_elt, testBit_setElt]
  by_cases hk : k < w
  · by_cases hj : j = i
    · subst hj
      rw [if_pos rfl, if_pos ⟨by omega, by omega⟩, Nat.testBit_mod_two_pow, show w * j + k - w * j = k by omega]
    · rw [if_neg hj, testBit_elt, if_neg]
      rintro ⟨h1, h2⟩
      apply hj
      rcases Nat.lt_or_gt_of_ne hj with h | h
      · have : w * j + w ≤ w * i := by rw [← Nat.mul_succ]; exact Nat.mul_le_mul_left w h
        omega
      · have : w * i + w ≤ w * j := by rw [← Nat.mul_succ]; exact Nat.mul_le_mul_left w h
        omega
  · simp only [hk, decide_false, Bool.false_and]
    split
    · rw [Nat.testBit_mod_two_pow]; simp [hk]
    · rw [testBit_elt]; simp [hk]

theorem elt_lt (w d i : Nat) : elt w d i < 2 ^ w := Nat.mod_lt _ (Nat.two_pow_pos w)

theorem testBit_splice (w a b lo hi n : Nat) :
    (splice w a b lo hi).testBit n = if w * lo ≤ n ∧ n < w * lo + w * (hi - lo) then b.testBit n else a.testBit n := by
  rw [splice, Nat.testBit_xor, Nat.testBit_shiftLeft, Nat.testBit_mod_two_pow, Nat.testBit_shiftRight, Nat.testBit_xor]
  by_cases h1 : w * lo ≤ n
  · by_cases h2 : n < w * lo + w * (hi - lo)
    · rw [if_pos ⟨h1, h2⟩]
      have e1 : n - w * lo < w * (hi - lo) := by omega
      have e2 : w * lo + (n - w * lo) = n := by omega
      simp only [h1, e1, e2, decide_true, Bool.true_and]
      cases a.testBit n <;> simp
    · rw [if_neg (fun h => h2 h.2)]
      have e1 : ¬ n - w * lo < w * (hi - lo) := by omega
      simp [e1]
  · rw [if_neg (fun h => h1 h.1)]
    simp [h1]

/-- Elements lo to hi − 1 come from the second register, the others from the first. -/
theorem elt_splice (w a b lo hi i : Nat) : elt w (splice w a b lo hi) i = if lo ≤ i ∧ i < hi then elt w b i else elt w a i := by
  apply Nat.eq_of_testBit_eq
  intro k
  rw [testBit_elt, testBit_splice]
  by_cases hk : k < w
  · by_cases hi' : lo ≤ i ∧ i < hi
    · have h1 : w * lo ≤ w * i := Nat.mul_le_mul_left w hi'.1
      have h2 : w * (i - lo) + w ≤ w * (hi - lo) := by rw [← Nat.mul_succ]; exact Nat.mul_le_mul_left w (by omega)
      have h3 : w * i = w * lo + w * (i - lo) := by rw [← Nat.mul_add]; congr 1; omega
      rw [if_pos hi', testBit_elt, if_pos ⟨by omega, by omega⟩]
    · rw [if_neg hi', testBit_elt, if_neg]
      rintro ⟨h1, h2⟩
      apply hi'
      have h3 : lo ≤ i := Nat.le_of_not_lt fun hl => by
        have : w * i + w ≤ w * lo := by rw [← Nat.mul_succ]; exact Nat.mul_le_mul_left w (by omega)
        omega
      refine ⟨h3, Nat.lt_of_not_le fun hh => ?_⟩
      have h4 : w * lo + w * (hi - lo) ≤ w * i := by
        rw [← Nat.mul_add]; exact Nat.mul_le_mul_left w (by omega)
      omega
  · simp only [hk, decide_false, Bool.false_and]
    split <;> (rw [testBit_elt]; simp [hk])

/-! ### The loop over elements -/

theorem width_pos (t : Nat) : 0 < width t := by
  unfold width; split <;> decide

/-- Run a loop one element further at its end. -/
theorem forElems_succ {α : Type} (f : Nat → α → α) (n i : Nat) (a : α) : forElems f (n + 1) i a = f (i + n) (forElems f n i a) := by
  induction n generalizing i a with
  | zero => rfl
  | succ n ih =>
    rw [forElems, ih, show i + 1 + n = i + (n + 1) by omega]
    rfl

/-- What the element-wise loop leaves of the lanes (R143). -/
theorem forElems_lanes (t : Hart) (w : Nat) (f : Nat → Nat → Lanes → Nat × Lanes) (n lo : Nat) (a : Nat × Lanes) :
    ((∀ j p g, (f j p g).2 = g) → (forElems (elemStep t w f) n lo a).2 = a.2)
    ∧ (ownLane f → ∀ j, (∀ i, lo ≤ i → i < lo + n → t.active i = true → i % 256 ≠ j) →
        Tab.get 0 (forElems (elemStep t w f) n lo a).2 j = Tab.get 0 a.2 j) := by
  induction n with
  | zero => exact ⟨fun _ => rfl, fun _ _ _ => rfl⟩
  | succ n ih =>
    rw [forElems_succ, elemStep]
    refine ⟨fun hg => ?_, fun ho j hj => ?_⟩
    · split
      · exact (hg _ _ _).trans (ih.1 hg)
      · split <;> exact ih.1 hg
    · have h := ih.2 ho j (fun i h1 h2 => hj i h1 (by omega))
      split
      · rename_i ha
        exact (ho _ _ _ j (fun e => hj (lo + n) (by omega) (by omega) ha e.symm)).trans h
      · split <;> exact h

/-- What the element-wise loop leaves in each element. -/
theorem forElems_elemStep (t : Hart) (w : Nat) (f : Nat → Nat → Lanes → Nat × Lanes) (n lo : Nat) (a : Nat × Lanes) (i : Nat) :
    if lo ≤ i ∧ i < lo + n then
      if t.active i then ∃ g, elt w (forElems (elemStep t w f) n lo a).1 i = (f i (elt w a.1 i) g).1 % 2 ^ w
        ∧ ((∀ j p g, (f j p g).2 = g) → g = a.2)
        ∧ (ownLane f → (∀ j, lo ≤ j → j < i → t.active j = true → j % 256 ≠ i % 256) → Tab.get 0 g (i % 256) = Tab.get 0 a.2 (i % 256))
      else elt w (forElems (elemStep t w f) n lo a).1 i = if mZero t.mode then 0 else elt w a.1 i
    else elt w (forElems (elemStep t w f) n lo a).1 i = elt w a.1 i := by
  induction n with
  | zero => rw [if_neg (by omega)]; rfl
  | succ n ih =>
    rw [forElems_succ]
    have hl := forElems_lanes t w f n lo a
    generalize hb : forElems (elemStep t w f) n lo a = b at ih hl
    by_cases h : i = lo + n
    · subst h
      rw [if_neg (by omega)] at ih
      rw [if_pos (by omega), elemStep]
      split
      · refine ⟨b.2, ?_, hl.1, fun ho hj => hl.2 ho _ hj⟩
        dsimp only
        rw [elt_setElt, if_pos rfl, ih]
      · split
        · rw [elt_setElt, if_pos rfl]; simp
        · exact ih
    · have same : elt w (elemStep t w f (lo + n) b).1 i = elt w b.1 i := by
        rw [elemStep]
        split
        · dsimp only; rw [elt_setElt, if_neg h]
        · split
          · rw [elt_setElt, if_neg h]
          · rfl
      by_cases h2 : lo ≤ i ∧ i < lo + n
      · rw [if_pos h2] at ih
        rw [if_pos (by omega), same]
        exact ih
      · rw [if_neg h2] at ih
        rw [if_neg (by omega), same]
        exact ih

/-! ### Registers of a hart -/

theorem Hart.vreg_setVreg (t : Hart) (n : Nat) (r : VReg) (m : Nat) : (t.setVreg n r).vreg m = if m = n then r else t.vreg m :=
  Tab.get_put ..

theorem vopIndex_lt (d : VOp) (h : namesRegister d = true) : vopIndex d < 40 := by
  cases d with
  | main n => have := n.isLt; simp only [vopIndex]; omega
  | oper n => have := n.isLt; simp only [vopIndex]; omega
  | last n => cases h
  | repl z n => cases h

/-- The registers after a result has been put where R22 puts it. -/
theorem Hart.vreg_putResult (t : Hart) (d : VOp) (img : VReg) (w lo hi : Nat) (r : Nat) :
    (namesRegister d = true → (t.putResult d img w lo hi (decide (lo ≠ 0))).vreg (vopIndex d) = img)
    ∧ (lo = 0 → (t.putResult d img w lo hi (decide (lo ≠ 0))).vreg 40 = img
        ∧ (t.putResult d img w lo hi (decide (lo ≠ 0))).vreg 41 = t.vreg 40)
    ∧ (lo ≠ 0 → (∀ i, elt w ((t.putResult d img w lo hi (decide (lo ≠ 0))).vreg 40).data i
          = if lo ≤ i ∧ i < hi then elt w img.data i else elt w (t.vreg 40).data i)
        ∧ (t.putResult d img w lo hi (decide (lo ≠ 0))).vreg 41 = t.vreg 41)
    ∧ (r ≠ 40 → r ≠ 41 → (namesRegister d = true → r ≠ vopIndex d) →
        (t.putResult d img w lo hi (decide (lo ≠ 0))).vreg r = t.vreg r) := by
  have hu : t.putResult d img w lo hi (decide (lo ≠ 0)) =
      (let u := if namesRegister d = true then t.setVreg (vopIndex d) img else t
       if lo ≠ 0 then
         u.setVreg 40 { u.vreg 40 with data := splice w (u.vreg 40).data img.data lo hi, rows := max (u.vreg 40).rows (t.rowsOf w (if lo < hi then hi else 0)) }
       else ((u.setVreg 41 (u.vreg 40)).setVreg 40 img).withLold (u.vreg 41)) := by
    cases d <;> by_cases h : lo = 0 <;> simp [Hart.putResult, namesRegister, h] <;> rfl
  rw [hu]
  dsimp only
  have h40 : ∀ (n : Nat), n = 40 ∨ n = 41 →
      (if namesRegister d = true then t.setVreg (vopIndex d) img else t).vreg n = t.vreg n := by
    intro n hn
    split
    · rename_i h
      have := vopIndex_lt d h
      rw [Hart.vreg_setVreg, if_neg (by omega)]
    · rfl
  have hl : ∀ (u : Hart) (x : VReg) (m : Nat), (u.withLold x).vreg m = u.vreg m := fun _ _ _ => rfl
  refine ⟨fun h => ?_, fun h => ?_, fun h => ?_, fun h1 h2 h3 => ?_⟩
  · have := vopIndex_lt d h
    by_cases hlo : lo ≠ 0
    · rw [if_pos hlo, Hart.vreg_setVreg, if_neg (by omega), if_pos h, Hart.vreg_setVreg, if_pos rfl]
    · rw [if_neg hlo, hl, Hart.vreg_setVreg, if_neg (by omega), Hart.vreg_setVreg, if_neg (by omega), if_pos h, Hart.vreg_setVreg,
        if_pos rfl]
  · rw [if_neg (by simp [h]), hl, hl, Hart.vreg_setVreg, if_pos rfl, Hart.vreg_setVreg, if_neg (by decide), Hart.vreg_setVreg, if_pos rfl,
      h40 40 (.inl rfl)]
    exact ⟨rfl, rfl⟩
  · rw [if_pos h]
    refine ⟨fun i => ?_, ?_⟩
    · rw [Hart.vreg_setVreg, if_pos rfl]
      dsimp only
      rw [elt_splice, h40 40 (.inl rfl)]
    · rw [Hart.vreg_setVreg, if_neg (by decide), h40 41 (.inr rfl)]
  · have hr : (if namesRegister d = true then t.setVreg (vopIndex d) img else t).vreg r = t.vreg r := by
      split
      · rename_i h
        rw [Hart.vreg_setVreg, if_neg (h3 h)]
      · rfl
    split
    · rw [Hart.vreg_setVreg, if_neg h1, hr]
    · rw [hl, Hart.vreg_setVreg, if_neg h1, Hart.vreg_setVreg, if_neg h2, hr]

/-- Putting a result changes no field but the registers and the displaced one. -/
theorem Hart.putResult_eq (t : Hart) (d : VOp) (img : VReg) (w lo hi : Nat) (m : Bool) :
    t.putResult d img w lo hi m
      = { t with v := (t.putResult d img w lo hi m).v, lold := (t.putResult d img w lo hi m).lold } := by
  cases d <;> cases m <;> rfl

/-! ### Ending an instruction of the vector stream -/

/-- The hart of a vector stream that goes on. -/
theorem State.advance_vec (s : State) (h : Nat) (v : Hart) (hc : s.cur = .vec h) :
    (s.setHart h v).advance = s.setHart h { v with
      vpc := (v.vpc + BitVec.ofNat 48 (s.wordBytes s.cur)), check := !v.loops.isEmpty } := by
  have hw : (s.setHart h v).wordBytes (s.setHart h v).cur = s.wordBytes s.cur := by
    rw [State.cur_setHart]; cases s.cur <;> rfl
  have hpc : ∀ (x : W48) (n : Nat), n < 2 ^ 48 → BitVec.setWidth 48 (x.setWidth 64 + BitVec.ofNat 64 n) = x + BitVec.ofNat 48 n := by
    intro x n hn
    apply BitVec.eq_of_toNat_eq
    simp only [BitVec.toNat_setWidth, BitVec.toNat_add, BitVec.toNat_ofNat]
    omega
  have hn : s.wordBytes s.cur < 2 ^ 48 := by
    rw [hc]; simp only [State.wordBytes]; split <;> decide
  unfold State.advance
  rw [hw]
  simp only [State.cur_setHart, hc, State.setPc, State.pcOf, State.modHart_eq, State.hart_setHart_self, State.setHart_setHart]
  rw [hc] at hn
  rw [hpc _ _ hn]

theorem State.nextPc_vec (s : State) (h : Nat) (hc : s.cur = .vec h) :
    s.nextPc.setWidth 48 = (s.hart h).vpc + BitVec.ofNat 48 (s.wordBytes s.cur) := by
  unfold State.nextPc
  rw [hc]
  apply BitVec.eq_of_toNat_eq
  simp

theorem State.me_vec (s : State) (h : Nat) (hc : s.cur = .vec h) : s.me = h := by
  simp [State.me, hc, partyHart]

theorem State.isVector_iff (s : State) : s.isVector = true ↔ ∃ h, s.cur = .vec h := by
  unfold State.isVector
  cases s.cur <;> simp

/-- Lanes that keep to R143. -/
theorem Hart.keepsLanes_refl (t : Hart) : t.KeepsLanes t.rng := ⟨fun _ => rfl, fun _ _ => rfl⟩

/-- A result put into the registers of the executing hart: where R22 puts it, whatever stands in the fields it does not touch. -/
theorem State.fileMoves_put (s : State) (d : VOp) (img : VReg) (w lo n : Nat) (g : Lanes) (t : State)
    (ht : (t.hart s.me).v = (((s.hart s.me).withRng g).putResult d img w lo n (decide (lo ≠ 0))).v) : s.FileMoves d w lo n img t := by
  have hp := Hart.vreg_putResult ((s.hart s.me).withRng g) d img w lo n
  have hv : ∀ m, (t.hart s.me).vreg m = (((s.hart s.me).withRng g).putResult d img w lo n (decide (lo ≠ 0))).vreg m := fun m => by
    rw [Hart.vreg, ht]; rfl
  have hr : ∀ m, ((s.hart s.me).withRng g).vreg m = (s.hart s.me).vreg m := fun _ => rfl
  simp only [hr, ← hv] at hp
  exact ⟨(hp 0).1, (hp 0).2.1, (hp 0).2.2.1, fun r => (hp r).2.2.2⟩

/-- The same with the instruction complete. -/
theorem State.resultMoves_put (s : State) (d : VOp) (img : VReg) (w lo n : Nat) (g : Lanes)
    (hv : s.isVector = true) (hg : (s.hart s.me).KeepsLanes g) :
    s.ResultMoves d w lo n img
      ((s.setHart s.me { ((s.hart s.me).withRng g).putResult d img w lo n (decide (lo ≠ 0)) with vstart := 0 }).advance) := by
  obtain ⟨h, hc⟩ := (State.isVector_iff s).mp hv
  have hme := State.me_vec s h hc
  have hq := Hart.putResult_eq ((s.hart s.me).withRng g) d img w lo n (decide (lo ≠ 0))
  have hadv := State.advance_vec s h { ((s.hart s.me).withRng g).putResult d img w lo n (decide (lo ≠ 0)) with vstart := 0 } hc
  rw [← hme] at hadv
  have hf := State.fileMoves_put s d img w lo n g
  generalize ((s.hart s.me).withRng g).putResult d img w lo n (decide (lo ≠ 0)) = p at hq hadv hf ⊢
  refine ⟨hf _ ?_, ⟨p.v, p.lold, g, hg, ?_⟩, ?_⟩
  · rw [hadv, State.hart_setHart_self]
  · rw [hadv, State.nextPc_vec s h hc, hme]
    rw [hme] at hq
    clear hf hadv
    generalize p.v = pv at hq
    generalize p.lold = pl at hq
    rw [hq]
    rfl
  · rw [hadv]; exact State.sameBytes_of _ _ rfl rfl (fun _ => rfl)

/-- Where an element-wise instruction ends (R34, R274). -/
theorem State.stopAt_cut (s : State) (n e : Nat) (h : s.cutAt n e) : s.stopAt s.me n = e := by
  obtain ⟨⟨g, hg, rfl⟩, hr, h1, h2⟩ := h
  unfold State.stopAt
  rw [hg]
  dsimp only
  rw [decide_eq_true h1, decide_eq_true h2, if_pos]
  rcases hr with h | h <;> simp [h]

theorem State.stopAt_done (s : State) (n : Nat) (h : ∀ e, ¬ s.cutAt n e) : s.stopAt s.me n = n := by
  unfold State.stopAt
  split
  · rename_i g hg
    dsimp only
    split
    · rename_i hc
      simp only [Bool.and_eq_true, Bool.or_eq_true, decide_eq_true_eq] at hc
      exact absurd ⟨⟨g, hg, rfl⟩, hc.1.1, hc.1.2, hc.2⟩ (h _)
    · rfl
  · rfl

/-- The image and the lanes of an element-wise run from vstart to `e`. -/
theorem State.elemImage_run (s : State) (d : VOp) (e : Nat) (f : Nat → Nat → Lanes → Nat × Lanes) :
    let u := s.hart s.me
    let w := width u.ty
    let prior := u.vreg (vopIndex d)
    let r := forElems (elemStep u w f) (e - u.vstart) u.vstart (prior.data, u.rng)
    s.ElemImage d e f (u.imageTo prior w u.vstart e r.1) := by
  dsimp only
  refine ⟨fun i => ?_, rfl, rfl⟩
  have hf := forElems_elemStep (s.hart s.me) (width (s.hart s.me).ty) f (e - (s.hart s.me).vstart) (s.hart s.me).vstart
    (((s.hart s.me).vreg (vopIndex d)).data, (s.hart s.me).rng) i
  by_cases h : (s.hart s.me).vstart ≤ i ∧ i < e
  · rw [if_pos h]; rw [if_pos (by omega)] at hf; exact hf
  · rw [if_neg h]; rw [if_neg (by omega)] at hf; exact hf

theorem State.keepsLanes_run (s : State) (d : VOp) (e : Nat) (f : Nat → Nat → Lanes → Nat × Lanes) (ho : ownLane f)
    (hs : (s.hart s.me).rnd ≠ stoch → ∀ i p g, (f i p g).2 = g) (hn : e ≤ (s.hart s.me).vl) :
    (s.hart s.me).KeepsLanes (forElems (elemStep (s.hart s.me) (width (s.hart s.me).ty) f) (e - (s.hart s.me).vstart)
      (s.hart s.me).vstart (((s.hart s.me).vreg (vopIndex d)).data, (s.hart s.me).rng)).2 := by
  have hl := forElems_lanes (s.hart s.me) (width (s.hart s.me).ty) f (e - (s.hart s.me).vstart) (s.hart s.me).vstart
    (((s.hart s.me).vreg (vopIndex d)).data, (s.hart s.me).rng)
  exact ⟨fun h => hl.1 (hs h), fun j hj => hl.2 ho j (fun i _ h2 => hj i (by omega))⟩

/-- AN ELEMENT-WISE INSTRUCTION that is not cut leaves what R22, R25, R33 and R77 say. -/
theorem State.elemResult_elementwise (s : State) (d : VOp) (n : Nat) (f : Nat → Nat → Lanes → Nat × Lanes) (hv : s.isVector = true)
    (hcut : ∀ e, ¬ s.cutAt n e) (ho : ownLane f) (hs : (s.hart s.me).rnd ≠ stoch → ∀ i p g, (f i p g).2 = g)
    (hn : n ≤ (s.hart s.me).vl) : s.ElemResult d n f (s.elementwise d n f) := by
  have hi := State.elemImage_run s d n f
  have hk := State.keepsLanes_run s d n f ho hs hn
  have hl := (forElems_lanes (s.hart s.me) (width (s.hart s.me).ty) f (n - (s.hart s.me).vstart) (s.hart s.me).vstart
    (((s.hart s.me).vreg (vopIndex d)).data, (s.hart s.me).rng)).1
  unfold State.elementwise
  dsimp only at hi ⊢
  rw [State.stopAt_done s n hcut]
  generalize forElems (elemStep (s.hart s.me) (width (s.hart s.me).ty) f) (n - (s.hart s.me).vstart) (s.hart s.me).vstart
    (((s.hart s.me).vreg (vopIndex d)).data, (s.hart s.me).rng) = r at hi hk hl
  unfold State.endElems
  rw [if_neg (Nat.lt_irrefl n), State.modHart_eq, State.hart_setHart_self, State.setHart_setHart]
  refine ⟨_, hi, State.resultMoves_put s d _ (width (s.hart s.me).ty) (s.hart s.me).vstart n r.2 hv hk, fun h => ?_⟩
  obtain ⟨h', hc⟩ := (State.isVector_iff s).mp hv
  have hme := State.me_vec s h' hc
  have hr : r.2 = (s.hart s.me).rng := hl h
  rw [hme] at hr
  rw [hme, State.advance_vec s h' _ hc, State.hart_setHart_self, Hart.putResult_eq]
  exact hr

/-- AN ELEMENT-WISE INSTRUCTION that is cut leaves what R33, R34 and R274 say. -/
theorem State.elemStop_elementwise (s : State) (d : VOp) (n e : Nat) (f : Nat → Nat → Lanes → Nat × Lanes)
    (hcut : s.cutAt n e) (ho : ownLane f) (hs : (s.hart s.me).rnd ≠ stoch → ∀ i p g, (f i p g).2 = g)
    (hn : n ≤ (s.hart s.me).vl) : s.ElemStop d e f (s.elementwise d n f) := by
  have hlt : e < n := hcut.2.2.2
  have hi := State.elemImage_run s d e f
  have hk := State.keepsLanes_run s d e f ho hs (by omega)
  unfold State.elementwise
  dsimp only at hi ⊢
  rw [State.stopAt_cut s n e hcut]
  generalize forElems (elemStep (s.hart s.me) (width (s.hart s.me).ty) f) (e - (s.hart s.me).vstart) (s.hart s.me).vstart
    (((s.hart s.me).vreg (vopIndex d)).data, (s.hart s.me).rng) = r at hi hk
  unfold State.endElems
  rw [if_pos hlt, State.modHart_eq, State.hart_setHart_self, State.setHart_setHart]
  have hq := Hart.putResult_eq ((s.hart s.me).withRng r.2) d ((s.hart s.me).imageTo ((s.hart s.me).vreg (vopIndex d))
    (width (s.hart s.me).ty) (s.hart s.me).vstart e r.1) (width (s.hart s.me).ty) (s.hart s.me).vstart e
    (decide ((s.hart s.me).vstart ≠ 0))
  have hf := State.fileMoves_put s d ((s.hart s.me).imageTo ((s.hart s.me).vreg (vopIndex d)) (width (s.hart s.me).ty)
    (s.hart s.me).vstart e r.1) (width (s.hart s.me).ty) (s.hart s.me).vstart e r.2
  generalize ((s.hart s.me).withRng r.2).putResult d _ (width (s.hart s.me).ty) (s.hart s.me).vstart e
    (decide ((s.hart s.me).vstart ≠ 0)) = p at hq hf ⊢
  refine ⟨_, hi, hf _ ?_, ⟨p.v, p.lold, r.2, hk, ?_⟩, State.sameBytes_of _ _ rfl rfl (fun _ => rfl)⟩
  · rw [State.hart_setHart_self]
  · clear hf
    generalize p.v = pv at hq
    generalize p.lold = pl at hq
    rw [hq]
    rfl

/-- A WHOLE-VECTOR INSTRUCTION with a register result leaves what R22 and R33 say. -/
theorem State.wholeResult_whole (s : State) (d : VOp) (n data : Nat) (g : Lanes) (e : Nat → Nat) (hv : s.isVector = true)
    (hg : (s.hart s.me).KeepsLanes g)
    (he : ∀ i, elt (width (s.hart s.me).ty) data i
      = if i < n then e i % 2 ^ width (s.hart s.me).ty else elt (width (s.hart s.me).ty) ((s.hart s.me).vreg (vopIndex d)).data i) :
    s.WholeResult d n e (s.whole d n data g) :=
  ⟨(s.hart s.me).image ((s.hart s.me).vreg (vopIndex d)) (width (s.hart s.me).ty) n data, he, rfl, rfl,
    State.resultMoves_put s d _ (width (s.hart s.me).ty) 0 n g hv hg⟩

end Sys2Proof.Machine
end

