-- ==== Sys2Proof/Laws/Encoding.lean ====
section
/-! SUPPORT. Laws of the fields of an instruction word: what the decoder reads where the encoder has put a value. -/

namespace Sys2Proof

theorem fld_eq {n : Nat} (w lo : Nat) (x : BitVec n) (h : w / 2 ^ lo % 2 ^ n = x.toNat) : fld w lo n = x := by
  apply BitVec.eq_of_toNat_eq; simp [fld, h]

theorem flag_eq (w lo : Nat) (b : Bool) (h : w / 2 ^ lo % 2 = b.toNat) : flag w lo = b := by
  cases b <;> simp_all [flag]

theorem fnIs_ok (w lo n v : Nat) (h : w / 2 ^ lo % 2 ^ n = v) : fnIs w lo n v = .ok () := by simp [fnIs, h]

theorem reserved_ok (w lo n : Nat) (h : w / 2 ^ lo % 2 ^ n = 0) : reserved w lo n = .ok () := by simp [reserved, h]

theorem Scope.code_lt (s : Scope) : s.code < 5 := by cases s <;> decide

theorem scope_eq (w : Nat) (s : Scope) (h : w % 8 = s.code) : scope w = .ok s := by
  rw [scope, h]; cases s <;> rfl

theorem VOp.toNat_lt (o : VOp) : o.toNat < 256 := by
  cases o <;> simp only [VOp.toNat] <;> omega

theorem ofNat_eq {n : Nat} (b : Nat) (x : BitVec n) (h : b % 2 ^ n = x.toNat) : BitVec.ofNat n b = x := by
  apply BitVec.eq_of_toNat_eq; simp [h]

/-- Reading the byte of a vector operand gives the operand back. -/
theorem VOp.ofByte_toNat (o : VOp) : VOp.ofByte o.toNat = .ok o := by
  cases o with
  | main n =>
    have := n.isLt
    have h : n.toNat / 64 % 4 = 0 := by omega
    have h2 : n.toNat / 32 % 2 = 0 := by omega
    simp only [VOp.toNat, VOp.ofByte, h, h2, if_true]
    rw [ofNat_eq _ n (by omega)]
  | oper n =>
    have := n.isLt
    have h : (64 + n.toNat) / 64 % 4 = 1 := by omega
    have h2 : (64 + n.toNat) / 8 % 8 = 0 := by omega
    simp only [VOp.toNat, VOp.ofByte, h, h2, if_true]
    rw [ofNat_eq _ n (by omega)]
  | last n =>
    have := n.isLt
    have h : (128 + n.toNat) / 64 % 4 = 2 := by omega
    have h2 : (128 + n.toNat) / 2 % 32 = 0 := by omega
    simp only [VOp.toNat, VOp.ofByte, h, h2, if_true]
    rw [ofNat_eq _ n (by omega)]
  | repl z n =>
    have := n.isLt; have := z.isLt
    have h : (192 + z.toNat * 16 + n.toNat) / 64 % 4 = 3 := by omega
    simp only [VOp.toNat, VOp.ofByte, h]
    rw [ofNat_eq _ n (by omega), ofNat_eq _ z (by omega)]

theorem vop_eq (w lo : Nat) (o : VOp) (h : w / 2 ^ lo % 256 = o.toNat) : vop w lo = .ok o := by
  rw [vop, h, VOp.ofByte_toNat]

end Sys2Proof
end

