-- ==== Sys2Proof/Laws/Fetch.lean ====
section
/-! SUPPORT. Preparing a turn changes nothing that a fetch looks at, and with no access unperformed nothing goes before a turn. -/

namespace Sys2Proof.Machine

/-- The state with another agenda and another executing party, as a turn begins. -/
def State.begins (s : State) (rest : List Mover) (p : Party) (cut : Option Nat) : State :=
  ({ s with agenda := rest } : State).prepare p cut

@[simp] theorem State.cur_begins (s : State) (r : List Mover) (p : Party) (c : Option Nat) : (s.begins r p c).cur = p := rfl
@[simp] theorem State.pcOf_begins (s : State) (r : List Mover) (p q : Party) (c : Option Nat) : (s.begins r p c).pcOf q = s.pcOf q := rfl
@[simp] theorem State.wordBytes_begins (s : State) (r : List Mover) (p q : Party) (c : Option Nat) :
    (s.begins r p c).wordBytes q = s.wordBytes q := rfl
@[simp] theorem State.coreOf_begins (s : State) (r : List Mover) (p q : Party) (c : Option Nat) :
    (s.begins r p c).coreOf q = s.coreOf q := rfl
@[simp] theorem State.codePoisoned_begins (s : State) (r : List Mover) (p : Party) (c : Option Nat) (core pa : Nat) :
    (s.begins r p c).codePoisoned core pa = s.codePoisoned core pa := rfl
@[simp] theorem State.codeByte_begins (s : State) (r : List Mover) (p : Party) (c : Option Nat) (core pa : Nat) :
    (s.begins r p c).codeByte core pa = s.codeByte core pa := rfl

@[simp] theorem State.walk_begins (s : State) (r : List Mover) (p : Party) (c : Option Nat) (va n table : Nat) :
    (s.begins r p c).walk va n table = s.walk va n table := by
  induction n generalizing table with
  | zero => rfl
  | succ n ih =>
    rw [State.walk, State.walk]
    simp only [ih]
    rfl

@[simp] theorem State.translateRoot_begins (s : State) (r : List Mover) (p : Party) (c : Option Nat) (v : Bool) (root va : Nat)
    (a : Access) : (s.begins r p c).translateRoot v root va a = s.translateRoot v root va a := by
  rw [State.translateRoot, State.translateRoot, State.walk_begins]
  rfl

@[simp] theorem State.translate_begins (s : State) (r : List Mover) (p : Party) (c : Option Nat) (core ctx va : Nat) (a : Access) :
    (s.begins r p c).translate core ctx va a = s.translate core ctx va a := by
  rw [State.translate, State.translate, State.translateRoot_begins]
  rfl

@[simp] theorem State.translateVerge_begins (s : State) (r : List Mover) (p : Party) (c : Option Nat) (n va : Nat) (a : Access) :
    (s.begins r p c).translateVerge n va a = s.translateVerge n va a := by
  rw [State.translateVerge, State.translateVerge]
  simp only [State.translateRoot_begins]
  rfl

/-- A fetch finds its bytes where it would have found them before the turn began. -/
@[simp] theorem State.fetchAt_begins (s : State) (r : List Mover) (p q : Party) (c : Option Nat) (va n : Nat) :
    (s.begins r p c).fetchAt q va n = s.fetchAt q va n := by
  unfold State.fetchAt
  cases q <;> simp only [State.translate_begins, State.translateVerge_begins] <;> rfl

/-! ### No access unperformed -/

theorem State.performWhere_none (s : State) (f : Pending → Bool) (h : s.late = []) : s.performWhere f = s := by
  rw [State.performWhere, h]
  exact (congrArg (fun l => ({ s with late := l } : State)) h).symm

theorem State.performUnit_none (s : State) (p : Party) (h : s.late = []) : s.performUnit p = s := State.performWhere_none s _ h

theorem State.readyFor_none (s : State) (p : Party) (cut : Option Nat) (later : Bool) (h : s.late = []) : s.readyFor p cut later = s := by
  rw [State.readyFor, h]
  rfl

theorem State.ready_none (s : State) (p : Party) (cut : Option Nat) (h : s.late = []) : s.ready p cut = s :=
  State.readyFor_none s p cut false h

/-! ### What is pulled forward -/

/-- Everything is in one part or the other. -/
theorem mem_pull (f : Pending → Bool) (seed l : List Pending) (e : Pending) :
    (e ∈ (pull f seed l).1 ∨ e ∈ (pull f seed l).2) ↔ (e ∈ seed ∨ e ∈ l) := by
  unfold pull
  induction l with
  | nil => simp
  | cons a l ih =>
    rw [List.foldr_cons]
    split
    · simp only [List.mem_cons]; rw [or_assoc, ih]; simp only [or_left_comm]
    · simp only [List.mem_cons]; rw [or_left_comm, ih]; simp only [or_left_comm]

/-- What is picked is pulled. -/
theorem pull_picks (f : Pending → Bool) (seed l : List Pending) (e : Pending) (h : e ∈ (pull f seed l).2) : f e = false := by
  unfold pull at h
  induction l with
  | nil => simp at h
  | cons a l ih =>
    rw [List.foldr_cons] at h
    split at h
    · exact ih h
    · next hn =>
      rcases List.mem_cons.mp h with rfl | h
      · simpa using (by simpa using hn : _ ∧ _).1
      · exact ih h

/-- With nothing picked and nothing before the seed, only the seed is pulled. -/
theorem pull_seed (seed l : List Pending) (h : ∀ a ∈ l, seed.any a.precedes = false) :
    pull (fun _ => false) seed l = (seed, l) := by
  unfold pull
  induction l with
  | nil => rfl
  | cons a l ih =>
    rw [List.foldr_cons, ih (fun b hb => h b (List.mem_cons_of_mem _ hb))]
    simp [h a (List.mem_cons_self ..)]

/-- A write that nothing is ordered before is performed alone. -/
theorem State.performNth_alone (s : State) (k : Nat) (e : Pending) (h : s.late[k]? = some e)
    (alone : ∀ a ∈ s.late.take k, a.precedes e = false) :
    s.performNth k = ({ s with late := s.late.eraseIdx k } : State).performOne e := by
  rw [State.performNth, h]
  simp only [pull_seed [e] (s.late.take k) (fun a ha => by simp [alone a ha]), List.foldl_cons, List.foldl_nil, List.eraseIdx_eq_take_drop_succ]

/-! ### Performing keeps the canonical form of memory -/

theorem State.wf_storePlace (s : State) (core : Nat) (home : Bool) (pl : Place) (bs : List Byte) (h : Memory.wf s.mem = true) :
    Memory.wf (s.storePlace core home pl bs).mem = true := by
  unfold State.storePlace
  split
  · exact h
  · split
    · split
      · exact h
      · exact State.wf_homeWrite _ _ _ (State.wf_flush _ _ _ _ h)
    · rw [State.mem_l1Write]; exact h
  · exact h

theorem State.wf_loadPlace (s : State) (core : Nat) (home : Bool) (pl : Place) (n : Nat) (h : Memory.wf s.mem = true) :
    Memory.wf (s.loadPlace core home pl n).2.mem = true := by
  unfold State.loadPlace
  split
  · exact h
  · split
    · exact State.wf_flush _ _ _ _ h
    · split
      · exact h
      · rw [State.mem_fill]; exact h
  · exact h

@[simp] theorem State.mem_deliver (s : State) (p : Party) (n : Nat) (dst : Target) (v : Nat) : (s.deliver p n dst v).mem = s.mem := by
  cases dst <;> simp [State.deliver, State.modHart_eq]

theorem State.wf_performOne (s : State) (e : Pending) (h : Memory.wf s.mem = true) : Memory.wf (s.performOne e).mem = true := by
  unfold State.performOne
  split
  · exact State.wf_storePlace _ _ _ _ _ h
  · exact h
  · rw [State.mem_deliver]
    split
    · exact State.wf_storePlace _ _ _ _ _ (State.wf_loadPlace _ _ _ _ _ h)
    · exact State.wf_loadPlace _ _ _ _ _ h
  · exact State.wf_release _ _ _ h

theorem State.wf_readAgain (s : State) (e : Pending) (h : Memory.wf s.mem = true) : Memory.wf (s.readAgain e).mem = true := by
  unfold State.readAgain
  split
  · split
    · rw [State.mem_deliver]; exact State.wf_loadPlace _ _ _ _ _ h
    · exact h
  · exact h

theorem State.wf_performWhere (s : State) (f : Pending → Bool) (h : Memory.wf s.mem = true) : Memory.wf (s.performWhere f).mem = true :=
  foldl_keeps (fun s : State => Memory.wf s.mem = true) State.performOne State.wf_performOne _ _ h

theorem State.wf_performUnit (s : State) (p : Party) (h : Memory.wf s.mem = true) : Memory.wf (s.performUnit p).mem = true :=
  State.wf_performWhere s _ h

theorem State.wf_performNth (s : State) (k : Nat) (h : Memory.wf s.mem = true) : Memory.wf (s.performNth k).mem = true := by
  unfold State.performNth
  split
  · exact foldl_keeps (fun s : State => Memory.wf s.mem = true) State.performOne State.wf_performOne _ _ h
  · exact h

theorem State.wf_rereadNth (s : State) (k : Nat) (h : Memory.wf s.mem = true) : Memory.wf (s.rereadNth k).mem = true := by
  unfold State.rereadNth
  split
  · exact foldl_keeps (fun s : State => Memory.wf s.mem = true) State.readAgain State.wf_readAgain _ _ (State.wf_readAgain _ _ h)
  · exact h

theorem State.wf_yieldOnce (s : State) (p : Party) (cut : Option Nat) (later : Bool) (h : Memory.wf s.mem = true) :
    Memory.wf (s.yieldOnce p cut later).mem = true := by
  unfold State.yieldOnce
  split
  · exact State.wf_performUnit _ _ h
  · split
    · exact h
    · dsimp only
      split
      · exact State.wf_performUnit _ _ h
      · split
        · exact State.wf_performWhere _ _ h
        · split
          · exact State.wf_performWhere _ _ (State.wf_performWhere _ _ h)
          · exact State.wf_performWhere _ _ h

theorem State.wf_yielded (p : Party) (cut : Option Nat) (later : Bool) (n : Nat) (s : State) (h : Memory.wf s.mem = true) :
    Memory.wf (State.yielded p cut later n s).mem = true := by
  induction n generalizing s with
  | zero => exact h
  | succ n ih =>
    rw [State.yielded]
    split
    · exact h
    · exact ih _ (State.wf_yieldOnce s p cut later h)

/-- What is performed before a turn keeps the canonical form. -/
theorem State.wf_readyFor (s : State) (p : Party) (cut : Option Nat) (later : Bool) (h : Memory.wf s.mem = true) :
    Memory.wf (s.readyFor p cut later).mem = true := by
  have y := State.wf_yielded p cut later (s.late.length + 1) s h
  unfold State.readyFor
  split
  · exact h
  · dsimp only
    split
    · split
      · exact y
      · exact y
    · exact y

end Sys2Proof.Machine
end

