-- ==== Sys2Proof/Laws/PerInstr.lean ====
section
/-! SUPPORT. Decode and encode agree, constructor by constructor: the lemmas of the family RoundTrip. -/

namespace Sys2Proof.Laws.RoundTrip

/-- The word of a well-formed instruction is a 32-bit word that decodes to it; an event has no word. -/
def Statement (i : Instr) : Prop := i.illFormed = none → ∀ w, encode i = some w → w < 2 ^ 32 ∧ decode w = .ok i

theorem of_fields (i : Instr) (e : Nat) (he : encode i = some e) (hb : e < 2 ^ 32)
    (h : ∀ w, w = e → decodeFields w = .ok i) : Statement i := by
  intro hi w hw
  have := Option.some.inj (hw.symm.trans he)
  subst this
  refine ⟨hb, ?_⟩
  simp [decode, h w rfl, hi, bind, Except.bind, pure, Except.pure]

theorem of_none (i : Instr) (he : encode i = none) : Statement i := fun _ w hw => by simp [he] at hw

theorem layout1 (op : Nat) (x0 : BitVec 5) (x1 : BitVec 5) (x2 : BitVec 5) (h : op < 256) (w : Nat)
    (hw : w = put op 24 + put x0.toNat 19 + put x1.toNat 14 + put x2.toNat 9) :
    w < 2 ^ 32 ∧ w / 2 ^ 28 = op / 16 ∧ w / 2 ^ 24 % 16 = op % 16 ∧ fld w 19 5 = x0 ∧ fld w 14 5 = x1 ∧
    fld w 9 5 = x2 ∧ fnIs w 0 9 0 = .ok () := by
  have := x0.isLt
  have := x1.isLt
  have := x2.isLt
  simp only [put] at hw
  exact ⟨by omega, by omega, by omega, fld_eq _ _ _ (by omega), fld_eq _ _ _ (by omega), fld_eq _ _ _ (by omega), fnIs_ok _ _ _ _ (by omega)⟩

theorem layout2 (op : Nat) (x0 : BitVec 5) (x1 : BitVec 5) (x2 : BitVec 5) (h : op < 256) (w : Nat)
    (hw : w = put op 24 + put x0.toNat 19 + put x1.toNat 14 + put x2.toNat 9) :
    w < 2 ^ 32 ∧ w / 2 ^ 28 = op / 16 ∧ w / 2 ^ 24 % 16 = op % 16 ∧ fld w 19 5 = x0 ∧ fld w 14 5 = x1 ∧
    fld w 9 5 = x2 ∧ w / 2 ^ 0 % 2 ^ 9 = 0 := by
  have := x0.isLt
  have := x1.isLt
  have := x2.isLt
  simp only [put] at hw
  exact ⟨by omega, by omega, by omega, fld_eq _ _ _ (by omega), fld_eq _ _ _ (by omega), fld_eq _ _ _ (by omega), by omega⟩

theorem layout3 (op : Nat) (x0 : BitVec 5) (x1 : BitVec 5) (x2 : BitVec 5) (h : op < 256) (w : Nat)
    (hw : w = put op 24 + put x0.toNat 19 + put x1.toNat 14 + put x2.toNat 9 + 1) :
    w < 2 ^ 32 ∧ w / 2 ^ 28 = op / 16 ∧ w / 2 ^ 24 % 16 = op % 16 ∧ fld w 19 5 = x0 ∧ fld w 14 5 = x1 ∧
    fld w 9 5 = x2 ∧ w / 2 ^ 0 % 2 ^ 9 = 1 := by
  have := x0.isLt
  have := x1.isLt
  have := x2.isLt
  simp only [put] at hw
  exact ⟨by omega, by omega, by omega, fld_eq _ _ _ (by omega), fld_eq _ _ _ (by omega), fld_eq _ _ _ (by omega), by omega⟩

theorem layout4 (op : Nat) (x0 : BitVec 5) (x1 : BitVec 5) (x2 : BitVec 14) (h : op < 256) (w : Nat)
    (hw : w = put op 24 + put x0.toNat 19 + put x1.toNat 14 + x2.toNat) :
    w < 2 ^ 32 ∧ w / 2 ^ 28 = op / 16 ∧ w / 2 ^ 24 % 16 = op % 16 ∧ fld w 19 5 = x0 ∧ fld w 14 5 = x1 ∧
    fld w 0 14 = x2 := by
  have := x0.isLt
  have := x1.isLt
  have := x2.isLt
  simp only [put] at hw
  exact ⟨by omega, by omega, by omega, fld_eq _ _ _ (by omega), fld_eq _ _ _ (by omega), fld_eq _ _ _ (by omega)⟩

theorem layout5 (op : Nat) (x0 : BitVec 5) (x1 : BitVec 19) (h : op < 256) (w : Nat)
    (hw : w = put op 24 + put x0.toNat 19 + x1.toNat) :
    w < 2 ^ 32 ∧ w / 2 ^ 28 = op / 16 ∧ w / 2 ^ 24 % 16 = op % 16 ∧ fld w 19 5 = x0 ∧ fld w 0 19 = x1 := by
  have := x0.isLt
  have := x1.isLt
  simp only [put] at hw
  exact ⟨by omega, by omega, by omega, fld_eq _ _ _ (by omega), fld_eq _ _ _ (by omega)⟩

theorem layout6 (op : Nat) (x0 : BitVec 19) (h : op < 256) (w : Nat)
    (hw : w = put op 24 + x0.toNat) :
    w < 2 ^ 32 ∧ w / 2 ^ 28 = op / 16 ∧ w / 2 ^ 24 % 16 = op % 16 ∧ reserved w 19 5 = .ok () ∧ fld w 0 19 = x0 := by
  have := x0.isLt
  simp only [put] at hw
  exact ⟨by omega, by omega, by omega, reserved_ok _ _ _ (by omega), fld_eq _ _ _ (by omega)⟩

theorem layout7 (op : Nat) (x0 : BitVec 5) (h : op < 256) (w : Nat)
    (hw : w = put op 24 + put x0.toNat 19) :
    w < 2 ^ 32 ∧ w / 2 ^ 28 = op / 16 ∧ w / 2 ^ 24 % 16 = op % 16 ∧ reserved w 0 19 = .ok () ∧ fld w 19 5 = x0 := by
  have := x0.isLt
  simp only [put] at hw
  exact ⟨by omega, by omega, by omega, reserved_ok _ _ _ (by omega), fld_eq _ _ _ (by omega)⟩

theorem layout8 (op : Nat) (x0 : Scope) (h : op < 256) (w : Nat)
    (hw : w = put op 24 + x0.code) :
    w < 2 ^ 32 ∧ w / 2 ^ 28 = op / 16 ∧ w / 2 ^ 24 % 16 = op % 16 ∧ reserved w 9 15 = .ok () ∧ scope w = .ok x0 ∧
    fnIs w 3 6 0 = .ok () := by
  have := x0.code_lt
  simp only [put] at hw
  exact ⟨by omega, by omega, by omega, reserved_ok _ _ _ (by omega), scope_eq _ _ (by omega), fnIs_ok _ _ _ _ (by omega)⟩

theorem layout9 (op : Nat) (x0 : VOp) (x1 : VOp) (x2 : VOp) (h : op < 256) (w : Nat)
    (hw : w = put op 24 + put x0.toNat 16 + put x1.toNat 8 + x2.toNat) :
    w < 2 ^ 32 ∧ w / 2 ^ 28 = op / 16 ∧ w / 2 ^ 24 % 16 = op % 16 ∧ vop w 16 = .ok x0 ∧ vop w 8 = .ok x1 ∧
    vop w 0 = .ok x2 := by
  have := x0.toNat_lt
  have := x1.toNat_lt
  have := x2.toNat_lt
  simp only [put] at hw
  exact ⟨by omega, by omega, by omega, vop_eq _ _ _ (by omega), vop_eq _ _ _ (by omega), vop_eq _ _ _ (by omega)⟩

theorem layout10 (op : Nat) (x0 : VOp) (x1 : VOp) (h : op < 256) (w : Nat)
    (hw : w = put op 24 + put x0.toNat 16 + put x1.toNat 8) :
    w < 2 ^ 32 ∧ w / 2 ^ 28 = op / 16 ∧ w / 2 ^ 24 % 16 = op % 16 ∧ reserved w 0 8 = .ok () ∧ vop w 16 = .ok x0 ∧
    vop w 8 = .ok x1 := by
  have := x0.toNat_lt
  have := x1.toNat_lt
  simp only [put] at hw
  exact ⟨by omega, by omega, by omega, reserved_ok _ _ _ (by omega), vop_eq _ _ _ (by omega), vop_eq _ _ _ (by omega)⟩

theorem layout11 (op : Nat) (x0 : VOp) (x1 : VOp) (x2 : BitVec 8) (h : op < 256) (w : Nat)
    (hw : w = put op 24 + put x0.toNat 16 + put x1.toNat 8 + x2.toNat) :
    w < 2 ^ 32 ∧ w / 2 ^ 28 = op / 16 ∧ w / 2 ^ 24 % 16 = op % 16 ∧ vop w 16 = .ok x0 ∧ vop w 8 = .ok x1 ∧
    fld w 0 8 = x2 := by
  have := x0.toNat_lt
  have := x1.toNat_lt
  have := x2.isLt
  simp only [put] at hw
  exact ⟨by omega, by omega, by omega, vop_eq _ _ _ (by omega), vop_eq _ _ _ (by omega), fld_eq _ _ _ (by omega)⟩

theorem layout12 (op : Nat) (x0 : VOp) (x1 : VOp) (x2 : BitVec 4) (h : op < 256) (w : Nat)
    (hw : w = put op 24 + put x0.toNat 16 + put x1.toNat 8 + x2.toNat) :
    w < 2 ^ 32 ∧ w / 2 ^ 28 = op / 16 ∧ w / 2 ^ 24 % 16 = op % 16 ∧ reserved w 4 4 = .ok () ∧ vop w 16 = .ok x0 ∧
    vop w 8 = .ok x1 ∧ fld w 0 4 = x2 := by
  have := x0.toNat_lt
  have := x1.toNat_lt
  have := x2.isLt
  simp only [put] at hw
  exact ⟨by omega, by omega, by omega, reserved_ok _ _ _ (by omega), vop_eq _ _ _ (by omega), vop_eq _ _ _ (by omega), fld_eq _ _ _ (by omega)⟩

theorem layout13 (op : Nat) (x0 : BitVec 3) (x1 : VOp) (x2 : VOp) (h : op < 256) (w : Nat)
    (hw : w = put op 24 + put x0.toNat 16 + put x1.toNat 8 + x2.toNat) :
    w < 2 ^ 32 ∧ w / 2 ^ 28 = op / 16 ∧ w / 2 ^ 24 % 16 = op % 16 ∧ reserved w 19 5 = .ok () ∧ fld w 16 3 = x0 ∧
    vop w 8 = .ok x1 ∧ vop w 0 = .ok x2 := by
  have := x0.isLt
  have := x1.toNat_lt
  have := x2.toNat_lt
  simp only [put] at hw
  exact ⟨by omega, by omega, by omega, reserved_ok _ _ _ (by omega), fld_eq _ _ _ (by omega), vop_eq _ _ _ (by omega), vop_eq _ _ _ (by omega)⟩

theorem layout14 (op : Nat) (x0 : BitVec 4) (x1 : BitVec 5) (h : op < 256) (w : Nat)
    (hw : w = put op 24 + put x0.toNat 20 + put x1.toNat 7) :
    w < 2 ^ 32 ∧ w / 2 ^ 28 = op / 16 ∧ w / 2 ^ 24 % 16 = op % 16 ∧ reserved w 0 7 = .ok () ∧
    reserved w 12 8 = .ok () ∧ fld w 20 4 = x0 ∧ fld w 7 5 = x1 := by
  have := x0.isLt
  have := x1.isLt
  simp only [put] at hw
  exact ⟨by omega, by omega, by omega, reserved_ok _ _ _ (by omega), reserved_ok _ _ _ (by omega), fld_eq _ _ _ (by omega), fld_eq _ _ _ (by omega)⟩

theorem layout15 (op : Nat) (x0 : BitVec 4) (x1 : BitVec 4) (x2 : BitVec 5) (h : op < 256) (w : Nat)
    (hw : w = put op 24 + put x0.toNat 20 + put x1.toNat 16 + put x2.toNat 7) :
    w < 2 ^ 32 ∧ w / 2 ^ 28 = op / 16 ∧ w / 2 ^ 24 % 16 = op % 16 ∧ reserved w 0 7 = .ok () ∧
    reserved w 12 4 = .ok () ∧ fld w 20 4 = x0 ∧ fld w 16 4 = x1 ∧ fld w 7 5 = x2 := by
  have := x0.isLt
  have := x1.isLt
  have := x2.isLt
  simp only [put] at hw
  exact ⟨by omega, by omega, by omega, reserved_ok _ _ _ (by omega), reserved_ok _ _ _ (by omega), fld_eq _ _ _ (by omega), fld_eq _ _ _ (by omega), fld_eq _ _ _ (by omega)⟩

theorem layout16 (op : Nat) (x0 : VOp) (h : op < 256) (w : Nat)
    (hw : w = put op 24 + put x0.toNat 16) :
    w < 2 ^ 32 ∧ w / 2 ^ 28 = op / 16 ∧ w / 2 ^ 24 % 16 = op % 16 ∧ reserved w 0 16 = .ok () ∧ vop w 16 = .ok x0 := by
  have := x0.toNat_lt
  simp only [put] at hw
  exact ⟨by omega, by omega, by omega, reserved_ok _ _ _ (by omega), vop_eq _ _ _ (by omega)⟩

theorem layout17 (op : Nat) (x0 : BitVec 3) (x1 : BitVec 3) (x2 : BitVec 3) (h : op < 256) (w : Nat)
    (hw : w = put op 24 + put x0.toNat 21 + put x1.toNat 18 + put x2.toNat 15) :
    w < 2 ^ 32 ∧ w / 2 ^ 28 = op / 16 ∧ w / 2 ^ 24 % 16 = op % 16 ∧ reserved w 0 15 = .ok () ∧ fld w 21 3 = x0 ∧
    fld w 18 3 = x1 ∧ fld w 15 3 = x2 := by
  have := x0.isLt
  have := x1.isLt
  have := x2.isLt
  simp only [put] at hw
  exact ⟨by omega, by omega, by omega, reserved_ok _ _ _ (by omega), fld_eq _ _ _ (by omega), fld_eq _ _ _ (by omega), fld_eq _ _ _ (by omega)⟩

theorem layout18 (op : Nat) (x0 : BitVec 3) (h : op < 256) (w : Nat)
    (hw : w = put op 24 + put x0.toNat 21) :
    w < 2 ^ 32 ∧ w / 2 ^ 28 = op / 16 ∧ w / 2 ^ 24 % 16 = op % 16 ∧ reserved w 15 6 = .ok () ∧ fld w 21 3 = x0 ∧
    w / 2 ^ 0 % 2 ^ 15 = 0 := by
  have := x0.isLt
  simp only [put] at hw
  exact ⟨by omega, by omega, by omega, reserved_ok _ _ _ (by omega), fld_eq _ _ _ (by omega), by omega⟩

theorem layout19 (op : Nat) (x0 : BitVec 3) (h : op < 256) (w : Nat)
    (hw : w = put op 24 + put x0.toNat 21 + 1) :
    w < 2 ^ 32 ∧ w / 2 ^ 28 = op / 16 ∧ w / 2 ^ 24 % 16 = op % 16 ∧ reserved w 15 6 = .ok () ∧ fld w 21 3 = x0 ∧
    w / 2 ^ 0 % 2 ^ 15 = 1 := by
  have := x0.isLt
  simp only [put] at hw
  exact ⟨by omega, by omega, by omega, reserved_ok _ _ _ (by omega), fld_eq _ _ _ (by omega), by omega⟩

theorem layout20 (op : Nat) (x0 : BitVec 3) (x1 : BitVec 4) (h : op < 256) (w : Nat)
    (hw : w = put op 24 + put x0.toNat 18 + x1.toNat) :
    w < 2 ^ 32 ∧ w / 2 ^ 28 = op / 16 ∧ w / 2 ^ 24 % 16 = op % 16 ∧ reserved w 4 14 = .ok () ∧
    reserved w 21 3 = .ok () ∧ fld w 18 3 = x0 ∧ fld w 0 4 = x1 := by
  have := x0.isLt
  have := x1.isLt
  simp only [put] at hw
  exact ⟨by omega, by omega, by omega, reserved_ok _ _ _ (by omega), reserved_ok _ _ _ (by omega), fld_eq _ _ _ (by omega), fld_eq _ _ _ (by omega)⟩

theorem layout21 (op : Nat) (x0 : BitVec 4) (x1 : BitVec 4) (x2 : BitVec 4) (h : op < 256) (w : Nat)
    (hw : w = put op 24 + put x0.toNat 20 + put x1.toNat 16 + put x2.toNat 12) :
    w < 2 ^ 32 ∧ w / 2 ^ 28 = op / 16 ∧ w / 2 ^ 24 % 16 = op % 16 ∧ reserved w 8 4 = .ok () ∧ fld w 20 4 = x0 ∧
    fld w 16 4 = x1 ∧ fld w 12 4 = x2 ∧ fnIs w 0 8 0 = .ok () := by
  have := x0.isLt
  have := x1.isLt
  have := x2.isLt
  simp only [put] at hw
  exact ⟨by omega, by omega, by omega, reserved_ok _ _ _ (by omega), fld_eq _ _ _ (by omega), fld_eq _ _ _ (by omega), fld_eq _ _ _ (by omega), fnIs_ok _ _ _ _ (by omega)⟩

theorem layout22 (op : Nat) (x0 : BitVec 4) (x1 : BitVec 4) (x2 : BitVec 4) (h : op < 256) (w : Nat)
    (hw : w = put op 24 + put x0.toNat 20 + put x1.toNat 16 + put x2.toNat 12) :
    w < 2 ^ 32 ∧ w / 2 ^ 28 = op / 16 ∧ w / 2 ^ 24 % 16 = op % 16 ∧ reserved w 8 4 = .ok () ∧ fld w 20 4 = x0 ∧
    fld w 16 4 = x1 ∧ fld w 12 4 = x2 ∧ w / 2 ^ 0 % 2 ^ 8 = 0 := by
  have := x0.isLt
  have := x1.isLt
  have := x2.isLt
  simp only [put] at hw
  exact ⟨by omega, by omega, by omega, reserved_ok _ _ _ (by omega), fld_eq _ _ _ (by omega), fld_eq _ _ _ (by omega), fld_eq _ _ _ (by omega), by omega⟩

theorem layout23 (op : Nat) (x0 : BitVec 4) (x1 : BitVec 4) (x2 : BitVec 4) (h : op < 256) (w : Nat)
    (hw : w = put op 24 + put x0.toNat 20 + put x1.toNat 16 + put x2.toNat 12 + 1) :
    w < 2 ^ 32 ∧ w / 2 ^ 28 = op / 16 ∧ w / 2 ^ 24 % 16 = op % 16 ∧ reserved w 8 4 = .ok () ∧ fld w 20 4 = x0 ∧
    fld w 16 4 = x1 ∧ fld w 12 4 = x2 ∧ w / 2 ^ 0 % 2 ^ 8 = 1 := by
  have := x0.isLt
  have := x1.isLt
  have := x2.isLt
  simp only [put] at hw
  exact ⟨by omega, by omega, by omega, reserved_ok _ _ _ (by omega), fld_eq _ _ _ (by omega), fld_eq _ _ _ (by omega), fld_eq _ _ _ (by omega), by omega⟩

theorem layout24 (op : Nat) (x0 : BitVec 4) (x1 : BitVec 4) (x2 : BitVec 8) (h : op < 256) (w : Nat)
    (hw : w = put op 24 + put x0.toNat 20 + put x1.toNat 16 + x2.toNat) :
    w < 2 ^ 32 ∧ w / 2 ^ 28 = op / 16 ∧ w / 2 ^ 24 % 16 = op % 16 ∧ reserved w 8 8 = .ok () ∧ fld w 20 4 = x0 ∧
    fld w 16 4 = x1 ∧ fld w 0 8 = x2 := by
  have := x0.isLt
  have := x1.isLt
  have := x2.isLt
  simp only [put] at hw
  exact ⟨by omega, by omega, by omega, reserved_ok _ _ _ (by omega), fld_eq _ _ _ (by omega), fld_eq _ _ _ (by omega), fld_eq _ _ _ (by omega)⟩

theorem layout25 (op : Nat) (x0 : BitVec 4) (x1 : BitVec 20) (h : op < 256) (w : Nat)
    (hw : w = put op 24 + put x0.toNat 20 + x1.toNat) :
    w < 2 ^ 32 ∧ w / 2 ^ 28 = op / 16 ∧ w / 2 ^ 24 % 16 = op % 16 ∧ fld w 20 4 = x0 ∧ fld w 0 20 = x1 := by
  have := x0.isLt
  have := x1.isLt
  simp only [put] at hw
  exact ⟨by omega, by omega, by omega, fld_eq _ _ _ (by omega), fld_eq _ _ _ (by omega)⟩

theorem layout26 (op : Nat) (x0 : BitVec 4) (x1 : BitVec 8) (h : op < 256) (w : Nat)
    (hw : w = put op 24 + put x0.toNat 20 + x1.toNat) :
    w < 2 ^ 32 ∧ w / 2 ^ 28 = op / 16 ∧ w / 2 ^ 24 % 16 = op % 16 ∧ reserved w 8 12 = .ok () ∧ fld w 20 4 = x0 ∧
    fld w 0 8 = x1 := by
  have := x0.isLt
  have := x1.isLt
  simp only [put] at hw
  exact ⟨by omega, by omega, by omega, reserved_ok _ _ _ (by omega), fld_eq _ _ _ (by omega), fld_eq _ _ _ (by omega)⟩

theorem layout27 (op : Nat) (x0 : Bool) (x1 : Bool) (x2 : Bool) (x3 : Bool) (x4 : Bool) (x5 : Bool) (x6 : BitVec 4) (x7 : BitVec 3) (x8 : Bool) (x9 : Bool) (x10 : Bool) (x11 : BitVec 3) (x12 : Bool) (x13 : BitVec 3) (h : op < 256) (w : Nat)
    (hw : w = put op 24 + put x0.toNat 23 + put x1.toNat 22 + put x2.toNat 21 + put x3.toNat 20 + put x4.toNat 19 + put x5.toNat 18 + put x6.toNat 14 + put x7.toNat 11 + put x8.toNat 10 + put x9.toNat 9 + put x10.toNat 8 + put x11.toNat 5 + put x12.toNat 4 + put x13.toNat 1) :
    w < 2 ^ 32 ∧ w / 2 ^ 28 = op / 16 ∧ w / 2 ^ 24 % 16 = op % 16 ∧ reserved w 0 1 = .ok () ∧ flag w 23 = x0 ∧
    flag w 22 = x1 ∧ flag w 21 = x2 ∧ flag w 20 = x3 ∧ flag w 19 = x4 ∧ flag w 18 = x5 ∧ fld w 14 4 = x6 ∧
    fld w 11 3 = x7 ∧ flag w 10 = x8 ∧ flag w 9 = x9 ∧ flag w 8 = x10 ∧ fld w 5 3 = x11 ∧ flag w 4 = x12 ∧
    fld w 1 3 = x13 := by
  have := x0.toNat_lt
  have := x1.toNat_lt
  have := x2.toNat_lt
  have := x3.toNat_lt
  have := x4.toNat_lt
  have := x5.toNat_lt
  have := x6.isLt
  have := x7.isLt
  have := x8.toNat_lt
  have := x9.toNat_lt
  have := x10.toNat_lt
  have := x11.isLt
  have := x12.toNat_lt
  have := x13.isLt
  simp only [put] at hw
  exact ⟨by omega, by omega, by omega, reserved_ok _ _ _ (by omega), flag_eq _ _ _ (by omega), flag_eq _ _ _ (by omega), flag_eq _ _ _ (by omega), flag_eq _ _ _ (by omega), flag_eq _ _ _ (by omega), flag_eq _ _ _ (by omega), fld_eq _ _ _ (by omega), fld_eq _ _ _ (by omega), flag_eq _ _ _ (by omega), flag_eq _ _ _ (by omega), flag_eq _ _ _ (by omega), fld_eq _ _ _ (by omega), flag_eq _ _ _ (by omega), fld_eq _ _ _ (by omega)⟩

theorem layout28 (op : Nat) (x0 : BitVec 4) (h : op < 256) (w : Nat)
    (hw : w = put op 24 + put x0.toNat 20) :
    w < 2 ^ 32 ∧ w / 2 ^ 28 = op / 16 ∧ w / 2 ^ 24 % 16 = op % 16 ∧ reserved w 0 20 = .ok () ∧ fld w 20 4 = x0 := by
  have := x0.isLt
  simp only [put] at hw
  exact ⟨by omega, by omega, by omega, reserved_ok _ _ _ (by omega), fld_eq _ _ _ (by omega)⟩

theorem layout29 (op : Nat) (x0 : BitVec 4) (x1 : BitVec 19) (h : op < 256) (w : Nat)
    (hw : w = put op 24 + put x0.toNat 19 + x1.toNat) :
    w < 2 ^ 32 ∧ w / 2 ^ 28 = op / 16 ∧ w / 2 ^ 24 % 16 = op % 16 ∧ reserved w 23 1 = .ok () ∧ fld w 19 4 = x0 ∧
    fld w 0 19 = x1 := by
  have := x0.isLt
  have := x1.isLt
  simp only [put] at hw
  exact ⟨by omega, by omega, by omega, reserved_ok _ _ _ (by omega), fld_eq _ _ _ (by omega), fld_eq _ _ _ (by omega)⟩

theorem layout30 (op : Nat) (h : op < 256) (w : Nat)
    (hw : w = put op 24) :
    w < 2 ^ 32 ∧ w / 2 ^ 28 = op / 16 ∧ w / 2 ^ 24 % 16 = op % 16 ∧ reserved w 0 24 = .ok () := by
  simp only [put] at hw
  exact ⟨by omega, by omega, by omega, reserved_ok _ _ _ (by omega)⟩

theorem layout31 (op : Nat) (x0 : VOp) (x1 : VOp) (x2 : BitVec 3) (h : op < 256) (w : Nat)
    (hw : w = put op 24 + put x0.toNat 16 + put x1.toNat 8 + x2.toNat) :
    w < 2 ^ 32 ∧ w / 2 ^ 28 = op / 16 ∧ w / 2 ^ 24 % 16 = op % 16 ∧ reserved w 3 5 = .ok () ∧ vop w 16 = .ok x0 ∧
    vop w 8 = .ok x1 ∧ fld w 0 3 = x2 := by
  have := x0.toNat_lt
  have := x1.toNat_lt
  have := x2.isLt
  simp only [put] at hw
  exact ⟨by omega, by omega, by omega, reserved_ok _ _ _ (by omega), vop_eq _ _ _ (by omega), vop_eq _ _ _ (by omega), fld_eq _ _ _ (by omega)⟩

theorem layout32 (op : Nat) (x0 : BitVec 3) (x1 : VOp) (x2 : BitVec 3) (h : op < 256) (w : Nat)
    (hw : w = put op 24 + put x0.toNat 16 + put x1.toNat 8 + x2.toNat) :
    w < 2 ^ 32 ∧ w / 2 ^ 28 = op / 16 ∧ w / 2 ^ 24 % 16 = op % 16 ∧ reserved w 3 5 = .ok () ∧
    reserved w 19 5 = .ok () ∧ fld w 16 3 = x0 ∧ vop w 8 = .ok x1 ∧ fld w 0 3 = x2 := by
  have := x0.isLt
  have := x1.toNat_lt
  have := x2.isLt
  simp only [put] at hw
  exact ⟨by omega, by omega, by omega, reserved_ok _ _ _ (by omega), reserved_ok _ _ _ (by omega), fld_eq _ _ _ (by omega), vop_eq _ _ _ (by omega), fld_eq _ _ _ (by omega)⟩

theorem layout33 (op : Nat) (x0 : BitVec 3) (x1 : BitVec 3) (x2 : Bool) (x3 : BitVec 4) (h : op < 256) (w : Nat)
    (hw : w = put op 24 + put x0.toNat 21 + put x1.toNat 18 + put x2.toNat 4 + x3.toNat) :
    w < 2 ^ 32 ∧ w / 2 ^ 28 = op / 16 ∧ w / 2 ^ 24 % 16 = op % 16 ∧ reserved w 5 13 = .ok () ∧ fld w 21 3 = x0 ∧
    fld w 18 3 = x1 ∧ flag w 4 = x2 ∧ fld w 0 4 = x3 := by
  have := x0.isLt
  have := x1.isLt
  have := x2.toNat_lt
  have := x3.isLt
  simp only [put] at hw
  exact ⟨by omega, by omega, by omega, reserved_ok _ _ _ (by omega), fld_eq _ _ _ (by omega), fld_eq _ _ _ (by omega), flag_eq _ _ _ (by omega), fld_eq _ _ _ (by omega)⟩

theorem layout34 (op : Nat) (x0 : BitVec 3) (x1 : BitVec 3) (h : op < 256) (w : Nat)
    (hw : w = put op 24 + put x0.toNat 21 + put x1.toNat 18) :
    w < 2 ^ 32 ∧ w / 2 ^ 28 = op / 16 ∧ w / 2 ^ 24 % 16 = op % 16 ∧ reserved w 1 17 = .ok () ∧ fld w 21 3 = x0 ∧
    fld w 18 3 = x1 ∧ w / 2 ^ 0 % 2 ^ 1 = 0 := by
  have := x0.isLt
  have := x1.isLt
  simp only [put] at hw
  exact ⟨by omega, by omega, by omega, reserved_ok _ _ _ (by omega), fld_eq _ _ _ (by omega), fld_eq _ _ _ (by omega), by omega⟩

theorem layout35 (op : Nat) (x0 : BitVec 3) (h : op < 256) (w : Nat)
    (hw : w = put op 24 + put x0.toNat 18 + 1) :
    w < 2 ^ 32 ∧ w / 2 ^ 28 = op / 16 ∧ w / 2 ^ 24 % 16 = op % 16 ∧ reserved w 1 17 = .ok () ∧
    reserved w 21 3 = .ok () ∧ fld w 18 3 = x0 ∧ w / 2 ^ 0 % 2 ^ 1 = 1 := by
  have := x0.isLt
  simp only [put] at hw
  exact ⟨by omega, by omega, by omega, reserved_ok _ _ _ (by omega), reserved_ok _ _ _ (by omega), fld_eq _ _ _ (by omega), by omega⟩

theorem layout36 (op : Nat) (x0 : VOp) (x1 : BitVec 4) (h : op < 256) (w : Nat)
    (hw : w = put op 24 + put x0.toNat 16 + put x1.toNat 12) :
    w < 2 ^ 32 ∧ w / 2 ^ 28 = op / 16 ∧ w / 2 ^ 24 % 16 = op % 16 ∧ reserved w 0 12 = .ok () ∧ vop w 16 = .ok x0 ∧
    fld w 12 4 = x1 := by
  have := x0.toNat_lt
  have := x1.isLt
  simp only [put] at hw
  exact ⟨by omega, by omega, by omega, reserved_ok _ _ _ (by omega), vop_eq _ _ _ (by omega), fld_eq _ _ _ (by omega)⟩

theorem layout37 (op : Nat) (x0 : VOp) (x1 : BitVec 4) (x2 : BitVec 4) (h : op < 256) (w : Nat)
    (hw : w = put op 24 + put x0.toNat 16 + put x1.toNat 12 + x2.toNat) :
    w < 2 ^ 32 ∧ w / 2 ^ 28 = op / 16 ∧ w / 2 ^ 24 % 16 = op % 16 ∧ reserved w 4 8 = .ok () ∧ vop w 16 = .ok x0 ∧
    fld w 12 4 = x1 ∧ fld w 0 4 = x2 := by
  have := x0.toNat_lt
  have := x1.isLt
  have := x2.isLt
  simp only [put] at hw
  exact ⟨by omega, by omega, by omega, reserved_ok _ _ _ (by omega), vop_eq _ _ _ (by omega), fld_eq _ _ _ (by omega), fld_eq _ _ _ (by omega)⟩

theorem layout38 (op : Nat) (x0 : VOp) (x1 : BitVec 4) (x2 : VOp) (x3 : BitVec 4) (h : op < 256) (w : Nat)
    (hw : w = put op 24 + put x0.toNat 16 + put x1.toNat 12 + put x2.toNat 4 + x3.toNat) :
    w < 2 ^ 32 ∧ w / 2 ^ 28 = op / 16 ∧ w / 2 ^ 24 % 16 = op % 16 ∧ vop w 16 = .ok x0 ∧ fld w 12 4 = x1 ∧
    vop w 4 = .ok x2 ∧ fld w 0 4 = x3 := by
  have := x0.toNat_lt
  have := x1.isLt
  have := x2.toNat_lt
  have := x3.isLt
  simp only [put] at hw
  exact ⟨by omega, by omega, by omega, vop_eq _ _ _ (by omega), fld_eq _ _ _ (by omega), vop_eq _ _ _ (by omega), fld_eq _ _ _ (by omega)⟩

theorem layout39 (op : Nat) (x0 : VOp) (x1 : BitVec 4) (x2 : VOp) (x3 : Bool) (x4 : BitVec 2) (h : op < 256) (w : Nat)
    (hw : w = put op 24 + put x0.toNat 16 + put x1.toNat 12 + put x2.toNat 4 + put x3.toNat 2 + x4.toNat) :
    w < 2 ^ 32 ∧ w / 2 ^ 28 = op / 16 ∧ w / 2 ^ 24 % 16 = op % 16 ∧ reserved w 3 1 = .ok () ∧ vop w 16 = .ok x0 ∧
    fld w 12 4 = x1 ∧ vop w 4 = .ok x2 ∧ flag w 2 = x3 ∧ fld w 0 2 = x4 := by
  have := x0.toNat_lt
  have := x1.isLt
  have := x2.toNat_lt
  have := x3.toNat_lt
  have := x4.isLt
  simp only [put] at hw
  exact ⟨by omega, by omega, by omega, reserved_ok _ _ _ (by omega), vop_eq _ _ _ (by omega), fld_eq _ _ _ (by omega), vop_eq _ _ _ (by omega), flag_eq _ _ _ (by omega), fld_eq _ _ _ (by omega)⟩

theorem layout40 (op : Nat) (x0 : VOp) (x1 : BitVec 4) (x2 : VOp) (h : op < 256) (w : Nat)
    (hw : w = put op 24 + put x0.toNat 16 + put x1.toNat 12 + put x2.toNat 4) :
    w < 2 ^ 32 ∧ w / 2 ^ 28 = op / 16 ∧ w / 2 ^ 24 % 16 = op % 16 ∧ reserved w 0 4 = .ok () ∧ vop w 16 = .ok x0 ∧
    fld w 12 4 = x1 ∧ vop w 4 = .ok x2 := by
  have := x0.toNat_lt
  have := x1.isLt
  have := x2.toNat_lt
  simp only [put] at hw
  exact ⟨by omega, by omega, by omega, reserved_ok _ _ _ (by omega), vop_eq _ _ _ (by omega), fld_eq _ _ _ (by omega), vop_eq _ _ _ (by omega)⟩

theorem layout41 (op : Nat) (x0 : BitVec 4) (x1 : BitVec 4) (h : op < 256) (w : Nat)
    (hw : w = put op 24 + put x0.toNat 20 + put x1.toNat 16) :
    w < 2 ^ 32 ∧ w / 2 ^ 28 = op / 16 ∧ w / 2 ^ 24 % 16 = op % 16 ∧ reserved w 0 16 = .ok () ∧ fld w 20 4 = x0 ∧
    fld w 16 4 = x1 := by
  have := x0.isLt
  have := x1.isLt
  simp only [put] at hw
  exact ⟨by omega, by omega, by omega, reserved_ok _ _ _ (by omega), fld_eq _ _ _ (by omega), fld_eq _ _ _ (by omega)⟩

theorem layout42 (op : Nat) (x0 : BitVec 4) (x1 : BitVec 4) (x2 : BitVec 4) (x3 : Bool) (x4 : BitVec 3) (h : op < 256) (w : Nat)
    (hw : w = put op 24 + put x0.toNat 20 + put x1.toNat 16 + put x2.toNat 12 + put x3.toNat 6 + put x4.toNat 3) :
    w < 2 ^ 32 ∧ w / 2 ^ 28 = op / 16 ∧ w / 2 ^ 24 % 16 = op % 16 ∧ reserved w 0 3 = .ok () ∧
    reserved w 7 5 = .ok () ∧ fld w 20 4 = x0 ∧ fld w 16 4 = x1 ∧ fld w 12 4 = x2 ∧ flag w 6 = x3 ∧ fld w 3 3 = x4 := by
  have := x0.isLt
  have := x1.isLt
  have := x2.isLt
  have := x3.toNat_lt
  have := x4.isLt
  simp only [put] at hw
  exact ⟨by omega, by omega, by omega, reserved_ok _ _ _ (by omega), reserved_ok _ _ _ (by omega), fld_eq _ _ _ (by omega), fld_eq _ _ _ (by omega), fld_eq _ _ _ (by omega), flag_eq _ _ _ (by omega), fld_eq _ _ _ (by omega)⟩

theorem layout43 (op : Nat) (x0 : BitVec 4) (x1 : BitVec 4) (x2 : BitVec 4) (x3 : BitVec 3) (x4 : Bool) (x5 : BitVec 3) (h : op < 256) (w : Nat)
    (hw : w = put op 24 + put x0.toNat 20 + put x1.toNat 16 + put x2.toNat 12 + put x3.toNat 8 + put x4.toNat 6 + put x5.toNat 3) :
    w < 2 ^ 32 ∧ w / 2 ^ 28 = op / 16 ∧ w / 2 ^ 24 % 16 = op % 16 ∧ reserved w 0 3 = .ok () ∧
    reserved w 7 1 = .ok () ∧ reserved w 11 1 = .ok () ∧ fld w 20 4 = x0 ∧ fld w 16 4 = x1 ∧ fld w 12 4 = x2 ∧
    fld w 8 3 = x3 ∧ flag w 6 = x4 ∧ fld w 3 3 = x5 := by
  have := x0.isLt
  have := x1.isLt
  have := x2.isLt
  have := x3.isLt
  have := x4.toNat_lt
  have := x5.isLt
  simp only [put] at hw
  exact ⟨by omega, by omega, by omega, reserved_ok _ _ _ (by omega), reserved_ok _ _ _ (by omega), reserved_ok _ _ _ (by omega), fld_eq _ _ _ (by omega), fld_eq _ _ _ (by omega), fld_eq _ _ _ (by omega), fld_eq _ _ _ (by omega), flag_eq _ _ _ (by omega), fld_eq _ _ _ (by omega)⟩

theorem layout44 (op : Nat) (x0 : BitVec 4) (x1 : BitVec 4) (x2 : BitVec 4) (x3 : BitVec 5) (x4 : Bool) (x5 : BitVec 3) (h : op < 256) (w : Nat)
    (hw : w = put op 24 + put x0.toNat 20 + put x1.toNat 16 + put x2.toNat 12 + put x3.toNat 7 + put x4.toNat 6 + put x5.toNat 3) :
    w < 2 ^ 32 ∧ w / 2 ^ 28 = op / 16 ∧ w / 2 ^ 24 % 16 = op % 16 ∧ reserved w 0 3 = .ok () ∧ fld w 20 4 = x0 ∧
    fld w 16 4 = x1 ∧ fld w 12 4 = x2 ∧ fld w 7 5 = x3 ∧ flag w 6 = x4 ∧ fld w 3 3 = x5 := by
  have := x0.isLt
  have := x1.isLt
  have := x2.isLt
  have := x3.isLt
  have := x4.toNat_lt
  have := x5.isLt
  simp only [put] at hw
  exact ⟨by omega, by omega, by omega, reserved_ok _ _ _ (by omega), fld_eq _ _ _ (by omega), fld_eq _ _ _ (by omega), fld_eq _ _ _ (by omega), fld_eq _ _ _ (by omega), flag_eq _ _ _ (by omega), fld_eq _ _ _ (by omega)⟩

theorem layout45 (op : Nat) (x0 : BitVec 4) (x1 : BitVec 4) (x2 : BitVec 4) (x3 : BitVec 5) (x4 : BitVec 3) (x5 : Bool) (x6 : BitVec 2) (h : op < 256) (w : Nat)
    (hw : w = put op 24 + put x0.toNat 20 + put x1.toNat 16 + put x2.toNat 12 + put x3.toNat 7 + put x4.toNat 3 + put x5.toNat 2 + x6.toNat) :
    w < 2 ^ 32 ∧ w / 2 ^ 28 = op / 16 ∧ w / 2 ^ 24 % 16 = op % 16 ∧ reserved w 6 1 = .ok () ∧ fld w 20 4 = x0 ∧
    fld w 16 4 = x1 ∧ fld w 12 4 = x2 ∧ fld w 7 5 = x3 ∧ fld w 3 3 = x4 ∧ flag w 2 = x5 ∧ fld w 0 2 = x6 := by
  have := x0.isLt
  have := x1.isLt
  have := x2.isLt
  have := x3.isLt
  have := x4.isLt
  have := x5.toNat_lt
  have := x6.isLt
  simp only [put] at hw
  exact ⟨by omega, by omega, by omega, reserved_ok _ _ _ (by omega), fld_eq _ _ _ (by omega), fld_eq _ _ _ (by omega), fld_eq _ _ _ (by omega), fld_eq _ _ _ (by omega), fld_eq _ _ _ (by omega), flag_eq _ _ _ (by omega), fld_eq _ _ _ (by omega)⟩

theorem layout46 (op : Nat) (x0 : BitVec 4) (x1 : BitVec 5) (x2 : BitVec 2) (x3 : BitVec 2) (h : op < 256) (w : Nat)
    (hw : w = put op 24 + put x0.toNat 20 + put x1.toNat 7 + put x2.toNat 2 + x3.toNat) :
    w < 2 ^ 32 ∧ w / 2 ^ 28 = op / 16 ∧ w / 2 ^ 24 % 16 = op % 16 ∧ reserved w 4 3 = .ok () ∧
    reserved w 12 8 = .ok () ∧ fld w 20 4 = x0 ∧ fld w 7 5 = x1 ∧ fld w 2 2 = x2 ∧ fld w 0 2 = x3 := by
  have := x0.isLt
  have := x1.isLt
  have := x2.isLt
  have := x3.isLt
  simp only [put] at hw
  exact ⟨by omega, by omega, by omega, reserved_ok _ _ _ (by omega), reserved_ok _ _ _ (by omega), fld_eq _ _ _ (by omega), fld_eq _ _ _ (by omega), fld_eq _ _ _ (by omega), fld_eq _ _ _ (by omega)⟩

theorem layout47 (op : Nat) (x0 : BitVec 4) (x1 : BitVec 4) (x2 : BitVec 3) (h : op < 256) (w : Nat)
    (hw : w = put op 24 + put x0.toNat 20 + put x1.toNat 16 + x2.toNat) :
    w < 2 ^ 32 ∧ w / 2 ^ 28 = op / 16 ∧ w / 2 ^ 24 % 16 = op % 16 ∧ reserved w 4 12 = .ok () ∧ fld w 20 4 = x0 ∧
    fld w 16 4 = x1 ∧ fld w 0 3 = x2 ∧ w / 2 ^ 3 % 2 ^ 1 = 0 := by
  have := x0.isLt
  have := x1.isLt
  have := x2.isLt
  simp only [put] at hw
  exact ⟨by omega, by omega, by omega, reserved_ok _ _ _ (by omega), fld_eq _ _ _ (by omega), fld_eq _ _ _ (by omega), fld_eq _ _ _ (by omega), by omega⟩

theorem layout48 (op : Nat) (x0 : BitVec 4) (h : op < 256) (w : Nat)
    (hw : w = put op 24 + put x0.toNat 20 + put 1 3) :
    w < 2 ^ 32 ∧ w / 2 ^ 28 = op / 16 ∧ w / 2 ^ 24 % 16 = op % 16 ∧ reserved w 0 3 = .ok () ∧
    reserved w 4 16 = .ok () ∧ fld w 20 4 = x0 ∧ w / 2 ^ 3 % 2 ^ 1 = 1 := by
  have := x0.isLt
  simp only [put] at hw
  exact ⟨by omega, by omega, by omega, reserved_ok _ _ _ (by omega), reserved_ok _ _ _ (by omega), fld_eq _ _ _ (by omega), by omega⟩

theorem layout49 (op : Nat) (x0 : BitVec 4) (x1 : BitVec 4) (x2 : BitVec 4) (x3 : BitVec 4) (x4 : BitVec 6) (h : op < 256) (w : Nat)
    (hw : w = put op 24 + put x0.toNat 20 + put x1.toNat 16 + put x2.toNat 12 + put x3.toNat 8 + x4.toNat) :
    w < 2 ^ 32 ∧ w / 2 ^ 28 = op / 16 ∧ w / 2 ^ 24 % 16 = op % 16 ∧ reserved w 6 2 = .ok () ∧ fld w 20 4 = x0 ∧
    fld w 16 4 = x1 ∧ fld w 12 4 = x2 ∧ fld w 8 4 = x3 ∧ fld w 0 6 = x4 := by
  have := x0.isLt
  have := x1.isLt
  have := x2.isLt
  have := x3.isLt
  have := x4.isLt
  simp only [put] at hw
  exact ⟨by omega, by omega, by omega, reserved_ok _ _ _ (by omega), fld_eq _ _ _ (by omega), fld_eq _ _ _ (by omega), fld_eq _ _ _ (by omega), fld_eq _ _ _ (by omega), fld_eq _ _ _ (by omega)⟩

theorem layout50 (op : Nat) (x0 : BitVec 4) (x1 : BitVec 3) (x2 : BitVec 4) (x3 : BitVec 5) (x4 : BitVec 4) (h : op < 256) (w : Nat)
    (hw : w = put op 24 + put x0.toNat 20 + put x1.toNat 16 + put x2.toNat 12 + put x3.toNat 7 + x4.toNat) :
    w < 2 ^ 32 ∧ w / 2 ^ 28 = op / 16 ∧ w / 2 ^ 24 % 16 = op % 16 ∧ reserved w 4 3 = .ok () ∧
    reserved w 19 1 = .ok () ∧ fld w 20 4 = x0 ∧ fld w 16 3 = x1 ∧ fld w 12 4 = x2 ∧ fld w 7 5 = x3 ∧
    fld w 0 4 = x4 := by
  have := x0.isLt
  have := x1.isLt
  have := x2.isLt
  have := x3.isLt
  have := x4.isLt
  simp only [put] at hw
  exact ⟨by omega, by omega, by omega, reserved_ok _ _ _ (by omega), reserved_ok _ _ _ (by omega), fld_eq _ _ _ (by omega), fld_eq _ _ _ (by omega), fld_eq _ _ _ (by omega), fld_eq _ _ _ (by omega), fld_eq _ _ _ (by omega)⟩

theorem layout51 (op : Nat) (x0 : BitVec 4) (x1 : BitVec 4) (x2 : BitVec 4) (x3 : BitVec 5) (x4 : BitVec 4) (h : op < 256) (w : Nat)
    (hw : w = put op 24 + put x0.toNat 20 + put x1.toNat 16 + put x2.toNat 12 + put x3.toNat 7 + x4.toNat) :
    w < 2 ^ 32 ∧ w / 2 ^ 28 = op / 16 ∧ w / 2 ^ 24 % 16 = op % 16 ∧ reserved w 4 3 = .ok () ∧ fld w 20 4 = x0 ∧
    fld w 16 4 = x1 ∧ fld w 12 4 = x2 ∧ fld w 7 5 = x3 ∧ fld w 0 4 = x4 := by
  have := x0.isLt
  have := x1.isLt
  have := x2.isLt
  have := x3.isLt
  have := x4.isLt
  simp only [put] at hw
  exact ⟨by omega, by omega, by omega, reserved_ok _ _ _ (by omega), fld_eq _ _ _ (by omega), fld_eq _ _ _ (by omega), fld_eq _ _ _ (by omega), fld_eq _ _ _ (by omega), fld_eq _ _ _ (by omega)⟩

theorem layout52 (op : Nat) (x0 : BitVec 4) (x1 : BitVec 4) (x2 : BitVec 4) (x3 : BitVec 5) (x4 : BitVec 2) (x5 : BitVec 4) (h : op < 256) (w : Nat)
    (hw : w = put op 24 + put x0.toNat 20 + put x1.toNat 16 + put x2.toNat 12 + put x3.toNat 7 + put x4.toNat 4 + x5.toNat) :
    w < 2 ^ 32 ∧ w / 2 ^ 28 = op / 16 ∧ w / 2 ^ 24 % 16 = op % 16 ∧ reserved w 6 1 = .ok () ∧ fld w 20 4 = x0 ∧
    fld w 16 4 = x1 ∧ fld w 12 4 = x2 ∧ fld w 7 5 = x3 ∧ fld w 4 2 = x4 ∧ fld w 0 4 = x5 := by
  have := x0.isLt
  have := x1.isLt
  have := x2.isLt
  have := x3.isLt
  have := x4.isLt
  have := x5.isLt
  simp only [put] at hw
  exact ⟨by omega, by omega, by omega, reserved_ok _ _ _ (by omega), fld_eq _ _ _ (by omega), fld_eq _ _ _ (by omega), fld_eq _ _ _ (by omega), fld_eq _ _ _ (by omega), fld_eq _ _ _ (by omega), fld_eq _ _ _ (by omega)⟩

theorem layout53 (op : Nat) (x0 : BitVec 4) (x1 : BitVec 4) (x2 : BitVec 4) (x3 : BitVec 4) (x4 : BitVec 2) (x5 : BitVec 6) (h : op < 256) (w : Nat)
    (hw : w = put op 24 + put x0.toNat 20 + put x1.toNat 16 + put x2.toNat 12 + put x3.toNat 8 + put x4.toNat 6 + x5.toNat) :
    w < 2 ^ 32 ∧ w / 2 ^ 28 = op / 16 ∧ w / 2 ^ 24 % 16 = op % 16 ∧ fld w 20 4 = x0 ∧ fld w 16 4 = x1 ∧
    fld w 12 4 = x2 ∧ fld w 8 4 = x3 ∧ fld w 6 2 = x4 ∧ fld w 0 6 = x5 := by
  have := x0.isLt
  have := x1.isLt
  have := x2.isLt
  have := x3.isLt
  have := x4.isLt
  have := x5.isLt
  simp only [put] at hw
  exact ⟨by omega, by omega, by omega, fld_eq _ _ _ (by omega), fld_eq _ _ _ (by omega), fld_eq _ _ _ (by omega), fld_eq _ _ _ (by omega), fld_eq _ _ _ (by omega), fld_eq _ _ _ (by omega)⟩

theorem layout54 (op : Nat) (x0 : BitVec 4) (x1 : BitVec 4) (x2 : BitVec 4) (x3 : BitVec 3) (h : op < 256) (w : Nat)
    (hw : w = put op 24 + put x0.toNat 20 + put x1.toNat 16 + put x2.toNat 12 + x3.toNat) :
    w < 2 ^ 32 ∧ w / 2 ^ 28 = op / 16 ∧ w / 2 ^ 24 % 16 = op % 16 ∧ reserved w 4 8 = .ok () ∧ fld w 20 4 = x0 ∧
    fld w 16 4 = x1 ∧ fld w 12 4 = x2 ∧ fld w 0 3 = x3 ∧ w / 2 ^ 3 % 2 ^ 1 = 0 := by
  have := x0.isLt
  have := x1.isLt
  have := x2.isLt
  have := x3.isLt
  simp only [put] at hw
  exact ⟨by omega, by omega, by omega, reserved_ok _ _ _ (by omega), fld_eq _ _ _ (by omega), fld_eq _ _ _ (by omega), fld_eq _ _ _ (by omega), fld_eq _ _ _ (by omega), by omega⟩

theorem layout55 (op : Nat) (h : op < 256) (w : Nat)
    (hw : w = put op 24 + put 1 3) :
    w < 2 ^ 32 ∧ w / 2 ^ 28 = op / 16 ∧ w / 2 ^ 24 % 16 = op % 16 ∧ reserved w 0 3 = .ok () ∧
    reserved w 4 20 = .ok () ∧ w / 2 ^ 3 % 2 ^ 1 = 1 := by
  simp only [put] at hw
  exact ⟨by omega, by omega, by omega, reserved_ok _ _ _ (by omega), reserved_ok _ _ _ (by omega), by omega⟩

theorem layout56 (op : Nat) (x0 : BitVec 5) (x1 : BitVec 5) (x2 : BitVec 5) (x3 : BitVec 2) (x4 : Bool) (x5 : Scope) (h : op < 256) (w : Nat)
    (hw : w = put op 24 + put x0.toNat 19 + put x1.toNat 14 + put x2.toNat 9 + put x3.toNat 5 + put x4.toNat 3 + x5.code) :
    w < 2 ^ 32 ∧ w / 2 ^ 28 = op / 16 ∧ w / 2 ^ 24 % 16 = op % 16 ∧ reserved w 7 2 = .ok () ∧ fld w 19 5 = x0 ∧
    fld w 14 5 = x1 ∧ fld w 9 5 = x2 ∧ fld w 5 2 = x3 ∧ flag w 3 = x4 ∧ scope w = .ok x5 ∧ fnIs w 4 1 0 = .ok () := by
  have := x0.isLt
  have := x1.isLt
  have := x2.isLt
  have := x3.isLt
  have := x4.toNat_lt
  have := x5.code_lt
  simp only [put] at hw
  exact ⟨by omega, by omega, by omega, reserved_ok _ _ _ (by omega), fld_eq _ _ _ (by omega), fld_eq _ _ _ (by omega), fld_eq _ _ _ (by omega), fld_eq _ _ _ (by omega), flag_eq _ _ _ (by omega), scope_eq _ _ (by omega), fnIs_ok _ _ _ _ (by omega)⟩

theorem layout57 (op : Nat) (x0 : BitVec 5) (x1 : BitVec 5) (x2 : BitVec 5) (x3 : BitVec 2) (x4 : Bool) (x5 : Scope) (h : op < 256) (w : Nat)
    (hw : w = put op 24 + put x0.toNat 19 + put x1.toNat 14 + put x2.toNat 9 + put x3.toNat 5 + put x4.toNat 3 + x5.code) :
    w < 2 ^ 32 ∧ w / 2 ^ 28 = op / 16 ∧ w / 2 ^ 24 % 16 = op % 16 ∧ reserved w 7 2 = .ok () ∧ fld w 19 5 = x0 ∧
    fld w 14 5 = x1 ∧ fld w 9 5 = x2 ∧ fld w 5 2 = x3 ∧ flag w 3 = x4 ∧ scope w = .ok x5 ∧ w / 2 ^ 4 % 2 ^ 1 = 0 := by
  have := x0.isLt
  have := x1.isLt
  have := x2.isLt
  have := x3.isLt
  have := x4.toNat_lt
  have := x5.code_lt
  simp only [put] at hw
  exact ⟨by omega, by omega, by omega, reserved_ok _ _ _ (by omega), fld_eq _ _ _ (by omega), fld_eq _ _ _ (by omega), fld_eq _ _ _ (by omega), fld_eq _ _ _ (by omega), flag_eq _ _ _ (by omega), scope_eq _ _ (by omega), by omega⟩

theorem layout58 (op : Nat) (x0 : BitVec 5) (x1 : BitVec 5) (x2 : BitVec 5) (x3 : BitVec 2) (x4 : Bool) (x5 : Scope) (h : op < 256) (w : Nat)
    (hw : w = put op 24 + put x0.toNat 19 + put x1.toNat 14 + put x2.toNat 9 + put x3.toNat 5 + put x4.toNat 3 + x5.code + put 1 4) :
    w < 2 ^ 32 ∧ w / 2 ^ 28 = op / 16 ∧ w / 2 ^ 24 % 16 = op % 16 ∧ reserved w 7 2 = .ok () ∧ fld w 19 5 = x0 ∧
    fld w 14 5 = x1 ∧ fld w 9 5 = x2 ∧ fld w 5 2 = x3 ∧ flag w 3 = x4 ∧ scope w = .ok x5 ∧ w / 2 ^ 4 % 2 ^ 1 = 1 := by
  have := x0.isLt
  have := x1.isLt
  have := x2.isLt
  have := x3.isLt
  have := x4.toNat_lt
  have := x5.code_lt
  simp only [put] at hw
  exact ⟨by omega, by omega, by omega, reserved_ok _ _ _ (by omega), fld_eq _ _ _ (by omega), fld_eq _ _ _ (by omega), fld_eq _ _ _ (by omega), fld_eq _ _ _ (by omega), flag_eq _ _ _ (by omega), scope_eq _ _ (by omega), by omega⟩

theorem layout59 (op : Nat) (x0 : BitVec 5) (x1 : BitVec 5) (x2 : Bool) (x3 : BitVec 2) (x4 : Scope) (h : op < 256) (w : Nat)
    (hw : w = put op 24 + put x0.toNat 19 + put x1.toNat 14 + put x2.toNat 5 + put x3.toNat 3 + x4.code) :
    w < 2 ^ 32 ∧ w / 2 ^ 28 = op / 16 ∧ w / 2 ^ 24 % 16 = op % 16 ∧ reserved w 6 8 = .ok () ∧ fld w 19 5 = x0 ∧
    fld w 14 5 = x1 ∧ flag w 5 = x2 ∧ fld w 3 2 = x3 ∧ scope w = .ok x4 := by
  have := x0.isLt
  have := x1.isLt
  have := x2.toNat_lt
  have := x3.isLt
  have := x4.code_lt
  simp only [put] at hw
  exact ⟨by omega, by omega, by omega, reserved_ok _ _ _ (by omega), fld_eq _ _ _ (by omega), fld_eq _ _ _ (by omega), flag_eq _ _ _ (by omega), fld_eq _ _ _ (by omega), scope_eq _ _ (by omega)⟩

theorem layout60 (op : Nat) (x0 : BitVec 5) (x1 : BitVec 5) (x2 : BitVec 2) (x3 : Scope) (h : op < 256) (w : Nat)
    (hw : w = put op 24 + put x0.toNat 14 + put x1.toNat 9 + put x2.toNat 3 + x3.code) :
    w < 2 ^ 32 ∧ w / 2 ^ 28 = op / 16 ∧ w / 2 ^ 24 % 16 = op % 16 ∧ reserved w 5 4 = .ok () ∧
    reserved w 19 5 = .ok () ∧ fld w 14 5 = x0 ∧ fld w 9 5 = x1 ∧ fld w 3 2 = x2 ∧ scope w = .ok x3 := by
  have := x0.isLt
  have := x1.isLt
  have := x2.isLt
  have := x3.code_lt
  simp only [put] at hw
  exact ⟨by omega, by omega, by omega, reserved_ok _ _ _ (by omega), reserved_ok _ _ _ (by omega), fld_eq _ _ _ (by omega), fld_eq _ _ _ (by omega), fld_eq _ _ _ (by omega), scope_eq _ _ (by omega)⟩

theorem layout61 (op : Nat) (x0 : Scope) (h : op < 256) (w : Nat)
    (hw : w = put op 24 + x0.code) :
    w < 2 ^ 32 ∧ w / 2 ^ 28 = op / 16 ∧ w / 2 ^ 24 % 16 = op % 16 ∧ reserved w 5 19 = .ok () ∧ scope w = .ok x0 ∧
    w / 2 ^ 3 % 2 ^ 2 = 0 := by
  have := x0.code_lt
  simp only [put] at hw
  exact ⟨by omega, by omega, by omega, reserved_ok _ _ _ (by omega), scope_eq _ _ (by omega), by omega⟩

theorem layout62 (op : Nat) (x0 : Scope) (h : op < 256) (w : Nat)
    (hw : w = put op 24 + x0.code + put 1 3) :
    w < 2 ^ 32 ∧ w / 2 ^ 28 = op / 16 ∧ w / 2 ^ 24 % 16 = op % 16 ∧ reserved w 5 19 = .ok () ∧ scope w = .ok x0 ∧
    w / 2 ^ 3 % 2 ^ 2 = 1 := by
  have := x0.code_lt
  simp only [put] at hw
  exact ⟨by omega, by omega, by omega, reserved_ok _ _ _ (by omega), scope_eq _ _ (by omega), by omega⟩

theorem layout63 (op : Nat) (x0 : Scope) (h : op < 256) (w : Nat)
    (hw : w = put op 24 + x0.code + put 2 3) :
    w < 2 ^ 32 ∧ w / 2 ^ 28 = op / 16 ∧ w / 2 ^ 24 % 16 = op % 16 ∧ reserved w 5 19 = .ok () ∧ scope w = .ok x0 ∧
    w / 2 ^ 3 % 2 ^ 2 = 2 := by
  have := x0.code_lt
  simp only [put] at hw
  exact ⟨by omega, by omega, by omega, reserved_ok _ _ _ (by omega), scope_eq _ _ (by omega), by omega⟩

theorem layout64 (op : Nat) (x0 : BitVec 5) (x1 : BitVec 5) (x2 : Scope) (h : op < 256) (w : Nat)
    (hw : w = put op 24 + put x0.toNat 14 + put x1.toNat 9 + x2.code) :
    w < 2 ^ 32 ∧ w / 2 ^ 28 = op / 16 ∧ w / 2 ^ 24 % 16 = op % 16 ∧ reserved w 3 6 = .ok () ∧
    reserved w 19 5 = .ok () ∧ fld w 14 5 = x0 ∧ fld w 9 5 = x1 ∧ scope w = .ok x2 := by
  have := x0.isLt
  have := x1.isLt
  have := x2.code_lt
  simp only [put] at hw
  exact ⟨by omega, by omega, by omega, reserved_ok _ _ _ (by omega), reserved_ok _ _ _ (by omega), fld_eq _ _ _ (by omega), fld_eq _ _ _ (by omega), scope_eq _ _ (by omega)⟩

theorem layout65 (op : Nat) (x0 : BitVec 5) (x1 : BitVec 5) (x2 : BitVec 5) (x3 : Scope) (h : op < 256) (w : Nat)
    (hw : w = put op 24 + put x0.toNat 19 + put x1.toNat 14 + put x2.toNat 9 + x3.code) :
    w < 2 ^ 32 ∧ w / 2 ^ 28 = op / 16 ∧ w / 2 ^ 24 % 16 = op % 16 ∧ reserved w 3 6 = .ok () ∧ fld w 19 5 = x0 ∧
    fld w 14 5 = x1 ∧ fld w 9 5 = x2 ∧ scope w = .ok x3 := by
  have := x0.isLt
  have := x1.isLt
  have := x2.isLt
  have := x3.code_lt
  simp only [put] at hw
  exact ⟨by omega, by omega, by omega, reserved_ok _ _ _ (by omega), fld_eq _ _ _ (by omega), fld_eq _ _ _ (by omega), fld_eq _ _ _ (by omega), scope_eq _ _ (by omega)⟩

theorem layout66 (op : Nat) (x0 : BitVec 5) (x1 : BitVec 5) (x2 : BitVec 9) (h : op < 256) (w : Nat)
    (hw : w = put op 24 + put x0.toNat 19 + put x1.toNat 14 + x2.toNat) :
    w < 2 ^ 32 ∧ w / 2 ^ 28 = op / 16 ∧ w / 2 ^ 24 % 16 = op % 16 ∧ reserved w 9 5 = .ok () ∧ fld w 19 5 = x0 ∧
    fld w 14 5 = x1 ∧ fld w 0 9 = x2 := by
  have := x0.isLt
  have := x1.isLt
  have := x2.isLt
  simp only [put] at hw
  exact ⟨by omega, by omega, by omega, reserved_ok _ _ _ (by omega), fld_eq _ _ _ (by omega), fld_eq _ _ _ (by omega), fld_eq _ _ _ (by omega)⟩

theorem layout67 (op : Nat) (x0 : BitVec 5) (x1 : BitVec 5) (x2 : BitVec 9) (h : op < 256) (w : Nat)
    (hw : w = put op 24 + put x0.toNat 14 + put x1.toNat 9 + x2.toNat) :
    w < 2 ^ 32 ∧ w / 2 ^ 28 = op / 16 ∧ w / 2 ^ 24 % 16 = op % 16 ∧ reserved w 19 5 = .ok () ∧ fld w 14 5 = x0 ∧
    fld w 9 5 = x1 ∧ fld w 0 9 = x2 := by
  have := x0.isLt
  have := x1.isLt
  have := x2.isLt
  simp only [put] at hw
  exact ⟨by omega, by omega, by omega, reserved_ok _ _ _ (by omega), fld_eq _ _ _ (by omega), fld_eq _ _ _ (by omega), fld_eq _ _ _ (by omega)⟩

theorem layout68 (op : Nat) (x0 : BitVec 5) (h : op < 256) (w : Nat)
    (hw : w = put op 24 + put x0.toNat 14) :
    w < 2 ^ 32 ∧ w / 2 ^ 28 = op / 16 ∧ w / 2 ^ 24 % 16 = op % 16 ∧ reserved w 0 14 = .ok () ∧
    reserved w 19 5 = .ok () ∧ fld w 14 5 = x0 := by
  have := x0.isLt
  simp only [put] at hw
  exact ⟨by omega, by omega, by omega, reserved_ok _ _ _ (by omega), reserved_ok _ _ _ (by omega), fld_eq _ _ _ (by omega)⟩

theorem layout69 (op : Nat) (x0 : BitVec 5) (x1 : BitVec 5) (x2 : BitVec 2) (h : op < 256) (w : Nat)
    (hw : w = put op 24 + put x0.toNat 14 + put x1.toNat 9 + x2.toNat) :
    w < 2 ^ 32 ∧ w / 2 ^ 28 = op / 16 ∧ w / 2 ^ 24 % 16 = op % 16 ∧ reserved w 2 7 = .ok () ∧
    reserved w 19 5 = .ok () ∧ fld w 14 5 = x0 ∧ fld w 9 5 = x1 ∧ fld w 0 2 = x2 := by
  have := x0.isLt
  have := x1.isLt
  have := x2.isLt
  simp only [put] at hw
  exact ⟨by omega, by omega, by omega, reserved_ok _ _ _ (by omega), reserved_ok _ _ _ (by omega), fld_eq _ _ _ (by omega), fld_eq _ _ _ (by omega), fld_eq _ _ _ (by omega)⟩

theorem layout70 (op : Nat) (x0 : BitVec 5) (x1 : BitVec 5) (h : op < 256) (w : Nat)
    (hw : w = put op 24 + put x0.toNat 19 + put x1.toNat 14) :
    w < 2 ^ 32 ∧ w / 2 ^ 28 = op / 16 ∧ w / 2 ^ 24 % 16 = op % 16 ∧ reserved w 0 14 = .ok () ∧ fld w 19 5 = x0 ∧
    fld w 14 5 = x1 := by
  have := x0.isLt
  have := x1.isLt
  simp only [put] at hw
  exact ⟨by omega, by omega, by omega, reserved_ok _ _ _ (by omega), fld_eq _ _ _ (by omega), fld_eq _ _ _ (by omega)⟩

theorem layout71 (op : Nat) (x0 : BitVec 5) (x1 : BitVec 5) (x2 : BitVec 5) (h : op < 256) (w : Nat)
    (hw : w = put op 24 + put x0.toNat 19 + put x1.toNat 14 + put x2.toNat 9) :
    w < 2 ^ 32 ∧ w / 2 ^ 28 = op / 16 ∧ w / 2 ^ 24 % 16 = op % 16 ∧ reserved w 0 9 = .ok () ∧ fld w 19 5 = x0 ∧
    fld w 14 5 = x1 ∧ fld w 9 5 = x2 := by
  have := x0.isLt
  have := x1.isLt
  have := x2.isLt
  simp only [put] at hw
  exact ⟨by omega, by omega, by omega, reserved_ok _ _ _ (by omega), fld_eq _ _ _ (by omega), fld_eq _ _ _ (by omega), fld_eq _ _ _ (by omega)⟩

theorem add (d a b : BitVec 5) : Statement (.add d a b) := by
  refine of_fields _ (put 0x01 24 + put d.toNat 19 + put a.toNat 14 + put b.toNat 9) rfl ?_ fun word hw => ?_
  · exact (layout1 0x01 d a b (by decide) _ rfl).1
  · obtain ⟨-, h1, h2, e0, e1, e2, e3⟩ := layout1 0x01 d a b (by decide) word hw
    simp only [decodeFields, h1, decode0, h2]
    rw [e0, e1, e2, e3]
    rfl

theorem sub (d a b : BitVec 5) : Statement (.sub d a b) := by
  refine of_fields _ (put 0x02 24 + put d.toNat 19 + put a.toNat 14 + put b.toNat 9) rfl ?_ fun word hw => ?_
  · exact (layout1 0x02 d a b (by decide) _ rfl).1
  · obtain ⟨-, h1, h2, e0, e1, e2, e3⟩ := layout1 0x02 d a b (by decide) word hw
    simp only [decodeFields, h1, decode0, h2]
    rw [e0, e1, e2, e3]
    rfl

theorem and (d a b : BitVec 5) : Statement (.and d a b) := by
  refine of_fields _ (put 0x03 24 + put d.toNat 19 + put a.toNat 14 + put b.toNat 9) rfl ?_ fun word hw => ?_
  · exact (layout1 0x03 d a b (by decide) _ rfl).1
  · obtain ⟨-, h1, h2, e0, e1, e2, e3⟩ := layout1 0x03 d a b (by decide) word hw
    simp only [decodeFields, h1, decode0, h2]
    rw [e0, e1, e2, e3]
    rfl

theorem or (d a b : BitVec 5) : Statement (.or d a b) := by
  refine of_fields _ (put 0x04 24 + put d.toNat 19 + put a.toNat 14 + put b.toNat 9) rfl ?_ fun word hw => ?_
  · exact (layout1 0x04 d a b (by decide) _ rfl).1
  · obtain ⟨-, h1, h2, e0, e1, e2, e3⟩ := layout1 0x04 d a b (by decide) word hw
    simp only [decodeFields, h1, decode0, h2]
    rw [e0, e1, e2, e3]
    rfl

theorem xor (d a b : BitVec 5) : Statement (.xor d a b) := by
  refine of_fields _ (put 0x05 24 + put d.toNat 19 + put a.toNat 14 + put b.toNat 9) rfl ?_ fun word hw => ?_
  · exact (layout1 0x05 d a b (by decide) _ rfl).1
  · obtain ⟨-, h1, h2, e0, e1, e2, e3⟩ := layout1 0x05 d a b (by decide) word hw
    simp only [decodeFields, h1, decode0, h2]
    rw [e0, e1, e2, e3]
    rfl

theorem sll (d a b : BitVec 5) : Statement (.sll d a b) := by
  refine of_fields _ (put 0x06 24 + put d.toNat 19 + put a.toNat 14 + put b.toNat 9) rfl ?_ fun word hw => ?_
  · exact (layout1 0x06 d a b (by decide) _ rfl).1
  · obtain ⟨-, h1, h2, e0, e1, e2, e3⟩ := layout1 0x06 d a b (by decide) word hw
    simp only [decodeFields, h1, decode0, h2]
    rw [e0, e1, e2, e3]
    rfl

theorem srl (d a b : BitVec 5) : Statement (.srl d a b) := by
  refine of_fields _ (put 0x07 24 + put d.toNat 19 + put a.toNat 14 + put b.toNat 9) rfl ?_ fun word hw => ?_
  · exact (layout1 0x07 d a b (by decide) _ rfl).1
  · obtain ⟨-, h1, h2, e0, e1, e2, e3⟩ := layout1 0x07 d a b (by decide) word hw
    simp only [decodeFields, h1, decode0, h2]
    rw [e0, e1, e2, e3]
    rfl

theorem sra (d a b : BitVec 5) : Statement (.sra d a b) := by
  refine of_fields _ (put 0x08 24 + put d.toNat 19 + put a.toNat 14 + put b.toNat 9) rfl ?_ fun word hw => ?_
  · exact (layout1 0x08 d a b (by decide) _ rfl).1
  · obtain ⟨-, h1, h2, e0, e1, e2, e3⟩ := layout1 0x08 d a b (by decide) word hw
    simp only [decodeFields, h1, decode0, h2]
    rw [e0, e1, e2, e3]
    rfl

theorem slt (d a b : BitVec 5) : Statement (.slt d a b) := by
  refine of_fields _ (put 0x09 24 + put d.toNat 19 + put a.toNat 14 + put b.toNat 9) rfl ?_ fun word hw => ?_
  · exact (layout1 0x09 d a b (by decide) _ rfl).1
  · obtain ⟨-, h1, h2, e0, e1, e2, e3⟩ := layout1 0x09 d a b (by decide) word hw
    simp only [decodeFields, h1, decode0, h2]
    rw [e0, e1, e2, e3]
    rfl

theorem sltu (d a b : BitVec 5) : Statement (.sltu d a b) := by
  refine of_fields _ (put 0x0A 24 + put d.toNat 19 + put a.toNat 14 + put b.toNat 9) rfl ?_ fun word hw => ?_
  · exact (layout1 0x0A d a b (by decide) _ rfl).1
  · obtain ⟨-, h1, h2, e0, e1, e2, e3⟩ := layout1 0x0A d a b (by decide) word hw
    simp only [decodeFields, h1, decode0, h2]
    rw [e0, e1, e2, e3]
    rfl

theorem min (d a b : BitVec 5) : Statement (.min d a b) := by
  refine of_fields _ (put 0x0B 24 + put d.toNat 19 + put a.toNat 14 + put b.toNat 9) rfl ?_ fun word hw => ?_
  · exact (layout2 0x0B d a b (by decide) _ rfl).1
  · obtain ⟨-, h1, h2, e0, e1, e2, e3⟩ := layout2 0x0B d a b (by decide) word hw
    simp only [decodeFields, h1, decode0, h2, e3]
    rw [e0, e1, e2]
    rfl

theorem minu (d a b : BitVec 5) : Statement (.minu d a b) := by
  refine of_fields _ (put 0x0B 24 + put d.toNat 19 + put a.toNat 14 + put b.toNat 9 + 1) rfl ?_ fun word hw => ?_
  · exact (layout3 0x0B d a b (by decide) _ rfl).1
  · obtain ⟨-, h1, h2, e0, e1, e2, e3⟩ := layout3 0x0B d a b (by decide) word hw
    simp only [decodeFields, h1, decode0, h2, e3]
    rw [e0, e1, e2]
    rfl

theorem max (d a b : BitVec 5) : Statement (.max d a b) := by
  refine of_fields _ (put 0x0C 24 + put d.toNat 19 + put a.toNat 14 + put b.toNat 9) rfl ?_ fun word hw => ?_
  · exact (layout2 0x0C d a b (by decide) _ rfl).1
  · obtain ⟨-, h1, h2, e0, e1, e2, e3⟩ := layout2 0x0C d a b (by decide) word hw
    simp only [decodeFields, h1, decode0, h2, e3]
    rw [e0, e1, e2]
    rfl

theorem maxu (d a b : BitVec 5) : Statement (.maxu d a b) := by
  refine of_fields _ (put 0x0C 24 + put d.toNat 19 + put a.toNat 14 + put b.toNat 9 + 1) rfl ?_ fun word hw => ?_
  · exact (layout3 0x0C d a b (by decide) _ rfl).1
  · obtain ⟨-, h1, h2, e0, e1, e2, e3⟩ := layout3 0x0C d a b (by decide) word hw
    simp only [decodeFields, h1, decode0, h2, e3]
    rw [e0, e1, e2]
    rfl

theorem mul (d a b : BitVec 5) : Statement (.mul d a b) := by
  refine of_fields _ (put 0x0D 24 + put d.toNat 19 + put a.toNat 14 + put b.toNat 9) rfl ?_ fun word hw => ?_
  · exact (layout1 0x0D d a b (by decide) _ rfl).1
  · obtain ⟨-, h1, h2, e0, e1, e2, e3⟩ := layout1 0x0D d a b (by decide) word hw
    simp only [decodeFields, h1, decode0, h2]
    rw [e0, e1, e2, e3]
    rfl

theorem mulh (d a b : BitVec 5) : Statement (.mulh d a b) := by
  refine of_fields _ (put 0x0E 24 + put d.toNat 19 + put a.toNat 14 + put b.toNat 9) rfl ?_ fun word hw => ?_
  · exact (layout1 0x0E d a b (by decide) _ rfl).1
  · obtain ⟨-, h1, h2, e0, e1, e2, e3⟩ := layout1 0x0E d a b (by decide) word hw
    simp only [decodeFields, h1, decode0, h2]
    rw [e0, e1, e2, e3]
    rfl

theorem mulhu (d a b : BitVec 5) : Statement (.mulhu d a b) := by
  refine of_fields _ (put 0x0F 24 + put d.toNat 19 + put a.toNat 14 + put b.toNat 9) rfl ?_ fun word hw => ?_
  · exact (layout1 0x0F d a b (by decide) _ rfl).1
  · obtain ⟨-, h1, h2, e0, e1, e2, e3⟩ := layout1 0x0F d a b (by decide) word hw
    simp only [decodeFields, h1, decode0, h2]
    rw [e0, e1, e2, e3]
    rfl

theorem div (d a b : BitVec 5) : Statement (.div d a b) := by
  refine of_fields _ (put 0x10 24 + put d.toNat 19 + put a.toNat 14 + put b.toNat 9) rfl ?_ fun word hw => ?_
  · exact (layout1 0x10 d a b (by decide) _ rfl).1
  · obtain ⟨-, h1, h2, e0, e1, e2, e3⟩ := layout1 0x10 d a b (by decide) word hw
    simp only [decodeFields, h1, decode1, h2]
    rw [e0, e1, e2, e3]
    rfl

theorem divu (d a b : BitVec 5) : Statement (.divu d a b) := by
  refine of_fields _ (put 0x11 24 + put d.toNat 19 + put a.toNat 14 + put b.toNat 9) rfl ?_ fun word hw => ?_
  · exact (layout1 0x11 d a b (by decide) _ rfl).1
  · obtain ⟨-, h1, h2, e0, e1, e2, e3⟩ := layout1 0x11 d a b (by decide) word hw
    simp only [decodeFields, h1, decode1, h2]
    rw [e0, e1, e2, e3]
    rfl

theorem rem (d a b : BitVec 5) : Statement (.rem d a b) := by
  refine of_fields _ (put 0x12 24 + put d.toNat 19 + put a.toNat 14 + put b.toNat 9) rfl ?_ fun word hw => ?_
  · exact (layout1 0x12 d a b (by decide) _ rfl).1
  · obtain ⟨-, h1, h2, e0, e1, e2, e3⟩ := layout1 0x12 d a b (by decide) word hw
    simp only [decodeFields, h1, decode1, h2]
    rw [e0, e1, e2, e3]
    rfl

theorem remu (d a b : BitVec 5) : Statement (.remu d a b) := by
  refine of_fields _ (put 0x13 24 + put d.toNat 19 + put a.toNat 14 + put b.toNat 9) rfl ?_ fun word hw => ?_
  · exact (layout1 0x13 d a b (by decide) _ rfl).1
  · obtain ⟨-, h1, h2, e0, e1, e2, e3⟩ := layout1 0x13 d a b (by decide) word hw
    simp only [decodeFields, h1, decode1, h2]
    rw [e0, e1, e2, e3]
    rfl

theorem addi (d a : BitVec 5) (i : BitVec 14) : Statement (.addi d a i) := by
  refine of_fields _ (put 0x14 24 + put d.toNat 19 + put a.toNat 14 + i.toNat) rfl ?_ fun word hw => ?_
  · exact (layout4 0x14 d a i (by decide) _ rfl).1
  · obtain ⟨-, h1, h2, e0, e1, e2⟩ := layout4 0x14 d a i (by decide) word hw
    simp only [decodeFields, h1, decode1, h2]
    rw [e0, e1, e2]
    rfl

theorem andi (d a : BitVec 5) (i : BitVec 14) : Statement (.andi d a i) := by
  refine of_fields _ (put 0x15 24 + put d.toNat 19 + put a.toNat 14 + i.toNat) rfl ?_ fun word hw => ?_
  · exact (layout4 0x15 d a i (by decide) _ rfl).1
  · obtain ⟨-, h1, h2, e0, e1, e2⟩ := layout4 0x15 d a i (by decide) word hw
    simp only [decodeFields, h1, decode1, h2]
    rw [e0, e1, e2]
    rfl

theorem ori (d a : BitVec 5) (i : BitVec 14) : Statement (.ori d a i) := by
  refine of_fields _ (put 0x16 24 + put d.toNat 19 + put a.toNat 14 + i.toNat) rfl ?_ fun word hw => ?_
  · exact (layout4 0x16 d a i (by decide) _ rfl).1
  · obtain ⟨-, h1, h2, e0, e1, e2⟩ := layout4 0x16 d a i (by decide) word hw
    simp only [decodeFields, h1, decode1, h2]
    rw [e0, e1, e2]
    rfl

theorem xori (d a : BitVec 5) (i : BitVec 14) : Statement (.xori d a i) := by
  refine of_fields _ (put 0x17 24 + put d.toNat 19 + put a.toNat 14 + i.toNat) rfl ?_ fun word hw => ?_
  · exact (layout4 0x17 d a i (by decide) _ rfl).1
  · obtain ⟨-, h1, h2, e0, e1, e2⟩ := layout4 0x17 d a i (by decide) word hw
    simp only [decodeFields, h1, decode1, h2]
    rw [e0, e1, e2]
    rfl

theorem slli (d a : BitVec 5) (i : BitVec 14) : Statement (.slli d a i) := by
  refine of_fields _ (put 0x18 24 + put d.toNat 19 + put a.toNat 14 + i.toNat) rfl ?_ fun word hw => ?_
  · exact (layout4 0x18 d a i (by decide) _ rfl).1
  · obtain ⟨-, h1, h2, e0, e1, e2⟩ := layout4 0x18 d a i (by decide) word hw
    simp only [decodeFields, h1, decode1, h2]
    rw [e0, e1, e2]
    rfl

theorem srli (d a : BitVec 5) (i : BitVec 14) : Statement (.srli d a i) := by
  refine of_fields _ (put 0x19 24 + put d.toNat 19 + put a.toNat 14 + i.toNat) rfl ?_ fun word hw => ?_
  · exact (layout4 0x19 d a i (by decide) _ rfl).1
  · obtain ⟨-, h1, h2, e0, e1, e2⟩ := layout4 0x19 d a i (by decide) word hw
    simp only [decodeFields, h1, decode1, h2]
    rw [e0, e1, e2]
    rfl

theorem srai (d a : BitVec 5) (i : BitVec 14) : Statement (.srai d a i) := by
  refine of_fields _ (put 0x1A 24 + put d.toNat 19 + put a.toNat 14 + i.toNat) rfl ?_ fun word hw => ?_
  · exact (layout4 0x1A d a i (by decide) _ rfl).1
  · obtain ⟨-, h1, h2, e0, e1, e2⟩ := layout4 0x1A d a i (by decide) word hw
    simp only [decodeFields, h1, decode1, h2]
    rw [e0, e1, e2]
    rfl

theorem slti (d a : BitVec 5) (i : BitVec 14) : Statement (.slti d a i) := by
  refine of_fields _ (put 0x1B 24 + put d.toNat 19 + put a.toNat 14 + i.toNat) rfl ?_ fun word hw => ?_
  · exact (layout4 0x1B d a i (by decide) _ rfl).1
  · obtain ⟨-, h1, h2, e0, e1, e2⟩ := layout4 0x1B d a i (by decide) word hw
    simp only [decodeFields, h1, decode1, h2]
    rw [e0, e1, e2]
    rfl

theorem sltui (d a : BitVec 5) (i : BitVec 14) : Statement (.sltui d a i) := by
  refine of_fields _ (put 0x1C 24 + put d.toNat 19 + put a.toNat 14 + i.toNat) rfl ?_ fun word hw => ?_
  · exact (layout4 0x1C d a i (by decide) _ rfl).1
  · obtain ⟨-, h1, h2, e0, e1, e2⟩ := layout4 0x1C d a i (by decide) word hw
    simp only [decodeFields, h1, decode1, h2]
    rw [e0, e1, e2]
    rfl

theorem lui (d : BitVec 5) (j : BitVec 19) : Statement (.lui d j) := by
  refine of_fields _ (put 0x1D 24 + put d.toNat 19 + j.toNat) rfl ?_ fun word hw => ?_
  · exact (layout5 0x1D d j (by decide) _ rfl).1
  · obtain ⟨-, h1, h2, e0, e1⟩ := layout5 0x1D d j (by decide) word hw
    simp only [decodeFields, h1, decode1, h2]
    rw [e0, e1]
    rfl

theorem auipc (d : BitVec 5) (j : BitVec 19) : Statement (.auipc d j) := by
  refine of_fields _ (put 0x1E 24 + put d.toNat 19 + j.toNat) rfl ?_ fun word hw => ?_
  · exact (layout5 0x1E d j (by decide) _ rfl).1
  · obtain ⟨-, h1, h2, e0, e1⟩ := layout5 0x1E d j (by decide) word hw
    simp only [decodeFields, h1, decode1, h2]
    rw [e0, e1]
    rfl

theorem ld (d a : BitVec 5) (i : BitVec 14) : Statement (.ld d a i) := by
  refine of_fields _ (put 0x20 24 + put d.toNat 19 + put a.toNat 14 + i.toNat) rfl ?_ fun word hw => ?_
  · exact (layout4 0x20 d a i (by decide) _ rfl).1
  · obtain ⟨-, h1, h2, e0, e1, e2⟩ := layout4 0x20 d a i (by decide) word hw
    simp only [decodeFields, h1, decode2, h2]
    rw [e0, e1, e2]
    rfl

theorem lw (d a : BitVec 5) (i : BitVec 14) : Statement (.lw d a i) := by
  refine of_fields _ (put 0x21 24 + put d.toNat 19 + put a.toNat 14 + i.toNat) rfl ?_ fun word hw => ?_
  · exact (layout4 0x21 d a i (by decide) _ rfl).1
  · obtain ⟨-, h1, h2, e0, e1, e2⟩ := layout4 0x21 d a i (by decide) word hw
    simp only [decodeFields, h1, decode2, h2]
    rw [e0, e1, e2]
    rfl

theorem lwu (d a : BitVec 5) (i : BitVec 14) : Statement (.lwu d a i) := by
  refine of_fields _ (put 0x22 24 + put d.toNat 19 + put a.toNat 14 + i.toNat) rfl ?_ fun word hw => ?_
  · exact (layout4 0x22 d a i (by decide) _ rfl).1
  · obtain ⟨-, h1, h2, e0, e1, e2⟩ := layout4 0x22 d a i (by decide) word hw
    simp only [decodeFields, h1, decode2, h2]
    rw [e0, e1, e2]
    rfl

theorem lh (d a : BitVec 5) (i : BitVec 14) : Statement (.lh d a i) := by
  refine of_fields _ (put 0x23 24 + put d.toNat 19 + put a.toNat 14 + i.toNat) rfl ?_ fun word hw => ?_
  · exact (layout4 0x23 d a i (by decide) _ rfl).1
  · obtain ⟨-, h1, h2, e0, e1, e2⟩ := layout4 0x23 d a i (by decide) word hw
    simp only [decodeFields, h1, decode2, h2]
    rw [e0, e1, e2]
    rfl

theorem lhu (d a : BitVec 5) (i : BitVec 14) : Statement (.lhu d a i) := by
  refine of_fields _ (put 0x24 24 + put d.toNat 19 + put a.toNat 14 + i.toNat) rfl ?_ fun word hw => ?_
  · exact (layout4 0x24 d a i (by decide) _ rfl).1
  · obtain ⟨-, h1, h2, e0, e1, e2⟩ := layout4 0x24 d a i (by decide) word hw
    simp only [decodeFields, h1, decode2, h2]
    rw [e0, e1, e2]
    rfl

theorem lb (d a : BitVec 5) (i : BitVec 14) : Statement (.lb d a i) := by
  refine of_fields _ (put 0x25 24 + put d.toNat 19 + put a.toNat 14 + i.toNat) rfl ?_ fun word hw => ?_
  · exact (layout4 0x25 d a i (by decide) _ rfl).1
  · obtain ⟨-, h1, h2, e0, e1, e2⟩ := layout4 0x25 d a i (by decide) word hw
    simp only [decodeFields, h1, decode2, h2]
    rw [e0, e1, e2]
    rfl

theorem lbu (d a : BitVec 5) (i : BitVec 14) : Statement (.lbu d a i) := by
  refine of_fields _ (put 0x26 24 + put d.toNat 19 + put a.toNat 14 + i.toNat) rfl ?_ fun word hw => ?_
  · exact (layout4 0x26 d a i (by decide) _ rfl).1
  · obtain ⟨-, h1, h2, e0, e1, e2⟩ := layout4 0x26 d a i (by decide) word hw
    simp only [decodeFields, h1, decode2, h2]
    rw [e0, e1, e2]
    rfl

theorem std (s a : BitVec 5) (i : BitVec 14) : Statement (.std s a i) := by
  refine of_fields _ (put 0x27 24 + put s.toNat 19 + put a.toNat 14 + i.toNat) rfl ?_ fun word hw => ?_
  · exact (layout4 0x27 s a i (by decide) _ rfl).1
  · obtain ⟨-, h1, h2, e0, e1, e2⟩ := layout4 0x27 s a i (by decide) word hw
    simp only [decodeFields, h1, decode2, h2]
    rw [e0, e1, e2]
    rfl

theorem stw (s a : BitVec 5) (i : BitVec 14) : Statement (.stw s a i) := by
  refine of_fields _ (put 0x28 24 + put s.toNat 19 + put a.toNat 14 + i.toNat) rfl ?_ fun word hw => ?_
  · exact (layout4 0x28 s a i (by decide) _ rfl).1
  · obtain ⟨-, h1, h2, e0, e1, e2⟩ := layout4 0x28 s a i (by decide) word hw
    simp only [decodeFields, h1, decode2, h2]
    rw [e0, e1, e2]
    rfl

theorem sth (s a : BitVec 5) (i : BitVec 14) : Statement (.sth s a i) := by
  refine of_fields _ (put 0x29 24 + put s.toNat 19 + put a.toNat 14 + i.toNat) rfl ?_ fun word hw => ?_
  · exact (layout4 0x29 s a i (by decide) _ rfl).1
  · obtain ⟨-, h1, h2, e0, e1, e2⟩ := layout4 0x29 s a i (by decide) word hw
    simp only [decodeFields, h1, decode2, h2]
    rw [e0, e1, e2]
    rfl

theorem stb (s a : BitVec 5) (i : BitVec 14) : Statement (.stb s a i) := by
  refine of_fields _ (put 0x2A 24 + put s.toNat 19 + put a.toNat 14 + i.toNat) rfl ?_ fun word hw => ?_
  · exact (layout4 0x2A s a i (by decide) _ rfl).1
  · obtain ⟨-, h1, h2, e0, e1, e2⟩ := layout4 0x2A s a i (by decide) word hw
    simp only [decodeFields, h1, decode2, h2]
    rw [e0, e1, e2]
    rfl

theorem beq (a b : BitVec 5) (o : BitVec 14) : Statement (.beq a b o) := by
  refine of_fields _ (put 0x30 24 + put a.toNat 19 + put b.toNat 14 + o.toNat) rfl ?_ fun word hw => ?_
  · exact (layout4 0x30 a b o (by decide) _ rfl).1
  · obtain ⟨-, h1, h2, e0, e1, e2⟩ := layout4 0x30 a b o (by decide) word hw
    simp only [decodeFields, h1, decode3, h2]
    rw [e0, e1, e2]
    rfl

theorem bne (a b : BitVec 5) (o : BitVec 14) : Statement (.bne a b o) := by
  refine of_fields _ (put 0x31 24 + put a.toNat 19 + put b.toNat 14 + o.toNat) rfl ?_ fun word hw => ?_
  · exact (layout4 0x31 a b o (by decide) _ rfl).1
  · obtain ⟨-, h1, h2, e0, e1, e2⟩ := layout4 0x31 a b o (by decide) word hw
    simp only [decodeFields, h1, decode3, h2]
    rw [e0, e1, e2]
    rfl

theorem blt (a b : BitVec 5) (o : BitVec 14) : Statement (.blt a b o) := by
  refine of_fields _ (put 0x32 24 + put a.toNat 19 + put b.toNat 14 + o.toNat) rfl ?_ fun word hw => ?_
  · exact (layout4 0x32 a b o (by decide) _ rfl).1
  · obtain ⟨-, h1, h2, e0, e1, e2⟩ := layout4 0x32 a b o (by decide) word hw
    simp only [decodeFields, h1, decode3, h2]
    rw [e0, e1, e2]
    rfl

theorem bge (a b : BitVec 5) (o : BitVec 14) : Statement (.bge a b o) := by
  refine of_fields _ (put 0x33 24 + put a.toNat 19 + put b.toNat 14 + o.toNat) rfl ?_ fun word hw => ?_
  · exact (layout4 0x33 a b o (by decide) _ rfl).1
  · obtain ⟨-, h1, h2, e0, e1, e2⟩ := layout4 0x33 a b o (by decide) word hw
    simp only [decodeFields, h1, decode3, h2]
    rw [e0, e1, e2]
    rfl

theorem bltu (a b : BitVec 5) (o : BitVec 14) : Statement (.bltu a b o) := by
  refine of_fields _ (put 0x34 24 + put a.toNat 19 + put b.toNat 14 + o.toNat) rfl ?_ fun word hw => ?_
  · exact (layout4 0x34 a b o (by decide) _ rfl).1
  · obtain ⟨-, h1, h2, e0, e1, e2⟩ := layout4 0x34 a b o (by decide) word hw
    simp only [decodeFields, h1, decode3, h2]
    rw [e0, e1, e2]
    rfl

theorem bgeu (a b : BitVec 5) (o : BitVec 14) : Statement (.bgeu a b o) := by
  refine of_fields _ (put 0x35 24 + put a.toNat 19 + put b.toNat 14 + o.toNat) rfl ?_ fun word hw => ?_
  · exact (layout4 0x35 a b o (by decide) _ rfl).1
  · obtain ⟨-, h1, h2, e0, e1, e2⟩ := layout4 0x35 a b o (by decide) word hw
    simp only [decodeFields, h1, decode3, h2]
    rw [e0, e1, e2]
    rfl

theorem jal (d : BitVec 5) (o : BitVec 19) : Statement (.jal d o) := by
  refine of_fields _ (put 0x36 24 + put d.toNat 19 + o.toNat) rfl ?_ fun word hw => ?_
  · exact (layout5 0x36 d o (by decide) _ rfl).1
  · obtain ⟨-, h1, h2, e0, e1⟩ := layout5 0x36 d o (by decide) word hw
    simp only [decodeFields, h1, decode3, h2]
    rw [e0, e1]
    rfl

theorem jalr (d a : BitVec 5) (i : BitVec 14) : Statement (.jalr d a i) := by
  refine of_fields _ (put 0x37 24 + put d.toNat 19 + put a.toNat 14 + i.toNat) rfl ?_ fun word hw => ?_
  · exact (layout4 0x37 d a i (by decide) _ rfl).1
  · obtain ⟨-, h1, h2, e0, e1, e2⟩ := layout4 0x37 d a i (by decide) word hw
    simp only [decodeFields, h1, decode3, h2]
    rw [e0, e1, e2]
    rfl

theorem vgo (o : BitVec 19) : Statement (.vgo o) := by
  refine of_fields _ (put 0x38 24 + o.toNat) rfl ?_ fun word hw => ?_
  · exact (layout6 0x38 o (by decide) _ rfl).1
  · obtain ⟨-, h1, h2, e0, e1⟩ := layout6 0x38 o (by decide) word hw
    simp only [decodeFields, h1, decode3, h2]
    rw [e0, e1]
    rfl

theorem rqpop (d : BitVec 5) : Statement (.rqpop d) := by
  refine of_fields _ (put 0x39 24 + put d.toNat 19) rfl ?_ fun word hw => ?_
  · exact (layout7 0x39 d (by decide) _ rfl).1
  · obtain ⟨-, h1, h2, e0, e1⟩ := layout7 0x39 d (by decide) word hw
    simp only [decodeFields, h1, decode3, h2]
    rw [e0, e1]
    rfl

theorem vsetl (d a : BitVec 5) (i : BitVec 14) : Statement (.vsetl d a i) := by
  refine of_fields _ (put 0x3A 24 + put d.toNat 19 + put a.toNat 14 + i.toNat) rfl ?_ fun word hw => ?_
  · exact (layout4 0x3A d a i (by decide) _ rfl).1
  · obtain ⟨-, h1, h2, e0, e1, e2⟩ := layout4 0x3A d a i (by decide) word hw
    simp only [decodeFields, h1, decode3, h2]
    rw [e0, e1, e2]
    rfl

theorem vdrain (s : Scope) : Statement (.vdrain s) := by
  refine of_fields _ (put 0x3B 24 + s.code) rfl ?_ fun word hw => ?_
  · exact (layout8 0x3B s (by decide) _ rfl).1
  · obtain ⟨-, h1, h2, e0, e1, e2⟩ := layout8 0x3B s (by decide) word hw
    simp only [decodeFields, h1, decode3, h2]
    rw [e0, e1, e2]
    rfl

theorem vadd (d a b : VOp) : Statement (.vadd d a b) := by
  refine of_fields _ (put 0x40 24 + put d.toNat 16 + put a.toNat 8 + b.toNat) rfl ?_ fun word hw => ?_
  · exact (layout9 0x40 d a b (by decide) _ rfl).1
  · obtain ⟨-, h1, h2, e0, e1, e2⟩ := layout9 0x40 d a b (by decide) word hw
    simp only [decodeFields, h1, decode4, h2]
    rw [e0, e1, e2]
    rfl

theorem vsub (d a b : VOp) : Statement (.vsub d a b) := by
  refine of_fields _ (put 0x41 24 + put d.toNat 16 + put a.toNat 8 + b.toNat) rfl ?_ fun word hw => ?_
  · exact (layout9 0x41 d a b (by decide) _ rfl).1
  · obtain ⟨-, h1, h2, e0, e1, e2⟩ := layout9 0x41 d a b (by decide) word hw
    simp only [decodeFields, h1, decode4, h2]
    rw [e0, e1, e2]
    rfl

theorem vmul (d a b : VOp) : Statement (.vmul d a b) := by
  refine of_fields _ (put 0x42 24 + put d.toNat 16 + put a.toNat 8 + b.toNat) rfl ?_ fun word hw => ?_
  · exact (layout9 0x42 d a b (by decide) _ rfl).1
  · obtain ⟨-, h1, h2, e0, e1, e2⟩ := layout9 0x42 d a b (by decide) word hw
    simp only [decodeFields, h1, decode4, h2]
    rw [e0, e1, e2]
    rfl

theorem vmulh (d a b : VOp) : Statement (.vmulh d a b) := by
  refine of_fields _ (put 0x43 24 + put d.toNat 16 + put a.toNat 8 + b.toNat) rfl ?_ fun word hw => ?_
  · exact (layout9 0x43 d a b (by decide) _ rfl).1
  · obtain ⟨-, h1, h2, e0, e1, e2⟩ := layout9 0x43 d a b (by decide) word hw
    simp only [decodeFields, h1, decode4, h2]
    rw [e0, e1, e2]
    rfl

theorem vdiv (d a b : VOp) : Statement (.vdiv d a b) := by
  refine of_fields _ (put 0x44 24 + put d.toNat 16 + put a.toNat 8 + b.toNat) rfl ?_ fun word hw => ?_
  · exact (layout9 0x44 d a b (by decide) _ rfl).1
  · obtain ⟨-, h1, h2, e0, e1, e2⟩ := layout9 0x44 d a b (by decide) word hw
    simp only [decodeFields, h1, decode4, h2]
    rw [e0, e1, e2]
    rfl

theorem vrem (d a b : VOp) : Statement (.vrem d a b) := by
  refine of_fields _ (put 0x45 24 + put d.toNat 16 + put a.toNat 8 + b.toNat) rfl ?_ fun word hw => ?_
  · exact (layout9 0x45 d a b (by decide) _ rfl).1
  · obtain ⟨-, h1, h2, e0, e1, e2⟩ := layout9 0x45 d a b (by decide) word hw
    simp only [decodeFields, h1, decode4, h2]
    rw [e0, e1, e2]
    rfl

theorem vmin (d a b : VOp) : Statement (.vmin d a b) := by
  refine of_fields _ (put 0x46 24 + put d.toNat 16 + put a.toNat 8 + b.toNat) rfl ?_ fun word hw => ?_
  · exact (layout9 0x46 d a b (by decide) _ rfl).1
  · obtain ⟨-, h1, h2, e0, e1, e2⟩ := layout9 0x46 d a b (by decide) word hw
    simp only [decodeFields, h1, decode4, h2]
    rw [e0, e1, e2]
    rfl

theorem vmax (d a b : VOp) : Statement (.vmax d a b) := by
  refine of_fields _ (put 0x47 24 + put d.toNat 16 + put a.toNat 8 + b.toNat) rfl ?_ fun word hw => ?_
  · exact (layout9 0x47 d a b (by decide) _ rfl).1
  · obtain ⟨-, h1, h2, e0, e1, e2⟩ := layout9 0x47 d a b (by decide) word hw
    simp only [decodeFields, h1, decode4, h2]
    rw [e0, e1, e2]
    rfl

theorem vfma (d a b : VOp) : Statement (.vfma d a b) := by
  refine of_fields _ (put 0x48 24 + put d.toNat 16 + put a.toNat 8 + b.toNat) rfl ?_ fun word hw => ?_
  · exact (layout9 0x48 d a b (by decide) _ rfl).1
  · obtain ⟨-, h1, h2, e0, e1, e2⟩ := layout9 0x48 d a b (by decide) word hw
    simp only [decodeFields, h1, decode4, h2]
    rw [e0, e1, e2]
    rfl

theorem vfms (d a b : VOp) : Statement (.vfms d a b) := by
  refine of_fields _ (put 0x49 24 + put d.toNat 16 + put a.toNat 8 + b.toNat) rfl ?_ fun word hw => ?_
  · exact (layout9 0x49 d a b (by decide) _ rfl).1
  · obtain ⟨-, h1, h2, e0, e1, e2⟩ := layout9 0x49 d a b (by decide) word hw
    simp only [decodeFields, h1, decode4, h2]
    rw [e0, e1, e2]
    rfl

theorem vfnma (d a b : VOp) : Statement (.vfnma d a b) := by
  refine of_fields _ (put 0x4A 24 + put d.toNat 16 + put a.toNat 8 + b.toNat) rfl ?_ fun word hw => ?_
  · exact (layout9 0x4A d a b (by decide) _ rfl).1
  · obtain ⟨-, h1, h2, e0, e1, e2⟩ := layout9 0x4A d a b (by decide) word hw
    simp only [decodeFields, h1, decode4, h2]
    rw [e0, e1, e2]
    rfl

theorem vabs (d a : VOp) : Statement (.vabs d a) := by
  refine of_fields _ (put 0x4B 24 + put d.toNat 16 + put a.toNat 8) rfl ?_ fun word hw => ?_
  · exact (layout10 0x4B d a (by decide) _ rfl).1
  · obtain ⟨-, h1, h2, e0, e1, e2⟩ := layout10 0x4B d a (by decide) word hw
    simp only [decodeFields, h1, decode4, h2]
    rw [e0, e1, e2]
    rfl

theorem vneg (d a : VOp) : Statement (.vneg d a) := by
  refine of_fields _ (put 0x4C 24 + put d.toNat 16 + put a.toNat 8) rfl ?_ fun word hw => ?_
  · exact (layout10 0x4C d a (by decide) _ rfl).1
  · obtain ⟨-, h1, h2, e0, e1, e2⟩ := layout10 0x4C d a (by decide) word hw
    simp only [decodeFields, h1, decode4, h2]
    rw [e0, e1, e2]
    rfl

theorem vsqrt (d a : VOp) : Statement (.vsqrt d a) := by
  refine of_fields _ (put 0x4D 24 + put d.toNat 16 + put a.toNat 8) rfl ?_ fun word hw => ?_
  · exact (layout10 0x4D d a (by decide) _ rfl).1
  · obtain ⟨-, h1, h2, e0, e1, e2⟩ := layout10 0x4D d a (by decide) word hw
    simp only [decodeFields, h1, decode4, h2]
    rw [e0, e1, e2]
    rfl

theorem vrcp (d a : VOp) : Statement (.vrcp d a) := by
  refine of_fields _ (put 0x4E 24 + put d.toNat 16 + put a.toNat 8) rfl ?_ fun word hw => ?_
  · exact (layout10 0x4E d a (by decide) _ rfl).1
  · obtain ⟨-, h1, h2, e0, e1, e2⟩ := layout10 0x4E d a (by decide) word hw
    simp only [decodeFields, h1, decode4, h2]
    rw [e0, e1, e2]
    rfl

theorem vrsq (d a : VOp) : Statement (.vrsq d a) := by
  refine of_fields _ (put 0x4F 24 + put d.toNat 16 + put a.toNat 8) rfl ?_ fun word hw => ?_
  · exact (layout10 0x4F d a (by decide) _ rfl).1
  · obtain ⟨-, h1, h2, e0, e1, e2⟩ := layout10 0x4F d a (by decide) word hw
    simp only [decodeFields, h1, decode4, h2]
    rw [e0, e1, e2]
    rfl

theorem vand (d a b : VOp) : Statement (.vand d a b) := by
  refine of_fields _ (put 0x50 24 + put d.toNat 16 + put a.toNat 8 + b.toNat) rfl ?_ fun word hw => ?_
  · exact (layout9 0x50 d a b (by decide) _ rfl).1
  · obtain ⟨-, h1, h2, e0, e1, e2⟩ := layout9 0x50 d a b (by decide) word hw
    simp only [decodeFields, h1, decode5, h2]
    rw [e0, e1, e2]
    rfl

theorem vor (d a b : VOp) : Statement (.vor d a b) := by
  refine of_fields _ (put 0x51 24 + put d.toNat 16 + put a.toNat 8 + b.toNat) rfl ?_ fun word hw => ?_
  · exact (layout9 0x51 d a b (by decide) _ rfl).1
  · obtain ⟨-, h1, h2, e0, e1, e2⟩ := layout9 0x51 d a b (by decide) word hw
    simp only [decodeFields, h1, decode5, h2]
    rw [e0, e1, e2]
    rfl

theorem vxor (d a b : VOp) : Statement (.vxor d a b) := by
  refine of_fields _ (put 0x52 24 + put d.toNat 16 + put a.toNat 8 + b.toNat) rfl ?_ fun word hw => ?_
  · exact (layout9 0x52 d a b (by decide) _ rfl).1
  · obtain ⟨-, h1, h2, e0, e1, e2⟩ := layout9 0x52 d a b (by decide) word hw
    simp only [decodeFields, h1, decode5, h2]
    rw [e0, e1, e2]
    rfl

theorem vnot (d a : VOp) : Statement (.vnot d a) := by
  refine of_fields _ (put 0x53 24 + put d.toNat 16 + put a.toNat 8) rfl ?_ fun word hw => ?_
  · exact (layout10 0x53 d a (by decide) _ rfl).1
  · obtain ⟨-, h1, h2, e0, e1, e2⟩ := layout10 0x53 d a (by decide) word hw
    simp only [decodeFields, h1, decode5, h2]
    rw [e0, e1, e2]
    rfl

theorem vshl (d a b : VOp) : Statement (.vshl d a b) := by
  refine of_fields _ (put 0x54 24 + put d.toNat 16 + put a.toNat 8 + b.toNat) rfl ?_ fun word hw => ?_
  · exact (layout9 0x54 d a b (by decide) _ rfl).1
  · obtain ⟨-, h1, h2, e0, e1, e2⟩ := layout9 0x54 d a b (by decide) word hw
    simp only [decodeFields, h1, decode5, h2]
    rw [e0, e1, e2]
    rfl

theorem vshr (d a b : VOp) : Statement (.vshr d a b) := by
  refine of_fields _ (put 0x55 24 + put d.toNat 16 + put a.toNat 8 + b.toNat) rfl ?_ fun word hw => ?_
  · exact (layout9 0x55 d a b (by decide) _ rfl).1
  · obtain ⟨-, h1, h2, e0, e1, e2⟩ := layout9 0x55 d a b (by decide) word hw
    simp only [decodeFields, h1, decode5, h2]
    rw [e0, e1, e2]
    rfl

theorem vsra (d a b : VOp) : Statement (.vsra d a b) := by
  refine of_fields _ (put 0x56 24 + put d.toNat 16 + put a.toNat 8 + b.toNat) rfl ?_ fun word hw => ?_
  · exact (layout9 0x56 d a b (by decide) _ rfl).1
  · obtain ⟨-, h1, h2, e0, e1, e2⟩ := layout9 0x56 d a b (by decide) word hw
    simp only [decodeFields, h1, decode5, h2]
    rw [e0, e1, e2]
    rfl

theorem vaddi (d a : VOp) (i : BitVec 8) : Statement (.vaddi d a i) := by
  refine of_fields _ (put 0x57 24 + put d.toNat 16 + put a.toNat 8 + i.toNat) rfl ?_ fun word hw => ?_
  · exact (layout11 0x57 d a i (by decide) _ rfl).1
  · obtain ⟨-, h1, h2, e0, e1, e2⟩ := layout11 0x57 d a i (by decide) word hw
    simp only [decodeFields, h1, decode5, h2]
    rw [e0, e1, e2]
    rfl

theorem vshli (d a : VOp) (i : BitVec 8) : Statement (.vshli d a i) := by
  refine of_fields _ (put 0x58 24 + put d.toNat 16 + put a.toNat 8 + i.toNat) rfl ?_ fun word hw => ?_
  · exact (layout11 0x58 d a i (by decide) _ rfl).1
  · obtain ⟨-, h1, h2, e0, e1, e2⟩ := layout11 0x58 d a i (by decide) word hw
    simp only [decodeFields, h1, decode5, h2]
    rw [e0, e1, e2]
    rfl

theorem vshri (d a : VOp) (i : BitVec 8) : Statement (.vshri d a i) := by
  refine of_fields _ (put 0x59 24 + put d.toNat 16 + put a.toNat 8 + i.toNat) rfl ?_ fun word hw => ?_
  · exact (layout11 0x59 d a i (by decide) _ rfl).1
  · obtain ⟨-, h1, h2, e0, e1, e2⟩ := layout11 0x59 d a i (by decide) word hw
    simp only [decodeFields, h1, decode5, h2]
    rw [e0, e1, e2]
    rfl

theorem vsrai (d a : VOp) (i : BitVec 8) : Statement (.vsrai d a i) := by
  refine of_fields _ (put 0x5A 24 + put d.toNat 16 + put a.toNat 8 + i.toNat) rfl ?_ fun word hw => ?_
  · exact (layout11 0x5A d a i (by decide) _ rfl).1
  · obtain ⟨-, h1, h2, e0, e1, e2⟩ := layout11 0x5A d a i (by decide) word hw
    simp only [decodeFields, h1, decode5, h2]
    rw [e0, e1, e2]
    rfl

theorem vmv (d a : VOp) : Statement (.vmv d a) := by
  refine of_fields _ (put 0x5B 24 + put d.toNat 16 + put a.toNat 8) rfl ?_ fun word hw => ?_
  · exact (layout10 0x5B d a (by decide) _ rfl).1
  · obtain ⟨-, h1, h2, e0, e1, e2⟩ := layout10 0x5B d a (by decide) word hw
    simp only [decodeFields, h1, decode5, h2]
    rw [e0, e1, e2]
    rfl

theorem vsel (d a b : VOp) : Statement (.vsel d a b) := by
  refine of_fields _ (put 0x5C 24 + put d.toNat 16 + put a.toNat 8 + b.toNat) rfl ?_ fun word hw => ?_
  · exact (layout9 0x5C d a b (by decide) _ rfl).1
  · obtain ⟨-, h1, h2, e0, e1, e2⟩ := layout9 0x5C d a b (by decide) word hw
    simp only [decodeFields, h1, decode5, h2]
    rw [e0, e1, e2]
    rfl

theorem vcvt (d a : VOp) (t : BitVec 4) : Statement (.vcvt d a t) := by
  refine of_fields _ (put 0x60 24 + put d.toNat 16 + put a.toNat 8 + t.toNat) rfl ?_ fun word hw => ?_
  · exact (layout12 0x60 d a t (by decide) _ rfl).1
  · obtain ⟨-, h1, h2, e0, e1, e2, e3⟩ := layout12 0x60 d a t (by decide) word hw
    simp only [decodeFields, h1, decode6, h2]
    rw [e0, e1, e2, e3]
    rfl

theorem vcvtw (d a : VOp) (t : BitVec 4) : Statement (.vcvtw d a t) := by
  refine of_fields _ (put 0x61 24 + put d.toNat 16 + put a.toNat 8 + t.toNat) rfl ?_ fun word hw => ?_
  · exact (layout12 0x61 d a t (by decide) _ rfl).1
  · obtain ⟨-, h1, h2, e0, e1, e2, e3⟩ := layout12 0x61 d a t (by decide) word hw
    simp only [decodeFields, h1, decode6, h2]
    rw [e0, e1, e2, e3]
    rfl

theorem vcvtn (d a : VOp) (t : BitVec 4) : Statement (.vcvtn d a t) := by
  refine of_fields _ (put 0x62 24 + put d.toNat 16 + put a.toNat 8 + t.toNat) rfl ?_ fun word hw => ?_
  · exact (layout12 0x62 d a t (by decide) _ rfl).1
  · obtain ⟨-, h1, h2, e0, e1, e2, e3⟩ := layout12 0x62 d a t (by decide) word hw
    simp only [decodeFields, h1, decode6, h2]
    rw [e0, e1, e2, e3]
    rfl

theorem vceq (k : BitVec 3) (a b : VOp) : Statement (.vceq k a b) := by
  refine of_fields _ (put 0x63 24 + put k.toNat 16 + put a.toNat 8 + b.toNat) rfl ?_ fun word hw => ?_
  · exact (layout13 0x63 k a b (by decide) _ rfl).1
  · obtain ⟨-, h1, h2, e0, e1, e2, e3⟩ := layout13 0x63 k a b (by decide) word hw
    simp only [decodeFields, h1, decode6, h2]
    rw [e0, e1, e2, e3]
    rfl

theorem vcne (k : BitVec 3) (a b : VOp) : Statement (.vcne k a b) := by
  refine of_fields _ (put 0x64 24 + put k.toNat 16 + put a.toNat 8 + b.toNat) rfl ?_ fun word hw => ?_
  · exact (layout13 0x64 k a b (by decide) _ rfl).1
  · obtain ⟨-, h1, h2, e0, e1, e2, e3⟩ := layout13 0x64 k a b (by decide) word hw
    simp only [decodeFields, h1, decode6, h2]
    rw [e0, e1, e2, e3]
    rfl

theorem vclt (k : BitVec 3) (a b : VOp) : Statement (.vclt k a b) := by
  refine of_fields _ (put 0x65 24 + put k.toNat 16 + put a.toNat 8 + b.toNat) rfl ?_ fun word hw => ?_
  · exact (layout13 0x65 k a b (by decide) _ rfl).1
  · obtain ⟨-, h1, h2, e0, e1, e2, e3⟩ := layout13 0x65 k a b (by decide) word hw
    simp only [decodeFields, h1, decode6, h2]
    rw [e0, e1, e2, e3]
    rfl

theorem vcle (k : BitVec 3) (a b : VOp) : Statement (.vcle k a b) := by
  refine of_fields _ (put 0x66 24 + put k.toNat 16 + put a.toNat 8 + b.toNat) rfl ?_ fun word hw => ?_
  · exact (layout13 0x66 k a b (by decide) _ rfl).1
  · obtain ⟨-, h1, h2, e0, e1, e2, e3⟩ := layout13 0x66 k a b (by decide) word hw
    simp only [decodeFields, h1, decode6, h2]
    rw [e0, e1, e2, e3]
    rfl

theorem vcgt (k : BitVec 3) (a b : VOp) : Statement (.vcgt k a b) := by
  refine of_fields _ (put 0x67 24 + put k.toNat 16 + put a.toNat 8 + b.toNat) rfl ?_ fun word hw => ?_
  · exact (layout13 0x67 k a b (by decide) _ rfl).1
  · obtain ⟨-, h1, h2, e0, e1, e2, e3⟩ := layout13 0x67 k a b (by decide) word hw
    simp only [decodeFields, h1, decode6, h2]
    rw [e0, e1, e2, e3]
    rfl

theorem vcge (k : BitVec 3) (a b : VOp) : Statement (.vcge k a b) := by
  refine of_fields _ (put 0x68 24 + put k.toNat 16 + put a.toNat 8 + b.toNat) rfl ?_ fun word hw => ?_
  · exact (layout13 0x68 k a b (by decide) _ rfl).1
  · obtain ⟨-, h1, h2, e0, e1, e2, e3⟩ := layout13 0x68 k a b (by decide) word hw
    simp only [decodeFields, h1, decode6, h2]
    rw [e0, e1, e2, e3]
    rfl

theorem vredsum (d a b : VOp) : Statement (.vredsum d a b) := by
  refine of_fields _ (put 0x69 24 + put d.toNat 16 + put a.toNat 8 + b.toNat) rfl ?_ fun word hw => ?_
  · exact (layout9 0x69 d a b (by decide) _ rfl).1
  · obtain ⟨-, h1, h2, e0, e1, e2⟩ := layout9 0x69 d a b (by decide) word hw
    simp only [decodeFields, h1, decode6, h2]
    rw [e0, e1, e2]
    rfl

theorem vredmax (d a b : VOp) : Statement (.vredmax d a b) := by
  refine of_fields _ (put 0x6A 24 + put d.toNat 16 + put a.toNat 8 + b.toNat) rfl ?_ fun word hw => ?_
  · exact (layout9 0x6A d a b (by decide) _ rfl).1
  · obtain ⟨-, h1, h2, e0, e1, e2⟩ := layout9 0x6A d a b (by decide) word hw
    simp only [decodeFields, h1, decode6, h2]
    rw [e0, e1, e2]
    rfl

theorem vredmin (d a b : VOp) : Statement (.vredmin d a b) := by
  refine of_fields _ (put 0x6B 24 + put d.toNat 16 + put a.toNat 8 + b.toNat) rfl ?_ fun word hw => ?_
  · exact (layout9 0x6B d a b (by decide) _ rfl).1
  · obtain ⟨-, h1, h2, e0, e1, e2⟩ := layout9 0x6B d a b (by decide) word hw
    simp only [decodeFields, h1, decode6, h2]
    rw [e0, e1, e2]
    rfl

theorem vredand (d a b : VOp) : Statement (.vredand d a b) := by
  refine of_fields _ (put 0x6C 24 + put d.toNat 16 + put a.toNat 8 + b.toNat) rfl ?_ fun word hw => ?_
  · exact (layout9 0x6C d a b (by decide) _ rfl).1
  · obtain ⟨-, h1, h2, e0, e1, e2⟩ := layout9 0x6C d a b (by decide) word hw
    simp only [decodeFields, h1, decode6, h2]
    rw [e0, e1, e2]
    rfl

theorem vredor (d a b : VOp) : Statement (.vredor d a b) := by
  refine of_fields _ (put 0x6D 24 + put d.toNat 16 + put a.toNat 8 + b.toNat) rfl ?_ fun word hw => ?_
  · exact (layout9 0x6D d a b (by decide) _ rfl).1
  · obtain ⟨-, h1, h2, e0, e1, e2⟩ := layout9 0x6D d a b (by decide) word hw
    simp only [decodeFields, h1, decode6, h2]
    rw [e0, e1, e2]
    rfl

theorem vscan (d a b : VOp) : Statement (.vscan d a b) := by
  refine of_fields _ (put 0x6E 24 + put d.toNat 16 + put a.toNat 8 + b.toNat) rfl ?_ fun word hw => ?_
  · exact (layout9 0x6E d a b (by decide) _ rfl).1
  · obtain ⟨-, h1, h2, e0, e1, e2⟩ := layout9 0x6E d a b (by decide) word hw
    simp only [decodeFields, h1, decode6, h2]
    rw [e0, e1, e2]
    rfl

theorem vperm (d a b : VOp) : Statement (.vperm d a b) := by
  refine of_fields _ (put 0x70 24 + put d.toNat 16 + put a.toNat 8 + b.toNat) rfl ?_ fun word hw => ?_
  · exact (layout9 0x70 d a b (by decide) _ rfl).1
  · obtain ⟨-, h1, h2, e0, e1, e2⟩ := layout9 0x70 d a b (by decide) word hw
    simp only [decodeFields, h1, decode7, h2]
    rw [e0, e1, e2]
    rfl

theorem vslup (d a : VOp) (k : BitVec 8) : Statement (.vslup d a k) := by
  refine of_fields _ (put 0x71 24 + put d.toNat 16 + put a.toNat 8 + k.toNat) rfl ?_ fun word hw => ?_
  · exact (layout11 0x71 d a k (by decide) _ rfl).1
  · obtain ⟨-, h1, h2, e0, e1, e2⟩ := layout11 0x71 d a k (by decide) word hw
    simp only [decodeFields, h1, decode7, h2]
    rw [e0, e1, e2]
    rfl

theorem vsldn (d a : VOp) (k : BitVec 8) : Statement (.vsldn d a k) := by
  refine of_fields _ (put 0x72 24 + put d.toNat 16 + put a.toNat 8 + k.toNat) rfl ?_ fun word hw => ?_
  · exact (layout11 0x72 d a k (by decide) _ rfl).1
  · obtain ⟨-, h1, h2, e0, e1, e2⟩ := layout11 0x72 d a k (by decide) word hw
    simp only [decodeFields, h1, decode7, h2]
    rw [e0, e1, e2]
    rfl

theorem vsplat (a : BitVec 4) (v : BitVec 5) : Statement (.vsplat a v) := by
  refine of_fields _ (put 0x73 24 + put a.toNat 20 + put v.toNat 7) rfl ?_ fun word hw => ?_
  · exact (layout14 0x73 a v (by decide) _ rfl).1
  · obtain ⟨-, h1, h2, e0, e1, e2, e3⟩ := layout14 0x73 a v (by decide) word hw
    simp only [decodeFields, h1, decode7, h2]
    rw [e0, e1, e2, e3]
    rfl

theorem vextr (a b : BitVec 4) (v : BitVec 5) : Statement (.vextr a b v) := by
  refine of_fields _ (put 0x74 24 + put a.toNat 20 + put b.toNat 16 + put v.toNat 7) rfl ?_ fun word hw => ?_
  · exact (layout15 0x74 a b v (by decide) _ rfl).1
  · obtain ⟨-, h1, h2, e0, e1, e2, e3, e4⟩ := layout15 0x74 a b v (by decide) word hw
    simp only [decodeFields, h1, decode7, h2]
    rw [e0, e1, e2, e3, e4]
    rfl

theorem vinsr (a b : BitVec 4) (v : BitVec 5) : Statement (.vinsr a b v) := by
  refine of_fields _ (put 0x75 24 + put a.toNat 20 + put b.toNat 16 + put v.toNat 7) rfl ?_ fun word hw => ?_
  · exact (layout15 0x75 a b v (by decide) _ rfl).1
  · obtain ⟨-, h1, h2, e0, e1, e2, e3, e4⟩ := layout15 0x75 a b v (by decide) word hw
    simp only [decodeFields, h1, decode7, h2]
    rw [e0, e1, e2, e3, e4]
    rfl

theorem vidx (d : VOp) : Statement (.vidx d) := by
  refine of_fields _ (put 0x76 24 + put d.toNat 16) rfl ?_ fun word hw => ?_
  · exact (layout16 0x76 d (by decide) _ rfl).1
  · obtain ⟨-, h1, h2, e0, e1⟩ := layout16 0x76 d (by decide) word hw
    simp only [decodeFields, h1, decode7, h2]
    rw [e0, e1]
    rfl

theorem kand (d a b : BitVec 3) : Statement (.kand d a b) := by
  refine of_fields _ (put 0x77 24 + put d.toNat 21 + put a.toNat 18 + put b.toNat 15) rfl ?_ fun word hw => ?_
  · exact (layout17 0x77 d a b (by decide) _ rfl).1
  · obtain ⟨-, h1, h2, e0, e1, e2, e3⟩ := layout17 0x77 d a b (by decide) word hw
    simp only [decodeFields, h1, decode7, h2]
    rw [e0, e1, e2, e3]
    rfl

theorem kor (d a b : BitVec 3) : Statement (.kor d a b) := by
  refine of_fields _ (put 0x78 24 + put d.toNat 21 + put a.toNat 18 + put b.toNat 15) rfl ?_ fun word hw => ?_
  · exact (layout17 0x78 d a b (by decide) _ rfl).1
  · obtain ⟨-, h1, h2, e0, e1, e2, e3⟩ := layout17 0x78 d a b (by decide) word hw
    simp only [decodeFields, h1, decode7, h2]
    rw [e0, e1, e2, e3]
    rfl

theorem kxor (d a b : BitVec 3) : Statement (.kxor d a b) := by
  refine of_fields _ (put 0x79 24 + put d.toNat 21 + put a.toNat 18 + put b.toNat 15) rfl ?_ fun word hw => ?_
  · exact (layout17 0x79 d a b (by decide) _ rfl).1
  · obtain ⟨-, h1, h2, e0, e1, e2, e3⟩ := layout17 0x79 d a b (by decide) word hw
    simp only [decodeFields, h1, decode7, h2]
    rw [e0, e1, e2, e3]
    rfl

theorem kandn (d a b : BitVec 3) : Statement (.kandn d a b) := by
  refine of_fields _ (put 0x7A 24 + put d.toNat 21 + put a.toNat 18 + put b.toNat 15) rfl ?_ fun word hw => ?_
  · exact (layout17 0x7A d a b (by decide) _ rfl).1
  · obtain ⟨-, h1, h2, e0, e1, e2, e3⟩ := layout17 0x7A d a b (by decide) word hw
    simp only [decodeFields, h1, decode7, h2]
    rw [e0, e1, e2, e3]
    rfl

theorem kset (d : BitVec 3) : Statement (.kset d) := by
  refine of_fields _ (put 0x7B 24 + put d.toNat 21) rfl ?_ fun word hw => ?_
  · exact (layout18 0x7B d (by decide) _ rfl).1
  · obtain ⟨-, h1, h2, e0, e1, e2⟩ := layout18 0x7B d (by decide) word hw
    simp only [decodeFields, h1, decode7, h2, e2]
    rw [e0, e1]
    rfl

theorem ksetClear (d : BitVec 3) : Statement (.ksetClear d) := by
  refine of_fields _ (put 0x7B 24 + put d.toNat 21 + 1) rfl ?_ fun word hw => ?_
  · exact (layout19 0x7B d (by decide) _ rfl).1
  · obtain ⟨-, h1, h2, e0, e1, e2⟩ := layout19 0x7B d (by decide) word hw
    simp only [decodeFields, h1, decode7, h2, e2]
    rw [e0, e1]
    rfl

theorem kpop (a : BitVec 3) (s : BitVec 4) : Statement (.kpop a s) := by
  refine of_fields _ (put 0x7C 24 + put a.toNat 18 + s.toNat) rfl ?_ fun word hw => ?_
  · exact (layout20 0x7C a s (by decide) _ rfl).1
  · obtain ⟨-, h1, h2, e0, e1, e2, e3⟩ := layout20 0x7C a s (by decide) word hw
    simp only [decodeFields, h1, decode7, h2]
    rw [e0, e1, e2, e3]
    rfl

theorem kfirst (a : BitVec 3) (s : BitVec 4) : Statement (.kfirst a s) := by
  refine of_fields _ (put 0x7D 24 + put a.toNat 18 + s.toNat) rfl ?_ fun word hw => ?_
  · exact (layout20 0x7D a s (by decide) _ rfl).1
  · obtain ⟨-, h1, h2, e0, e1, e2, e3⟩ := layout20 0x7D a s (by decide) word hw
    simp only [decodeFields, h1, decode7, h2]
    rw [e0, e1, e2, e3]
    rfl

theorem sadd (a b c : BitVec 4) : Statement (.sadd a b c) := by
  refine of_fields _ (put 0x80 24 + put a.toNat 20 + put b.toNat 16 + put c.toNat 12) rfl ?_ fun word hw => ?_
  · exact (layout21 0x80 a b c (by decide) _ rfl).1
  · obtain ⟨-, h1, h2, e0, e1, e2, e3, e4⟩ := layout21 0x80 a b c (by decide) word hw
    simp only [decodeFields, h1, decode8, h2]
    rw [e0, e1, e2, e3, e4]
    rfl

theorem ssub (a b c : BitVec 4) : Statement (.ssub a b c) := by
  refine of_fields _ (put 0x81 24 + put a.toNat 20 + put b.toNat 16 + put c.toNat 12) rfl ?_ fun word hw => ?_
  · exact (layout21 0x81 a b c (by decide) _ rfl).1
  · obtain ⟨-, h1, h2, e0, e1, e2, e3, e4⟩ := layout21 0x81 a b c (by decide) word hw
    simp only [decodeFields, h1, decode8, h2]
    rw [e0, e1, e2, e3, e4]
    rfl

theorem smin (a b c : BitVec 4) : Statement (.smin a b c) := by
  refine of_fields _ (put 0x82 24 + put a.toNat 20 + put b.toNat 16 + put c.toNat 12) rfl ?_ fun word hw => ?_
  · exact (layout22 0x82 a b c (by decide) _ rfl).1
  · obtain ⟨-, h1, h2, e0, e1, e2, e3, e4⟩ := layout22 0x82 a b c (by decide) word hw
    simp only [decodeFields, h1, decode8, h2, e4]
    rw [e0, e1, e2, e3]
    rfl

theorem sminS (a b c : BitVec 4) : Statement (.sminS a b c) := by
  refine of_fields _ (put 0x82 24 + put a.toNat 20 + put b.toNat 16 + put c.toNat 12 + 1) rfl ?_ fun word hw => ?_
  · exact (layout23 0x82 a b c (by decide) _ rfl).1
  · obtain ⟨-, h1, h2, e0, e1, e2, e3, e4⟩ := layout23 0x82 a b c (by decide) word hw
    simp only [decodeFields, h1, decode8, h2, e4]
    rw [e0, e1, e2, e3]
    rfl

theorem smax (a b c : BitVec 4) : Statement (.smax a b c) := by
  refine of_fields _ (put 0x83 24 + put a.toNat 20 + put b.toNat 16 + put c.toNat 12) rfl ?_ fun word hw => ?_
  · exact (layout22 0x83 a b c (by decide) _ rfl).1
  · obtain ⟨-, h1, h2, e0, e1, e2, e3, e4⟩ := layout22 0x83 a b c (by decide) word hw
    simp only [decodeFields, h1, decode8, h2, e4]
    rw [e0, e1, e2, e3]
    rfl

theorem smaxS (a b c : BitVec 4) : Statement (.smaxS a b c) := by
  refine of_fields _ (put 0x83 24 + put a.toNat 20 + put b.toNat 16 + put c.toNat 12 + 1) rfl ?_ fun word hw => ?_
  · exact (layout23 0x83 a b c (by decide) _ rfl).1
  · obtain ⟨-, h1, h2, e0, e1, e2, e3, e4⟩ := layout23 0x83 a b c (by decide) word hw
    simp only [decodeFields, h1, decode8, h2, e4]
    rw [e0, e1, e2, e3]
    rfl

theorem sand (a b c : BitVec 4) : Statement (.sand a b c) := by
  refine of_fields _ (put 0x84 24 + put a.toNat 20 + put b.toNat 16 + put c.toNat 12) rfl ?_ fun word hw => ?_
  · exact (layout21 0x84 a b c (by decide) _ rfl).1
  · obtain ⟨-, h1, h2, e0, e1, e2, e3, e4⟩ := layout21 0x84 a b c (by decide) word hw
    simp only [decodeFields, h1, decode8, h2]
    rw [e0, e1, e2, e3, e4]
    rfl

theorem sshli (a b : BitVec 4) (n : BitVec 8) : Statement (.sshli a b n) := by
  refine of_fields _ (put 0x85 24 + put a.toNat 20 + put b.toNat 16 + n.toNat) rfl ?_ fun word hw => ?_
  · exact (layout24 0x85 a b n (by decide) _ rfl).1
  · obtain ⟨-, h1, h2, e0, e1, e2, e3⟩ := layout24 0x85 a b n (by decide) word hw
    simp only [decodeFields, h1, decode8, h2]
    rw [e0, e1, e2, e3]
    rfl

theorem sshri (a b : BitVec 4) (n : BitVec 8) : Statement (.sshri a b n) := by
  refine of_fields _ (put 0x86 24 + put a.toNat 20 + put b.toNat 16 + n.toNat) rfl ?_ fun word hw => ?_
  · exact (layout24 0x86 a b n (by decide) _ rfl).1
  · obtain ⟨-, h1, h2, e0, e1, e2, e3⟩ := layout24 0x86 a b n (by decide) word hw
    simp only [decodeFields, h1, decode8, h2]
    rw [e0, e1, e2, e3]
    rfl

theorem sli (a : BitVec 4) (i : BitVec 20) : Statement (.sli a i) := by
  refine of_fields _ (put 0x87 24 + put a.toNat 20 + i.toNat) rfl ?_ fun word hw => ?_
  · exact (layout25 0x87 a i (by decide) _ rfl).1
  · obtain ⟨-, h1, h2, e0, e1⟩ := layout25 0x87 a i (by decide) word hw
    simp only [decodeFields, h1, decode8, h2]
    rw [e0, e1]
    rfl

theorem svl (a : BitVec 4) (f : BitVec 8) : Statement (.svl a f) := by
  refine of_fields _ (put 0x88 24 + put a.toNat 20 + f.toNat) rfl ?_ fun word hw => ?_
  · exact (layout26 0x88 a f (by decide) _ rfl).1
  · obtain ⟨-, h1, h2, e0, e1, e2⟩ := layout26 0x88 a f (by decide) word hw
    simp only [decodeFields, h1, decode8, h2]
    rw [e0, e1, e2]
    rfl

theorem vmode (f : VModeFields) : Statement (.vmode f) := by
  refine of_fields _ (put 0x89 24 + put f.selT.toNat 23 + put f.selRnd.toNat 22 + put f.selSat.toNat 21 + put f.selM.toNat 20 + put f.selG.toNat 19 + put f.selSc.toNat 18 + put f.t.toNat 14 + put f.rnd.toNat 11 + put f.sat.toNat 10 + put f.m.toNat 9 + put f.gen.toNat 8 + put f.gk.toNat 5 + put f.gneg.toNat 4 + put f.sc.toNat 1) rfl ?_ fun word hw => ?_
  · exact (layout27 0x89 f.selT f.selRnd f.selSat f.selM f.selG f.selSc f.t f.rnd f.sat f.m f.gen f.gk f.gneg f.sc (by decide) _ rfl).1
  · obtain ⟨-, h1, h2, e0, e1, e2, e3, e4, e5, e6, e7, e8, e9, e10, e11, e12, e13, e14⟩ := layout27 0x89 f.selT f.selRnd f.selSat f.selM f.selG f.selSc f.t f.rnd f.sat f.m f.gen f.gk f.gneg f.sc (by decide) word hw
    simp only [decodeFields, h1, decode8, h2]
    rw [e0, e1, e2, e3, e4, e5, e6, e7, e8, e9, e10, e11, e12, e13, e14]
    rfl

theorem vlen (a : BitVec 4) : Statement (.vlen a) := by
  refine of_fields _ (put 0x8A 24 + put a.toNat 20) rfl ?_ fun word hw => ?_
  · exact (layout28 0x8A a (by decide) _ rfl).1
  · obtain ⟨-, h1, h2, e0, e1⟩ := layout28 0x8A a (by decide) word hw
    simp only [decodeFields, h1, decode8, h2]
    rw [e0, e1]
    rfl

theorem vloop (n : BitVec 4) (o : BitVec 19) : Statement (.vloop n o) := by
  refine of_fields _ (put 0x8B 24 + put n.toNat 19 + o.toNat) rfl ?_ fun word hw => ?_
  · exact (layout29 0x8B n o (by decide) _ rfl).1
  · obtain ⟨-, h1, h2, e0, e1, e2⟩ := layout29 0x8B n o (by decide) word hw
    simp only [decodeFields, h1, decode8, h2]
    rw [e0, e1, e2]
    rfl

theorem vloopnz (n : BitVec 4) (o : BitVec 19) : Statement (.vloopnz n o) := by
  refine of_fields _ (put 0x8C 24 + put n.toNat 19 + o.toNat) rfl ?_ fun word hw => ?_
  · exact (layout29 0x8C n o (by decide) _ rfl).1
  · obtain ⟨-, h1, h2, e0, e1, e2⟩ := layout29 0x8C n o (by decide) word hw
    simp only [decodeFields, h1, decode8, h2]
    rw [e0, e1, e2]
    rfl

theorem vnest (n : BitVec 4) (o : BitVec 19) : Statement (.vnest n o) := by
  refine of_fields _ (put 0x8D 24 + put n.toNat 19 + o.toNat) rfl ?_ fun word hw => ?_
  · exact (layout29 0x8D n o (by decide) _ rfl).1
  · obtain ⟨-, h1, h2, e0, e1, e2⟩ := layout29 0x8D n o (by decide) word hw
    simp only [decodeFields, h1, decode8, h2]
    rw [e0, e1, e2]
    rfl

theorem vreply (a : BitVec 4) : Statement (.vreply a) := by
  refine of_fields _ (put 0x8E 24 + put a.toNat 20) rfl ?_ fun word hw => ?_
  · exact (layout28 0x8E a (by decide) _ rfl).1
  · obtain ⟨-, h1, h2, e0, e1⟩ := layout28 0x8E a (by decide) word hw
    simp only [decodeFields, h1, decode8, h2]
    rw [e0, e1]
    rfl

theorem vend : Statement .vend := by
  refine of_fields _ (put 0x8F 24) rfl ?_ fun word hw => ?_
  · exact (layout30 0x8F (by decide) _ rfl).1
  · obtain ⟨-, h1, h2, e0⟩ := layout30 0x8F (by decide) word hw
    simp only [decodeFields, h1, decode8, h2]
    rw [e0]
    rfl

theorem vconf (d a : VOp) : Statement (.vconf d a) := by
  refine of_fields _ (put 0x90 24 + put d.toNat 16 + put a.toNat 8) rfl ?_ fun word hw => ?_
  · exact (layout10 0x90 d a (by decide) _ rfl).1
  · obtain ⟨-, h1, h2, e0, e1, e2⟩ := layout10 0x90 d a (by decide) word hw
    simp only [decodeFields, h1, decode9, h2]
    rw [e0, e1, e2]
    rfl

theorem vconfc (d a : VOp) (k : BitVec 3) : Statement (.vconfc d a k) := by
  refine of_fields _ (put 0x91 24 + put d.toNat 16 + put a.toNat 8 + k.toNat) rfl ?_ fun word hw => ?_
  · exact (layout31 0x91 d a k (by decide) _ rfl).1
  · obtain ⟨-, h1, h2, e0, e1, e2, e3⟩ := layout31 0x91 d a k (by decide) word hw
    simp only [decodeFields, h1, decode9, h2]
    rw [e0, e1, e2, e3]
    rfl

theorem vpart (k : BitVec 3) (a : VOp) (p : BitVec 3) : Statement (.vpart k a p) := by
  refine of_fields _ (put 0x92 24 + put k.toNat 16 + put a.toNat 8 + p.toNat) rfl ?_ fun word hw => ?_
  · exact (layout32 0x92 k a p (by decide) _ rfl).1
  · obtain ⟨-, h1, h2, e0, e1, e2, e3, e4⟩ := layout32 0x92 k a p (by decide) word hw
    simp only [decodeFields, h1, decode9, h2]
    rw [e0, e1, e2, e3, e4]
    rfl

theorem kbefore (d a : BitVec 3) (w : Bool) (s : BitVec 4) : Statement (.kbefore d a w s) := by
  refine of_fields _ (put 0x93 24 + put d.toNat 21 + put a.toNat 18 + put w.toNat 4 + s.toNat) rfl ?_ fun word hw => ?_
  · exact (layout33 0x93 d a w s (by decide) _ rfl).1
  · obtain ⟨-, h1, h2, e0, e1, e2, e3, e4⟩ := layout33 0x93 d a w s (by decide) word hw
    simp only [decodeFields, h1, decode9, h2]
    rw [e0, e1, e2, e3, e4]
    rfl

theorem kthrough (d a : BitVec 3) (w : Bool) (s : BitVec 4) : Statement (.kthrough d a w s) := by
  refine of_fields _ (put 0x94 24 + put d.toNat 21 + put a.toNat 18 + put w.toNat 4 + s.toNat) rfl ?_ fun word hw => ?_
  · exact (layout33 0x94 d a w s (by decide) _ rfl).1
  · obtain ⟨-, h1, h2, e0, e1, e2, e3, e4⟩ := layout33 0x94 d a w s (by decide) word hw
    simp only [decodeFields, h1, decode9, h2]
    rw [e0, e1, e2, e3, e4]
    rfl

theorem vlast (a b : BitVec 4) (v : BitVec 5) : Statement (.vlast a b v) := by
  refine of_fields _ (put 0x95 24 + put a.toNat 20 + put b.toNat 16 + put v.toNat 7) rfl ?_ fun word hw => ?_
  · exact (layout15 0x95 a b v (by decide) _ rfl).1
  · obtain ⟨-, h1, h2, e0, e1, e2, e3, e4⟩ := layout15 0x95 a b v (by decide) word hw
    simp only [decodeFields, h1, decode9, h2]
    rw [e0, e1, e2, e3, e4]
    rfl

theorem vcprop (d a b : VOp) : Statement (.vcprop d a b) := by
  refine of_fields _ (put 0x96 24 + put d.toNat 16 + put a.toNat 8 + b.toNat) rfl ?_ fun word hw => ?_
  · exact (layout9 0x96 d a b (by decide) _ rfl).1
  · obtain ⟨-, h1, h2, e0, e1, e2⟩ := layout9 0x96 d a b (by decide) word hw
    simp only [decodeFields, h1, decode9, h2]
    rw [e0, e1, e2]
    rfl

theorem vcomp (d a : VOp) : Statement (.vcomp d a) := by
  refine of_fields _ (put 0x97 24 + put d.toNat 16 + put a.toNat 8) rfl ?_ fun word hw => ?_
  · exact (layout10 0x97 d a (by decide) _ rfl).1
  · obtain ⟨-, h1, h2, e0, e1, e2⟩ := layout10 0x97 d a (by decide) word hw
    simp only [decodeFields, h1, decode9, h2]
    rw [e0, e1, e2]
    rfl

theorem vexpand (d a : VOp) : Statement (.vexpand d a) := by
  refine of_fields _ (put 0x98 24 + put d.toNat 16 + put a.toNat 8) rfl ?_ fun word hw => ?_
  · exact (layout10 0x98 d a (by decide) _ rfl).1
  · obtain ⟨-, h1, h2, e0, e1, e2⟩ := layout10 0x98 d a (by decide) word hw
    simp only [decodeFields, h1, decode9, h2]
    rw [e0, e1, e2]
    rfl

theorem vfchk (d a : BitVec 3) : Statement (.vfchk d a) := by
  refine of_fields _ (put 0x99 24 + put d.toNat 21 + put a.toNat 18) rfl ?_ fun word hw => ?_
  · exact (layout34 0x99 d a (by decide) _ rfl).1
  · obtain ⟨-, h1, h2, e0, e1, e2, e3⟩ := layout34 0x99 d a (by decide) word hw
    simp only [decodeFields, h1, decode9, h2, e3]
    rw [e0, e1, e2]
    rfl

theorem vfchkR (a : BitVec 3) : Statement (.vfchkR a) := by
  refine of_fields _ (put 0x99 24 + put a.toNat 18 + 1) rfl ?_ fun word hw => ?_
  · exact (layout35 0x99 a (by decide) _ rfl).1
  · obtain ⟨-, h1, h2, e0, e1, e2, e3⟩ := layout35 0x99 a (by decide) word hw
    simp only [decodeFields, h1, decode9, h2, e3]
    rw [e0, e1, e2]
    rfl

theorem vgrp (d a : VOp) (k : BitVec 3) : Statement (.vgrp d a k) := by
  refine of_fields _ (put 0x9A 24 + put d.toNat 16 + put a.toNat 8 + k.toNat) rfl ?_ fun word hw => ?_
  · exact (layout31 0x9A d a k (by decide) _ rfl).1
  · obtain ⟨-, h1, h2, e0, e1, e2, e3⟩ := layout31 0x9A d a k (by decide) word hw
    simp only [decodeFields, h1, decode9, h2]
    rw [e0, e1, e2, e3]
    rfl

theorem vld (d : VOp) (b : BitVec 4) : Statement (.vld d b) := by
  refine of_fields _ (put 0xA0 24 + put d.toNat 16 + put b.toNat 12) rfl ?_ fun word hw => ?_
  · exact (layout36 0xA0 d b (by decide) _ rfl).1
  · obtain ⟨-, h1, h2, e0, e1, e2⟩ := layout36 0xA0 d b (by decide) word hw
    simp only [decodeFields, h1, decodeA, h2]
    rw [e0, e1, e2]
    rfl

theorem vst (d : VOp) (b : BitVec 4) : Statement (.vst d b) := by
  refine of_fields _ (put 0xA1 24 + put d.toNat 16 + put b.toNat 12) rfl ?_ fun word hw => ?_
  · exact (layout36 0xA1 d b (by decide) _ rfl).1
  · obtain ⟨-, h1, h2, e0, e1, e2⟩ := layout36 0xA1 d b (by decide) word hw
    simp only [decodeFields, h1, decodeA, h2]
    rw [e0, e1, e2]
    rfl

theorem vlds (d : VOp) (b k : BitVec 4) : Statement (.vlds d b k) := by
  refine of_fields _ (put 0xA2 24 + put d.toNat 16 + put b.toNat 12 + k.toNat) rfl ?_ fun word hw => ?_
  · exact (layout37 0xA2 d b k (by decide) _ rfl).1
  · obtain ⟨-, h1, h2, e0, e1, e2, e3⟩ := layout37 0xA2 d b k (by decide) word hw
    simp only [decodeFields, h1, decodeA, h2]
    rw [e0, e1, e2, e3]
    rfl

theorem vsts (d : VOp) (b k : BitVec 4) : Statement (.vsts d b k) := by
  refine of_fields _ (put 0xA3 24 + put d.toNat 16 + put b.toNat 12 + k.toNat) rfl ?_ fun word hw => ?_
  · exact (layout37 0xA3 d b k (by decide) _ rfl).1
  · obtain ⟨-, h1, h2, e0, e1, e2, e3⟩ := layout37 0xA3 d b k (by decide) word hw
    simp only [decodeFields, h1, decodeA, h2]
    rw [e0, e1, e2, e3]
    rfl

theorem vldx (d : VOp) (b : BitVec 4) (i : VOp) (f : BitVec 4) : Statement (.vldx d b i f) := by
  refine of_fields _ (put 0xA4 24 + put d.toNat 16 + put b.toNat 12 + put i.toNat 4 + f.toNat) rfl ?_ fun word hw => ?_
  · exact (layout38 0xA4 d b i f (by decide) _ rfl).1
  · obtain ⟨-, h1, h2, e0, e1, e2, e3⟩ := layout38 0xA4 d b i f (by decide) word hw
    simp only [decodeFields, h1, decodeA, h2]
    rw [e0, e1, e2, e3]
    rfl

theorem vstx (d : VOp) (b : BitVec 4) (i : VOp) (f : BitVec 4) : Statement (.vstx d b i f) := by
  refine of_fields _ (put 0xA5 24 + put d.toNat 16 + put b.toNat 12 + put i.toNat 4 + f.toNat) rfl ?_ fun word hw => ?_
  · exact (layout38 0xA5 d b i f (by decide) _ rfl).1
  · obtain ⟨-, h1, h2, e0, e1, e2, e3⟩ := layout38 0xA5 d b i f (by decide) word hw
    simp only [decodeFields, h1, decodeA, h2]
    rw [e0, e1, e2, e3]
    rfl

theorem vldxo (d : VOp) (b : BitVec 4) (i : VOp) (f : BitVec 4) : Statement (.vldxo d b i f) := by
  refine of_fields _ (put 0xA6 24 + put d.toNat 16 + put b.toNat 12 + put i.toNat 4 + f.toNat) rfl ?_ fun word hw => ?_
  · exact (layout38 0xA6 d b i f (by decide) _ rfl).1
  · obtain ⟨-, h1, h2, e0, e1, e2, e3⟩ := layout38 0xA6 d b i f (by decide) word hw
    simp only [decodeFields, h1, decodeA, h2]
    rw [e0, e1, e2, e3]
    rfl

theorem vstxo (d : VOp) (b : BitVec 4) (i : VOp) (f : BitVec 4) : Statement (.vstxo d b i f) := by
  refine of_fields _ (put 0xA7 24 + put d.toNat 16 + put b.toNat 12 + put i.toNat 4 + f.toNat) rfl ?_ fun word hw => ?_
  · exact (layout38 0xA7 d b i f (by decide) _ rfl).1
  · obtain ⟨-, h1, h2, e0, e1, e2, e3⟩ := layout38 0xA7 d b i f (by decide) word hw
    simp only [decodeFields, h1, decodeA, h2]
    rw [e0, e1, e2, e3]
    rfl

theorem vldff (d : VOp) (b : BitVec 4) : Statement (.vldff d b) := by
  refine of_fields _ (put 0xA8 24 + put d.toNat 16 + put b.toNat 12) rfl ?_ fun word hw => ?_
  · exact (layout36 0xA8 d b (by decide) _ rfl).1
  · obtain ⟨-, h1, h2, e0, e1, e2⟩ := layout36 0xA8 d b (by decide) word hw
    simp only [decodeFields, h1, decodeA, h2]
    rw [e0, e1, e2]
    rfl

theorem vldsp (d : VOp) (b : BitVec 4) : Statement (.vldsp d b) := by
  refine of_fields _ (put 0xA9 24 + put d.toNat 16 + put b.toNat 12) rfl ?_ fun word hw => ?_
  · exact (layout36 0xA9 d b (by decide) _ rfl).1
  · obtain ⟨-, h1, h2, e0, e1, e2⟩ := layout36 0xA9 d b (by decide) word hw
    simp only [decodeFields, h1, decodeA, h2]
    rw [e0, e1, e2]
    rfl

theorem vldxff (d : VOp) (b : BitVec 4) (i : VOp) (f : BitVec 4) : Statement (.vldxff d b i f) := by
  refine of_fields _ (put 0xAA 24 + put d.toNat 16 + put b.toNat 12 + put i.toNat 4 + f.toNat) rfl ?_ fun word hw => ?_
  · exact (layout38 0xAA d b i f (by decide) _ rfl).1
  · obtain ⟨-, h1, h2, e0, e1, e2, e3⟩ := layout38 0xAA d b i f (by decide) word hw
    simp only [decodeFields, h1, decodeA, h2]
    rw [e0, e1, e2, e3]
    rfl

theorem vldxsp (d : VOp) (b : BitVec 4) (i : VOp) (f : BitVec 4) : Statement (.vldxsp d b i f) := by
  refine of_fields _ (put 0xAB 24 + put d.toNat 16 + put b.toNat 12 + put i.toNat 4 + f.toNat) rfl ?_ fun word hw => ?_
  · exact (layout38 0xAB d b i f (by decide) _ rfl).1
  · obtain ⟨-, h1, h2, e0, e1, e2, e3⟩ := layout38 0xAB d b i f (by decide) word hw
    simp only [decodeFields, h1, decodeA, h2]
    rw [e0, e1, e2, e3]
    rfl

theorem vamoadd (d : VOp) (b : BitVec 4) (i : VOp) (f : BitVec 4) : Statement (.vamoadd d b i f) := by
  refine of_fields _ (put 0xAC 24 + put d.toNat 16 + put b.toNat 12 + put i.toNat 4 + f.toNat) rfl ?_ fun word hw => ?_
  · exact (layout38 0xAC d b i f (by decide) _ rfl).1
  · obtain ⟨-, h1, h2, e0, e1, e2, e3⟩ := layout38 0xAC d b i f (by decide) word hw
    simp only [decodeFields, h1, decodeA, h2]
    rw [e0, e1, e2, e3]
    rfl

theorem vamomin (d : VOp) (b : BitVec 4) (i : VOp) (f : BitVec 4) : Statement (.vamomin d b i f) := by
  refine of_fields _ (put 0xAD 24 + put d.toNat 16 + put b.toNat 12 + put i.toNat 4 + f.toNat) rfl ?_ fun word hw => ?_
  · exact (layout38 0xAD d b i f (by decide) _ rfl).1
  · obtain ⟨-, h1, h2, e0, e1, e2, e3⟩ := layout38 0xAD d b i f (by decide) word hw
    simp only [decodeFields, h1, decodeA, h2]
    rw [e0, e1, e2, e3]
    rfl

theorem vamomax (d : VOp) (b : BitVec 4) (i : VOp) (f : BitVec 4) : Statement (.vamomax d b i f) := by
  refine of_fields _ (put 0xAE 24 + put d.toNat 16 + put b.toNat 12 + put i.toNat 4 + f.toNat) rfl ?_ fun word hw => ?_
  · exact (layout38 0xAE d b i f (by decide) _ rfl).1
  · obtain ⟨-, h1, h2, e0, e1, e2, e3⟩ := layout38 0xAE d b i f (by decide) word hw
    simp only [decodeFields, h1, decodeA, h2]
    rw [e0, e1, e2, e3]
    rfl

theorem vamoand (d : VOp) (b : BitVec 4) (i : VOp) (f : BitVec 4) : Statement (.vamoand d b i f) := by
  refine of_fields _ (put 0xAF 24 + put d.toNat 16 + put b.toNat 12 + put i.toNat 4 + f.toNat) rfl ?_ fun word hw => ?_
  · exact (layout38 0xAF d b i f (by decide) _ rfl).1
  · obtain ⟨-, h1, h2, e0, e1, e2, e3⟩ := layout38 0xAF d b i f (by decide) word hw
    simp only [decodeFields, h1, decodeA, h2]
    rw [e0, e1, e2, e3]
    rfl

theorem vamoor (d : VOp) (b : BitVec 4) (i : VOp) (f : BitVec 4) : Statement (.vamoor d b i f) := by
  refine of_fields _ (put 0xB0 24 + put d.toNat 16 + put b.toNat 12 + put i.toNat 4 + f.toNat) rfl ?_ fun word hw => ?_
  · exact (layout38 0xB0 d b i f (by decide) _ rfl).1
  · obtain ⟨-, h1, h2, e0, e1, e2, e3⟩ := layout38 0xB0 d b i f (by decide) word hw
    simp only [decodeFields, h1, decodeB, h2]
    rw [e0, e1, e2, e3]
    rfl

theorem vamoxor (d : VOp) (b : BitVec 4) (i : VOp) (f : BitVec 4) : Statement (.vamoxor d b i f) := by
  refine of_fields _ (put 0xB1 24 + put d.toNat 16 + put b.toNat 12 + put i.toNat 4 + f.toNat) rfl ?_ fun word hw => ?_
  · exact (layout38 0xB1 d b i f (by decide) _ rfl).1
  · obtain ⟨-, h1, h2, e0, e1, e2, e3⟩ := layout38 0xB1 d b i f (by decide) word hw
    simp only [decodeFields, h1, decodeB, h2]
    rw [e0, e1, e2, e3]
    rfl

theorem vamoswp (d : VOp) (b : BitVec 4) (i : VOp) (f : BitVec 4) : Statement (.vamoswp d b i f) := by
  refine of_fields _ (put 0xB2 24 + put d.toNat 16 + put b.toNat 12 + put i.toNat 4 + f.toNat) rfl ?_ fun word hw => ?_
  · exact (layout38 0xB2 d b i f (by decide) _ rfl).1
  · obtain ⟨-, h1, h2, e0, e1, e2, e3⟩ := layout38 0xB2 d b i f (by decide) word hw
    simp only [decodeFields, h1, decodeB, h2]
    rw [e0, e1, e2, e3]
    rfl

theorem vappend (d : VOp) (b : BitVec 4) (i : VOp) (l : Bool) (q : BitVec 2) : Statement (.vappend d b i l q) := by
  refine of_fields _ (put 0xB3 24 + put d.toNat 16 + put b.toNat 12 + put i.toNat 4 + put l.toNat 2 + q.toNat) rfl ?_ fun word hw => ?_
  · exact (layout39 0xB3 d b i l q (by decide) _ rfl).1
  · obtain ⟨-, h1, h2, e0, e1, e2, e3, e4, e5⟩ := layout39 0xB3 d b i l q (by decide) word hw
    simp only [decodeFields, h1, decodeB, h2]
    rw [e0, e1, e2, e3, e4, e5]
    rfl

theorem vldh (d : VOp) (h : BitVec 4) (p : VOp) : Statement (.vldh d h p) := by
  refine of_fields _ (put 0xB4 24 + put d.toNat 16 + put h.toNat 12 + put p.toNat 4) rfl ?_ fun word hw => ?_
  · exact (layout40 0xB4 d h p (by decide) _ rfl).1
  · obtain ⟨-, h1, h2, e0, e1, e2, e3⟩ := layout40 0xB4 d h p (by decide) word hw
    simp only [decodeFields, h1, decodeB, h2]
    rw [e0, e1, e2, e3]
    rfl

theorem vsth (d : VOp) (h : BitVec 4) (p : VOp) : Statement (.vsth d h p) := by
  refine of_fields _ (put 0xB5 24 + put d.toNat 16 + put h.toNat 12 + put p.toNat 4) rfl ?_ fun word hw => ?_
  · exact (layout40 0xB5 d h p (by decide) _ rfl).1
  · obtain ⟨-, h1, h2, e0, e1, e2, e3⟩ := layout40 0xB5 d h p (by decide) word hw
    simp only [decodeFields, h1, decodeB, h2]
    rw [e0, e1, e2, e3]
    rfl

theorem matt (a b : BitVec 4) : Statement (.matt a b) := by
  refine of_fields _ (put 0xC0 24 + put a.toNat 20 + put b.toNat 16) rfl ?_ fun word hw => ?_
  · exact (layout41 0xC0 a b (by decide) _ rfl).1
  · obtain ⟨-, h1, h2, e0, e1, e2⟩ := layout41 0xC0 a b (by decide) word hw
    simp only [decodeFields, h1, decodeC, h2]
    rw [e0, e1, e2]
    rfl

theorem mdet : Statement .mdet := by
  refine of_fields _ (put 0xC1 24) rfl ?_ fun word hw => ?_
  · exact (layout30 0xC1 (by decide) _ rfl).1
  · obtain ⟨-, h1, h2, e0⟩ := layout30 0xC1 (by decide) word hw
    simp only [decodeFields, h1, decodeC, h2]
    rw [e0]
    rfl

theorem mzero (a b : BitVec 4) : Statement (.mzero a b) := by
  refine of_fields _ (put 0xC2 24 + put a.toNat 20 + put b.toNat 16) rfl ?_ fun word hw => ?_
  · exact (layout41 0xC2 a b (by decide) _ rfl).1
  · obtain ⟨-, h1, h2, e0, e1, e2⟩ := layout41 0xC2 a b (by decide) word hw
    simp only [decodeFields, h1, decodeC, h2]
    rw [e0, e1, e2]
    rfl

theorem mma (a b c : BitVec 4) (z : Bool) (f : BitVec 3) : Statement (.mma a b c z f) := by
  refine of_fields _ (put 0xC3 24 + put a.toNat 20 + put b.toNat 16 + put c.toNat 12 + put z.toNat 6 + put f.toNat 3) rfl ?_ fun word hw => ?_
  · exact (layout42 0xC3 a b c z f (by decide) _ rfl).1
  · obtain ⟨-, h1, h2, e0, e1, e2, e3, e4, e5, e6⟩ := layout42 0xC3 a b c z f (by decide) word hw
    simp only [decodeFields, h1, decodeC, h2]
    rw [e0, e1, e2, e3, e4, e5, e6]
    rfl

theorem mmas (a b c : BitVec 4) (k : BitVec 3) (z : Bool) (f : BitVec 3) : Statement (.mmas a b c k z f) := by
  refine of_fields _ (put 0xC4 24 + put a.toNat 20 + put b.toNat 16 + put c.toNat 12 + put k.toNat 8 + put z.toNat 6 + put f.toNat 3) rfl ?_ fun word hw => ?_
  · exact (layout43 0xC4 a b c k z f (by decide) _ rfl).1
  · obtain ⟨-, h1, h2, e0, e1, e2, e3, e4, e5, e6, e7, e8⟩ := layout43 0xC4 a b c k z f (by decide) word hw
    simp only [decodeFields, h1, decodeC, h2]
    rw [e0, e1, e2, e3, e4, e5, e6, e7, e8]
    rfl

theorem mmag (a b c : BitVec 4) (v : BitVec 5) (z : Bool) (f : BitVec 3) : Statement (.mmag a b c v z f) := by
  refine of_fields _ (put 0xC5 24 + put a.toNat 20 + put b.toNat 16 + put c.toNat 12 + put v.toNat 7 + put z.toNat 6 + put f.toNat 3) rfl ?_ fun word hw => ?_
  · exact (layout44 0xC5 a b c v z f (by decide) _ rfl).1
  · obtain ⟨-, h1, h2, e0, e1, e2, e3, e4, e5, e6⟩ := layout44 0xC5 a b c v z f (by decide) word hw
    simp only [decodeFields, h1, decodeC, h2]
    rw [e0, e1, e2, e3, e4, e5, e6]
    rfl

theorem mdsc (a b c : BitVec 4) (v : BitVec 5) (f : BitVec 3) (t : Bool) (p : BitVec 2) : Statement (.mdsc a b c v f t p) := by
  refine of_fields _ (put 0xC6 24 + put a.toNat 20 + put b.toNat 16 + put c.toNat 12 + put v.toNat 7 + put f.toNat 3 + put t.toNat 2 + p.toNat) rfl ?_ fun word hw => ?_
  · exact (layout45 0xC6 a b c v f t p (by decide) _ rfl).1
  · obtain ⟨-, h1, h2, e0, e1, e2, e3, e4, e5, e6, e7⟩ := layout45 0xC6 a b c v f t p (by decide) word hw
    simp only [decodeFields, h1, decodeC, h2]
    rw [e0, e1, e2, e3, e4, e5, e6, e7]
    rfl

theorem ptrd (a : BitVec 4) (v : BitVec 5) (f p : BitVec 2) : Statement (.ptrd a v f p) := by
  refine of_fields _ (put 0xC7 24 + put a.toNat 20 + put v.toNat 7 + put f.toNat 2 + p.toNat) rfl ?_ fun word hw => ?_
  · exact (layout46 0xC7 a v f p (by decide) _ rfl).1
  · obtain ⟨-, h1, h2, e0, e1, e2, e3, e4, e5⟩ := layout46 0xC7 a v f p (by decide) word hw
    simp only [decodeFields, h1, decodeC, h2]
    rw [e0, e1, e2, e3, e4, e5]
    rfl

theorem mrd (a : BitVec 4) (v : BitVec 5) : Statement (.mrd a v) := by
  refine of_fields _ (put 0xC8 24 + put a.toNat 20 + put v.toNat 7) rfl ?_ fun word hw => ?_
  · exact (layout14 0xC8 a v (by decide) _ rfl).1
  · obtain ⟨-, h1, h2, e0, e1, e2, e3⟩ := layout14 0xC8 a v (by decide) word hw
    simp only [decodeFields, h1, decodeC, h2]
    rw [e0, e1, e2, e3]
    rfl

theorem mwr (a : BitVec 4) (v : BitVec 5) : Statement (.mwr a v) := by
  refine of_fields _ (put 0xC9 24 + put a.toNat 20 + put v.toNat 7) rfl ?_ fun word hw => ?_
  · exact (layout14 0xC9 a v (by decide) _ rfl).1
  · obtain ⟨-, h1, h2, e0, e1, e2, e3⟩ := layout14 0xC9 a v (by decide) word hw
    simp only [decodeFields, h1, decodeC, h2]
    rw [e0, e1, e2, e3]
    rfl

theorem mcvt (a b c : BitVec 4) (l : Bool) (f : BitVec 3) : Statement (.mcvt a b c l f) := by
  refine of_fields _ (put 0xCA 24 + put a.toNat 20 + put b.toNat 16 + put c.toNat 12 + put l.toNat 6 + put f.toNat 3) rfl ?_ fun word hw => ?_
  · exact (layout42 0xCA a b c l f (by decide) _ rfl).1
  · obtain ⟨-, h1, h2, e0, e1, e2, e3, e4, e5, e6⟩ := layout42 0xCA a b c l f (by decide) word hw
    simp only [decodeFields, h1, decodeC, h2]
    rw [e0, e1, e2, e3, e4, e5, e6]
    rfl

theorem hset (h b : BitVec 4) (w : BitVec 3) : Statement (.hset h b w) := by
  refine of_fields _ (put 0xD0 24 + put h.toNat 20 + put b.toNat 16 + w.toNat) rfl ?_ fun word hw => ?_
  · exact (layout47 0xD0 h b w (by decide) _ rfl).1
  · obtain ⟨-, h1, h2, e0, e1, e2, e3, e4⟩ := layout47 0xD0 h b w (by decide) word hw
    simp only [decodeFields, h1, decodeD, h2, e4]
    rw [e0, e1, e2, e3]
    rfl

theorem hsetZ (h : BitVec 4) : Statement (.hsetZ h) := by
  refine of_fields _ (put 0xD0 24 + put h.toNat 20 + put 1 3) rfl ?_ fun word hw => ?_
  · exact (layout48 0xD0 h (by decide) _ rfl).1
  · obtain ⟨-, h1, h2, e0, e1, e2, e3⟩ := layout48 0xD0 h (by decide) word hw
    simp only [decodeFields, h1, decodeD, h2, e3]
    rw [e0, e1, e2]
    rfl

theorem hld (h b : BitVec 4) : Statement (.hld h b) := by
  refine of_fields _ (put 0xD1 24 + put h.toNat 20 + put b.toNat 16) rfl ?_ fun word hw => ?_
  · exact (layout41 0xD1 h b (by decide) _ rfl).1
  · obtain ⟨-, h1, h2, e0, e1, e2⟩ := layout41 0xD1 h b (by decide) word hw
    simp only [decodeFields, h1, decodeD, h2]
    rw [e0, e1, e2]
    rfl

theorem hst (h b : BitVec 4) : Statement (.hst h b) := by
  refine of_fields _ (put 0xD2 24 + put h.toNat 20 + put b.toNat 16) rfl ?_ fun word hw => ?_
  · exact (layout41 0xD2 h b (by decide) _ rfl).1
  · obtain ⟨-, h1, h2, e0, e1, e2⟩ := layout41 0xD2 h b (by decide) word hw
    simp only [decodeFields, h1, decodeD, h2]
    rw [e0, e1, e2]
    rfl

theorem klq (h b c d : BitVec 4) (n : BitVec 6) : Statement (.klq h b c d n) := by
  refine of_fields _ (put 0xD3 24 + put h.toNat 20 + put b.toNat 16 + put c.toNat 12 + put d.toNat 8 + n.toNat) rfl ?_ fun word hw => ?_
  · exact (layout49 0xD3 h b c d n (by decide) _ rfl).1
  · obtain ⟨-, h1, h2, e0, e1, e2, e3, e4, e5⟩ := layout49 0xD3 h b c d n (by decide) word hw
    simp only [decodeFields, h1, decodeD, h2]
    rw [e0, e1, e2, e3, e4, e5]
    rfl

theorem klu (h b c d : BitVec 4) (n : BitVec 6) : Statement (.klu h b c d n) := by
  refine of_fields _ (put 0xD4 24 + put h.toNat 20 + put b.toNat 16 + put c.toNat 12 + put d.toNat 8 + n.toNat) rfl ?_ fun word hw => ?_
  · exact (layout49 0xD4 h b c d n (by decide) _ rfl).1
  · obtain ⟨-, h1, h2, e0, e1, e2, e3, e4, e5⟩ := layout49 0xD4 h b c d n (by decide) word hw
    simp only [decodeFields, h1, decodeD, h2]
    rw [e0, e1, e2, e3, e4, e5]
    rfl

theorem probe (a : BitVec 4) (k : BitVec 3) (c : BitVec 4) (v : BitVec 5) (z : BitVec 4) : Statement (.probe a k c v z) := by
  refine of_fields _ (put 0xD5 24 + put a.toNat 20 + put k.toNat 16 + put c.toNat 12 + put v.toNat 7 + z.toNat) rfl ?_ fun word hw => ?_
  · exact (layout50 0xD5 a k c v z (by decide) _ rfl).1
  · obtain ⟨-, h1, h2, e0, e1, e2, e3, e4, e5, e6⟩ := layout50 0xD5 a k c v z (by decide) word hw
    simp only [decodeFields, h1, decodeD, h2]
    rw [e0, e1, e2, e3, e4, e5, e6]
    rfl

theorem gix (a b c : BitVec 4) (v : BitVec 5) (z : BitVec 4) : Statement (.gix a b c v z) := by
  refine of_fields _ (put 0xD6 24 + put a.toNat 20 + put b.toNat 16 + put c.toNat 12 + put v.toNat 7 + z.toNat) rfl ?_ fun word hw => ?_
  · exact (layout51 0xD6 a b c v z (by decide) _ rfl).1
  · obtain ⟨-, h1, h2, e0, e1, e2, e3, e4, e5⟩ := layout51 0xD6 a b c v z (by decide) word hw
    simp only [decodeFields, h1, decodeD, h2]
    rw [e0, e1, e2, e3, e4, e5]
    rfl

theorem six (a b c : BitVec 4) (v : BitVec 5) (o : BitVec 2) (z : BitVec 4) : Statement (.six a b c v o z) := by
  refine of_fields _ (put 0xD7 24 + put a.toNat 20 + put b.toNat 16 + put c.toNat 12 + put v.toNat 7 + put o.toNat 4 + z.toNat) rfl ?_ fun word hw => ?_
  · exact (layout52 0xD7 a b c v o z (by decide) _ rfl).1
  · obtain ⟨-, h1, h2, e0, e1, e2, e3, e4, e5, e6⟩ := layout52 0xD7 a b c v o z (by decide) word hw
    simp only [decodeFields, h1, decodeD, h2]
    rw [e0, e1, e2, e3, e4, e5, e6]
    rfl

theorem cpy (a b c d : BitVec 4) (r : BitVec 2) (n : BitVec 6) : Statement (.cpy a b c d r n) := by
  refine of_fields _ (put 0xD8 24 + put a.toNat 20 + put b.toNat 16 + put c.toNat 12 + put d.toNat 8 + put r.toNat 6 + n.toNat) rfl ?_ fun word hw => ?_
  · exact (layout53 0xD8 a b c d r n (by decide) _ rfl).1
  · obtain ⟨-, h1, h2, e0, e1, e2, e3, e4, e5⟩ := layout53 0xD8 a b c d r n (by decide) word hw
    simp only [decodeFields, h1, decodeD, h2]
    rw [e0, e1, e2, e3, e4, e5]
    rfl

theorem cpyn (a b c d : BitVec 4) (r : BitVec 2) (n : BitVec 6) : Statement (.cpyn a b c d r n) := by
  refine of_fields _ (put 0xD9 24 + put a.toNat 20 + put b.toNat 16 + put c.toNat 12 + put d.toNat 8 + put r.toNat 6 + n.toNat) rfl ?_ fun word hw => ?_
  · exact (layout53 0xD9 a b c d r n (by decide) _ rfl).1
  · obtain ⟨-, h1, h2, e0, e1, e2, e3, e4, e5⟩ := layout53 0xD9 a b c d r n (by decide) word hw
    simp only [decodeFields, h1, decodeD, h2]
    rw [e0, e1, e2, e3, e4, e5]
    rfl

theorem lnset (a b c : BitVec 4) (l : BitVec 3) : Statement (.lnset a b c l) := by
  refine of_fields _ (put 0xDA 24 + put a.toNat 20 + put b.toNat 16 + put c.toNat 12 + l.toNat) rfl ?_ fun word hw => ?_
  · exact (layout54 0xDA a b c l (by decide) _ rfl).1
  · obtain ⟨-, h1, h2, e0, e1, e2, e3, e4, e5⟩ := layout54 0xDA a b c l (by decide) word hw
    simp only [decodeFields, h1, decodeD, h2, e5]
    rw [e0, e1, e2, e3, e4]
    rfl

theorem lnsetZ : Statement .lnsetZ := by
  refine of_fields _ (put 0xDA 24 + put 1 3) rfl ?_ fun word hw => ?_
  · exact (layout55 0xDA (by decide) _ rfl).1
  · obtain ⟨-, h1, h2, e0, e1, e2⟩ := layout55 0xDA (by decide) word hw
    simp only [decodeFields, h1, decodeD, h2, e2]
    rw [e0, e1]
    rfl

theorem amoAdd (d a b : BitVec 5) (o : BitVec 2) (w : Bool) (s : Scope) : Statement (.amoAdd d a b o w s) := by
  refine of_fields _ (put 0xE0 24 + put d.toNat 19 + put a.toNat 14 + put b.toNat 9 + put o.toNat 5 + put w.toNat 3 + s.code) rfl ?_ fun word hw => ?_
  · exact (layout56 0xE0 d a b o w s (by decide) _ rfl).1
  · obtain ⟨-, h1, h2, e0, e1, e2, e3, e4, e5, e6, e7⟩ := layout56 0xE0 d a b o w s (by decide) word hw
    simp only [decodeFields, h1, decodeE, h2]
    rw [e0, e1, e2, e3, e4, e5, e6, e7]
    rfl

theorem amoAnd (d a b : BitVec 5) (o : BitVec 2) (w : Bool) (s : Scope) : Statement (.amoAnd d a b o w s) := by
  refine of_fields _ (put 0xE1 24 + put d.toNat 19 + put a.toNat 14 + put b.toNat 9 + put o.toNat 5 + put w.toNat 3 + s.code) rfl ?_ fun word hw => ?_
  · exact (layout56 0xE1 d a b o w s (by decide) _ rfl).1
  · obtain ⟨-, h1, h2, e0, e1, e2, e3, e4, e5, e6, e7⟩ := layout56 0xE1 d a b o w s (by decide) word hw
    simp only [decodeFields, h1, decodeE, h2]
    rw [e0, e1, e2, e3, e4, e5, e6, e7]
    rfl

theorem amoOr (d a b : BitVec 5) (o : BitVec 2) (w : Bool) (s : Scope) : Statement (.amoOr d a b o w s) := by
  refine of_fields _ (put 0xE2 24 + put d.toNat 19 + put a.toNat 14 + put b.toNat 9 + put o.toNat 5 + put w.toNat 3 + s.code) rfl ?_ fun word hw => ?_
  · exact (layout56 0xE2 d a b o w s (by decide) _ rfl).1
  · obtain ⟨-, h1, h2, e0, e1, e2, e3, e4, e5, e6, e7⟩ := layout56 0xE2 d a b o w s (by decide) word hw
    simp only [decodeFields, h1, decodeE, h2]
    rw [e0, e1, e2, e3, e4, e5, e6, e7]
    rfl

theorem amoXor (d a b : BitVec 5) (o : BitVec 2) (w : Bool) (s : Scope) : Statement (.amoXor d a b o w s) := by
  refine of_fields _ (put 0xE3 24 + put d.toNat 19 + put a.toNat 14 + put b.toNat 9 + put o.toNat 5 + put w.toNat 3 + s.code) rfl ?_ fun word hw => ?_
  · exact (layout56 0xE3 d a b o w s (by decide) _ rfl).1
  · obtain ⟨-, h1, h2, e0, e1, e2, e3, e4, e5, e6, e7⟩ := layout56 0xE3 d a b o w s (by decide) word hw
    simp only [decodeFields, h1, decodeE, h2]
    rw [e0, e1, e2, e3, e4, e5, e6, e7]
    rfl

theorem amoMin (d a b : BitVec 5) (o : BitVec 2) (w : Bool) (s : Scope) : Statement (.amoMin d a b o w s) := by
  refine of_fields _ (put 0xE4 24 + put d.toNat 19 + put a.toNat 14 + put b.toNat 9 + put o.toNat 5 + put w.toNat 3 + s.code) rfl ?_ fun word hw => ?_
  · exact (layout57 0xE4 d a b o w s (by decide) _ rfl).1
  · obtain ⟨-, h1, h2, e0, e1, e2, e3, e4, e5, e6, e7⟩ := layout57 0xE4 d a b o w s (by decide) word hw
    simp only [decodeFields, h1, decodeE, h2, e7]
    rw [e0, e1, e2, e3, e4, e5, e6]
    rfl

theorem amoMinu (d a b : BitVec 5) (o : BitVec 2) (w : Bool) (s : Scope) : Statement (.amoMinu d a b o w s) := by
  refine of_fields _ (put 0xE4 24 + put d.toNat 19 + put a.toNat 14 + put b.toNat 9 + put o.toNat 5 + put w.toNat 3 + s.code + put 1 4) rfl ?_ fun word hw => ?_
  · exact (layout58 0xE4 d a b o w s (by decide) _ rfl).1
  · obtain ⟨-, h1, h2, e0, e1, e2, e3, e4, e5, e6, e7⟩ := layout58 0xE4 d a b o w s (by decide) word hw
    simp only [decodeFields, h1, decodeE, h2, e7]
    rw [e0, e1, e2, e3, e4, e5, e6]
    rfl

theorem amoMax (d a b : BitVec 5) (o : BitVec 2) (w : Bool) (s : Scope) : Statement (.amoMax d a b o w s) := by
  refine of_fields _ (put 0xE5 24 + put d.toNat 19 + put a.toNat 14 + put b.toNat 9 + put o.toNat 5 + put w.toNat 3 + s.code) rfl ?_ fun word hw => ?_
  · exact (layout57 0xE5 d a b o w s (by decide) _ rfl).1
  · obtain ⟨-, h1, h2, e0, e1, e2, e3, e4, e5, e6, e7⟩ := layout57 0xE5 d a b o w s (by decide) word hw
    simp only [decodeFields, h1, decodeE, h2, e7]
    rw [e0, e1, e2, e3, e4, e5, e6]
    rfl

theorem amoMaxu (d a b : BitVec 5) (o : BitVec 2) (w : Bool) (s : Scope) : Statement (.amoMaxu d a b o w s) := by
  refine of_fields _ (put 0xE5 24 + put d.toNat 19 + put a.toNat 14 + put b.toNat 9 + put o.toNat 5 + put w.toNat 3 + s.code + put 1 4) rfl ?_ fun word hw => ?_
  · exact (layout58 0xE5 d a b o w s (by decide) _ rfl).1
  · obtain ⟨-, h1, h2, e0, e1, e2, e3, e4, e5, e6, e7⟩ := layout58 0xE5 d a b o w s (by decide) word hw
    simp only [decodeFields, h1, decodeE, h2, e7]
    rw [e0, e1, e2, e3, e4, e5, e6]
    rfl

theorem amoSwp (d a b : BitVec 5) (o : BitVec 2) (w : Bool) (s : Scope) : Statement (.amoSwp d a b o w s) := by
  refine of_fields _ (put 0xE6 24 + put d.toNat 19 + put a.toNat 14 + put b.toNat 9 + put o.toNat 5 + put w.toNat 3 + s.code) rfl ?_ fun word hw => ?_
  · exact (layout56 0xE6 d a b o w s (by decide) _ rfl).1
  · obtain ⟨-, h1, h2, e0, e1, e2, e3, e4, e5, e6, e7⟩ := layout56 0xE6 d a b o w s (by decide) word hw
    simp only [decodeFields, h1, decodeE, h2]
    rw [e0, e1, e2, e3, e4, e5, e6, e7]
    rfl

theorem amoCas (d a b : BitVec 5) (o : BitVec 2) (w : Bool) (s : Scope) : Statement (.amoCas d a b o w s) := by
  refine of_fields _ (put 0xE7 24 + put d.toNat 19 + put a.toNat 14 + put b.toNat 9 + put o.toNat 5 + put w.toNat 3 + s.code) rfl ?_ fun word hw => ?_
  · exact (layout56 0xE7 d a b o w s (by decide) _ rfl).1
  · obtain ⟨-, h1, h2, e0, e1, e2, e3, e4, e5, e6, e7⟩ := layout56 0xE7 d a b o w s (by decide) word hw
    simp only [decodeFields, h1, decodeE, h2]
    rw [e0, e1, e2, e3, e4, e5, e6, e7]
    rfl

theorem ldacq (d a : BitVec 5) (x : Bool) (z : BitVec 2) (s : Scope) : Statement (.ldacq d a x z s) := by
  refine of_fields _ (put 0xE8 24 + put d.toNat 19 + put a.toNat 14 + put x.toNat 5 + put z.toNat 3 + s.code) rfl ?_ fun word hw => ?_
  · exact (layout59 0xE8 d a x z s (by decide) _ rfl).1
  · obtain ⟨-, h1, h2, e0, e1, e2, e3, e4, e5⟩ := layout59 0xE8 d a x z s (by decide) word hw
    simp only [decodeFields, h1, decodeE, h2]
    rw [e0, e1, e2, e3, e4, e5]
    rfl

theorem strel (a b : BitVec 5) (z : BitVec 2) (s : Scope) : Statement (.strel a b z s) := by
  refine of_fields _ (put 0xE9 24 + put a.toNat 14 + put b.toNat 9 + put z.toNat 3 + s.code) rfl ?_ fun word hw => ?_
  · exact (layout60 0xE9 a b z s (by decide) _ rfl).1
  · obtain ⟨-, h1, h2, e0, e1, e2, e3, e4, e5⟩ := layout60 0xE9 a b z s (by decide) word hw
    simp only [decodeFields, h1, decodeE, h2]
    rw [e0, e1, e2, e3, e4, e5]
    rfl

theorem fence (s : Scope) : Statement (.fence s) := by
  refine of_fields _ (put 0xEA 24 + s.code) rfl ?_ fun word hw => ?_
  · exact (layout61 0xEA s (by decide) _ rfl).1
  · obtain ⟨-, h1, h2, e0, e1, e2⟩ := layout61 0xEA s (by decide) word hw
    simp only [decodeFields, h1, decodeE, h2, e2]
    rw [e0, e1]
    rfl

theorem fenceRl (s : Scope) : Statement (.fenceRl s) := by
  refine of_fields _ (put 0xEA 24 + s.code + put 1 3) rfl ?_ fun word hw => ?_
  · exact (layout62 0xEA s (by decide) _ rfl).1
  · obtain ⟨-, h1, h2, e0, e1, e2⟩ := layout62 0xEA s (by decide) word hw
    simp only [decodeFields, h1, decodeE, h2, e2]
    rw [e0, e1]
    rfl

theorem fenceAq (s : Scope) : Statement (.fenceAq s) := by
  refine of_fields _ (put 0xEA 24 + s.code + put 2 3) rfl ?_ fun word hw => ?_
  · exact (layout63 0xEA s (by decide) _ rfl).1
  · obtain ⟨-, h1, h2, e0, e1, e2⟩ := layout63 0xEA s (by decide) word hw
    simp only [decodeFields, h1, decodeE, h2, e2]
    rw [e0, e1]
    rfl

theorem waitge (a b : BitVec 5) (s : Scope) : Statement (.waitge a b s) := by
  refine of_fields _ (put 0xEB 24 + put a.toNat 14 + put b.toNat 9 + s.code) rfl ?_ fun word hw => ?_
  · exact (layout64 0xEB a b s (by decide) _ rfl).1
  · obtain ⟨-, h1, h2, e0, e1, e2, e3, e4⟩ := layout64 0xEB a b s (by decide) word hw
    simp only [decodeFields, h1, decodeE, h2]
    rw [e0, e1, e2, e3, e4]
    rfl

theorem waitne (a b : BitVec 5) (s : Scope) : Statement (.waitne a b s) := by
  refine of_fields _ (put 0xEC 24 + put a.toNat 14 + put b.toNat 9 + s.code) rfl ?_ fun word hw => ?_
  · exact (layout64 0xEC a b s (by decide) _ rfl).1
  · obtain ⟨-, h1, h2, e0, e1, e2, e3, e4⟩ := layout64 0xEC a b s (by decide) word hw
    simp only [decodeFields, h1, decodeE, h2]
    rw [e0, e1, e2, e3, e4]
    rfl

theorem expect (a b : BitVec 5) (s : Scope) : Statement (.expect a b s) := by
  refine of_fields _ (put 0xED 24 + put a.toNat 14 + put b.toNat 9 + s.code) rfl ?_ fun word hw => ?_
  · exact (layout64 0xED a b s (by decide) _ rfl).1
  · obtain ⟨-, h1, h2, e0, e1, e2, e3, e4⟩ := layout64 0xED a b s (by decide) word hw
    simp only [decodeFields, h1, decodeE, h2]
    rw [e0, e1, e2, e3, e4]
    rfl

theorem arrive (d a b : BitVec 5) (s : Scope) : Statement (.arrive d a b s) := by
  refine of_fields _ (put 0xEE 24 + put d.toNat 19 + put a.toNat 14 + put b.toNat 9 + s.code) rfl ?_ fun word hw => ?_
  · exact (layout65 0xEE d a b s (by decide) _ rfl).1
  · obtain ⟨-, h1, h2, e0, e1, e2, e3, e4⟩ := layout65 0xEE d a b s (by decide) word hw
    simp only [decodeFields, h1, decodeE, h2]
    rw [e0, e1, e2, e3, e4]
    rfl

theorem bwait (a b : BitVec 5) (s : Scope) : Statement (.bwait a b s) := by
  refine of_fields _ (put 0xEF 24 + put a.toNat 14 + put b.toNat 9 + s.code) rfl ?_ fun word hw => ?_
  · exact (layout64 0xEF a b s (by decide) _ rfl).1
  · obtain ⟨-, h1, h2, e0, e1, e2, e3, e4⟩ := layout64 0xEF a b s (by decide) word hw
    simp only [decodeFields, h1, decodeE, h2]
    rw [e0, e1, e2, e3, e4]
    rfl

theorem srr (d t : BitVec 5) (n : BitVec 9) : Statement (.srr d t n) := by
  refine of_fields _ (put 0xF0 24 + put d.toNat 19 + put t.toNat 14 + n.toNat) rfl ?_ fun word hw => ?_
  · exact (layout66 0xF0 d t n (by decide) _ rfl).1
  · obtain ⟨-, h1, h2, e0, e1, e2, e3⟩ := layout66 0xF0 d t n (by decide) word hw
    simp only [decodeFields, h1, decodeF, h2]
    rw [e0, e1, e2, e3]
    rfl

theorem srw (t v : BitVec 5) (n : BitVec 9) : Statement (.srw t v n) := by
  refine of_fields _ (put 0xF1 24 + put t.toNat 14 + put v.toNat 9 + n.toNat) rfl ?_ fun word hw => ?_
  · exact (layout67 0xF1 t v n (by decide) _ rfl).1
  · obtain ⟨-, h1, h2, e0, e1, e2, e3⟩ := layout67 0xF1 t v n (by decide) word hw
    simp only [decodeFields, h1, decodeF, h2]
    rw [e0, e1, e2, e3]
    rfl

theorem ecall : Statement .ecall := by
  refine of_fields _ (put 0xF2 24) rfl ?_ fun word hw => ?_
  · exact (layout30 0xF2 (by decide) _ rfl).1
  · obtain ⟨-, h1, h2, e0⟩ := layout30 0xF2 (by decide) word hw
    simp only [decodeFields, h1, decodeF, h2]
    rw [e0]
    rfl

theorem eret : Statement .eret := by
  refine of_fields _ (put 0xF3 24) rfl ?_ fun word hw => ?_
  · exact (layout30 0xF3 (by decide) _ rfl).1
  · obtain ⟨-, h1, h2, e0⟩ := layout30 0xF3 (by decide) word hw
    simp only [decodeFields, h1, decodeF, h2]
    rw [e0]
    rfl

theorem exit : Statement .exit := by
  refine of_fields _ (put 0xF4 24) rfl ?_ fun word hw => ?_
  · exact (layout30 0xF4 (by decide) _ rfl).1
  · obtain ⟨-, h1, h2, e0⟩ := layout30 0xF4 (by decide) word hw
    simp only [decodeFields, h1, decodeF, h2]
    rw [e0]
    rfl

theorem yield (a : BitVec 5) : Statement (.yield a) := by
  refine of_fields _ (put 0xF5 24 + put a.toNat 14) rfl ?_ fun word hw => ?_
  · exact (layout68 0xF5 a (by decide) _ rfl).1
  · obtain ⟨-, h1, h2, e0, e1, e2⟩ := layout68 0xF5 a (by decide) word hw
    simp only [decodeFields, h1, decodeF, h2]
    rw [e0, e1, e2]
    rfl

theorem launch (a : BitVec 5) : Statement (.launch a) := by
  refine of_fields _ (put 0xF6 24 + put a.toNat 14) rfl ?_ fun word hw => ?_
  · exact (layout68 0xF6 a (by decide) _ rfl).1
  · obtain ⟨-, h1, h2, e0, e1, e2⟩ := layout68 0xF6 a (by decide) word hw
    simp only [decodeFields, h1, decodeF, h2]
    rw [e0, e1, e2]
    rfl

theorem tinv (a b : BitVec 5) (e : BitVec 2) : Statement (.tinv a b e) := by
  refine of_fields _ (put 0xF7 24 + put a.toNat 14 + put b.toNat 9 + e.toNat) rfl ?_ fun word hw => ?_
  · exact (layout69 0xF7 a b e (by decide) _ rfl).1
  · obtain ⟨-, h1, h2, e0, e1, e2, e3, e4⟩ := layout69 0xF7 a b e (by decide) word hw
    simp only [decodeFields, h1, decodeF, h2]
    rw [e0, e1, e2, e3, e4]
    rfl

theorem fqpop (d a : BitVec 5) : Statement (.fqpop d a) := by
  refine of_fields _ (put 0xF8 24 + put d.toNat 19 + put a.toNat 14) rfl ?_ fun word hw => ?_
  · exact (layout70 0xF8 d a (by decide) _ rfl).1
  · obtain ⟨-, h1, h2, e0, e1, e2⟩ := layout70 0xF8 d a (by decide) word hw
    simp only [decodeFields, h1, decodeF, h2]
    rw [e0, e1, e2]
    rfl

theorem fqreplay (d a b : BitVec 5) : Statement (.fqreplay d a b) := by
  refine of_fields _ (put 0xF9 24 + put d.toNat 19 + put a.toNat 14 + put b.toNat 9) rfl ?_ fun word hw => ?_
  · exact (layout71 0xF9 d a b (by decide) _ rfl).1
  · obtain ⟨-, h1, h2, e0, e1, e2, e3⟩ := layout71 0xF9 d a b (by decide) word hw
    simp only [decodeFields, h1, decodeF, h2]
    rw [e0, e1, e2, e3]
    rfl

theorem brk : Statement .brk := by
  refine of_fields _ (put 0xFA 24) rfl ?_ fun word hw => ?_
  · exact (layout30 0xFA (by decide) _ rfl).1
  · obtain ⟨-, h1, h2, e0⟩ := layout30 0xFA (by decide) word hw
    simp only [decodeFields, h1, decodeF, h2]
    rw [e0]
    rfl

theorem blockStart (h : Nat) : Statement (.blockStart h) := of_none _ rfl
theorem loopEndCheck (h : Nat) : Statement (.loopEndCheck h) := of_none _ rfl
theorem faultRecordWrite : Statement (.faultRecordWrite) := of_none _ rfl
theorem fqringWrite (v : W64) : Statement (.fqringWrite v) := of_none _ rfl
theorem copyRun (h seq : Nat) : Statement (.copyRun h seq) := of_none _ rfl
theorem ritStallEnd (core : Nat) : Statement (.ritStallEnd core) := of_none _ rfl
theorem completionAdd (h seq : Nat) : Statement (.completionAdd h seq) := of_none _ rfl
theorem matrixTile (h seq : Nat) : Statement (.matrixTile h seq) := of_none _ rfl
theorem descentExecute (h seq : Nat) : Statement (.descentExecute h seq) := of_none _ rfl
theorem lookupProbe (h seq : Nat) : Statement (.lookupProbe h seq) := of_none _ rfl
theorem lookupExecute (h seq : Nat) : Statement (.lookupExecute h seq) := of_none _ rfl
theorem indexProbePass (h seq : Nat) : Statement (.indexProbePass h seq) := of_none _ rfl
theorem indexMove (h seq : Nat) : Statement (.indexMove h seq) := of_none _ rfl
theorem l1WritebackHorizon (core line : Nat) : Statement (.l1WritebackHorizon core line) := of_none _ rfl
theorem l1InvalidateHorizon (core line : Nat) : Statement (.l1InvalidateHorizon core line) := of_none _ rfl
theorem waitRetest (p : Party) : Statement (.waitRetest p) := of_none _ rfl
theorem laneGroupReturn (h : Nat) : Statement (.laneGroupReturn h) := of_none _ rfl
theorem takeRecord : Statement (.takeRecord) := of_none _ rfl
theorem schedulerPass : Statement (.schedulerPass) := of_none _ rfl
theorem teamAgeing (team : Nat) : Statement (.teamAgeing team) := of_none _ rfl
theorem preemptStop (team : Nat) : Statement (.preemptStop team) := of_none _ rfl
theorem teamSave (team : Nat) : Statement (.teamSave team) := of_none _ rfl
theorem teamRetire (team : Nat) : Statement (.teamRetire team) := of_none _ rfl
theorem hctlPreempt (g : Nat) : Statement (.hctlPreempt g) := of_none _ rfl
theorem hctlTerminate (g : Nat) : Statement (.hctlTerminate g) := of_none _ rfl
theorem rfdataAccess (g : Nat) (w : Option W64) : Statement (.rfdataAccess g w) := of_none _ rfl
theorem rngseedWrite (h : Nat) (v : W64) : Statement (.rngseedWrite h v) := of_none _ rfl
theorem qtailWrite (q : Nat) (v : W64) : Statement (.qtailWrite q v) := of_none _ rfl
theorem olinkRead : Statement (.olinkRead) := of_none _ rfl
theorem hostLinkDown : Statement (.hostLinkDown) := of_none _ rfl
theorem hostLinkUp : Statement (.hostLinkUp) := of_none _ rfl
theorem hostAccessTimeout (p : Party) : Statement (.hostAccessTimeout p) := of_none _ rfl
theorem cxlExpanderLeave (e : Nat) : Statement (.cxlExpanderLeave e) := of_none _ rfl
theorem fabricSendTake (ch : Nat) : Statement (.fabricSendTake ch) := of_none _ rfl
theorem fabricCellArrive (c : Cell) : Statement (.fabricCellArrive c) := of_none _ rfl
theorem fabricAck (ch msg : Nat) : Statement (.fabricAck ch msg) := of_none _ rfl
theorem fabricPermitGrant (ch : Nat) (fromPeer : Option Nat) : Statement (.fabricPermitGrant ch fromPeer) := of_none _ rfl
theorem fabricResetNotice (peer : Nat) : Statement (.fabricResetNotice peer) := of_none _ rfl
theorem imgaddrWrite (v : W64) : Statement (.imgaddrWrite v) := of_none _ rfl
theorem imageLoadDone : Statement (.imageLoadDone) := of_none _ rfl
theorem nativeTranslationDone (id : Nat) : Statement (.nativeTranslationDone id) := of_none _ rfl
theorem imgdropWrite (v : W64) : Statement (.imgdropWrite v) := of_none _ rfl
theorem haltreq (g : Nat) : Statement (.haltreq g) := of_none _ rfl
theorem resumereq (g : Nat) : Statement (.resumereq g) := of_none _ rfl
theorem holdRelease : Statement (.holdRelease) := of_none _ rfl
theorem breakpointHalt (p : Party) : Statement (.breakpointHalt p) := of_none _ rfl
theorem accessRegister (cmd : BitVec 32) : Statement (.accessRegister cmd) := of_none _ rfl
theorem accessMemory (cmd : BitVec 32) : Statement (.accessMemory cmd) := of_none _ rfl
theorem dbgstatWrite (v : W64) : Statement (.dbgstatWrite v) := of_none _ rfl
theorem milestoneTick : Statement (.milestoneTick) := of_none _ rfl
theorem msptrRead : Statement (.msptrRead) := of_none _ rfl
theorem pstateWrite (v : W64) : Statement (.pstateWrite v) := of_none _ rfl
theorem deviceStart (r : StartRun) : Statement (.deviceStart r) := of_none _ rfl
theorem recoveryImageFetch (a : W64) (r : StartRun) : Statement (.recoveryImageFetch a r) := of_none _ rfl
theorem thermalTrip : Statement (.thermalTrip) := of_none _ rfl
theorem attestationRequest (a : W64) : Statement (.attestationRequest a) := of_none _ rfl
theorem attestationDone : Statement (.attestationDone) := of_none _ rfl
theorem registerWrite (t n : Nat) (v : W64) : Statement (.registerWrite t n v) := of_none _ rfl
theorem yieldWaitEnd (p : Party) : Statement (.yieldWaitEnd p) := of_none _ rfl
theorem hostWrite (pa : Nat) (bytes : List Byte) : Statement (.hostWrite pa bytes) := of_none _ rfl
theorem portReset : Statement (.portReset) := of_none _ rfl
end Sys2Proof.Laws.RoundTrip
end

