-- ==== Sys2Proof/Laws/Scalar.lean ====
section
/-! SUPPORT. What the loads, stores, atomics and ordered accesses of the control stream do. -/

namespace Sys2Proof.Machine

/-! ### Results on states that differ in memory and caches alone -/

theorem State.nextPc_withL1 (s : State) (l : Tab (Option L1Byte)) : (s.withL1 l).nextPc = s.nextPc := by
  obtain ⟨cur⟩ := s; cases cur <;> rfl
theorem State.nextPc_withCaches (s t : State) : (s.withCaches t).nextPc = s.nextPc := by
  obtain ⟨cur⟩ := s; cases cur <;> rfl
theorem State.nextPc_withSpad (s : State) (g : Nat) (m : Tab Byte) : (s.withSpad g m).nextPc = s.nextPc := by
  have hj : ∀ h, ((s.withSpad g m).team (teamOf h)).jpf = (s.team (teamOf h)).jpf := by
    intro h
    rw [State.withSpad, State.team_setTeam]
    split
    · rename_i e; rw [e]
    · rfl
  unfold State.nextPc
  cases e : s.cur with
  | ctrl h =>
    simp only [show (s.withSpad g m).cur = .ctrl h from e, State.wordBytes, hj]; rfl
  | vec h =>
    simp only [show (s.withSpad g m).cur = .vec h from e, State.wordBytes, hj]; rfl
  | verge n =>
    simp only [show (s.withSpad g m).cur = .verge n from e]; rfl

theorem State.isControl_withL1 (s : State) (l : Tab (Option L1Byte)) : (s.withL1 l).isControl = s.isControl := rfl

/-- A load's end: the register result on the state with other L1 bytes. -/
theorem State.loadResult_of (s : State) (n : Nat) (p : Place) (d : BitVec 5) (v : W64) (l : Tab (Option L1Byte)) (hc : s.isControl = true)
    (hs : s.FillsLine (s.coreOf s.cur) n p l) : s.LoadResult n p d v ((s.withL1 l).putX d v).advance :=
  ⟨l, hs, by rw [← State.nextPc_withL1 s l]; exact State.controlResult_putX (s.withL1 l) d v hc⟩

/-- WHAT A LOAD DOES (R64). -/
theorem scalarLoad_result (n : Nat) (signed : Bool) (d a : BitVec 5) (i : BitVec 14) (s : State) (p : Place) (hc : s.isControl = true)
    (hp : s.resolve s.cur (s.eaOf a i) n .load = .ok p) (hr : s.loadReady n p) :
    ∃ t, scalarLoad n signed d a i s = .next t ∧ s.LoadResult n p d (extendBytes signed n (s.loadValue false n p)) t := by
  obtain ⟨l, h1, h2⟩ := readPlace_load s (s.eaOf a i) p n .load (.inl rfl) hr
  refine ⟨_, controlOp_ok hc ?_, State.loadResult_of s n p d _ l hc h2⟩
  show (do let q ← resolveM (s.eaOf a i) n .load
           let bs ← readPlace (s.eaOf a i) q n false .load
           modify fun s => s.putX d (extendBytes signed n (leNat bs)) : M Unit) s = _
  rw [M.bind_ok (resolveM_ok hp), M.bind_ok h1]
  rfl

/-- A load or store whose checks fail traps (R58). -/
theorem scalarLoad_trap (n : Nat) (signed : Bool) (d a : BitVec 5) (i : BitVec 14) (s : State) (t : Trap) (hc : s.isControl = true)
    (hp : s.resolve s.cur (s.eaOf a i) n .load = .error t) : scalarLoad n signed d a i s = .next (s.takeTrap t) := by
  refine controlOp_trap hc ?_
  show (do let q ← resolveM (s.eaOf a i) n .load
           let bs ← readPlace (s.eaOf a i) q n false .load
           modify fun s => s.putX d (extendBytes signed n (leNat bs)) : M Unit) s = _
  rw [M.bind_error (resolveM_error hp)]

theorem scalarStore_trap (n : Nat) (x a : BitVec 5) (i : BitVec 14) (s : State) (t : Trap) (hc : s.isControl = true)
    (hp : s.resolve s.cur (s.eaOf a i) n .store = .error t) : scalarStore n x a i s = .next (s.takeTrap t) := by
  refine controlOp_trap hc ?_
  show (do let p ← resolveM (s.eaOf a i) n .store
           writePlace p (leBytes n (s.getX x).toNat) false : M Unit) s = _
  rw [M.bind_error (resolveM_error hp)]

/-! ### Writing at a place -/

theorem get_putBytes (m : Tab Byte) (k : Nat) (bs : List Byte) (q : Nat) :
    Tab.get 0 (putBytes m k bs) q = if k ≤ q ∧ q < k + bs.length then bs.getD (q - k) 0 else Tab.get 0 m q := by
  induction bs generalizing m k with
  | nil => rw [if_neg (by simp)]; rfl
  | cons b t ih =>
    rw [putBytes, ih, List.length_cons]
    by_cases h : q = k
    · subst h; rw [if_neg (by omega), if_pos (by omega), Tab.get_put, if_pos rfl, Nat.sub_self]; rfl
    · rw [Tab.get_put, if_neg h]
      by_cases h2 : k + 1 ≤ q ∧ q < k + 1 + t.length
      · rw [if_pos h2, if_pos (by omega), show q - k = (q - (k + 1)) + 1 by omega, List.getD_cons_succ]
      · rw [if_neg h2, if_neg (by omega)]

/-- The bytes of a value written into a scratchpad. -/
theorem State.spadWrite_value (s : State) (team off n v : Nat) :
    ∃ m, s.spadWrite team off (leBytes n v) = s.withSpad team m
      ∧ ∀ o, Tab.get 0 m o = if off ≤ o ∧ o < off + n then byteOf v (o - off) else s.spadByte team o := by
  refine ⟨putBytes (s.team team).spad off (leBytes n v), rfl, fun o => ?_⟩
  rw [get_putBytes, leBytes_length]
  split
  · rename_i h
    exact getD_leBytes n v _ (by omega)
  · rfl

theorem State.spadByte_withSpad (s : State) (team : Nat) (m : Tab Byte) (g o : Nat) :
    (s.withSpad team m).spadByte g o = if g = team then Tab.get 0 m o else s.spadByte g o := by
  rw [State.spadByte, State.withSpad, State.team_setTeam]
  split <;> rfl

/-- A value stored into the L1: its bytes are seen and owned by that core; no other byte changes. -/
theorem State.l1Write_value (s : State) (core pa n v : Nat) (hp : pa + n ≤ 2 ^ 52) :
    (∃ l, s.l1Write core pa (leBytes n v) = s.withL1 l) ∧
    (∀ c q, q < 2 ^ 52 →
      if c = core ∧ pa ≤ q ∧ q < pa + n then ∃ k, (s.l1Write core pa (leBytes n v)).l1Byte c q = some ⟨byteOf v (q - pa), true, k⟩
      else (s.l1Write core pa (leBytes n v)).l1Byte c q = s.l1Byte c q) := by
  refine ⟨⟨_, State.l1Write_eq s core pa _⟩, fun c q hq => ?_⟩
  have h := State.l1Byte_l1Write s core pa (leBytes n v) c q (by rw [leBytes_length]; exact hp) hq
  rw [leBytes_length] at h
  split
  · rename_i hc
    rw [if_pos hc] at h
    obtain ⟨k, hk⟩ := h
    exact ⟨k, by rw [hk, getD_leBytes n v _ (by omega)]⟩
  · rename_i hc
    rw [if_neg hc] at h
    exact h

theorem State.bytes_of_l1Byte (s t : State) (c q : Nat) (hm : t.mem = s.mem) (h : t.l1Byte c q = s.l1Byte c q) :
    t.seenByte c q = s.seenByte c q ∧ t.ownByte c q = s.ownByte c q := by
  unfold State.seenByte State.ownByte
  rw [h, State.homeByte, State.homeByte, hm]
  exact ⟨rfl, rfl⟩

/-- WHAT A STORE DOES at a place (R64, R186). -/
theorem writePlace_store (s : State) (p : Place) (n v : Nat) (h : s.storeReady n p) :
    ∃ u, writePlace p (leBytes n v) false s = .ok () u ∧ s.Stores p n v u := by
  cases p with
  | view pa => exact h.elim
  | spad team off =>
    refine ⟨s.spadWrite team off (leBytes n v), ?_, ?_⟩
    · show (do holdWindow off (leBytes n v).length true; modify fun s => s.spadWrite team off (leBytes n v) : M Unit) s = _
      rw [leBytes_length, M.bind_ok (holdWindow_ok h)]
      rfl
    · obtain ⟨m, hm, hb⟩ := State.spadWrite_value s team off n v
      refine ⟨⟨m, hm⟩, fun g o => ?_⟩
      rw [hm, State.spadByte_withSpad]
      split
      · rename_i hg; subst hg; rw [hb]; simp
      · rename_i hg; rw [if_neg (fun x => hg x.1)]
  | mem pa =>
    obtain ⟨⟨l, hl⟩, hb⟩ := State.l1Write_value s (s.coreOf s.cur) pa n v h
    refine ⟨s.l1Write (s.coreOf s.cur) pa (leBytes n v), rfl, ⟨l, hl⟩, fun c q hq => ?_⟩
    have hm : (s.l1Write (s.coreOf s.cur) pa (leBytes n v)).mem = s.mem := by rw [hl]; rfl
    have hb := hb c q hq
    split
    · rename_i hc
      rw [if_pos hc] at hb
      obtain ⟨k, hk⟩ := hb
      unfold State.seenByte State.ownByte
      rw [hk]
      exact ⟨rfl, rfl⟩
    · rename_i hc
      rw [if_neg hc] at hb
      exact State.bytes_of_l1Byte s _ c q hm hb

theorem State.coreOf_withSpad (s : State) (g : Nat) (m : Tab Byte) (p : Party) : (s.withSpad g m).coreOf p = s.coreOf p := by
  have h : ∀ t, ((s.withSpad g m).team t).core = (s.team t).core := by
    intro t
    rw [State.withSpad, State.team_setTeam]
    split
    · rename_i e; rw [e]
    · rfl
  cases p <;> simp only [State.coreOf, h]

theorem State.Stores.frame {s u : State} {p : Place} {n v : Nat} (h : s.Stores p n v u) : u.isControl = s.isControl ∧ u.nextPc = s.nextPc
    ∧ ∀ q r, u.readX q r = s.readX q r := by
  cases p with
  | view pa => exact h.elim
  | spad team off => obtain ⟨⟨m, rfl⟩, -⟩ := h; exact ⟨rfl, State.nextPc_withSpad s team m, fun q r => rfl⟩
  | mem pa => obtain ⟨⟨l, rfl⟩, -⟩ := h; exact ⟨rfl, State.nextPc_withL1 s l, fun q r => rfl⟩

/-- A control instruction without a register result that goes on. -/
theorem State.controlResult_none (s : State) (hc : s.isControl = true) : s.ControlResult 0 0 s.nextPc s.advance :=
  State.controlResult_putX s 0 0 hc

/-- WHAT A STORE INSTRUCTION DOES (R64). -/
theorem scalarStore_result (n : Nat) (x a : BitVec 5) (i : BitVec 14) (s : State) (p : Place) (hc : s.isControl = true)
    (hp : s.resolve s.cur (s.eaOf a i) n .store = .ok p) (hr : s.storeReady n p) :
    ∃ t, scalarStore n x a i s = .next t ∧ ∃ u, s.Stores p n (s.getX x).toNat u ∧ u.ControlResult 0 0 s.nextPc t := by
  obtain ⟨u, h1, h2⟩ := writePlace_store s p n (s.getX x).toNat hr
  have hu : u.isControl = true := h2.frame.1.trans hc
  refine ⟨_, controlOp_ok hc (u := u) ?_, u, h2, ?_⟩
  · show (do let p ← resolveM (s.eaOf a i) n .store
             writePlace p (leBytes n (s.getX x).toNat) false : M Unit) s = _
    rw [M.bind_ok (resolveM_ok hp), h1]
  · rw [← h2.frame.2.1]
    exact State.controlResult_none u hu

/-! ### Accesses at the home slice -/

theorem writeHome_ok (s : State) (core pa n v : Nat) (hl : s.linkUp = true) :
    writeHome core pa (leBytes n v) s = .ok () ((s.flush core pa n).homeWrite pa (leBytes n v)) := by
  unfold writeHome
  rw [M.bind_ok (needLink_ok hl)]
  show EStateM.Result.ok () ((s.flush core pa (leBytes n v).length).homeWrite pa (leBytes n v)) = _
  rw [leBytes_length]

/-- A write of `n` bytes at a place can be performed: at the home slice, or into the L1 or the scratchpad. -/
def State.writeReady (s : State) (home : Bool) (n : Nat) (p : Place) : Prop := if home then s.homeReady true n p else s.storeReady n p

/-- A store at the home slice, the scratchpad, or for an access at tm the L1 (R187, R189). At the home slice no byte enters the
core's L1 and no other byte changes at home but those the core has stored. -/
theorem writePlace_home (s : State) (p : Place) (n v : Nat) (home : Bool) (h : s.writeReady home n p) :
    ∃ u, writePlace p (leBytes n v) home s = .ok () u ∧ s.Rewrites p n (some v) u
      ∧ (home = true → (∀ q, q < 2 ^ 52 → s.l1Byte (s.coreOf s.cur) q = none → u.l1Byte (s.coreOf s.cur) q = none)
        ∧ ∀ q, q < 2 ^ 52 → (∀ pa, p = .mem pa → ¬ (pa ≤ q ∧ q < pa + n)) →
          u.homeByte q = s.homeByte q ∨ u.homeByte q = s.ownByte (s.coreOf s.cur) q) := by
  cases p with
  | view pa => cases home <;> exact h.elim
  | spad team off =>
    have h : s.windowFree off n true := by cases home <;> exact h
    refine ⟨s.spadWrite team off (leBytes n v), ?_, ?_, fun _ => ⟨fun q _ hq => hq, fun q _ _ => .inl rfl⟩⟩
    · show (do holdWindow off (leBytes n v).length true; modify fun s => s.spadWrite team off (leBytes n v) : M Unit) s = _
      rw [leBytes_length, M.bind_ok (holdWindow_ok h)]
      rfl
    · obtain ⟨m, hm, hb⟩ := State.spadWrite_value s team off n v
      exact ⟨m, hm ▸ .refl _ _, hb⟩
  | mem pa =>
    cases home with
    | false =>
      obtain ⟨⟨l, hl⟩, hb⟩ := State.l1Write_value s (s.coreOf s.cur) pa n v h
      refine ⟨s.l1Write (s.coreOf s.cur) pa (leBytes n v), rfl, ⟨fun q hq => ?_, fun c q hc hq => ?_, ?_⟩, fun h => by cases h⟩
      · have hb := hb (s.coreOf s.cur) q hq
        have hm : (s.l1Write (s.coreOf s.cur) pa (leBytes n v)).mem = s.mem := by rw [hl]; rfl
        by_cases hq2 : pa ≤ q ∧ q < pa + n
        · rw [if_pos ⟨rfl, hq2⟩] at hb
          obtain ⟨k, hk⟩ := hb
          rw [if_pos hq2, State.ownByte_eq, hk]
          rfl
        · rw [if_neg (fun x => hq2 x.2)] at hb
          rw [if_neg hq2]
          exact (State.bytes_of_l1Byte s _ _ q hm hb).2
      · have hb := hb c q hq
        rw [if_neg (fun x => hc x.1)] at hb
        exact hb
      · rw [hl]; rfl
    | true =>
      obtain ⟨h1, h2, h3⟩ := h
      have hk := State.keepsBytes_flush s (s.coreOf s.cur) pa n h2 h1
      have hw := State.homeWrite_eq (s.flush (s.coreOf s.cur) pa n) pa (leBytes n v)
      have hh : ∀ q, ((s.flush (s.coreOf s.cur) pa n).homeWrite pa (leBytes n v)).homeByte q
          = if pa ≤ q ∧ q < pa + n then (leBytes n v).getD (q - pa) 0 else (s.flush (s.coreOf s.cur) pa n).homeByte q := fun q => by
        rw [State.homeByte_homeWrite, leBytes_length]
      refine ⟨(s.flush (s.coreOf s.cur) pa n).homeWrite pa (leBytes n v), ?_, ⟨fun q hq => ?_, fun c q hc hq => ?_, ?_⟩,
        fun _ => ⟨fun q hq hn => ?_, fun q hq hn => ?_⟩⟩
      · show (do let c ← myCore; writeHome c pa (leBytes n v) : M Unit) s = _
        rw [M.bind_ok (show myCore s = .ok (s.coreOf s.cur) s from rfl)]
        exact writeHome_ok s _ pa n v h2
      · have hh := hh q
        rw [State.ownByte_eq, State.l1Byte_homeWrite]
        by_cases hq2 : pa ≤ q ∧ q < pa + n
        · rw [if_pos hq2]
          rw [if_pos hq2, getD_leBytes n v _ (by omega)] at hh
          have hcl := State.cleanAt_flush s (s.coreOf s.cur) pa n q h1 hq2.1 hq2.2
          cases e : (s.flush (s.coreOf s.cur) pa n).l1Byte (s.coreOf s.cur) q with
          | none => exact hh
          | some b => dsimp only; rw [hcl b e]; exact hh
        · rw [if_neg hq2]
          rw [if_neg hq2] at hh
          rw [hh]
          exact hk.1 q hq
      · rw [State.l1Byte_homeWrite]; exact hk.2.1 c q hc hq
      · rw [hw, hk.2.2]; rfl
      · rw [State.l1Byte_homeWrite]; exact State.l1Byte_flush s _ pa n q h1 hq (.inr hn)
      · rw [hh q, if_neg (hn pa rfl)]
        exact State.homeByte_flush_or s _ pa n q h2 h1 hq

/-! ### Chains of accesses -/

theorem State.Rewrites.keeps {s u t : State} {p : Place} {n : Nat} {v : Option Nat} (h : s.Rewrites p n v u)
    (k : u.KeepsBytes (s.coreOf s.cur) t) : s.Rewrites p n v t := by
  cases p with
  | view pa => exact State.KeepsBytes.trans h k
  | spad team off =>
    cases v with
    | none => exact State.KeepsBytes.trans h k
    | some v => obtain ⟨m, h1, h2⟩ := h; exact ⟨m, h1.trans k, h2⟩
  | mem pa =>
    cases v with
    | none => exact State.KeepsBytes.trans h k
    | some v =>
      obtain ⟨h1, h2, h3⟩ := h
      exact ⟨fun q hq => (k.1 q hq).trans (h1 q hq), fun c q hc hq => (k.2.1 c q hc hq).trans (h2 c q hc hq), by
        rw [k.2.2, h3]; rfl⟩

theorem State.KeepsBytes.withSpad {s t : State} {core : Nat} (k : s.KeepsBytes core t) (team : Nat) (m : Tab Byte) :
    (s.withSpad team m).KeepsBytes core (t.withSpad team m) :=
  ⟨k.1, k.2.1, by
    have ht : t.team team = s.team team := by rw [State.team, k.teams]; rfl
    have he := k.2.2
    rw [State.withSpad, State.withSpad, ht]
    rw [he]
    rfl⟩

theorem State.KeepsBytes.rewrites {s u t : State} {p : Place} {n : Nat} {v : Option Nat} (k : s.KeepsBytes (s.coreOf s.cur) u)
    (h : u.Rewrites p n v t) : s.Rewrites p n v t := by
  have hc : u.coreOf u.cur = s.coreOf s.cur := by rw [k.cur, k.coreOf]
  unfold State.Rewrites at h
  rw [hc] at h
  cases p with
  | view pa => exact k.trans h
  | spad team off =>
    cases v with
    | none => exact k.trans h
    | some v =>
      obtain ⟨m, h1, h2⟩ := h
      refine ⟨m, (k.withSpad team m).trans h1, fun o => ?_⟩
      rw [h2, k.spadByte]
  | mem pa =>
    cases v with
    | none => exact k.trans h
    | some v =>
      obtain ⟨h1, h2, h3⟩ := h
      refine ⟨fun q hq => ?_, fun c q hc hq => (h2 c q hc hq).trans (k.2.1 c q hc hq), by rw [h3, k.2.2]; rfl⟩
      rw [h1 q hq, k.1 q hq]

theorem State.Rewrites.frame {s u : State} {p : Place} {n : Nat} {v : Option Nat} (h : s.Rewrites p n v u) :
    u.isControl = s.isControl ∧ u.nextPc = s.nextPc ∧ (∀ q r, u.readX q r = s.readX q r) ∧ u.cur = s.cur
      ∧ (∀ q, u.coreOf q = s.coreOf q) := by
  have key : ∀ t : State, t.KeepsBytes (s.coreOf s.cur) u → u.isControl = t.isControl ∧ u.nextPc = t.nextPc ∧ (∀ q r, u.readX q r = t.readX q r)
      ∧ u.cur = t.cur ∧ (∀ q, u.coreOf q = t.coreOf q) := by
    intro t k
    rw [k.2.2]
    exact ⟨rfl, State.nextPc_withCaches t u, fun _ _ => rfl, rfl, fun _ => rfl⟩
  cases p with
  | view pa => exact key s h
  | spad team off =>
    cases v with
    | none => exact key s h
    | some v =>
      obtain ⟨m, h1, -⟩ := h
      obtain ⟨a1, a2, a3, a4, a5⟩ := key _ h1
      exact ⟨a1, a2.trans (State.nextPc_withSpad s team m), a3, a4, fun q => (a5 q).trans (State.coreOf_withSpad s team m q)⟩
  | mem pa =>
    cases v with
    | none => exact key s h
    | some v =>
      rw [h.2.2]
      exact ⟨rfl, State.nextPc_withCaches s u, fun _ _ => rfl, rfl, fun _ => rfl⟩

/-- Cache traffic after a register write is cache traffic before it. -/
theorem State.KeepsBytes.under_putX {u w : State} {core : Nat} {d : BitVec 5} {v : W64} (k : (u.putX d v).KeepsBytes core w) :
    u.KeepsBytes core (u.withCaches w) ∧ w = (u.withCaches w).putX d v ∧ (∀ c q, (u.withCaches w).l1Byte c q = w.l1Byte c q)
      ∧ ∀ q, (u.withCaches w).homeByte q = w.homeByte q := by
  have hm : (u.putX d v).mem = u.mem := State.mem_writeX ..
  have hl : (u.putX d v).l1 = u.l1 := State.l1_writeX ..
  have e1 : ∀ c q, (u.putX d v).l1Byte c q = u.l1Byte c q := by intro c q; rw [State.l1Byte, State.l1Byte, hl]
  have e2 : ∀ c q, (u.putX d v).ownByte c q = u.ownByte c q := by
    intro c q; rw [State.ownByte_eq, State.ownByte_eq, e1, State.homeByte, State.homeByte, hm]
  refine ⟨⟨fun q hq => ?_, fun c q hc hq => ?_, rfl⟩, ?_, fun _ _ => rfl, fun _ => rfl⟩
  · exact (k.1 q hq).trans (e2 core q)
  · exact (k.2.1 c q hc hq).trans (e1 c q)
  · have he := k.2.2
    conv => lhs; rw [he]
    unfold State.putX State.writeX
    have hcur : (u.withCaches w).cur = u.cur := rfl
    rw [hcur]
    cases u.cur <;> (dsimp only; split <;> rfl)

/-! ### The ordered accesses -/

theorem State.acquired_acquire (s : State) (core : Nat) (sc : Scope) : State.acquired core sc (s.acquire core sc) :=
  fun h q hq y hy => (State.l1Byte_acquire s core sc h q hq y hy).2

theorem acquireM_eq (s : State) (sc : Scope) : acquireM sc s = .ok () (s.acquire (s.coreOf s.cur) sc) := rfl

/-- A value that replaces one with the same low bytes. -/
theorem byteOf_mod (v n i : Nat) (h : i < n) : byteOf (v % 256 ^ n) i = byteOf v i := by
  rw [byteOf, byteOf]
  apply BitVec.eq_of_toNat_eq
  rw [BitVec.toNat_ofNat, BitVec.toNat_ofNat]
  obtain ⟨k, rfl⟩ : ∃ k, n = i + 1 + k := ⟨n - (i + 1), by omega⟩
  rw [Nat.pow_add, Nat.pow_succ, Nat.mul_assoc, Nat.mod_mul_right_div_self, show (2 : Nat) ^ 8 = 256 from rfl, Nat.mod_mul_right_mod]

theorem State.keepsBytes_fill (s : State) (core pa n : Nat) (hp : pa + n ≤ 2 ^ 52) : s.KeepsBytes core (s.fill core pa n) := by
  refine ⟨fun q hq => State.ownByte_fill s core pa n core q hp hq, fun c q hc hq => ?_, ?_⟩
  · rw [State.l1Byte_fill s core pa n c q hp hq, if_neg (fun h => hc h.1)]
  · have he := State.fill_eq s core pa n
    generalize (s.fill core pa n).l1 = l at he
    rw [he]; rfl

theorem State.homeReady_of {s u : State} {core : Nat} {w : Bool} {n : Nat} {p : Place} (h : s.homeReady w n p) (k : s.KeepsBytes core u)
    (hp : ∀ qa m, s.anyPoison qa m = false → u.anyPoison qa m = false) : u.homeReady w n p := by
  cases p with
  | spad t o => exact k.windowFree h
  | view pa => exact h
  | mem pa => exact ⟨h.1, k.linkUp.trans h.2.1, hp _ _ h.2.2⟩

/-- A read by an atomic: at the home slice or the scratchpad, or for a tm access the bytes as a load takes them. -/
theorem readPlace_atomic (s : State) (ea : W64) (p : Place) (n : Nat) (home : Bool) (hn : n ≠ 0) (h : s.atomicReady home n p) :
    ∃ u, readPlace ea p n home .atomic s = .ok ((List.range n).map (s.placeByte (home || !s.hitsL1 n p) p)) u
      ∧ s.KeepsBytes (s.coreOf s.cur) u ∧ u.writeReady home n p
      ∧ (home = true → (∀ q, q < 2 ^ 52 → u.homeByte q = s.homeByte q ∨ u.homeByte q = s.ownByte (s.coreOf s.cur) q)
        ∧ ∀ pa, p = .mem pa → ∀ q, q / 64 = pa / 64 → q < 2 ^ 52 → u.l1Byte (s.coreOf s.cur) q = none) := by
  cases p with
  | view pa => exact (h.2.resolve_right (by rintro ⟨-, q, e, -⟩; cases e)).elim
  | spad team off =>
    have hw : s.windowFree off n true := h.2.resolve_right (by rintro ⟨-, q, e, -⟩; cases e)
    refine ⟨s, ?_, .refl s _, by cases home <;> exact hw, fun _ => ⟨fun q _ => .inl rfl, fun pa e => by cases e⟩⟩
    show (do holdWindow off n true; return (← get).spadRead team off n : M (List Byte)) s = _
    rw [M.bind_ok (holdWindow_ok hw)]
    rfl
  | mem pa =>
    cases home with
    | true =>
      have hr : s.homeReady true n (.mem pa) := h.2.resolve_right (by rintro ⟨e, -⟩; cases e)
      have hk := State.keepsBytes_flush s (s.coreOf s.cur) pa n hr.2.1 hr.1
      refine ⟨s.flush (s.coreOf s.cur) pa n, ?_, hk, ⟨hr.1, hk.linkUp.trans hr.2.1, State.anyPoison_flush s _ pa n pa n hr.2.2⟩,
        fun _ => ⟨fun q hq => State.homeByte_flush_or s _ pa n q hr.2.1 hr.1 hq, fun pa' e q hl hq => ?_⟩⟩
      · show (do let c ← myCore; readHome ea c pa n .atomic : M (List Byte)) s = _
        rw [M.bind_ok (show myCore s = .ok (s.coreOf s.cur) s from rfl), readHome_ok s ea _ pa n .atomic hr.1 hr.2.1 hr.2.2]
        rfl
      · cases e
        exact State.l1Byte_flush s _ pa n q hr.1 hq (.inl (hl ▸ mem_linesIn_self hn))
    | false =>
      have hl : s.loadReady n (.mem pa) := ⟨h.1, h.2.imp id (fun h => h.2)⟩
      have h52 : pa + n ≤ 2 ^ 52 := by
        rcases h.2 with h | ⟨-, q, e, h, -⟩
        · exact h.1
        · cases e; exact h
      obtain ⟨l, h1, h2⟩ := readPlace_load s ea (.mem pa) n .atomic (.inr ⟨pa, rfl⟩) hl
      refine ⟨s.withL1 l, h1, ⟨fun q hq => ?_, fun c q hc hq => (h2.2 c q hq).2 (fun h => hc h.1), rfl⟩, h52, fun h => by cases h⟩
      have hq2 := h2.2 (s.coreOf s.cur) q hq
      by_cases hf : s.coreOf s.cur = s.coreOf s.cur ∧ s.hitsL1 n (.mem pa) = false ∧ (∃ x, Place.mem pa = .mem x ∧ q / 64 = x / 64)
          ∧ s.dirtyAt (s.coreOf s.cur) q = false
      · obtain ⟨y, h3, h4, h5⟩ := hq2.1 hf
        have hd := hf.2.2.2
        rw [State.ownByte_eq, h3]
        dsimp only
        rw [h4, State.ownByte_clean s _ q (fun b hb => by simpa [State.dirtyAt, hb] using hd)]
        rfl
      · rw [State.ownByte_eq, hq2.2 hf]; rfl

/-- The release of an atomic or an ordered access, where it makes one. -/
theorem releaseIf_ok (s : State) (c : Bool) (sc : Scope) (h : c = true → s.releaseReady sc) :
    ∃ u, (if c then releaseM sc else pure () : M Unit) s = .ok () u ∧ s.KeepsBytes (s.coreOf s.cur) u
      ∧ (∀ qa m, s.anyPoison qa m = false → u.anyPoison qa m = false) ∧ (c = false ∨ sc = .tm → u = s)
      ∧ (c = true → s.released (s.coreOf s.cur) sc u) := by
  cases c with
  | false => exact ⟨s, rfl, .refl s _, fun _ _ h => h, fun _ => rfl, fun h => by cases h⟩
  | true =>
    refine ⟨_, releaseM_ok s sc (h rfl), State.keepsBytes_release s _ sc (h rfl).2.1,
      fun qa m hq => State.anyPoison_release s _ sc qa m hq, ?_,
      fun _ hs q hq => State.homeByte_release s _ sc (h rfl).2.1 hs q hq⟩
    rintro (h | rfl)
    · cases h
    · rfl

theorem State.placeByte_keeps {s u : State} (k : s.KeepsBytes (s.coreOf s.cur) u) (p : Place) (i n : Nat) (h : s.homeReady true n p)
    (hi : i < n) : u.placeByte true p i = s.placeByte true p i := by
  cases p with
  | view pa => rfl
  | spad t o => exact k.spadByte t (o + i)
  | mem pa =>
    show u.ownByte (u.coreOf u.cur) (pa + i) = s.ownByte (s.coreOf s.cur) (pa + i)
    rw [k.cur, k.coreOf]
    exact k.1 _ (by have := h.1; omega)

/-- The acquire at the end of an instruction that has written its register: the instruction's result on the state the acquire
leaves. -/
theorem State.controlResult_acquired (s u : State) (p : Place) (n : Nat) (v : Option Nat) (d : BitVec 5) (x : W64) (c : Bool) (sc : Scope)
    (hc : s.isControl = true) (hr : s.Rewrites p n v u) :
    ∃ w y, (if c then acquireM sc else pure () : M Unit) (u.putX d x) = .ok () w ∧ s.Rewrites p n v y ∧ y.ControlResult d x s.nextPc w.advance
      ∧ (c = true → State.acquired (s.coreOf s.cur) sc y) ∧ u.KeepsBytes (s.coreOf s.cur) y
      ∧ (∀ q, y.homeByte q = u.homeByte q)
      ∧ (∀ q, q < 2 ^ 52 → u.l1Byte (s.coreOf s.cur) q = none → y.l1Byte (s.coreOf s.cur) q = none) := by
  cases c with
  | false =>
    refine ⟨_, u, rfl, hr, ?_, (fun h => by cases h), State.KeepsBytes.refl u _, fun _ => rfl, fun _ _ h => h⟩
    rw [← hr.frame.2.1]
    exact State.controlResult_putX u d x (hr.frame.1.trans hc)
  | true =>
    have hcore : (u.putX d x).coreOf (u.putX d x).cur = s.coreOf s.cur := by
      rw [State.putX, State.cur_writeX, ← hr.frame.2.2.2.1]
      have : ∀ q, (u.writeX u.cur d.toNat x).coreOf q = u.coreOf q := by
        intro q
        cases q <;> simp [State.coreOf]
      rw [this, hr.frame.2.2.2.2]
    have k := State.keepsBytes_acquire (u.putX d x) (s.coreOf s.cur) sc
    obtain ⟨k1, k2, k3, k4⟩ := k.under_putX
    have hm : ∀ q, ((u.putX d x).acquire (s.coreOf s.cur) sc).homeByte q = u.homeByte q := by
      intro q
      rw [State.homeByte, State.mem_acquire, State.putX, State.mem_writeX]
    refine ⟨(u.putX d x).acquire (s.coreOf s.cur) sc, u.withCaches ((u.putX d x).acquire (s.coreOf s.cur) sc), ?_, hr.keeps k1, ?_, ?_, k1, ?_, ?_⟩
    · show acquireM sc (u.putX d x) = _
      rw [acquireM_eq, hcore]
    · have h1 := (hr.keeps k1).frame
      rw [← h1.2.1]
      conv => rhs; rw [k2]
      exact State.controlResult_putX _ d x (h1.1.trans hc)
    · intro _ hsc q hq y hy
      exact State.acquired_acquire (u.putX d x) (s.coreOf s.cur) sc hsc q hq y ((k3 _ _).symm.trans hy)
    · intro q
      rw [k4, hm]
    · intro q hq hn
      rw [k3]
      have hn' : (u.putX d x).l1Byte (s.coreOf s.cur) q = none := by
        rw [State.l1Byte, State.putX, State.l1_writeX]; exact hn
      cases hb : ((u.putX d x).acquire (s.coreOf s.cur) sc).l1Byte (s.coreOf s.cur) q with
      | none => rfl
      | some b =>
        by_cases hs : sc = .tm
        · subst hs
          have e : (u.putX d x).acquire (s.coreOf s.cur) .tm = u.putX d x := rfl
          rw [e, hn'] at hb
          cases hb
        · rw [(State.l1Byte_acquire _ _ sc hs q hq b hb).1] at hn'
          cases hn'

/-- WHAT AN ATOMIC DOES (R236, R237). -/
theorem scalarAmo_result (f : Nat → Nat → Nat → Option Nat) (signed : Bool) (d a b : BitVec 5) (o : BitVec 2) (w : Bool) (sc : Scope)
    (s : State) (p : Place) (hc : s.isControl = true)
    (hp : s.resolve s.cur (s.getX a) (if w then 4 else 8) .atomic = .ok p) (hr : s.atomicReady (atHome p sc) (if w then 4 else 8) p)
    (hrel : o.getLsbD 1 = true → s.releaseReady sc) :
    ∃ t, scalarAmo f signed d a b o w sc s = .next t ∧
      ∃ u, s.Rewrites p (if w then 4 else 8) (f (if w then 4 else 8) (s.loadValue (atHome p sc) (if w then 4 else 8) p)
          ((s.getX b).toNat % 2 ^ (8 * if w then 4 else 8))) u
        ∧ (atHome p sc = true → u.standsHome (s.coreOf s.cur) (if w then 4 else 8) p)
        ∧ (o.getLsbD 1 = true → s.releasedBut (s.coreOf s.cur) sc (if w then 4 else 8) p u)
        ∧ (o.getLsbD 0 = true → State.acquired (s.coreOf s.cur) sc u)
        ∧ u.ControlResult d (extendBytes (signed && w) (if w then 4 else 8) (s.loadValue (atHome p sc) (if w then 4 else 8) p)) s.nextPc t := by
  have body : ∃ u, s.Rewrites p (if w then 4 else 8) (f (if w then 4 else 8) (s.loadValue (atHome p sc) (if w then 4 else 8) p)
        ((s.getX b).toNat % 2 ^ (8 * if w then 4 else 8))) u
      ∧ (atHome p sc = true → ∀ pa, p = .mem pa → ∀ q, q / 64 = pa / 64 → q < 2 ^ 52 → u.l1Byte (s.coreOf s.cur) q = none)
      ∧ (o.getLsbD 1 = true → s.releasedBut (s.coreOf s.cur) sc (if w then 4 else 8) p u)
      ∧ (∀ rest : M Unit, (do
          let q ← resolveM (s.getX a) (if w then 4 else 8) .atomic
          if o.getLsbD 1 then releaseM sc
          let bs ← readPlace (s.getX a) q (if w then 4 else 8) (atHome q sc) .atomic
          match f (if w then 4 else 8) (leNat bs) ((s.getX b).toNat % 2 ^ (8 * if w then 4 else 8)) with
          | some v => writePlace q (leBytes (if w then 4 else 8) v) (atHome q sc)
          | none => pure ()
          modify fun s => s.putX d (extendBytes (signed && w) (if w then 4 else 8) (leNat bs))
          rest : M Unit) s = rest (u.putX d (extendBytes (signed && w) (if w then 4 else 8)
            (s.loadValue (atHome p sc) (if w then 4 else 8) p)))) := by
    have hn : (if w then 4 else 8) ≠ 0 := by cases w <;> decide
    generalize (if w then 4 else 8) = n at hp hr hn ⊢
    obtain ⟨u1, e1, k1, q1, s1, r1⟩ := releaseIf_ok s (o.getLsbD 1) sc hrel
    have hcore : u1.coreOf u1.cur = s.coreOf s.cur := by rw [k1.cur, k1.coreOf]
    -- a release changes nothing that an access through the L1 meets: at tm it does nothing, and the scratchpad is not cached
    have hpart : atHome p sc = true ∨ (∃ t o, p = .spad t o) ∨ u1 = s := by
      cases p with
      | spad t o => exact .inr (.inl ⟨t, o, rfl⟩)
      | view pa => exact (hr.2.resolve_right (by rintro ⟨-, q, e, -⟩; cases e)).elim
      | mem pa =>
        by_cases h : atHome (.mem pa) sc = true
        · exact .inl h
        · simp only [atHome, Bool.not_eq_true, Bool.or_eq_false_iff, decide_eq_false_iff_not, ne_eq, Decidable.not_not] at h
          exact .inr (.inr (s1 (.inr h.1)))
    have hr1 : u1.atomicReady (atHome p sc) n p := by
      rcases hpart with h | ⟨t, o, rfl⟩ | h
      · exact ⟨hr.1, .inl (State.homeReady_of (hr.2.resolve_right (by rintro ⟨e, -⟩; rw [h] at e; cases e)) k1 q1)⟩
      · exact ⟨hr.1, .inl (k1.windowFree (hr.2.resolve_right (by rintro ⟨-, q, e, -⟩; cases e)))⟩
      · rw [h]; exact hr
    obtain ⟨u2, e2, k2, w2, f2⟩ := readPlace_atomic u1 (s.getX a) p n (atHome p sc) hn hr1
    rw [hcore] at k2 f2
    have hval : (List.range n).map (u1.placeByte (atHome p sc || !u1.hitsL1 n p) p)
        = (List.range n).map (s.placeByte (atHome p sc || !s.hitsL1 n p) p) := by
      refine List.map_congr_left fun i hi => ?_
      rcases hpart with h | ⟨t, o, rfl⟩ | h
      · rw [h]
        exact State.placeByte_keeps k1 p i n (hr.2.resolve_right (by rintro ⟨e, -⟩; rw [h] at e; cases e)) (List.mem_range.mp hi)
      · exact k1.spadByte t (o + i)
      · rw [h]
    rw [hval] at e2
    have k12 : s.KeepsBytes (s.coreOf s.cur) u2 := k1.trans k2
    have hcore2 : u2.coreOf u2.cur = s.coreOf s.cur := by rw [k12.cur, k12.coreOf]
    have hrel2 : o.getLsbD 1 = true → s.releasedBut (s.coreOf s.cur) sc n p u2 := by
      intro ho hs q hq hout
      have h1 := r1 ho hs q hq
      rcases hpart with h | ⟨t, o', rfl⟩ | h
      · rcases (f2 h).1 q hq with h2 | h2
        · rw [h2, h1]
        · rw [h2]; exact k1.1 q hq
      · -- the scratchpad: reading it changes nothing
        have : u2 = u1 := by
          have hw : u1.windowFree o' n true := hr1.2.resolve_right (by rintro ⟨-, q, e, -⟩; cases e)
          have e3 : readPlace (s.getX a) (.spad t o') n (atHome (.spad t o') sc) .atomic u1 = .ok (u1.spadRead t o' n) u1 := by
            show (do holdWindow o' n true; return (← get).spadRead t o' n : M (List Byte)) u1 = _
            rw [M.bind_ok (holdWindow_ok hw)]
            rfl
          rw [e2] at e3
          injection e3
        rw [this, h1]
      · cases p with
        | spad t o' => 
          have hw : u1.windowFree o' n true := hr1.2.resolve_right (by rintro ⟨-, q, e, -⟩; cases e)
          have e3 : readPlace (s.getX a) (.spad t o') n (atHome (.spad t o') sc) .atomic u1 = .ok (u1.spadRead t o' n) u1 := by
            show (do holdWindow o' n true; return (← get).spadRead t o' n : M (List Byte)) u1 = _
            rw [M.bind_ok (holdWindow_ok hw)]
            rfl
          rw [e2] at e3
          injection e3 with _ e3
          rw [e3, h1]
        | view pa => exact (hr.2.resolve_right (by rintro ⟨-, q, e, -⟩; cases e)).elim
        | mem pa =>
          have hh : atHome (.mem pa) sc = true := by simp [atHome, hs]
          rcases (f2 hh).1 q hq with h2 | h2
          · rw [h2, h1]
          · rw [h2]; exact k1.1 q hq
    have hw : ∃ u3, (match f n (s.loadValue (atHome p sc) n p) ((s.getX b).toNat % 2 ^ (8 * n)) with
          | some v => writePlace p (leBytes n v) (atHome p sc)
          | none => pure () : M Unit) u2 = .ok () u3
        ∧ s.Rewrites p n (f n (s.loadValue (atHome p sc) n p) ((s.getX b).toNat % 2 ^ (8 * n))) u3
        ∧ (atHome p sc = true → ∀ pa, p = .mem pa → ∀ q, q / 64 = pa / 64 → q < 2 ^ 52 → u3.l1Byte (s.coreOf s.cur) q = none)
        ∧ (o.getLsbD 1 = true → s.releasedBut (s.coreOf s.cur) sc n p u3) := by
      cases f n (s.loadValue (atHome p sc) n p) ((s.getX b).toNat % 2 ^ (8 * n)) with
      | none =>
        refine ⟨u2, rfl, ?_, fun h => (f2 h).2, hrel2⟩
        cases p <;> exact k12
      | some v =>
        obtain ⟨u3, h1, h2, h3⟩ := writePlace_home u2 p n v (atHome p sc) w2
        rw [hcore2] at h3
        refine ⟨u3, h1, k12.rewrites h2, fun h pa e q hl hq => (h3 h).1 q hq ((f2 h).2 pa e q hl hq), fun ho hs q hq hout => ?_⟩
        have hr2 := hrel2 ho hs q hq hout
        by_cases h : atHome p sc = true
        · rcases (h3 h).2 q hq hout with h4 | h4
          · rw [h4, hr2]
          · rw [h4]; exact k12.1 q hq
        · cases p with
          | view pa => exact (hr.2.resolve_right (by rintro ⟨-, q, e, -⟩; cases e)).elim
          | mem pa => exact absurd (by simp [atHome, hs]) h
          | spad t o' =>
            have hm : u3.homeByte q = u2.homeByte q := by
              have hw : u2.windowFree o' n true := by have := w2; rw [show atHome (.spad t o') sc = false from rfl] at this; exact this
              have e3 : writePlace (.spad t o') (leBytes n v) (atHome (.spad t o') sc) u2 = .ok () (u2.spadWrite t o' (leBytes n v)) := by
                show (do holdWindow o' (leBytes n v).length true; modify fun s => s.spadWrite t o' (leBytes n v) : M Unit) u2 = _
                rw [leBytes_length, M.bind_ok (holdWindow_ok hw)]
                rfl
              rw [h1] at e3
              injection e3 with _ e3
              rw [e3]; rfl
            rw [hm, hr2]
    obtain ⟨u3, e3, hrw, hout, hre⟩ := hw
    refine ⟨u3, hrw, hout, hre, fun rest => ?_⟩
    rw [M.bind_ok (resolveM_ok hp)]
    refine (M.ite_ok e1).trans ?_
    refine (M.bind_ok e2).trans ?_
    have hv : leNat ((List.range n).map (s.placeByte (atHome p sc || !s.hitsL1 n p) p)) = s.loadValue (atHome p sc) n p := rfl
    dsimp only
    rw [hv]
    cases e : f n (s.loadValue (atHome p sc) n p) ((s.getX b).toNat % 2 ^ (8 * n)) with
    | none => rw [e] at e3; injection e3 with _ e3; rw [e3]; rfl
    | some v => rw [e] at e3; exact M.bind_ok e3
  obtain ⟨u, hrw, hout, hre, hrun⟩ := body
  obtain ⟨w', y, e, h1, h2, h3, -, h4, h5⟩ := State.controlResult_acquired s u p _ _ d
    (extendBytes (signed && w) (if w then 4 else 8) (s.loadValue (atHome p sc) (if w then 4 else 8) p)) (o.getLsbD 0) sc hc hrw
  refine ⟨w'.advance, controlOp_ok hc ?_, y, h1, fun h => State.standsHome_of y _ _ p (fun pa e => ?_) fun pa e q hl hq => ?_, ?_, h3, h2⟩
  · rw [← e]
    exact hrun _
  · refine ⟨hr.1 pa e, ?_⟩
    rcases hr.2 with hh | ⟨-, q, e', hh, -⟩
    · rw [e] at hh; exact hh.1
    · rw [e] at e'; cases e'; exact hh
  · exact h5 q hq (hout h pa e q hl hq)
  · intro ho hs q hq hn
    rw [h4]; exact hre ho hs q hq hn

end Sys2Proof.Machine
end

