-- ==== Sys2Proof/Laws/Slh.lean ====
section
/-! SUPPORT. A signature that SLH-DSA makes under a secret verifies against the secret's public key (R337), and the lengths of its
parts. -/

namespace Sys2Proof.Machine

theorem keccakRound_length (a : List W64) (rc : W64) : (keccakRound a rc).length = 25 := by simp [keccakRound]

theorem keccak_length (a : List W64) : (keccak a).length = 25 := by
  unfold keccak
  suffices h : ∀ (l : List W64) (a : List W64), l ≠ [] → (l.foldl keccakRound a).length = 25 from h _ a (by simp [keccakRc])
  intro l
  induction l with
  | nil => intro _ h; exact absurd rfl h
  | cons x l ih =>
    intro a _
    rcases l with _ | ⟨y, l⟩
    · exact keccakRound_length a x
    · exact ih _ (by simp)

theorem shakeAbsorb_length : ∀ (n : Nat) (p : List Byte) (a : List W64), a.length = 25 → (shakeAbsorb n p a).length = 25
  | 0, _, _, h => h
  | n + 1, p, _, _ => shakeAbsorb_length n (p.drop 136) _ (keccak_length _)

theorem flatten_length (n : Nat) : ∀ l : List (List Byte), (∀ x ∈ l, x.length = n) → l.flatten.length = n * l.length
  | [], _ => by simp
  | x :: l, h => by
    have ih := flatten_length n l (fun y hy => h y (List.mem_cons_of_mem x hy))
    simp [ih, h x (List.mem_cons_self ..), Nat.mul_add, Nat.add_comm]



theorem shakeBytes_length (m : List Byte) (n : Nat) (h : n ≤ 136) : (shakeBytes m n).length = n := by
  have e : (shake256 m ((n + 7) / 8)).length = (n + 7) / 8 := by
    simp only [shake256, List.length_take]
    rw [shakeAbsorb_length _ _ _ (by simp)]
    omega
  have f : ((shake256 m ((n + 7) / 8)).map (fun w => leBytes 8 w.toNat)).flatten.length = 8 * ((n + 7) / 8) := by
    rw [flatten_length 8 _ (by simp only [List.mem_map]; rintro x ⟨w, -, rfl⟩; exact leBytes_length 8 _), List.length_map, e]
  rw [shakeBytes, List.length_take, f]
  omega

theorem slhHash_length (seed adrs m : List Byte) : (slhHash seed adrs m).length = 32 := shakeBytes_length _ 32 (by omega)

/-- Part i of some values of 32 bytes each is value i. -/
theorem slhPart_flatten : ∀ (l : List (List Byte)) (i : Nat) (rest : List Byte), (∀ x ∈ l, x.length = 32) → i < l.length →
    slhPart (l.flatten ++ rest) i = l.getD i []
  | [], _, _, _, hi => absurd hi (by simp)
  | x :: l, 0, rest, h, _ => by
    have hx := h x (List.mem_cons_self ..)
    simp [slhPart, List.append_assoc, ← hx]
  | x :: l, i + 1, rest, h, hi => by
    have hx := h x (List.mem_cons_self ..)
    have ih := slhPart_flatten l i rest (fun y hy => h y (List.mem_cons_of_mem x hy)) (by simpa using hi)
    rw [slhPart] at ih
    rw [slhPart, List.flatten_cons, List.append_assoc, show 32 * (i + 1) = x.length + 32 * i from by rw [hx]; omega,
      ← List.drop_drop, List.drop_left, ih, List.getD_cons_succ]

/-- The values after the first ones. -/
theorem drop_flatten (a b : List (List Byte)) (n : Nat) (h : ∀ x ∈ a, x.length = 32) (hn : a.length = n) :
    (a ++ b).flatten.drop (32 * n) = b.flatten := by
  rw [List.flatten_append, show 32 * n = a.flatten.length from by rw [flatten_length 32 a h, hn], List.drop_left]

theorem getD_left {α : Type} (a b : List α) (d : α) (i : Nat) (h : i < a.length) : (a ++ b).getD i d = a.getD i d := by
  simp [List.getD_eq_getElem?_getD, List.getElem?_append_left h]

theorem getD_right {α : Type} (a b : List α) (d : α) (i : Nat) (h : a.length ≤ i) : (a ++ b).getD i d = b.getD (i - a.length) d := by
  simp [List.getD_eq_getElem?_getD, List.getElem?_append_right h]

/-! ### Trees -/

/-- Climbing from a node by the path of its leaf ends at the node above. -/
theorem slhClimb_path (seed : List Byte) (adrs : Nat → Nat → List Byte) (leaf : Nat → List Byte) (idx : Nat) : ∀ n j : Nat,
    slhClimb seed adrs idx ((List.range' j n).map (fun j => slhNode seed adrs leaf j (if idx / 2 ^ j % 2 = 0 then idx / 2 ^ j + 1 else idx / 2 ^ j - 1)))
      j (slhNode seed adrs leaf j (idx / 2 ^ j)) = slhNode seed adrs leaf (j + n) (idx / 2 ^ (j + n))
  | 0, _ => rfl
  | n + 1, j => by
    have ih := slhClimb_path seed adrs leaf idx n (j + 1)
    have e : idx / 2 ^ (j + 1) = idx / 2 ^ j / 2 := by rw [Nat.pow_succ, Nat.div_div_eq_div_mul]
    rw [List.range'_succ, List.map_cons, slhClimb]
    rw [show j + (n + 1) = j + 1 + n from by omega]
    rw [← ih]
    congr 1
    rw [slhNode, e]
    by_cases c : idx / 2 ^ j % 2 = 0
    · rw [if_pos c, if_pos c, show 2 * (idx / 2 ^ j / 2) = idx / 2 ^ j from by omega]
    · rw [if_neg c, if_neg c, show 2 * (idx / 2 ^ j / 2) + 1 = idx / 2 ^ j from by omega,
        show 2 * (idx / 2 ^ j / 2) = idx / 2 ^ j - 1 from by omega]

theorem slhClimb_top (seed : List Byte) (adrs : Nat → Nat → List Byte) (leaf : Nat → List Byte) (idx h : Nat) :
    slhClimb seed adrs idx (slhPath seed adrs leaf idx h) 0 (leaf idx) = slhNode seed adrs leaf h (idx / 2 ^ h) := by
  have := slhClimb_path seed adrs leaf idx h 0
  simpa [slhPath, List.range_eq_range', slhNode] using this

theorem slhNode_length (seed : List Byte) (adrs : Nat → Nat → List Byte) (leaf : Nat → List Byte) (h : ∀ i, (leaf i).length = 32) :
    ∀ z i, (slhNode seed adrs leaf z i).length = 32
  | 0, i => h i
  | _ + 1, _ => slhHash_length _ _ _

theorem slhPath_length (seed : List Byte) (adrs : Nat → Nat → List Byte) (leaf : Nat → List Byte) (idx h : Nat) :
    (slhPath seed adrs leaf idx h).length = h := by simp [slhPath]

theorem slhPath_parts (seed : List Byte) (adrs : Nat → Nat → List Byte) (leaf : Nat → List Byte) (idx h : Nat)
    (hl : ∀ i, (leaf i).length = 32) : ∀ x ∈ slhPath seed adrs leaf idx h, x.length = 32 := by
  simp only [slhPath, List.mem_map]
  rintro x ⟨j, -, rfl⟩
  exact slhNode_length _ _ _ hl _ _

/-! ### WOTS+ -/

theorem wotsChain_add (seed : List Byte) (layer tree leaf i d a b : Nat) (x : List Byte) :
    wotsChain seed layer tree leaf i (d + a) b (wotsChain seed layer tree leaf i d a x) = wotsChain seed layer tree leaf i d (a + b) x := by
  simp only [wotsChain, ← List.foldl_append]
  rw [List.range'_append_1]

theorem wotsChain_length (seed : List Byte) (layer tree leaf i : Nat) : ∀ (n d : Nat) (x : List Byte), x.length = 32 →
    (wotsChain seed layer tree leaf i d n x).length = 32
  | 0, _, _, h => h
  | n + 1, d, x, _ => by
    have := wotsChain_length seed layer tree leaf i n (d + 1) _ (slhHash_length seed (slhAdrs layer tree 0 leaf i d) x)
    simpa [wotsChain, List.range'_succ] using this

theorem wotsDigit_le (m : List Byte) (i : Nat) : (wotsDigits m).getD i 0 ≤ 15 := by
  have h : ∀ x ∈ wotsDigits m, x ≤ 15 := by
    intro x hx
    have small (n : Nat) : n % 16 ≤ 15 := Nat.le_of_lt_succ (Nat.mod_lt _ (by decide))
    rw [wotsDigits] at hx
    rcases List.mem_append.mp hx with hx | hx
    · obtain ⟨i, _, e⟩ := List.mem_map.mp hx
      rw [← e, slhDigit]
      exact small _
    · simp only [List.mem_cons, List.not_mem_nil, or_false] at hx
      rcases hx with e | e | e <;> exact e ▸ small _
  by_cases hi : i < (wotsDigits m).length
  · rw [List.getD_eq_getElem?_getD, List.getElem?_eq_getElem hi]; exact h _ (List.getElem_mem hi)
  · rw [List.getD_eq_getElem?_getD, List.getElem?_eq_none (by omega)]; exact Nat.zero_le _

theorem SlhSecret.signNode_parts (k : SlhSecret) (layer tree leaf : Nat) (m : List Byte) :
    ∀ x ∈ k.signNode layer tree leaf m, x.length = 32 := by
  intro x hx
  simp only [signNode, List.mem_append, List.mem_map] at hx
  rcases hx with ⟨i, -, rfl⟩ | hx
  · exact wotsChain_length _ _ _ _ _ _ _ _ (slhHash_length _ _ _)
  · exact slhPath_parts _ _ _ _ _ (fun _ => slhHash_length _ _ _) x hx

theorem SlhSecret.signNode_length (k : SlhSecret) (layer tree leaf : Nat) (m : List Byte) : (k.signNode layer tree leaf m).length = 75 := by
  simp [signNode, slhPath_length]

/-- The key that a signed node gives back is the leaf of its tree. -/
theorem SlhSecret.slhWots_sign (k : SlhSecret) (layer tree leaf : Nat) (m rest : List Byte) :
    slhWots k.pub layer tree leaf ((k.signNode layer tree leaf m).flatten ++ rest) m = k.wotsLeaf layer tree leaf := by
  unfold slhWots wotsLeaf wotsKey
  congr 2
  refine List.map_congr_left (fun i hi => ?_)
  have hi := List.mem_range.mp hi
  rw [slhPart_flatten _ _ _ (k.signNode_parts layer tree leaf m) (by rw [signNode_length]; omega)]
  have e : (k.signNode layer tree leaf m).getD i [] =
      wotsChain k.pub layer tree leaf i 0 ((wotsDigits m).getD i 0) (k.chainStart layer tree leaf i) := by
    rw [signNode, getD_left _ _ _ _ (by simpa using hi)]
    simp [List.getD_eq_getElem?_getD, List.getElem?_map, List.getElem?_range hi]
  have d := wotsDigit_le m i
  rw [e]
  have := wotsChain_add k.pub layer tree leaf i 0 ((wotsDigits m).getD i 0) (15 - (wotsDigits m).getD i 0) (k.chainStart layer tree leaf i)
  rw [Nat.zero_add] at this
  rw [this, Nat.add_sub_cancel' d]

theorem SlhSecret.signNode_path (k : SlhSecret) (layer tree leaf : Nat) (m rest : List Byte) :
    (List.range 8).map (fun j => slhPart ((k.signNode layer tree leaf m).flatten ++ rest) (67 + j)) =
      slhPath k.pub (slhAdrs layer tree 2 0) (k.wotsLeaf layer tree) leaf 8 := by
  conv => rhs; unfold slhPath
  refine List.map_congr_left (fun j hj => ?_)
  have hj := List.mem_range.mp hj
  rw [slhPart_flatten _ _ _ (k.signNode_parts layer tree leaf m) (by rw [signNode_length]; omega)]
  rw [signNode, getD_right _ _ _ _ (by simp)]
  simp [slhPath, List.getD_eq_getElem?_getD, List.getElem?_map, List.getElem?_range hj]

/-! ### The hypertree -/

/-- A node signed from a layer on climbs to the root of the top tree, whose number is 0. -/
theorem SlhSecret.slhTree_sign (k : SlhSecret) : ∀ (n layer tree leaf : Nat) (m : List Byte), 0 < n → leaf < 2 ^ 8 → tree < 2 ^ (8 * (n - 1)) →
    slhTree k.pub n layer tree leaf (k.signTree n layer tree leaf m).flatten m =
      slhNode k.pub (slhAdrs (layer + n - 1) 0 2 0) (k.wotsLeaf (layer + n - 1) 0) 8 0
  | 0, _, _, _, _, h, _, _ => absurd h (by omega)
  | n + 1, layer, tree, leaf, m, _, hl, ht => by
    have top : slhClimb k.pub (slhAdrs layer tree 2 0) leaf (slhPath k.pub (slhAdrs layer tree 2 0) (k.wotsLeaf layer tree) leaf 8) 0
        (k.wotsLeaf layer tree leaf) = slhNode k.pub (slhAdrs layer tree 2 0) (k.wotsLeaf layer tree) 8 0 := by
      rw [slhClimb_top, Nat.div_eq_of_lt hl]
    simp only [signTree, slhTree]
    rw [drop_flatten _ _ 75 (k.signNode_parts layer tree leaf m) (k.signNode_length layer tree leaf m), List.flatten_append,
      k.signNode_path, k.slhWots_sign, top]
    rcases Nat.eq_zero_or_pos n with rfl | hn
    · have : tree = 0 := by simpa using ht
      subst this
      rfl
    · have := slhTree_sign k n (layer + 1) (tree / 2 ^ 8) (tree % 2 ^ 8) (slhNode k.pub (slhAdrs layer tree 2 0) (k.wotsLeaf layer tree) 8 0)
        hn (Nat.mod_lt _ (by decide)) (by
          rw [Nat.div_lt_iff_lt_mul (by decide), ← Nat.pow_add]
          exact Nat.lt_of_lt_of_le ht (Nat.pow_le_pow_right (by decide) (by omega)))
      rw [this, show layer + 1 + n - 1 = layer + (n + 1) - 1 from by omega]

theorem SlhSecret.signTree_parts (k : SlhSecret) : ∀ (n layer tree leaf : Nat) (m : List Byte),
    (∀ x ∈ k.signTree n layer tree leaf m, x.length = 32) ∧ (k.signTree n layer tree leaf m).length = 75 * n
  | 0, _, _, _, _ => by simp [signTree]
  | n + 1, layer, tree, leaf, m => by
    have ih := signTree_parts k n (layer + 1) (tree / 2 ^ 8) (tree % 2 ^ 8) (slhNode k.pub (slhAdrs layer tree 2 0) (k.wotsLeaf layer tree) 8 0)
    constructor
    · intro x hx
      simp only [signTree, List.mem_append] at hx
      exact hx.elim (k.signNode_parts layer tree leaf m x) (ih.1 x)
    · simp only [signTree, List.length_append, ih.2, k.signNode_length]; omega

/-! ### FORS -/

theorem SlhSecret.signFors_parts (k : SlhSecret) (tree leaf : Nat) (md : List Byte) : ∀ x ∈ k.signFors tree leaf md, x.length = 32 := by
  intro x hx
  simp only [signFors, List.mem_flatMap, List.mem_cons] at hx
  obtain ⟨i, -, rfl | hx⟩ := hx
  · exact slhHash_length _ _ _
  · exact slhPath_parts _ _ _ _ _ (fun _ => slhHash_length _ _ _) x hx

theorem SlhSecret.signFors_length (k : SlhSecret) (tree leaf : Nat) (md : List Byte) : (k.signFors tree leaf md).length = 330 := by
  simp only [signFors, List.length_flatMap, List.length_cons, slhPath_length]
  rfl

/-- Value `j` of the `i`-th of some lists of `n` values each. -/
theorem getD_flatMap {α : Type} (f : Nat → List α) (d : α) (n : Nat) (h : ∀ i, (f i).length = n) : ∀ (m s i j : Nat), i < m → j < n →
    ((List.range' s m).flatMap f).getD (n * i + j) d = (f (s + i)).getD j d
  | 0, _, _, _, hi, _ => absurd hi (by omega)
  | m + 1, s, 0, j, _, hj => by
    rw [List.range'_succ, List.flatMap_cons, Nat.mul_zero, Nat.zero_add, getD_left _ _ _ _ (by rw [h]; exact hj), Nat.add_zero]
  | m + 1, s, i + 1, j, hi, hj => by
    have ih := getD_flatMap f d n h m (s + 1) i j (by omega) hj
    rw [List.range'_succ, List.flatMap_cons, getD_right _ _ _ _ (by rw [h, Nat.mul_add]; omega), h,
      show n * (i + 1) + j - n = n * i + j from by rw [Nat.mul_add]; omega, ih, show s + 1 + i = s + (i + 1) from by omega]

theorem SlhSecret.signFors_part (k : SlhSecret) (tree leaf : Nat) (md rest : List Byte) (i j : Nat) (hi : i < 22) (hj : j < 15) :
    slhPart ((k.signFors tree leaf md).flatten ++ rest) (15 * i + j) =
      (k.forsValue tree leaf (i * 2 ^ 14 + slhDigit 14 md i) ::
        slhPath k.pub (slhAdrs 0 tree 3 leaf) (k.forsLeaf tree leaf) (i * 2 ^ 14 + slhDigit 14 md i) 14).getD j [] := by
  rw [slhPart_flatten _ _ _ (k.signFors_parts tree leaf md) (by rw [signFors_length]; omega)]
  have := getD_flatMap (fun i => k.forsValue tree leaf (i * 2 ^ 14 + slhDigit 14 md i) ::
    slhPath k.pub (slhAdrs 0 tree 3 leaf) (k.forsLeaf tree leaf) (i * 2 ^ 14 + slhDigit 14 md i) 14) [] 15 (by simp [slhPath_length]) 22 0 i j hi hj
  simpa only [signFors, List.range_eq_range', Nat.zero_add] using this

theorem SlhSecret.slhFors_sign (k : SlhSecret) (tree leaf : Nat) (md rest : List Byte) :
    slhFors k.pub tree leaf ((k.signFors tree leaf md).flatten ++ rest) md = k.forsRoot tree leaf := by
  simp only [slhFors, forsRoot]
  congr 2
  refine List.map_congr_left (fun i hi => ?_)
  have hi := List.mem_range.mp hi
  have hd : slhDigit 14 md i < 2 ^ 14 := Nat.mod_lt _ (by decide)
  have path : (List.range 14).map (fun j => slhPart ((k.signFors tree leaf md).flatten ++ rest) (15 * i + 1 + j)) =
      slhPath k.pub (slhAdrs 0 tree 3 leaf) (k.forsLeaf tree leaf) (i * 2 ^ 14 + slhDigit 14 md i) 14 := by
    conv => rhs; unfold slhPath
    refine List.map_congr_left (fun j hj => ?_)
    have hj := List.mem_range.mp hj
    rw [show 15 * i + 1 + j = 15 * i + (j + 1) from by omega, k.signFors_part tree leaf md rest i (j + 1) hi (by omega)]
    simp [slhPath, List.getD_eq_getElem?_getD, List.getElem?_map, List.getElem?_range hj]
  have first := k.signFors_part tree leaf md rest i 0 hi (by omega)
  rw [Nat.add_zero] at first
  simp only [path, first, List.getD_cons_zero]
  have top := slhClimb_top k.pub (slhAdrs 0 tree 3 leaf) (k.forsLeaf tree leaf) (i * 2 ^ 14 + slhDigit 14 md i) 14
  rw [show (i * 2 ^ 14 + slhDigit 14 md i) / 2 ^ 14 = i from by omega] at top
  exact top

/-! ### The signature -/

theorem leNat_lt (bs : List Byte) : leNat bs < 2 ^ (8 * bs.length) := by
  induction bs with
  | nil => simp [leNat]
  | cons b bs ih =>
    have hb := b.isLt
    simp only [leNat, List.length_cons, Nat.mul_add, Nat.pow_add] at *
    omega

/-- A signature verifies under the public key of its secret, whatever its random bytes. -/
theorem SlhSecret.verifies (k : SlhSecret) (random m : List Byte) (hp : k.pub.length = 32) :
    slhVerify k.public m (k.sign random m) = true := by
  let r := shakeBytes (k.prf ++ random ++ ([0, 0] ++ m)) 32
  let digest := shakeBytes (r ++ k.public ++ ([0, 0] ++ m)) 47
  let tree := beNat ((digest.drop 39).take 7)
  let leaf := beNat (digest.drop 46)
  have hr : r.length = 32 := shakeBytes_length _ 32 (by omega)
  have hd : digest.length = 47 := shakeBytes_length _ 47 (by omega)
  have ht : tree < 2 ^ 56 := by
    have h := leNat_lt ((digest.drop 39).take 7).reverse
    simp only [List.length_reverse, List.length_take, List.length_drop, hd] at h
    exact h
  have hl : leaf < 2 ^ 8 := by
    have h := leNat_lt (digest.drop 46).reverse
    simp only [List.length_reverse, List.length_drop, hd] at h
    exact h
  let fors := k.signFors tree leaf (digest.take 39)
  let tops := k.signTree 8 0 tree leaf (k.forsRoot tree leaf)
  have parts : ∀ x ∈ r :: fors ++ tops, x.length = 32 := by
    intro x hx
    simp only [List.cons_append, List.mem_cons, List.mem_append] at hx
    rcases hx with rfl | hx | hx
    · exact hr
    · exact k.signFors_parts _ _ _ x hx
    · exact (k.signTree_parts 8 0 tree leaf _).1 x hx
  have sig : k.sign random m = (r :: fors ++ tops).flatten := rfl
  have len : (k.sign random m).length = 29792 := by
    rw [sig, flatten_length 32 _ parts]
    simp only [List.cons_append, List.length_cons, List.length_append]
    rw [show fors.length = 330 from k.signFors_length _ _ _, show tops.length = 75 * 8 from (k.signTree_parts 8 0 tree leaf _).2]
  have first : (k.sign random m).take 32 = r := by
    rw [sig, List.cons_append, List.flatten_cons, ← hr, List.take_left]
  have second : (k.sign random m).drop 32 = fors.flatten ++ tops.flatten := by
    rw [sig, List.cons_append, List.flatten_cons, ← hr, List.drop_left, List.flatten_append]
  have third : (k.sign random m).drop (32 * 331) = tops.flatten := by
    rw [sig]
    exact drop_flatten (r :: fors) tops 331 (fun x hx => parts x (List.mem_append_left _ hx))
      (by rw [List.length_cons, show fors.length = 330 from k.signFors_length _ _ _])
  have key : k.public.take 32 = k.pub := by rw [SlhSecret.public, ← hp, List.take_left]
  have root : k.public.drop 32 = slhNode k.pub (slhAdrs 7 0 2 0) (k.wotsLeaf 7 0) 8 0 := by rw [SlhSecret.public, ← hp, List.drop_left]
  have top := k.slhTree_sign 8 0 tree leaf (k.forsRoot tree leaf) (by omega) hl (by simpa using ht)
  have low := k.slhFors_sign tree leaf (digest.take 39) tops.flatten
  simp only [slhVerify, len, first, second, third, key, root, Bool.and_eq_true, decide_eq_true_eq, beq_iff_eq, true_and]
  exact (congrArg (slhTree k.pub 8 0 tree leaf tops.flatten) low).trans top

end Sys2Proof.Machine
end

