-- ==== Sys2Proof/Laws/VectorOps.lean ====
section
/-! SUPPORT. What the shared operations of the vector stream do: element-wise forms, whole-vector forms, masks and s
registers. -/

namespace Sys2Proof.Machine

/-- A vector instruction whose checks pass has its effect. -/
theorem onVectorIf_ready (s : State) (ok : Hart → Bool) (regs : List VOp) (f : State → State) (h : s.VectorReady ok regs) :
    onVectorIf s ok regs f = .next (f s) := by
  unfold onVectorIf
  rw [h.1, h.2.1, h.2.2]
  rfl

theorem State.VectorReady.writable {s : State} {ok : Hart → Bool} {regs : List VOp} {d : VOp} (h : s.VectorReady ok regs)
    (hd : d.writable = true) : s.VectorReady (fun t => ok t && d.writable) regs :=
  ⟨h.1, by simp [h.2.1, hd], h.2.2⟩

/-- A rounding draws from its element's own lane, and only under stochastic rounding (R143). -/
theorem roundDraw_lanes (t rnd : Nat) (sat : Bool) (x : Exact) (g : Lanes) (i : Nat) :
    (∀ j, j ≠ i % 256 → Tab.get 0 (roundDraw t rnd sat x g i).2 j = Tab.get 0 g j) ∧ (rnd ≠ stoch → (roundDraw t rnd sat x g i).2 = g) := by
  unfold roundDraw
  split
  · split
    · rename_i h
      exact ⟨fun j hj => by simp [draw, Tab.get_put, hj], fun hr => absurd h hr⟩
    · exact ⟨fun _ _ => rfl, fun _ => rfl⟩
  · exact ⟨fun _ _ => rfl, fun _ => rfl⟩

theorem Res.narrow_lanes (t rnd : Nat) (sat : Bool) (r : Res) (g : Lanes) (i : Nat) :
    (∀ j, j ≠ i % 256 → Tab.get 0 (r.narrow t rnd sat g i).2 j = Tab.get 0 g j) ∧ (rnd ≠ stoch → (r.narrow t rnd sat g i).2 = g) := by
  cases r with
  | bits c => exact ⟨fun _ _ => rfl, fun _ => rfl⟩
  | int v => exact ⟨fun _ _ => rfl, fun _ => rfl⟩
  | float x => exact roundDraw_lanes t rnd false x g i

theorem elemFn_ownLane (t : Hart) (f : ElemOp) (a b : VOp) : ownLane (elemFn t f a b) :=
  fun i _ g => (Res.narrow_lanes t.ty t.rnd t.sat _ g i).1

theorem elemFn_still (t : Hart) (f : ElemOp) (a b : VOp) (h : t.rnd ≠ stoch) (i p : Nat) (g : Lanes) : (elemFn t f a b i p g).2 = g :=
  (Res.narrow_lanes t.ty t.rnd t.sat _ g i).2 h

theorem binary_result (ok : Hart → Bool) (f : ElemOp) (d a b : VOp) (s : State) (h : s.VectorReady ok [d, a, b])
    (hd : d.writable = true) (hc : ∀ e, ¬ s.cutAt (s.hart s.me).vl e) :
    ∃ t, binary ok f d a b s = .next t ∧ s.ElemResult d (s.hart s.me).vl (elemFn (s.hart s.me) f a b) t :=
  ⟨_, onVectorIf_ready s _ _ _ (h.writable hd), State.elemResult_elementwise s d _ _ h.1 hc (elemFn_ownLane _ _ _ _)
    (fun hr => elemFn_still _ _ _ _ hr) (Nat.le_refl _)⟩

theorem binary_stop (ok : Hart → Bool) (f : ElemOp) (d a b : VOp) (s : State) (e : Nat) (h : s.VectorReady ok [d, a, b])
    (hd : d.writable = true) (hc : s.cutAt (s.hart s.me).vl e) :
    ∃ t, binary ok f d a b s = .next t ∧ s.ElemStop d e (elemFn (s.hart s.me) f a b) t :=
  ⟨_, onVectorIf_ready s _ _ _ (h.writable hd), State.elemStop_elementwise s d _ e _ hc (elemFn_ownLane _ _ _ _)
    (fun hr => elemFn_still _ _ _ _ hr) (Nat.le_refl _)⟩

theorem unary_result (ok : Hart → Bool) (f : ElemOp) (d a : VOp) (s : State) (h : s.VectorReady ok [d, a])
    (hd : d.writable = true) (hc : ∀ e, ¬ s.cutAt (s.hart s.me).vl e) :
    ∃ t, unary ok f d a s = .next t ∧ s.ElemResult d (s.hart s.me).vl (elemFn (s.hart s.me) f a a) t :=
  ⟨_, onVectorIf_ready s _ _ _ (h.writable hd), State.elemResult_elementwise s d _ _ h.1 hc (elemFn_ownLane _ _ _ _)
    (fun hr => elemFn_still _ _ _ _ hr) (Nat.le_refl _)⟩

theorem immediate_result (ok : Hart → Bool) (f : ElemOp) (d a : VOp) (b : Hart → Nat) (s : State) (h : s.VectorReady ok [d, a])
    (hd : d.writable = true) (hc : ∀ e, ¬ s.cutAt (s.hart s.me).vl e) :
    ∃ t, immediate ok f d a b s = .next t ∧ s.ElemResult d (s.hart s.me).vl (fun i p g =>
      elemFn (s.hart s.me) (fun t r st x _ q => f t r st x (b (s.hart s.me)) q) a a i p g) t :=
  ⟨_, onVectorIf_ready s _ _ _ (h.writable hd), State.elemResult_elementwise s d _ _ h.1 hc (elemFn_ownLane _ _ _ _)
    (fun hr => elemFn_still _ _ _ _ hr) (Nat.le_refl _)⟩

theorem testBit_lowBits (a b n i : Nat) : (lowBits a b n).testBit i = if i < n then b.testBit i else a.testBit i := by
  rw [lowBits, Nat.testBit_xor, Nat.testBit_mod_two_pow, Nat.testBit_xor]
  by_cases h : i < n
  · simp only [h, decide_true, Bool.true_and, if_true]; cases a.testBit i <;> simp
  · simp [h]

theorem testBit_setBit (x i : Nat) (b : Bool) (j : Nat) : (setBit x i b).testBit j = if j = i then b else x.testBit j := by
  unfold setBit
  split
  · rename_i h
    split
    · rename_i e; rw [e, h]
    · rfl
  · rename_i h
    rw [Nat.testBit_xor, Nat.testBit_two_pow]
    split
    · rename_i e
      subst e
      revert h
      cases x.testBit j <;> cases b <;> simp
    · rename_i e
      have : (i = j) = False := by simp; omega
      simp [this]

theorem bitsWhere_lt (p : Nat → Bool) (n : Nat) : bitsWhere p n < 2 ^ n := by
  induction n with
  | zero => simp [bitsWhere]
  | succ n ih =>
    rw [bitsWhere, Nat.pow_succ]
    split <;> omega

theorem testBit_bitsWhere (p : Nat → Bool) (n i : Nat) : (bitsWhere p n).testBit i = (decide (i < n) && p i) := by
  induction n with
  | zero => simp [bitsWhere]
  | succ n ih =>
    rw [bitsWhere]
    have hlt := bitsWhere_lt p n
    by_cases hi : i = n
    · subst hi
      split
      · rename_i h
        rw [Nat.add_comm, Nat.testBit_two_pow_add_eq, Nat.testBit_lt_two_pow hlt]; simp [h]
      · rename_i h
        rw [Nat.add_zero, Nat.testBit_lt_two_pow hlt]; simp [h]
    · have e : decide (i < n + 1) = decide (i < n) := by congr 1; simp; omega
      rw [e]
      split
      · by_cases h : i < n
        · rw [Nat.add_comm, Nat.testBit_two_pow_add_gt h, ih]
        · rw [Nat.testBit_lt_two_pow]
          · simp [h]
          · calc bitsWhere p n + 2 ^ n < 2 ^ n + 2 ^ n := by omega
              _ = 2 ^ (n + 1) := by rw [Nat.pow_succ]; omega
              _ ≤ 2 ^ i := Nat.pow_le_pow_right (by decide) (by omega)
      · exact ih

/-- A vector instruction that goes on with a changed hart. -/
theorem State.goesOn_advance (s : State) (u : Hart) (hv : s.isVector = true) (hp : u.vpc = (s.hart s.me).vpc) :
    s.GoesOn u (s.setHart s.me u).advance := by
  obtain ⟨h, hc⟩ := (State.isVector_iff s).mp hv
  unfold State.GoesOn
  rw [State.me_vec s h hc, State.advance_vec s h _ hc, State.nextPc_vec s h hc]
  rw [State.me_vec s h hc] at hp
  rw [hp]

theorem State.GoesOn.hart {s : State} {u : Hart} {t : State} (h : s.GoesOn u t) :
    t.hart s.me = { u with vpc := s.nextPc.setWidth 48, check := !u.loops.isEmpty } := by
  rw [h, State.hart_setHart_self]

theorem State.GoesOn.same {s : State} {u : Hart} {t : State} (h : s.GoesOn u t) : s.SameBytes t := by
  rw [h]; exact State.sameBytes_of _ _ rfl rfl (fun _ => rfl)

theorem State.maskResult_of (s : State) (k : BitVec 3) (m : Nat) (bit : Nat → Bool) (t : State)
    (hg : s.GoesOn { s.hart s.me with k := Tab.put 0 (s.hart s.me).k k.toNat m, vstart := 0 } t) (hm : ∀ i, m.testBit i = bit i) :
    s.MaskResult k bit t := by
  refine ⟨fun i => ?_, fun j hj => ?_, ⟨_, hg⟩, hg.same⟩
  · rw [hg.hart]
    simp only [Tab.get_put, if_true]
    exact hm i
  · rw [hg.hart]
    simp only [Tab.get_put]
    rw [if_neg (fun h => hj (BitVec.eq_of_toNat_eq h))]

theorem State.scalarResult_of (s : State) (clears : Bool) (r : BitVec 4) (v : W64) (t : State)
    (hg : s.GoesOn { s.hart s.me with
      s := Tab.put 0 (s.hart s.me).s r.toNat v,
      vstart := if clears then 0 else (s.hart s.me).vstart } t) :
    s.ScalarResult clears r v t := by
  refine ⟨?_, fun j hj => ?_, ⟨_, hg⟩, hg.same⟩
  · rw [State.readS, hg.hart]
    simp only [Tab.get_put, if_true]
  · rw [State.readS, hg.hart]
    simp only [Tab.get_put]
    rw [if_neg (fun h => hj (BitVec.eq_of_toNat_eq h))]
    rfl

theorem onVector_next (s : State) (f : State → State) (hv : s.isVector = true) : onVector s f = .next (f s).advance := by
  simp [onVector, hv]
theorem State.putS_eq (s : State) (r : BitVec 4) (v : W64) :
    s.putS r v = s.setHart s.me { s.hart s.me with s := Tab.put 0 (s.hart s.me).s r.toNat v } := rfl

end Sys2Proof.Machine
end

