-- ==== Sys2Proof/Tests/Slice0.lean ====
section
/-! SUPPORT. Tests of the model: the smoke tests of WellFormed, words written out from the spec's encodings, small steps with results
taken from the spec's examples or computed by hand from its rules, and for each statement a state that meets its hypotheses. -/

namespace Sys2Proof.Tests

set_option maxRecDepth 100000

open Sys2Proof.Machine

/-! ### WellFormed -/

theorem smoke_shift : Instr.illFormed (.slli 1 2 64) = some .reservedValue ∧ Instr.illFormed (.srli 1 2 64) = some .reservedValue
    ∧ Instr.illFormed (.srai 1 2 64) = some .reservedValue := by decide
theorem smoke_scalar_shift : Instr.illFormed (.sshli 1 2 64) = some .reservedValue
    ∧ Instr.illFormed (.sshri 1 2 64) = some .reservedValue := by decide
theorem smoke_destination3 : Instr.illFormed (.vadd (.repl 0 1) (.main 0) (.main 0)) = some .reservedValue
    ∧ Instr.illFormed (.vsel (.last 1) (.main 0) (.main 0)) = some .reservedValue
    ∧ Instr.illFormed (.vscan (.last 1) (.main 0) (.main 0)) = some .reservedValue := by decide
theorem smoke_destination2 : Instr.illFormed (.vabs (.last 1) (.main 0)) = some .reservedValue
    ∧ Instr.illFormed (.vcomp (.repl 0 0) (.main 0)) = some .reservedValue := by decide
theorem smoke_destination_imm : Instr.illFormed (.vaddi (.last 1) (.main 0) 1) = some .reservedValue
    ∧ Instr.illFormed (.vslup (.repl 1 0) (.main 0) 1) = some .reservedValue := by decide
theorem smoke_vidx : Instr.illFormed (.vidx (.last 1)) = some .reservedValue := by decide
theorem smoke_groups : Instr.illFormed (.vconfc (.last 1) (.main 0) 0) = some .reservedValue
    ∧ Instr.illFormed (.vgrp (.last 1) (.main 0) 0) = some .reservedValue := by decide
theorem smoke_conversion_type : Instr.illFormed (.vcvt (.main 0) (.main 0) 14) = some .reservedValue
    ∧ Instr.illFormed (.vcvtw (.main 0) (.main 0) 15) = some .reservedValue
    ∧ Instr.illFormed (.vcvtn (.main 0) (.main 0) 14) = some .reservedValue := by decide
theorem smoke_svl : Instr.illFormed (.svl 0 5) = some .reservedValue ∧ Instr.illFormed (.svl 0 14) = some .reservedValue := by decide
theorem smoke_vmode_unselected :
    Instr.illFormed (.vmode ⟨false, false, false, false, false, false, 1, 0, false, false, false, 0, false, 0⟩) = some .reservedBit := by decide
theorem smoke_vmode_value :
    Instr.illFormed (.vmode ⟨true, false, false, false, false, false, 14, 0, false, false, false, 0, false, 0⟩) = some .reservedValue := by decide
theorem smoke_nest : Instr.illFormed (.vnest 11 1) = some .reservedValue := by decide
theorem smoke_break : Instr.illFormed (.kbefore 0 1 false 1) = some .reservedBit
    ∧ Instr.illFormed (.kthrough 0 1 false 1) = some .reservedBit := by decide
theorem smoke_load : Instr.illFormed (.vld (.repl 0 0) 1) = some .reservedValue ∧ Instr.illFormed (.vlds (.last 1) 1 2) = some .reservedValue
    ∧ Instr.illFormed (.vldx (.last 1) 1 (.main 0) 0) = some .reservedValue
    ∧ Instr.illFormed (.vldh (.last 1) 1 (.main 0)) = some .reservedValue := by decide
theorem smoke_atomic : Instr.illFormed (.vamoadd (.repl 0 0) 1 (.main 0) 8) = some .reservedValue := by decide
theorem smoke_append : Instr.illFormed (.vappend (.main 0) 0 (.main 1) false 0) = some .reservedBit
    ∧ Instr.illFormed (.vappend (.main 0) 0 (.repl 0 0) true 0) = some .reservedValue := by decide
theorem smoke_products : Instr.illFormed (.mma 0 1 2 false 6) = some .reservedValue ∧ Instr.illFormed (.mmag 0 1 2 0 false 6) = some .reservedValue
    ∧ Instr.illFormed (.mmas 0 1 2 0 false 6) = some .reservedValue := by decide
theorem smoke_descent : Instr.illFormed (.mdsc 0 1 2 1 0 false 0) = some .reservedValue ∧ Instr.illFormed (.mcvt 0 1 2 false 5) = some .reservedValue := by
  decide
theorem smoke_lookup : Instr.illFormed (.klq 0 15 1 1 1) = some .reservedValue ∧ Instr.illFormed (.klu 0 1 15 1 1) = some .reservedValue
    ∧ Instr.illFormed (.klq 0 1 1 1 0) = some .reservedBit := by decide
theorem smoke_index : Instr.illFormed (.probe 15 0 1 0 0) = some .reservedValue ∧ Instr.illFormed (.gix 15 0 1 0 0) = some .reservedValue
    ∧ Instr.illFormed (.six 0 1 2 0 3 0) = some .reservedValue ∧ Instr.illFormed (.gix 0 1 2 0 13) = some .reservedValue := by decide
theorem smoke_copy : Instr.illFormed (.cpy 0 1 2 3 0 0) = some .reservedBit := by decide
theorem smoke_level : Instr.illFormed (.lnset 0 1 2 6) = some .reservedValue := by decide
theorem smoke_ldacq : Instr.illFormed (.ldacq 0 1 true 3 .dv) = some .reservedValue := by decide
theorem smoke_tinv : Instr.illFormed (.tinv 1 2 3) = some .reservedValue := by decide
theorem smoke_good : Instr.illFormed (.slli 1 2 63) = none ∧ Instr.illFormed (.vadd (.last 0) (.repl 0 1) (.main 3)) = none := by decide

/-! ### Words that the spec writes out with their encodings -/

theorem word_upper : decode 0x1D392345 = .ok (.lui 7 0x12345) := by and_intros <;> rfl
theorem word_store : decode 0x27B50000 = .ok (.std 22 20 0) := by and_intros <;> rfl
theorem word_registers : decode (0x01 * 2 ^ 24 + 3 * 2 ^ 19 + 1 * 2 ^ 14 + 2 * 2 ^ 9) = .ok (.add 3 1 2)
    ∧ decode (0x13 * 2 ^ 24 + 31 * 2 ^ 19 + 30 * 2 ^ 14 + 29 * 2 ^ 9) = .ok (.remu 31 30 29) := by and_intros <;> rfl
theorem word_immediate : decode (0x14 * 2 ^ 24 + 5 * 2 ^ 19 + 6 * 2 ^ 14 + 0x3FFF) = .ok (.addi 5 6 0x3FFF) := by and_intros <;> rfl
theorem word_load : decode (0x20 * 2 ^ 24 + 11 * 2 ^ 19 + 10 * 2 ^ 14 + 8) = .ok (.ld 11 10 8) := by and_intros <;> rfl
theorem word_branches : decode 0x30370005 = .ok (.beq 6 28 5) := by and_intros <;> rfl
theorem word_stream : decode 0x39B80000 = .ok (.rqpop 23)
    ∧ decode 0x3B000004 = .ok (.vdrain .sy)
    ∧ decode 0x3B000000 = .ok (.vdrain .tm) := by and_intros <;> rfl
theorem word_elements : decode 0x40030302 = .ok (.vadd (.main 3) (.main 3) (.main 2))
    ∧ decode 0x48040142 = .ok (.vfma (.main 4) (.main 1) (.oper 2))
    ∧ decode 0x57028001 = .ok (.vaddi (.main 2) (.last 0) 1) := by and_intros <;> rfl
theorem word_conversions : decode 0x61020101 = .ok (.vcvtw (.main 2) (.main 1) 1) := by and_intros <;> rfl
theorem word_comparisons : decode 0x68010407 = .ok (.vcge 1 (.main 4) (.main 7))
    ∧ decode 0x65020140 = .ok (.vclt 2 (.main 1) (.oper 0)) := by and_intros <;> rfl
theorem word_reductions : decode 0x690501C0 = .ok (.vredsum (.main 5) (.main 1) (.repl 0 0)) := by and_intros <;> rfl
theorem word_permutes : decode 0x70020604 = .ok (.vperm (.main 2) (.main 6) (.main 4))
    ∧ decode 0x74BA0100 = .ok (.vextr 11 10 2) := by and_intros <;> rfl
theorem word_masks : decode 0x7A250000 = .ok (.kandn 1 1 2)
    ∧ decode 0x7C04000D = .ok (.kpop 1 13)
    ∧ decode 0x7B200000 = .ok (.kset 1) := by and_intros <;> rfl
theorem word_scalars : decode 0x80007000 = .ok (.sadd 0 0 7)
    ∧ decode 0x8388F000 = .ok (.smax 8 8 15)
    ∧ decode 0x82423000 = .ok (.smin 4 2 3)
    ∧ decode 0x81225000 = .ok (.ssub 2 2 5)
    ∧ decode 0x85750002 = .ok (.sshli 7 5 2)
    ∧ decode 0x88500000 = .ok (.svl 5 0) := by and_intros <;> rfl
theorem word_mode : decode 0x89FE0000 = .ok (.vmode ⟨true, true, true, true, true, true, 8, 0, false, false, false, 0, false, 0⟩)
    ∧ decode 0x89080160 = .ok (.vmode ⟨false, false, false, false, true, false, 0, 0, false, false, true, 3, false, 0⟩)
    ∧ decode 0x8A400000 = .ok (.vlen 4) := by and_intros <;> rfl
theorem word_loops : decode 0x8B600008 = .ok (.vloop 12 8)
    ∧ decode 0x8C300009 = .ok (.vloopnz 6 9)
    ∧ decode 0x8E100000 = .ok (.vreply 1)
    ∧ decode 0x8F000000 = .ok .vend := by and_intros <;> rfl
theorem word_dependence : decode 0x90020100 = .ok (.vconf (.main 2) (.main 1))
    ∧ decode 0x91800103 = .ok (.vconfc (.last 0) (.main 1) 3)
    ∧ decode 0x92020201 = .ok (.vpart 2 (.main 2) 1)
    ∧ decode 0x94840016 = .ok (.kthrough 4 1 true 6)
    ∧ decode 0x960605C0 = .ok (.vcprop (.main 6) (.main 5) (.repl 0 0))
    ∧ decode 0x97030100 = .ok (.vcomp (.main 3) (.main 1))
    ∧ decode 0x98070300 = .ok (.vexpand (.main 7) (.main 3))
    ∧ decode 0x9A040102 = .ok (.vgrp (.main 4) (.main 1) 2) := by and_intros <;> rfl
theorem word_faultMask : decode 0x99A40000 = .ok (.vfchk 5 1)
    ∧ decode 0x99040001 = .ok (.vfchkR 1) := by and_intros <;> rfl
theorem word_vectorMemory : decode 0xA002C000 = .ok (.vld (.main 2) 12)
    ∧ decode 0xA2020003 = .ok (.vlds (.main 2) 0 3)
    ∧ decode 0xA30CD006 = .ok (.vsts (.main 12) 13 6)
    ∧ decode 0xA5031010 = .ok (.vstx (.main 3) 1 (.main 1) 0) := by and_intros <;> rfl
theorem word_appendAndHandles : decode 0xB30A7000 = .ok (.vappend (.main 10) 7 (.main 0) false 0)
    ∧ decode 0xB3023055 = .ok (.vappend (.main 2) 3 (.main 5) true 1)
    ∧ decode 0xB4032010 = .ok (.vldh (.main 3) 2 (.main 1)) := by and_intros <;> rfl
theorem word_matrix : decode 0xC0CB0000 = .ok (.matt 12 11)
    ∧ decode 0xC1000000 = .ok .mdet
    ∧ decode 0xC2450000 = .ok (.mzero 4 5)
    ∧ decode 0xC34B2008 = .ok (.mma 4 11 2 false 1)
    ∧ decode 0xC3123048 = .ok (.mma 1 2 3 true 1)
    ∧ decode 0xC4123418 = .ok (.mmas 1 2 3 4 false 3)
    ∧ decode 0xC5123288 = .ok (.mmag 1 2 3 5 false 1)
    ∧ decode 0xC589A0C8 = .ok (.mmag 8 9 10 1 true 1) := by and_intros <;> rfl
theorem word_matrixTransfers : decode 0xC7900604 = .ok (.ptrd 9 12 1 0)
    ∧ decode 0xC8400300 = .ok (.mrd 4 6)
    ∧ decode 0xC9400300 = .ok (.mwr 4 6)
    ∧ decode 0xCA465008 = .ok (.mcvt 4 6 5 false 1)
    ∧ decode 0xCA465048 = .ok (.mcvt 4 6 5 true 1) := by and_intros <;> rfl
theorem word_handleRegisters : decode 0xD0250007 = .ok (.hset 2 5 7)
    ∧ decode 0xD0200008 = .ok (.hsetZ 2)
    ∧ decode 0xD1000000 = .ok (.hld 0 0)
    ∧ decode 0xD2030000 = .ok (.hst 0 3) := by and_intros <;> rfl
theorem word_lookup : decode 0xD30CE601 = .ok (.klq 0 12 14 6 1)
    ∧ decode 0xD40CE000 = .ok (.klu 0 12 14 0 0) := by and_intros <;> rfl
theorem word_copies : decode 0xD8901000 = .ok (.cpy 9 0 1 0 0 0)
    ∧ decode 0xDA89A001 = .ok (.lnset 8 9 10 1)
    ∧ decode 0xDA000008 = .ok .lnsetZ := by and_intros <;> rfl
theorem word_ordering : decode 0xEA000003 = .ok (.fence .dv)
    ∧ decode 0xEA00000B = .ok (.fenceRl .dv)
    ∧ decode 0xEA000014 = .ok (.fenceAq .sy)
    ∧ decode 0xEB017403 = .ok (.waitge 5 26 .dv)
    ∧ decode 0xEC017403 = .ok (.waitne 5 26 .dv) := by and_intros <;> rfl
theorem word_barriers : decode 0xED052A03 = .ok (.expect 20 21 .dv)
    ∧ decode 0xEE352A03 = .ok (.arrive 6 20 21 .dv)
    ∧ decode 0xEF050C03 = .ok (.bwait 20 6 .dv) := by and_intros <;> rfl
theorem word_system : decode 0xF0280001 = .ok (.srr 5 0 1)
    ∧ decode 0xF029C109 = .ok (.srr 5 7 0x109)
    ∧ decode 0xF101D108 = .ok (.srw 7 8 0x108)
    ∧ decode 0xF2000000 = .ok .ecall
    ∧ decode 0xF3000000 = .ok .eret
    ∧ decode 0xF4000000 = .ok .exit
    ∧ decode 0xFA000000 = .ok .brk
    ∧ decode 0xF501C000 = .ok (.yield 7)
    ∧ decode 0xF6050000 = .ok (.launch 20) := by and_intros <;> rfl
theorem word_faultPath : decode 0xF7029600 = .ok (.tinv 10 11 0)
    ∧ decode 0xF8298000 = .ok (.fqpop 5 6)
    ∧ decode 0xF92A1200 = .ok (.fqreplay 5 8 9) := by and_intros <;> rfl
theorem word_unassigned : decode 0xFF000000 = .error .unassigned ∧ decode 0x8F000001 = .error .reservedBit
    ∧ decode 0x2C000000 = .error .unassigned := by and_intros <;> rfl
theorem word_table : decodeTableWord 32 0xF501C000 = some (.yield 7) ∧ decodeTableWord 32 0xFF000000 = none := by and_intros <;> rfl

/-! ### Small states -/

/-- Tables that map the first GiB onto itself: the root at 0x10000, the second level at 0x11000 with one leaf. -/
def pages : Tab Byte := [(0x10000, 0x01), (0x10001, 0x10), (0x10002, 0x01), (0x11000, 0x0F)]

/-- Team 0 with hart 0 on core 0, whose tables map the first GiB onto itself. -/
def team0 : Team := { st := .resident, ctx := 1, shape := 0x0000080050073FF1, started := true }
def hart0 : Hart := { resident := true, n := 32, groups := 0xFFFF, lg := 16, cpc := 0x20000, vpc := 0x20000 }
def base : State :=
  { linkUp := true, nteam := 1, nlaunch := 1, teams := [(0, team0)], harts := [(0, hart0)],
    mem := pages, ctxroot := [(1, 0x10001)], roots := [(1, 0x10001)] }

/-- The control stream of hart 0 with some registers; its vector stream; verge core 0. -/
def ctrl (x : Tab W64) : State := { base with cur := .ctrl 0, harts := [(0, { hart0 with x := x })] }
def vec (f : Hart → Hart) : State := { base with cur := .vec 0, harts := [(0, f { hart0 with block := some ⟨0, [], 0⟩ })] }
def verge (v : Verge) : State := { base with cur := .verge 0, verges := [(0, v)] }

/-- What a step leaves of the machine. -/
def after {α : Type} (i : Instr) (s : State) (f : State → α) : Option α :=
  match exec i s with
  | .next t => some (f t)
  | _ => none

def xOf (r : Nat) (s : State) : W64 := s.readX s.cur r
def sOf (r : Nat) (s : State) : W64 := s.readS 0 r
def elems (n w r : Nat) (s : State) : List Nat := (List.range n).map (elt w ((s.hart 0).vreg r).data)

/-- A register of elements. -/
def reg (w : Nat) (l : List Nat) : VReg := { data := l.foldr (fun x m => x + m * 2 ^ w) 0 }

/-! ### Control arithmetic (R60 to R63; the divisions' results are the spec's examples) -/

theorem test_add_wraps : after (.add 3 1 2) (ctrl [(1, 0xFFFFFFFFFFFFFFFF), (2, 2)]) (xOf 3) = some 1 := by decide
theorem test_sub : after (.sub 3 1 2) (ctrl [(1, 1), (2, 2)]) (xOf 3) = some 0xFFFFFFFFFFFFFFFF := by decide
theorem test_x0_discards : after (.add 0 1 2) (ctrl [(1, 3), (2, 2)]) (xOf 0) = some 0 := by decide
theorem test_sra_uses_six_bits : after (.sra 3 1 2) (ctrl [(1, 0x8000000000000000), (2, 65)]) (xOf 3) = some 0xC000000000000000 := by decide
theorem test_div_truncates : after (.div 3 1 2) (ctrl [(1, -7), (2, 2)]) (xOf 3) = some (-3) := by decide
theorem test_rem_sign : after (.rem 3 1 2) (ctrl [(1, -7), (2, 2)]) (xOf 3) = some (-1) := by decide
theorem test_divu_by_zero : after (.divu 3 1 2) (ctrl [(1, 7)]) (xOf 3) = some 0xFFFFFFFFFFFFFFFF := by decide
theorem test_div_overflow : after (.div 3 1 2) (ctrl [(1, 0x8000000000000000), (2, -1)]) (xOf 3) = some 0x8000000000000000 := by decide
theorem test_mulh : after (.mulh 3 1 2) (ctrl [(1, -1), (2, 1)]) (xOf 3) = some (-1) := by decide
theorem test_mulhu : after (.mulhu 3 1 2) (ctrl [(1, -1), (2, 2)]) (xOf 3) = some 1 := by decide
theorem test_slt : after (.slt 3 1 2) (ctrl [(1, -1), (2, 1)]) (xOf 3) = some 1 := by decide
theorem test_sltu : after (.sltu 3 1 2) (ctrl [(1, -1), (2, 1)]) (xOf 3) = some 0 := by decide
theorem test_min_signed : after (.min 3 1 2) (ctrl [(1, -1), (2, 1)]) (xOf 3) = some (-1) := by decide
theorem test_maxu : after (.maxu 3 1 2) (ctrl [(1, -1), (2, 1)]) (xOf 3) = some (-1) := by decide
theorem test_lui : after (.lui 7 0x12345) (ctrl []) (xOf 7) = some 0x48D14000 := by decide
theorem test_pc_advances : after (.addi 3 3 1) (ctrl []) (fun t => t.pcOf t.cur) = some 0x20004 := by decide
theorem test_jpf_word : after (.addi 3 3 1) { ctrl [] with teams := [(0, { team0 with jpf := true })] } (fun t => t.pcOf t.cur) = some 0x20008 := by decide
theorem test_branch_back : after (.beq 1 2 0x3FFF) (ctrl []) (fun t => t.pcOf t.cur) = some 0x1FFFC := by decide
theorem test_jalr_reads_before_writing : after (.jalr 5 5 0) (ctrl [(5, 0x100)]) (fun t => (t.pcOf t.cur, xOf 5 t)) = some (0x100, 0x20004) := by decide
theorem test_jalr_misaligned : after (.jalr 5 5 2) (ctrl [(5, 0x100)]) (fun t => ((t.hart 0).parkC.isSome, xOf 5 t)) = some (true, 0x100) := by decide
theorem test_verge_trap : after (.vend) (verge { tvec := 0x400, pc := 0x80 }) (fun t => ((t.verge 0).pc, (t.verge 0).epc, (t.verge 0).ecause)) = some (0x400, 0x80, 1) := by decide

/-! ### Vector arithmetic, masks, loops -/

/-- The vector stream with a mode, a length and registers. -/
def vreg (mode : BitVec 32) (vl : Nat) (v : Tab VReg) : State := vec (fun t => { t with mode := mode, vl := vl, v := v })

theorem test_vadd_wraps : after (.vadd (.main 3) (.main 1) (.main 2)) (vreg 0x60000 3 [(1, reg 8 [127, 1, 250]), (2, reg 8 [1, 2, 10])]) (elems 4 8 3)
    = some [128, 3, 4, 0] := by decide
theorem test_vadd_saturates : after (.vadd (.main 3) (.main 1) (.main 2)) (vreg 0x61000 2 [(1, reg 8 [127, 0x80]), (2, reg 8 [1, 0xFF])]) (elems 2 8 3)
    = some [127, 0x80] := by decide
theorem test_vadd_guard_keeps : after (.vadd (.main 3) (.main 1) (.main 2))
    (vec (fun t => { t with mode := 0xA0480, vl := 2, k := [(1, 2)], v := [(1, reg 8 [1, 1]), (2, reg 8 [1, 1]), (3, reg 8 [9, 9])] })) (elems 2 8 3)
    = some [9, 2] := by decide
theorem test_vfma_rounds_once : after (.vfma (.main 3) (.main 1) (.main 2))
    (vreg 0 1 [(1, reg 32 [0x3F800001]), (2, reg 32 [0x3F800001]), (3, reg 32 [0xBF800000])]) (elems 1 32 3) = some [0x34800000] := by decide
theorem test_vdiv_by_zero : after (.vdiv (.main 3) (.main 1) (.main 2)) (vreg 0xA0000 1 [(1, reg 8 [7])]) (elems 1 8 3) = some [255] := by decide
theorem test_lfile_moves : after (.vidx (.main 3)) (vreg 0xA0000 3 [(40, reg 8 [5])]) (fun t => (elems 3 8 40 t, elems 1 8 41 t)) = some ([0, 1, 2], [5]) := by decide
theorem test_vceq_nan : after (.vceq 2 (.main 1) (.main 1)) (vreg 0 2 [(1, reg 32 [0x7FC00000, 1])]) (fun t => Tab.get 0 (t.hart 0).k 2) = some 2 := by decide
theorem test_vcne_nan : after (.vcne 2 (.main 1) (.main 1)) (vreg 0 2 [(1, reg 32 [0x7FC00000, 1])]) (fun t => Tab.get 0 (t.hart 0).k 2) = some 1 := by decide
theorem test_vredsum : after (.vredsum (.main 3) (.main 1) (.main 2)) (vreg 0xA0000 3 [(1, reg 8 [1, 2, 3]), (2, reg 8 [10]), (3, reg 8 [7, 7])]) (elems 2 8 3)
    = some [16, 7] := by decide
/-- Each step of a float maximum draws from the lane of the element that it combines (R83, R143). -/
theorem test_vredmax_draws : after (.vredmax (.main 3) (.main 1) (.main 2))
    (vec (fun t => { t with mode := 0xA000, vl := 2, v := [(1, reg 32 [0x3F800000, 0x40000000])], rng := [(0, 1), (1, 1), (2, 1)] }))
    (fun t => (elems 1 32 3 t, Tab.get 0 (t.hart 0).rng 1 == 1, Tab.get 0 (t.hart 0).rng 2)) = some ([0x40000000], false, 1) := by decide
theorem test_vscan : after (.vscan (.main 3) (.main 1) (.main 2)) (vreg 0xA0000 3 [(1, reg 8 [1, 2, 3]), (2, reg 8 [10])]) (elems 3 8 3) = some [11, 13, 16] := by decide
theorem test_vperm_out : after (.vperm (.main 3) (.main 1) (.main 2)) (vreg 0xA0000 3 [(1, reg 8 [4, 5, 6]), (2, reg 8 [2, 3, 0])]) (elems 3 8 3) = some [6, 0, 4] := by decide
theorem test_vconf : after (.vconf (.main 3) (.main 1)) (vreg 0xC0000 4 [(1, reg 32 [5, 6, 5, 5])]) (elems 4 32 3)
    = some [0xFFFFFFFF, 0xFFFFFFFF, 0, 2] := by decide
theorem test_kandn : after (.kandn 1 1 2) (vec (fun t => { t with vl := 4, k := [(1, 0xFF), (2, 5)] })) (fun t => Tab.get 0 (t.hart 0).k 1) = some 0xFA := by decide
theorem test_kpop : after (.kpop 1 13) (vec (fun t => { t with vl := 4, k := [(1, 0xFF)] })) (sOf 13) = some 4 := by decide
theorem test_kfirst_none : after (.kfirst 1 13) (vec (fun t => { t with vl := 4, k := [(1, 0xF0)] })) (sOf 13) = some 4 := by decide
theorem test_kthrough : after (.kthrough 4 1 true 6) (vec (fun t => { t with vl := 8, k := [(1, 0x30)] })) (fun t => (Tab.get 0 (t.hart 0).k 4, sOf 6 t)) = some (0x1F, 4) := by decide
theorem test_kbefore : after (.kbefore 4 1 true 6) (vec (fun t => { t with vl := 8, k := [(1, 0x30)] })) (fun t => (Tab.get 0 (t.hart 0).k 4, sOf 6 t)) = some (0xF, 4) := by decide
theorem test_vmode : after (.vmode ⟨true, false, false, false, false, false, 12, 0, false, false, false, 0, false, 0⟩) (vec (fun t => { t with vl := 100000 }))
    (fun t => ((t.hart 0).ty, (t.hart 0).vl)) = some (12, 9216) := by decide
theorem test_vlen : after (.vlen 4) (vec (fun t => { t with s := [(4, 7)] })) (fun t => (t.hart 0).vl) = some 7 := by decide
theorem test_vloop_zero : after (.vloop 1 8) (vec id) (fun t => ((t.hart 0).vpc, (t.hart 0).loops.length)) = some (0x20020, 0) := by decide
theorem test_vloop_push : after (.vloop 1 8) (vec (fun t => { t with s := [(1, 2)] })) (fun t => ((t.hart 0).vpc, (t.hart 0).loops.map Loop.stop)) = some (0x20004, [0x20020]) := by decide
theorem test_loop_end : after (.loopEndCheck 0) (vec (fun t => { t with check := true, loops := [⟨.count 2, 0x20000, 0x10000, 0⟩] }))
    (fun t => ((t.hart 0).vpc, (t.hart 0).loops.map Loop.passes)) = some (0x10000, [1]) := by decide
theorem test_vfchk : after (.vfchk 5 1) (vec (fun t => { t with vl := 8, fm := 0x42, k := [(1, 0x1F)] })) (fun t => (Tab.get 0 (t.hart 0).k 5, (t.hart 0).fm)) = some (2, 0x40) := by decide
theorem test_vfchk_r : after (.vfchkR 1) (vec (fun t => { t with vl := 8, fm := 0x42, k := [(1, 0xFF)] })) (fun t => ((t.hart 0).parkV.isSome, (t.hart 0).fm)) = some (true, 0x42) := by decide
theorem test_smin : after (.smin 4 2 3) (vec (fun t => { t with s := [(2, -1), (3, 5)] })) (sOf 4) = some 5 := by decide
theorem test_smin_signed : after (.sminS 4 2 3) (vec (fun t => { t with s := [(2, -1), (3, 5)] })) (sOf 4) = some (-1) := by decide
theorem test_vextr_sign : after (.vextr 1 2 3) (vreg 0x60000 2 [(3, reg 8 [1, 0x80])]) (sOf 1) = some 1 := by decide
theorem test_vlast : after (.vlast 1 2 3) (vreg 0x60000 2 [(3, reg 8 [1, 0x80])]) (sOf 1) = some (-128) := by decide

/-! ### Memory -/

/-- The control stream with home bytes. -/
def mem (x : Tab W64) (m : Tab Byte) : State := { ctrl x with mem := m ++ pages }

theorem test_lb_sign : after (.lb 1 2 1) (mem [(2, 0x100)] [(0x101, 0x80)]) (xOf 1) = some (-128) := by decide
theorem test_ld_little_endian : after (.ld 1 2 0) (mem [(2, 0x100)] [(0x100, 1), (0x107, 2)]) (xOf 1) = some 0x0200000000000001 := by decide
theorem test_lw_misaligned : after (.lw 1 2 2) (ctrl [(2, 0x100)]) (fun t => ((t.hart 0).parkC.isSome, (t.reports.map (fun r => r.words.headD 0)))) =
    some (true, [0x0000000100012103]) := by decide
theorem test_std_stays_in_l1 : after (.std 1 2 0) (ctrl [(1, 0x1122), (2, 0x100)]) (fun t => (t.homeByte 0x100, t.seenByte 0 0x100, t.seenByte 0 0x101, t.seenByte 1 0x100))
    = some (0, 0x22, 0x11, 0) := by decide
theorem test_spad_store : after (.stw 1 2 0) (ctrl [(1, 0x1122), (2, 0xFF0000000004)]) (fun t => (t.spadByte 0 4, t.spadByte 0 5)) = some (0x22, 0x11) := by decide
theorem test_spad_end : after (.stw 1 2 0) (ctrl [(2, 0xFF0000050000)]) (fun t => (t.hart 0).parkC.isSome) = some true := by decide
theorem test_amo_add : after (.amoAdd 1 2 3 0 true .dv) (mem [(2, 0x100), (3, 1)] [(0x100, 0xFF), (0x101, 0xFF), (0x102, 0xFF), (0x103, 0xFF), (0x104, 9)])
    (fun t => (xOf 1 t, t.home 0x100 5)) = some (0xFFFFFFFF, [0, 0, 0, 0, 9]) := by decide
theorem test_amo_min_signed : after (.amoMin 1 2 3 0 true .dv) (mem [(2, 0x100), (3, 1)] [(0x100, 0xFE), (0x101, 0xFF), (0x102, 0xFF), (0x103, 0xFF)])
    (fun t => (xOf 1 t, t.home 0x100 1)) = some (-2, [0xFE]) := by decide
theorem test_amo_cas_fails : after (.amoCas 1 2 3 0 true .dv) (mem [(1, 4), (2, 0x100), (3, 1)] [(0x100, 5)]) (fun t => (xOf 1 t, t.home 0x100 1)) = some (5, [5]) := by decide
theorem test_strel : after (.strel 2 3 3 .dv) (mem [(2, 0x100), (3, 0x1234)] []) (fun t => t.home 0x100 2) = some [0x34, 0x12] := by decide
theorem test_fence_writes_back : after (.fence .dv) { ctrl [] with l1 := [(0x100, some ⟨7, true, 0⟩), (0x200, some ⟨8, false, 0⟩)] }
    (fun t => (t.homeByte 0x100, t.l1Byte 0 0x200)) = some (7, none) := by decide
theorem test_fence_aq_keeps_dirty : after (.fenceAq .dv) { ctrl [] with l1 := [(0x100, some ⟨7, true, 0⟩)] } (fun t => (t.homeByte 0x100, t.seenByte 0 0x100)) = some (0, 7) := by decide
theorem test_waitge_sleeps : after (.waitge 2 3 .dv) (mem [(2, 0x100), (3, 5)] [(0x100, 4)]) (fun t => ((t.hart 0).wait, (t.hart 0).cpc)) = some (some .asleep, 0x20000) := by decide
theorem test_waitge_ends : after (.waitge 2 3 .dv) (mem [(2, 0x100), (3, 5)] [(0x100, 5)]) (fun t => ((t.hart 0).wait, (t.hart 0).cpc)) = some (none, 0x20004) := by decide
-- the rows of the spec's barrier table: pending 5 and an addend that overflows; an arrival of the last three
theorem test_expect : after (.expect 2 3 .dv) (mem [(2, 0x100), (3, 3)] [(0x100, 5)]) (fun t => t.home 0x100 1) = some [8] := by decide
theorem test_expect_overflow : after (.expect 2 3 .dv) (mem [(2, 0x100), (3, 0xFFFFFFFB)] [(0x100, 5)]) (fun t => (t.home 0x100 1, t.reports.map (fun r => (r.words.headD 0).toNat % 256))) = some ([5], [0x13]) := by decide
theorem test_arrive_turns : after (.arrive 1 2 3 .dv) (mem [(2, 0x100), (3, 7)] [(0x100, 3), (0x104, 2), (0x108, 9)]) (fun t => (xOf 1 t, t.home 0x100 9)) = some (2, [9, 0, 0, 0, 3, 0, 0, 0, 9]) := by decide
theorem test_arrive_underflow : after (.arrive 1 2 3 .dv) (mem [(2, 0x100), (3, 15)] [(0x100, 3)]) (fun t => t.reports.map (fun r => (r.words.headD 0).toNat % 256)) = some [0x14] := by decide
theorem test_bwait_sleeps : after (.bwait 2 3 .dv) (mem [(2, 0x100), (3, 2)] [(0x104, 2)]) (fun t => (t.hart 0).wait) = some (some .asleep) := by decide

/-! ### Vector memory -/

def vmem (mode : BitVec 32) (vl : Nat) (sr : Tab W64) (v : Tab VReg) (m : Tab Byte) : State :=
  { vec (fun t => { t with mode := mode, vl := vl, v := v, s := sr }) with mem := m ++ pages }

theorem test_vld : after (.vld (.main 2) 12) (vmem 0xA0000 2 [(12, 0x100)] [] [(0x100, 3), (0x101, 4)]) (elems 2 8 2) = some [3, 4] := by decide
theorem test_vlds : after (.vlds (.main 2) 0 3) (vmem 0xA0000 2 [(0, 0x100), (3, 2)] [] [(0x100, 3), (0x102, 4)]) (elems 2 8 2) = some [3, 4] := by decide
theorem test_vst : after (.vst (.main 2) 12) (vmem 0xA0000 2 [(12, 0x100)] [(2, reg 8 [3, 4])] []) (fun t => (t.seenByte 0 0x100, t.seenByte 0 0x101)) = some (3, 4) := by decide
theorem test_vstxo_last_wins : after (.vstxo (.main 2) 12 (.main 3) 0) (vmem 0xA0000 2 [(12, 0x100)] [(2, reg 8 [3, 4]), (3, reg 8 [1, 1])] []) (fun t => t.seenByte 0 0x101) = some 4 := by decide
theorem test_vld_traps_at_element : after (.vld (.main 2) 12) { vmem 0xA0000 2 [(12, 0x3FFFFFFF)] [] [] with mem := pages ++ [(0x3FFFFFFF, 7)] } (fun t => ((t.hart 0).vstart, (t.hart 0).parkV.isSome, elems 2 8 2 t))
    = some (1, true, [7, 0]) := by decide
theorem test_vldff_lowers : after (.vldff (.main 2) 12) { vmem 0xA0000 2 [(12, 0x3FFFFFFF)] [] [] with mem := pages ++ [(0x3FFFFFFF, 7)] } (fun t => ((t.hart 0).vl, (t.hart 0).parkV.isSome)) = some (1, false) := by decide
theorem test_vldsp_marks : after (.vldsp (.main 2) 12) { vmem 0xA0000 2 [(12, 0x3FFFFFFF)] [] [] with mem := pages ++ [(0x3FFFFFFF, 7)] } (fun t => ((t.hart 0).fm, elems 2 8 2 t)) = some (2, [7, 0]) := by decide
theorem test_vamoadd_twice : after (.vamoadd (.main 2) 12 (.main 3) 8) (vmem 0xC0000 2 [(12, 0x100)] [(2, reg 32 [3, 4]), (3, reg 32 [0, 0])] [(0x100, 1)])
    (fun t => (elems 2 32 2 t, t.ownByte 0 0x100)) = some ([1, 4], 8) := by decide
theorem test_vappend : after (.vappend (.main 2) 7 (.main 0) false 0)
    (vmem 0xA0000 3 [(7, 0x200)] [(2, reg 8 [3, 4, 5])] [(0x200, 1), (0x208, 3), (0x211, 1)]) (fun t => (t.ownByte 0 0x200, t.ownByte 0 0x101, t.ownByte 0 0x102, t.ownByte 0 0x103))
    = some (4, 3, 4, 0) := by decide
theorem test_hld : after (.hld 0 1) (vmem 0 0 [(1, 0x200)] [] [(0x200, 9), (0x23F, 1)]) (fun t => (Tab.get 0 (t.hart 0).hd 0).extractLsb' 0 64) = some 9 := by decide

/-! ### Traps, calls and system registers -/

theorem test_ecall_parks : after .ecall (ctrl []) (fun t => ((t.hart 0).parkC, (t.hart 0).cpc, t.reports.map (fun r => (r.words.headD 0).toNat % 256))) = some (some ⟨0, false⟩, 0x20000, [0x16]) := by decide
theorem test_ecall_verge : after .ecall (verge { tvec := 0x400, pc := 0x80 }) (fun t => ((t.verge 0).pc, (t.verge 0).epc, (t.verge 0).ecause)) = some (0x400, 0x80, 0x16) := by decide
theorem test_eret : after .eret (verge { epc := 0x84, pc := 0x400 }) (fun t => (t.verge 0).pc) = some 0x84 := by decide
theorem test_eret_hart : after .eret (ctrl []) (fun t => t.reports.map (fun r => (r.words.getD 6 0).toNat)) = some [3] := by decide
theorem test_brk_armed : after .brk { ctrl [] with dbgctl := 0x80000 } (fun t => ((t.hart 0).halted, t.reports.length)) = some (some 3, 0) := by decide
theorem test_exit : after .exit (ctrl []) (fun t => ((t.hart 0).exited, (t.hart 0).cpc)) = some (true, 0x20004) := by decide
theorem test_yield : after (.yield 7) { ctrl [(7, 100000)] with cycle := 5 } (fun t => (t.hart 0).wait) = some (some (.yield 65541)) := by decide
theorem test_srr_hartid : after (.srr 5 0 1) { ctrl [] with harts := [(0, { hart0 with num := 77 })] } (xOf 5) = some 77 := by decide
theorem test_srr_reserved : after (.srr 5 0 10) (ctrl []) (fun t => t.reports.length) = some 1 := by decide
theorem test_srw_tvec : after (.srw 0 1 0xF0) (verge { x := [(1, 0x403)] }) (fun t => (t.verge 0).tvec) = some 0x400 := by decide
theorem test_fqpop_empty : after (.fqpop 5 6) (verge { x := [(6, 0x100), (5, 9)] }) (xOf 5) = some 0 := by decide
theorem test_tinv : after (.tinv 10 11 0) { verge { x := [(10, 0x1234), (11, 1)] } with tlb := [⟨0, 1, 0x1000, 0x1000, 0xF⟩, ⟨0, 2, 0x1000, 0x1000, 0xF⟩] } (fun t => t.tlb.map TlbEntry.ctx) = some [2] := by decide
theorem test_fqreplay_skips : after (.fqreplay 5 8 9) { verge { x := [(8, 3), (9, 1)] } with harts := [(0, { hart0 with parkC := some ⟨3, false⟩ })] }
    (fun t => (xOf 5 t, (t.hart 0).parkC, (t.hart 0).cpc)) = some (1, none, 0x20004) := by decide
theorem test_vgo : after (.vgo 16) (ctrl [(10, 7)]) (fun t => (t.hart 0).blockQ.map (fun b => (b.addr, b.args.headD 0))) = some [(0x20040, 7)] := by decide
theorem test_rqpop : after (.rqpop 23) { ctrl [] with harts := [(0, { hart0 with replyQ := [4, 5] })] } (fun t => (xOf 23 t, (t.hart 0).replyQ)) = some (4, [5]) := by decide
theorem test_vsetl : after (.vsetl 5 0 9) { ctrl [] with harts := [(0, { hart0 with vl := 9 })] } (fun t => (xOf 5 t, (t.hart 0).n, (t.hart 0).vl)) = some (16, 16, 0) := by decide
theorem test_vreply : after (.vreply 1) (vec (fun t => { t with s := [(1, 6)] })) (fun t => (t.hart 0).replyQ) = some [6] := by decide
theorem test_block_start : after (.blockStart 0) { base with harts := [(0, { hart0 with blockQ := [⟨0x40, [7], 0x20⟩], vl := 5 })] } (fun t => ((t.hart 0).vpc, sOf 0 t, (t.hart 0).vl)) = some (0x40, 7, 0) := by decide

/-! ### Engines -/

def eng (sr : Tab W64) (op : EngOp) (stage : Stage) (add : Nat) : State :=
  { vec (fun t => { t with s := sr }) with cmds := [⟨0, 0, 0, 0, op, 0x300, add, [], stage, 0, 0, none, false, [], []⟩] }

def cmd0 (op : EngOp) : Cmd := ⟨0, 0, 0, 0, op, 0, 0, [], .run, 0, 0, none, false, [], []⟩

theorem test_cpy_reserved_register : after (.cpy 0 1 2 3 0 0) (vec (fun t => { t with s := [(1, 0x100), (2, 64)] })) (fun t => (t.cmds.map (fun c => (c.seq, c.stage)), (t.hart 0).engseq))
    = some ([], 0) := by decide
theorem test_cpy_issues : after (.cpy 0 1 2 0 0 0) (vec (fun t => { t with s := [(1, 0x100), (2, 64)] })) (fun t => (t.cmds.map (fun c => (c.seq, c.stage)), (t.hart 0).engseq))
    = some ([(0, .run)], 1) := by decide
theorem test_copy_run : after (.copyRun 0 0) { eng [] (.copy 0 0 0x100 2 [⟨1, 0, 0⟩]) .run 1 with mem := [(0x100, 5), (0x101, 6)] ++ pages }
    (fun t => ((t.team 0).spad, t.cmds.map Cmd.stage)) = some ([(0, 5), (1, 6)], [.add]) := by decide
theorem test_completion_add : after (.completionAdd 0 0) { eng [] (.copy 0 0 0x100 2 []) .add 3 with mem := [(0x300, 255)] ++ pages } (fun t => (t.home 0x300 2, t.cmds.length)) = some ([2, 1], 0) := by decide
theorem test_matt : after (.matt 12 11) (vec (fun t => { t with s := [(11, 20)] })) (fun t => (sOf 12 t, (t.team 0).rows)) = some (4, 4) := by decide
theorem test_mma_without_rows : after (.mma 0 1 2 false 1) (vec id) (fun t => (t.cmds.length, t.reports.map (fun r => (r.words.headD 0).toNat % 256))) = some (0, [0x0B]) := by decide
theorem test_mrd : after (.mrd 4 6) { vreg 0 2 [] with teams := [(0, { team0 with acc := [(0, 7), (1, 8)] })] } (elems 2 32 6) = some [7, 8] := by decide
theorem test_mwr : after (.mwr 4 6) (vec (fun t => { t with vl := 2, s := [(4, 5)], v := [(6, reg 32 [7, 8])] })) (fun t => (t.team 0).acc) = some [(5, 7), (6, 8)] := by decide
theorem test_mzero : after (.mzero 4 5) { vec (fun t => { t with s := [(5, 1)] }) with teams := [(0, { team0 with acc := [(3, 7), (1024, 8)] })] } (fun t => (t.team 0).acc) = some [(1024, 8)] := by decide
theorem test_ptrd_bit : after (.ptrd 9 12 1 0) (vec (fun t => { t with vl := 2, mode := 0xC0 * 0x1000, pt := [(0, 1), (8, 2)] })) (elems 2 32 12) = some [1, 0] := by decide
theorem test_probe : after (.probe 1 2 3 4 2) (vec (fun t => { t with vl := 2, mode := 0xC0000, s := [(1, 0x100), (2, 5), (3, 4)], v := [(4, reg 32 [4, 5])] })) (fun t => Tab.get 0 (t.hart 0).k 2) = some 2 := by decide
theorem test_index_move : after (.indexMove 0 0) { eng [] (.gix 0x100 4 9 4 0 [2]) .run 0 with mem := [(0x108, 5)] ++ pages } (fun t => ((t.team 0).spad, t.cmds.length)) = some ([(0, 5)], 0) := by decide
/-- Before the first row moves, a dirty byte of a later row's goes home (R189, R208). -/
theorem test_index_flushes : after (.indexMove 0 0) { eng [] (.gix 0x100 4 9 4 0 [2, 5]) .run 0 with
      l1 := [(0x114, some ⟨7, true, 0⟩)], cmds := [{ cmd0 (.gix 0x100 4 9 4 0 [2, 5]) with ranges := [⟨true, 0x100, 0x117, false⟩] }] }
    (fun t => (t.home 0x114 1, t.l1)) = some ([7], []) := by decide
/-- A trap of an illegal descent, product or lookup leaves vstart 0, that of another word leaves it (R129, R158, R174, R55). -/
theorem test_illegal_clears : let s := vec (fun t => { t with vstart := 3 })
    let x (t : State) := ((t.hart 0).vstart, t.reports.length)
    (s.hart 0).ty ≠ tN32 ∧ after (.mmag 0 1 2 3 false 1) s x = some (0, 1) ∧ after (.mdsc 0 1 2 6 0 false 0) s x = some (0, 1)
    ∧ after (.klu 1 2 15 0 0) s x = some (0, 1) ∧ after (.klq 1 2 3 4 0) s x = some (0, 1) ∧ after (.vsqrt (.main 1) (.main 2)) { s with
      harts := [(0, { s.hart 0 with mode := 0xC0000 })] } x = some (3, 1) := by decide
theorem test_lnset : after (.lnset 8 9 10 1) (vec (fun t => { t with s := [(8, 2), (9, 64), (10, 192)] })) (fun t => Tab.get {} (t.hart 0).nest 1) = some ⟨2, 64, 192⟩ := by decide
theorem test_hset : after (.hset 2 5 7) (vec (fun t => { t with s := [(5, 3)] })) (fun t => ((Tab.get 0 (t.hart 0).hd 2).extractLsb' 448 64)) = some 3 := by decide

/-! ### Crossroads, debugging, links, power -/

/-- A record of one hart of class 0 with entry 0x4000. -/
def record : List W64 := [0x4000, 0x100, 0, 0, 0, 0, 1, 0]

theorem test_launch_queues : after (.launch 20) { mem [(20, 0x1000)] [(0x1001, 0x40), (0x1009, 1), (0x1030, 1)] with ctxroot := [(1, 0x10001)] }
    (fun t => (t.dq.map (fun e => (e.1, e.2.map DevRecord.words)), (t.hart 0).cpc)) = some ([(4, [record])], 0x20004) := by decide
theorem test_launch_refuses : after (.launch 20) (mem [(20, 0x1000)] [(0x1001, 0x40)]) (fun t => (t.dq, t.reports.map (fun r => (r.words.headD 0).toNat % 256))) = some ([], [0x15]) := by decide
theorem test_take_record : after .takeRecord { base with dq := [(4, [⟨record, 3, 0x40⟩])] } (fun t => (t.dq, t.nteam, (t.team 1).st, (t.launch 1).teams)) = some ([], 2, .pending, 1) := by decide
theorem test_pass_places : after .schedulerPass { base with teams := [(0, { st := .pending, shape := 0x1 })], launches := [(0, { words := record, teams := 1 })], power := 152 }
    (fun t => ((t.team 0).st, (t.hart 0).resident, (t.hart 0).cpc, (t.hart 0).lg)) = some (.resident, true, 0x4000, 1) := by decide
theorem test_preempt_stop : after (.preemptStop 0) { base with teams := [(0, { team0 with request := true })] } (fun t => (t.team 0).st) = some .stopping := by decide
theorem test_team_save : after (.teamSave 0) { base with teams := [(0, { team0 with st := .stopping })], l1 := [(0x100, some ⟨7, true, 0⟩)] } (fun t => ((t.team 0).st, t.homeByte 0x100, (t.hart 0).groups)) = some (.saved, 7, 0) := by decide
theorem test_team_retire : after (.teamRetire 0) { base with harts := [(0, { hart0 with exited := true })], launches := [(0, { words := record, teams := 1, src := .device 0 0 })] }
    (fun t => ((t.team 0).st, (t.launch 0).finished)) = some (.retired, true) := by decide
theorem test_team_ageing : after (.teamAgeing 0) { base with cycle := 2 ^ 24, teams := [(0, { st := .pending })] } (fun t => (t.team 0).aged) = some true := by decide
theorem test_lane_group_return : after (.laneGroupReturn 0) { base with harts := [(0, { hart0 with exited := true })] } (fun t => ((t.hart 0).groups, (t.hart 0).lg)) = some (0, 0) := by decide
theorem test_haltreq : after (.haltreq 0) base (fun t => ((t.hart 0).halted, t.dbgctl)) = some (some 1, 0x10000) := by decide
theorem test_resumereq : after (.resumereq 0) { base with harts := [(0, { hart0 with halted := some 3 })] } (fun t => ((t.hart 0).halted, (t.hart 0).cpc)) = some (none, 0x20004) := by decide
theorem test_access_register : after (.accessRegister 0x00320B01) { base with harts := [(0, { hart0 with x := [(1, 9)], halted := some 1 })] } (fun t => (t.data0, t.cmderr)) = some (9, 0) := by decide
theorem test_access_memory : after (.accessMemory 0x02000000) { base with data2 := 0x100, mem := [(0x100, 9)] } (fun t => (t.data0, t.cmderr)) = some (9, 0) := by decide
theorem test_rfdata : after (.rfdataAccess 0 none) { base with harts := [(0, { hart0 with s := [(3, 9)], parkC := some ⟨0, false⟩, rfsel := 0x0A03000000000000 })] } (fun t => (t.hostData, (t.hart 0).rfsel)) = some (9, 0x0A03000000000008) := by decide
theorem test_horizon : after (.l1WritebackHorizon 0 4) { base with cycle := 65536, l1 := [(0x100, some ⟨7, true, 0⟩)] } (fun t => t.homeByte 0x100) = some 7 := by decide
theorem test_fault_record : after .faultRecordWrite { base with fqring := 0x0006000000100000, reports := [⟨0, [1, 2, 3, 4, 5, 6, 7, 8], none⟩] } (fun t => (t.fqtail, t.entryAt 0x100038, t.reports.length)) = some (1, 8, 0) := by decide
theorem test_host_write : after (.hostWrite 0x100 [1, 2]) base (fun t => t.home 0x100 2) = some [1, 2] := by decide
theorem test_link_down : after .hostLinkDown base State.olink = some 2 := by decide
theorem test_permit : after (.fabricPermitGrant 3 (some 2)) { base with permits := [(3, 1)] } (fun t => t.permits) = some [(3, 3)] := by decide
theorem test_pstate : after (.pstateWrite 0x10001) { base with strec2 := 0x10000 } (fun t => (t.pstate, t.power, t.changing)) = some (1, 96, false) := by decide
theorem test_pstate_needs_start : after (.pstateWrite 0x10001) base (fun t => t.pstate) = some 0 := by decide
-- a start that waits for recovery, a signature of the wrong length, and the steps after the first
theorem test_start : after (.deviceStart ⟨[], 0, 0, [], [], [], none⟩) { State.reset with strec0 := 2, booted := true } (fun t => (t.strec0, t.recovery)) = some (0x0200000000000000, true) := by decide
theorem test_start_unsigned : after (.deviceStart ⟨List.replicate 7 true, 0, 0, [], [1, 2], [3], none⟩) State.reset (fun t => (t.strec0, t.recovery, t.outbox)) = some (0x02, true, [.resetNotice]) := by decide
theorem test_start_steps : (let t := State.reset.runSteps ⟨List.replicate 7 true, 0, 0, [], [], [], none⟩ 6 2; (t.strec0.toNat, t.pstate, t.linkUp)) = (0x01010101010100, 3, true) := by decide
theorem test_start_fails : (let t := State.reset.runSteps ⟨[true, false], 0, 0, [], [], [], none⟩ 6 2; (t.strec0.toNat, t.complete)) = (0x0200, false) := by decide
theorem test_start_trips : (let t := State.reset.runSteps ⟨List.replicate 7 true, 0, 0, [], [], [], some 3⟩ 6 2; (t.strec0.toNat, t.tripped)) = (0x0100, true) := by decide
theorem test_trip : after .thermalTrip { base with mem := [(0x100, 1), (2 ^ 48, 2)] } (fun t => (t.tripped, t.mem)) = some (true, [(2 ^ 48, 2)]) := by decide
theorem test_register_write : after (.registerWrite 1 0 3) base (fun t => t.ctxsel) = some 3 := by decide

/-! ### Steps -/

theorem test_step_runs_word : (match step (State.reset.withFetchWord 32 0x1D392345) with | .next t => some (xOf 7 { t with cur := .ctrl 0 }) | _ => none) = some 0x48D14000 := by decide
theorem test_step_runs_vector_word : (match step (State.reset.withFetchWord 32 0x8E100000) with | .next t => some (t.hart 0).replyQ | _ => none) = some [0] := by decide
/-- Hart 0 at a word (low half 0) with x20 = 256 and x22 = 5, about to make one move. -/
def atWord (m : Mover) (hi : Nat) (l : List Pending) : State :=
  { base with agenda := [m], late := l, mem := pages ++ [(0x20002, BitVec.ofNat 8 hi), (0x20003, BitVec.ofNat 8 (hi / 256))],
              harts := [(0, { hart0 with x := [(20, 256), (22, 5)] })] }
def afterStep {α : Type} (s : State) (f : State → α) : Option α := match step s with | .next t => some (f t) | _ => none
/-- An access of 8 bytes through the L1 of core 0; writing 7; reading into x22; adding 3 with the old value into x22. -/
def pend (p : Party) (pa : Nat) (a : LateAct) : Pending := { party := p, core := 0, home := false, pl := .mem pa, size := 8, act := a }
def seven : LateAct := .write (leBytes 8 7)
def intoX22 : LateAct := .read (.x 22 false)
def addThree : LateAct := .step ⟨.add, 3, 0, none⟩ (.x 22 false)
/-- std x22 to 256 completes unperformed; a load of those bytes has it performed first, a load of others leaves it, vdrain does not. -/
theorem test_late_store : afterStep (atWord (.late (.ctrl 0)) 0x27B5 []) (fun t => (t.late, t.l1, (t.hart 0).cpc))
    = some ([pend (.ctrl 0) 256 (.write (leBytes 8 5))], [], 0x20004) := by decide
theorem test_late_same_bytes : afterStep (atWord (.run (.ctrl 0) none) 0x20B5 [pend (.ctrl 0) 256 seven])
    (fun t => (t.late, t.readX (.ctrl 0) 22)) = some ([], 7) := by decide
theorem test_late_overtaken : afterStep (atWord (.run (.ctrl 0) none) 0x20B5 [pend (.ctrl 0) 264 seven])
    (fun t => (t.late.length, t.readX (.ctrl 0) 22)) = some (1, 0) := by decide
theorem test_late_drained : afterStep (atWord (.run (.ctrl 0) none) 0x3B00 [pend (.vec 0) 264 seven])
    (fun t => (t.late, t.l1Read 0 264 1, (t.hart 0).cpc)) = some ([], [7], 0x20004) := by decide
/-- waitge x20 (= x0's 0 or more) overtakes an earlier store (R248); a fence.aq closes an earlier load and leaves a store (R240). -/
theorem test_late_wait : afterStep { atWord (.run (.ctrl 0) none) 0xEB05 [pend (.ctrl 0) 264 seven] with linkUp := true }
    (fun t => (t.late.length, (t.hart 0).cpc)) = some (1, 0x20004) := by decide
theorem test_late_fence_aq : afterStep { atWord (.run (.ctrl 0) none) 0xEA00 [pend (.ctrl 0) 264 seven, pend (.ctrl 0) 280 intoX22] with
      mem := pages ++ [(0x20000, 0x13), (0x20003, 0xEA)] }
    (fun t => t.late) = some [pend (.ctrl 0) 264 seven] := by decide
/-- A load that may still be performed reads what another hart has stored since; one whose register a later word names does not. -/
theorem test_reread : afterStep { atWord (.reread 0) 0 [pend (.ctrl 0) 264 intoX22] with l1 := [(0x108, some ⟨9, true, 0⟩)] }
    (fun t => t.readX (.ctrl 0) 22) = some 9 := by decide
theorem test_open_load_used : afterStep (atWord (.run (.ctrl 0) none) 0x27B5 [pend (.ctrl 0) 0x200 intoX22])
    (fun t => t.late) = some [] := by decide
/-- An atomic step that is performed late reads, writes and gives its old value then; a release goes after its stream's writes, and before
its own (R234); a vector store stands over time and over another stream's instruction. -/
theorem test_late_step : afterStep { atWord (.perform 0) 0 [pend (.ctrl 0) 256 addThree] with l1 := [(256, some ⟨9, true, 0⟩)] }
    (fun t => (t.readX (.ctrl 0) 22, (t.l1Read 0 256 1))) = some (9, [12]) := by decide
theorem test_late_release : afterStep { atWord (.perform 2) 0 [pend (.ctrl 0) 264 seven,
      { pend (.ctrl 0) 0 (.release .dv false) with pl := .view 0, size := 0, grp := 1 }, { pend (.ctrl 0) 256 seven with grp := 1, home := true }] with l1 := [] }
    (fun t => (t.late, t.home 264 1, t.home 256 1)) = some ([], [7], [7]) := by decide
theorem test_late_stands : afterStep (atWord (.elapse 10) 0 [pend (.vec 0) 264 seven]) (fun t => (t.late.length, t.cycle)) = some (1, 10)
    ∧ afterStep (atWord (.elapse 65536) 0 [pend (.vec 0) 264 seven]) (fun t => t.late.length) = some 0 := by decide
/-- vstxo's elements are performed in order, and its later reads with an earlier one (R113). -/
theorem test_late_ordered : afterStep (atWord (.perform 1) 0 [{ pend (.vec 0) 264 seven with grp := 1 }, { pend (.vec 0) 512 seven with grp := 1 }])
    (fun t => (t.late, t.l1Read 0 264 1)) = some ([], [7]) := by decide
/-- A copy issues past a vector store outside its ranges, and after one inside them (R224). -/
theorem test_before_command : ({ pend (.vec 0) 264 seven with span := [⟨true, 264, 271, true⟩] }).beforeCommand (.vec 0) [⟨true, 512, 1023, false⟩] = false
    ∧ ({ pend (.vec 0) 264 seven with span := [⟨true, 264, 271, true⟩] }).beforeCommand (.vec 0) [⟨true, 0, 1023, false⟩] = true := by decide
theorem test_step_tripped : (match step { base with tripped := true, agenda := [.run (.ctrl 0) none] } with | .fault f => some f | _ => none) = some .clocksStopped := by decide

/-! ### Witnesses: for each statement, states and operands that meet its hypotheses

Where a statement has clauses, the witness takes values on both sides of what parts them. -/

/-- A resolved access, as a test that Lean can decide. -/
def lands (s : State) (ea : W64) (n : Nat) (a : Access) (p : Place) : Bool :=
  match s.resolve s.cur ea n a with
  | .ok q => decide (q = p)
  | .error _ => false
theorem lands_eq {s : State} {ea : W64} {n : Nat} {a : Access} {p : Place} (h : lands s ea n a p = true) : s.resolve s.cur ea n a = .ok p := by
  unfold lands at h
  split at h
  · next q hq => rw [hq, of_decide_eq_true h]
  · cases h
def traps (s : State) (ea : W64) (n : Nat) (a : Access) (t : Trap) : Bool :=
  match s.resolve s.cur ea n a with
  | .ok _ => false
  | .error u => decide (u = t)
theorem traps_eq {s : State} {ea : W64} {n : Nat} {a : Access} {t : Trap} (h : traps s ea n a t = true) : s.resolve s.cur ea n a = .error t := by
  unfold traps at h
  split at h
  · cases h
  · next q hq => rw [hq, of_decide_eq_true h]

theorem ready_mem {s : State} {w : Bool} {n pa : Nat} (h : pa + n ≤ 2 ^ 52) (hl : s.linkUp = true) (hp : s.anyPoison pa n = false) :
    s.homeReady w n (.mem pa) := ⟨h, hl, hp⟩
theorem load_mem {s : State} {n pa : Nat} (h : pa + n ≤ 2 ^ 52) (hl : s.linkUp = true) (hp : s.anyPoison pa n = false)
    (hb : pa % 64 + n ≤ 64) : s.loadReady n (.mem pa) := ⟨fun _ e => by cases e; exact hb, .inl (ready_mem h hl hp)⟩
theorem atomic_mem {s : State} {home : Bool} {n pa : Nat} (h : pa + n ≤ 2 ^ 52) (hl : s.linkUp = true) (hp : s.anyPoison pa n = false)
    (hb : pa % 64 + n ≤ 64) : s.atomicReady home n (.mem pa) := ⟨fun _ e => by cases e; exact hb, .inl (ready_mem h hl hp)⟩
theorem load_spad {s : State} {n g off : Nat} (h : s.conflicts s.me [⟨false, off, off + n - 1, false⟩] = false) : s.loadReady n (.spad g off) :=
  ⟨fun _ e => by (cases e), .inl h⟩
theorem store_spad {s : State} {n g off : Nat} (h : s.conflicts s.me [⟨false, off, off + n - 1, true⟩] = false) : s.storeReady n (.spad g off) := h
/-- An instruction that no stop cuts comes to its end. -/
theorem ends_of {s : State} {n : Nat} (h : s.cut = none) : s.endsAt n n :=
  .inr ⟨rfl, fun c hc => by obtain ⟨⟨g, hg, _⟩, _⟩ := hc; rw [h] at hg; cases hg⟩
theorem store_mem {s : State} {n pa : Nat} (h : pa + n ≤ 2 ^ 52) : s.storeReady n (.mem pa) := h
theorem ready_spad {s : State} {w : Bool} {n g off : Nat} (h : s.conflicts s.me [⟨false, off, off + n - 1, w⟩] = false) :
    s.homeReady w n (.spad g off) := h
theorem vector_ready {s : State} {ok : Hart → Bool} {l : List VOp} (h : s.isVector = true) (ho : ok (s.hart s.me) = true)
    (hr : l.all (vopOk (s.hart s.me).n) = true) : s.VectorReady ok l := ⟨h, ho, hr⟩

theorem no_poison {s : State} (h : s.poison = []) (l : Nat) : s.poisoned l = false := by rw [State.poisoned, h]; rfl
theorem device_low {s : State} {q : Nat} (h : s.isDevice q = true) : q < 2 ^ 52 := by
  have h1 : q < 4000000000 * s.channels := of_decide_eq_true h
  have h2 : s.channels ≤ 48 := by unfold State.channels; split <;> exact Nat.le_trans (Nat.sub_le _ _) (by decide)
  exact Nat.lt_of_lt_of_le h1 (Nat.le_trans (Nat.mul_le_mul_left _ h2) (by decide))
/-- A state with nothing in an L1 and no poison, and one whose bytes at home are kept: walks see the same. -/
theorem walks_same {s v : State} (hl : s.l1 = []) (hp : s.poison = []) (hd : v.channels = s.channels) {core : Nat}
    (hk : s.HomeKept core (fun _ => False) v) (va n table : Nat) (ht : s.tableOk table = true) : v.walk va n table = s.walk va n table := by
  refine State.walk_same (fun pa => by unfold State.isDevice; rw [hd]) (fun q hq => ?_) (fun l => ?_) va n table ht
  · have own : s.ownByte core q = s.homeByte q := by unfold State.ownByte State.l1Byte; rw [hl]; rfl
    rcases hk.1 q (device_low hq) with e | e | e
    · exact e
    · exact e.trans own
    · exact e.elim
  · rw [no_poison hp]
    cases h : v.poisoned l
    · rfl
    · exact absurd ((hk.2 l h).symm.trans (no_poison hp l)) (by decide)
theorem translates_same {s v : State} (ht : s.tlb = []) (hl : s.l1 = []) (hp : s.poison = []) (ev : v.tlb = s.tlb) (er : v.roots = s.roots)
    (hd : v.channels = s.channels) (hu : ∀ p va a, v.useLeaf false p va a = s.useLeaf false p va a) {core : Nat}
    (hk : s.HomeKept core (fun _ => False) v) (c ctx va : Nat) (a : Access) : v.translate c ctx va a = s.translate c ctx va a := by
  have e1 : v.cached c ctx va = none := by simp only [State.cached, State.held, ev, ht, List.find?_nil]
  have e2 : s.cached c ctx va = none := by simp only [State.cached, State.held, ht, List.find?_nil]
  have e3 : v.rootOf ctx = s.rootOf ctx := by unfold State.rootOf; rw [er]
  have e4 : v.tableOk (s.rootOf ctx) = s.tableOk (s.rootOf ctx) := by unfold State.tableOk State.isDevice; rw [hd]
  unfold State.translate
  rw [e1, e2, e3]
  unfold State.translateRoot
  rw [e4]
  by_cases h : s.tableOk (s.rootOf ctx) = true
  · rw [walks_same hl hp hd hk va 4 _ h]
    simp only [hu]
  · simp only [Bool.not_eq_true] at h
    simp only [h, Bool.not_false, if_true]
/-- A hart with nothing cached finds its tables where its core keeps them. -/
theorem steady_of {s : State} {h : Nat} (hc : s.cur = .ctrl h ∨ s.cur = .vec h) (ht : s.tlb = []) (hl : s.l1 = []) (hp : s.poison = []) : s.steady := by
  intro v hv hk ea n a
  obtain ⟨-, -, e⟩ := hv
  have key : ∀ va, v.translate (s.team (teamOf h)).core (s.team (teamOf h)).ctx va a
      = s.translate (s.team (teamOf h)).core (s.team (teamOf h)).ctx va a := fun va =>
    translates_same ht hl hp (by rw [e]; rfl) (by rw [e]; rfl) (by rw [e]; rfl) (fun p va a => by rw [e]; rfl) hk _ _ va a
  have hh : v.team (teamOf h) = s.team (teamOf h) := by rw [e]; rfl
  rcases hc with hc | hc <;> rw [hc] <;> (simp only [State.resolve, partyHart, hh, key]; rfl)

theorem witness_ControlArithmetic : (ctrl []).isControl = true ∧ (63 : BitVec 14).toNat ≤ 63 ∧ 63 < (64 : BitVec 14).toNat := by decide
theorem witness_ControlDivision : (verge {}).isControl = true ∧ (0 : Nat) < 2 ^ 18 := by decide
theorem witness_ControlTransfers : (ctrl []).isControl = true ∧ ((0x1FFFC : W64).toNat < (ctrl []).topOf (ctrl []).cur ∧ (0x1FFFC : W64).toNat % 4 = 0)
    ∧ (ctrl []).topOf (ctrl []).cur ≤ (0x1000000000000 : W64).toNat ∧ (0xFFFFFFFFFFFE : W64).toNat % 4 ≠ 0
    ∧ (0xFFFFFFFFFFFE : W64).toNat < (ctrl []).topOf (ctrl []).cur := by decide
theorem witness_VectorElements : (vreg 0xA0000 2 []).cut = none ∧ (VOp.main 3).writable = true
    ∧ (vreg 0xA0000 2 []).VectorReady okFI [.main 3, .main 1, .main 2] ∧ (vreg 0x80000 2 []).VectorReady okI [.last 0, .repl 0 1, .main 2]
    ∧ (vreg 0x60000 2 []).VectorReady okB [.oper 0, .main 1] ∧ (vreg 0 2 []).VectorReady okF [.main 31, .main 1]
    ∧ (vreg 0x60000 2 []).VectorReady (okShift 7) [.main 3, .main 1] ∧ (vreg 0x60000 2 []).VectorReady (okCvt (fun a b => a == b) 10) [.main 3, .main 1]
    ∧ (vreg 0 2 []).VectorReady (okCvt (fun a b => a < b) 5) [.main 3, .main 1] := by
  refine ⟨rfl, rfl, ?_, ?_, ?_, ?_, ?_, ?_, ?_⟩ <;> exact vector_ready rfl rfl (by decide)
/-- A pre-emption, and a halt, that cuts an instruction of nine elements of 64 bits on one lane group at its second element group; one
whose cut is named with no stop asked for, and one whose cut lies at its end, are not cut. -/
def cutting (asked halt : Bool) : State :=
  { vec (fun t => { t with mode := BitVec.ofNat 32 (13 * 0x10000), vl := 9, lg := 1, haltReq := halt }) with
    teams := [(0, { team0 with request := asked })], cut := some 1 }
theorem witness_cut : (cutting true false).cutAt 9 8 ∧ (cutting false true).cutAt 9 8 ∧ (∀ c, ¬ (cutting false false).cutAt 9 c)
    ∧ (∀ c, ¬ (cutting true false).cutAt 8 c) ∧ (cutting true false).VectorReady okB [.main 3, .main 1] :=
  ⟨⟨⟨1, rfl, by decide⟩, .inl (by decide), by decide, by decide⟩, ⟨⟨1, rfl, by decide⟩, .inr (by decide), by decide, by decide⟩,
    (fun _ h => absurd h.2.1 (by decide)), (fun c h => by
      obtain ⟨⟨g, hg, he⟩, -, -, hn⟩ := h
      cases (show some 1 = some g from hg)
      have : c = 8 := he.trans (by decide)
      omega), vector_ready rfl rfl (by decide)⟩
theorem witness_VectorElements_q4 : ∀ i, ((vreg 0 1 []).hart 0).vstart ≤ i → i < ((vreg 0 1 []).hart 0).vl → ((vreg 0 1 []).hart 0).active i = true →
    ((vreg 0 1 []).hart 0).q4Bad false (.main 1) i = 0
  | 0, _, _, _ => by decide
  | n + 1, _, h, _ => absurd (show n + 1 < 1 from h) (by omega)
theorem witness_IntegerElements : isI 6 = true ∧ isI 13 = true := by decide
theorem witness_VectorMovement : (vreg 0xA0000 2 []).VectorReady okB [.main 3, .main 1, .main 2] ∧ (vreg 0xC0000 2 []).VectorReady (fun t => t.ty = 0 || t.ty = 8 || t.ty = 12) [.main 3]
    ∧ (∀ i, i < 0 → ((vreg 0xA0000 0 []).hart 0).active i = false) ∧ ((vreg 0xA0000 1 []).hart 0).active 0 = true :=
  ⟨vector_ready rfl rfl (by decide), vector_ready rfl rfl (by decide), fun _ h => absurd h (by omega), by decide⟩
theorem witness_ReductionsAndComparisons : (vreg 0xA0000 2 []).cut = none ∧ (vreg 0xA0000 2 []).VectorReady okFI [.main 3, .main 1, .main 2]
    ∧ (vreg 0xA0000 2 []).VectorReady okI [.main 3, .main 1, .main 2] := ⟨rfl, vector_ready rfl rfl (by decide), vector_ready rfl rfl (by decide)⟩
theorem witness_Masks : (vec id).isVector = true := by decide
theorem witness_ScalarsModeAndLength : (vec id).isVector = true ∧ (63 : BitVec 8).toNat ≤ 63 ∧ 63 < (64 : BitVec 8).toNat ∧ (0 : Nat) < 6
    ∧ VModeFields.illFormed ⟨true, false, false, false, false, false, 13, 0, false, false, false, 0, false, 0⟩ = none
    ∧ modeBad (applyMode ⟨true, false, false, false, false, false, 13, 0, false, false, false, 0, false, 0⟩ 0) = false
    ∧ modeBad (applyMode ⟨true, false, false, false, false, false, 14, 0, false, false, false, 0, false, 0⟩ 0) = true := by decide
theorem witness_DependenceAndGroups : (VOp.main 3).writable = true ∧ (vreg 0xC0000 2 []).VectorReady okWide [.main 3, .main 1]
    ∧ (vreg 0xC0000 2 []).VectorReady okGrp [.main 3, .main 1] ∧ (vreg 0xC0000 2 []).VectorReady okB [.main 3, .main 1, .main 2] :=
  ⟨rfl, vector_ready rfl rfl (by decide), vector_ready rfl rfl (by decide), vector_ready rfl rfl (by decide)⟩
/-- A run of vpart that ends before element 2, whose source is element 1; and one that ends at vl. -/
theorem witness_vpart : let u := (vec (fun t => { t with mode := 0xC0000, vl := 3, v := [(1, reg 32 [0xFFFFFFFF, 0xFFFFFFFF, 1])], k := [(1, 7)] })).hart 0
    (∀ i : Fin 3, u.active i = true ∧ (Tab.get 0 u.k 1).testBit i = true) ∧ u.elem (.main 1) 1 = 2 ^ 32 - 1
    ∧ u.elem (.main 1) 2 ≠ 2 ^ 32 - 1 ∧ 0 ≤ u.elem (.main 1) 2 := by decide
theorem witness_VectorFaultMask : (vec id).isVector = true
    ∧ (let u := (vec (fun t => { t with vl := 2, fm := 2, k := [(1, 3)] })).hart 0
       (decide (1 < u.vl) && u.fm.testBit 1 && (Tab.get 0 u.k 1).testBit 1) = true ∧ (decide (0 < u.vl) && u.fm.testBit 0 && (Tab.get 0 u.k 1).testBit 0) = false) := by
  decide
/-- Loops that fit, at the last end that does, and one that does not; a zero and a nonzero count; three and four entries held; a nest
that names s10 and one that names s11. -/
theorem witness_LoopsOfTheVectorStream : (vec id).isVector = true ∧ 0 < (1 : BitVec 19).toInt ∧ ¬ 0 < (0 : BitVec 19).toInt
    ∧ (vec (fun t => { t with s := [(1, 1)] })).getS 1 ≠ 0 ∧ (vec id).getS 1 = 0 ∧ (10 : BitVec 4).toNat ≤ 10 ∧ 10 < (11 : BitVec 4).toNat
    ∧ (let l : Loop := ⟨.count 2, 0x20004, 0x10000, 0⟩
       ((vec (fun t => { t with loops := [l, l, l] })).hart 0).loops.length < 4 ∧ 4 ≤ ((vec (fun t => { t with loops := [l, l, l, l] })).hart 0).loops.length
       ∧ (0x20000 + BitVec.ofInt 48 (1 * 4) : W48).toNat ≤ l.stop.toNat ∧ ¬ (0x20000 + BitVec.ofInt 48 (2 * 4) : W48).toNat ≤ l.stop.toNat) := by
  decide
theorem witness_loop_ends : let u := (vec (fun t => { t with check := true, loops := [⟨.nest [2, 3] [1, 1], 0x20000, 0x10000, 0⟩] })).hart 0
    u.check = true ∧ u.loops.length ≤ 4 ∧ (u.loops.head?.map Loop.stop) = some u.vpc ∧ [1, 1].getD 0 0 + 1 = [2, 3].getD 0 0 ∧ [1, 1].getD 1 0 + 1 ≠ [2, 3].getD 1 0 := by
  decide
theorem witness_ScalarLoadsAndStores : (mem [(2, 0x100)] []).isControl = true
    ∧ (mem [(2, 0x100)] []).resolve (mem [(2, 0x100)] []).cur (0x100 + (0 : BitVec 14).signExtend 64) 8 .load = .ok (.mem 0x100) ∧ (mem [(2, 0x100)] []).loadReady 8 (.mem 0x100)
    ∧ (mem [(2, 0x100)] []).resolve (mem [(2, 0x100)] []).cur 0xFF0000000008 8 .store = .ok (.spad 0 8) ∧ (mem [(2, 0x100)] []).storeReady 8 (.spad 0 8)
    ∧ (mem [(2, 0x100)] []).storeReady 8 (.mem 0x100) :=
  ⟨rfl, lands_eq (by decide), load_mem (by decide) rfl (by decide) (by decide), lands_eq (s := mem [(2, 0x100)] []) (by decide), by unfold State.storeReady State.windowFree; decide, store_mem (by decide)⟩
/-- The last byte of the address space and the first beyond it; the last word of the scratchpad and the first beyond it; one out of
alignment; one page that is mapped and one that is not. -/
theorem witness_AccessChecks : let s := ctrl []
    s.isControl = true ∧ s.cur = .ctrl 0 ∧ (0xFFFFFFFFFFFF : W64).toNat < 2 ^ 48 ∧ 2 ^ 48 ≤ (0x1000000000000 : W64).toNat
    ∧ (0x4FFF8 + 8 ≤ 4096 * ((s.team 0).shape.extractLsb' 24 8).toNat ∧ 4096 * ((s.team 0).shape.extractLsb' 24 8).toNat < 0x50000 + 8)
    ∧ (0xFF0000000001 : W64).toNat % 8 ≠ 0 ∧ s.resolve s.cur 0x100 8 .load = .ok (.mem 0x100)
    ∧ s.resolve s.cur 0x40000000 8 .load = .error { cls := 0x05, addr := 0x40000000, acc := 1, sz := 3, rsn := 1, base := 0x40000000, size := 4096 } :=
  ⟨rfl, rfl, by decide, by decide, by decide, by decide, lands_eq (by decide), traps_eq (by decide)⟩
def walkIs (s : State) (va n table : Nat) (p : Page) : Bool := match s.walk va n table with | .ok q => decide (q = p) | .error _ => false
def walkFails (s : State) (va n table : Nat) (f : TFail) : Bool := match s.walk va n table with | .ok _ => false | .error e => decide (e = f)
/-- One table at 0x1000: an empty entry, a pointer, a leaf, a leaf with w and no r, a pointer beyond the level, an entry of a 64 KiB
page whose second line is poisoned. Roots inside and outside device memory; pages that nothing holds and that may not be written. -/
theorem witness_AccessChecks_walk : let s : State := { ctrl [] with
      mem := [(0x1008, 1), (0x1009, 0x20), (0x1010, 3), (0x1018, 5), (0x1020, 1), (0x1080, 0x23)], poison := [(0x43, true)] }
    (0x1000 % 4096 = 0 ∧ s.poisoned 0x40 = false ∧ s.poisoned 0x43 = true)
    ∧ walkFails s (24 * 4096) 1 0x1000 ⟨5, 24 * 4096, 4096⟩ = true ∧ walkFails s 0 1 0x1000 ⟨1, 0, 4096⟩ = true
    ∧ walkFails s (16 * 4096) 1 0x1000 ⟨5, 65536, 65536⟩ = true ∧ walkFails s (3 * 2 ^ 21) 2 0x1000 ⟨3, 3 * 2 ^ 21, 2 ^ 21⟩ = true
    ∧ walkFails s (4 * 4096) 1 0x1000 ⟨3, 4 * 4096, 4096⟩ = true ∧ walkIs s (2 * 2 ^ 30 + 5) 3 0x1000 ⟨2 * 2 ^ 30, 2 ^ 30, 3⟩ = true
    ∧ ((s.entryAt 0x1008).getLsbD 0 = true ∧ entryPa (s.entryAt 0x1008) + 4095 < 4000000000 * s.channels)
    ∧ (4000000000 * s.channels ≤ 4000000000 * 48 + 4095 ∧ 0x1000 + 4095 < 4000000000 * s.channels)
    ∧ (s.mapped (2 ^ 47) = false ∧ s.mapped 0 = true ∧ s.mapped (2 ^ 30 - 1) = true ∧ (3 : W64).getLsbD 2 = false ∧ (3 : W64).getLsbD 1 = true) := by
  decide
theorem release_base (x : Tab W64) (sc : Scope) : (ctrl x).releaseReady sc := ⟨fun _ => rfl, rfl, fun _ => rfl⟩
theorem witness_ScalarAtomics : (ctrl [(2, 0x100)]).isControl = true ∧ (ctrl [(2, 0x100)]).resolve (ctrl [(2, 0x100)]).cur 0x100 8 .atomic = .ok (.mem 0x100)
    ∧ (ctrl [(2, 0x100)]).atomicReady true 8 (.mem 0x100) ∧ (ctrl [(2, 0x100)]).atomicReady false 8 (.mem 0x100) ∧ (ctrl [(2, 0x100)]).releaseReady .sy
    ∧ atHome (.mem 0x100) .tm = false ∧ atHome (.mem 0x100) .dv = true ∧ atHome (.mem (2 ^ 48)) .tm = true :=
  ⟨rfl, lands_eq (by decide), atomic_mem (by decide) rfl (by decide) (by decide), atomic_mem (by decide) rfl (by decide) (by decide), release_base _ _,
    rfl, rfl, rfl⟩
theorem witness_OrderedAccesses : (ctrl [(2, 0x100)]).isControl = true ∧ (ctrl [(2, 0x100)]).resolve (ctrl [(2, 0x100)]).cur 0x100 4 .load = .ok (.mem 0x100)
    ∧ (ctrl [(2, 0x100)]).homeReady false 4 (.mem 0x100) ∧ (ctrl [(2, 0x100)]).resolve (ctrl [(2, 0x100)]).cur 0x100 4 .store = .ok (.mem 0x100)
    ∧ (ctrl [(2, 0x100)]).homeReady true 4 (.mem 0x100) ∧ (ctrl [(2, 0x100)]).releaseReady .dv :=
  ⟨rfl, lands_eq (by decide), ready_mem (by decide) rfl (by decide), lands_eq (by decide), ready_mem (by decide) rfl (by decide), release_base _ _⟩
theorem witness_WaitInstructions : (ctrl [(2, 0x100)]).resolve (ctrl [(2, 0x100)]).cur 0x100 8 .load = .ok (.mem 0x100) ∧ (ctrl [(2, 0x100)]).homeReady false 8 (.mem 0x100)
    ∧ (({ base with harts := [(0, { hart0 with wait := some .asleep })] } : State).hart 0).wait = some .asleep ∧ ((verge { wait := some .asleep }).verge 0).wait = some .asleep :=
  ⟨lands_eq (by decide), ready_mem (by decide) rfl (by decide), rfl, rfl⟩
theorem witness_VectorStreamControl : (vec id).isVector = true ∧ ((vec (fun t => { t with replyQ := List.replicate 15 0 })).hart 0).replyQ.length < 16
    ∧ 16 ≤ ((vec (fun t => { t with replyQ := List.replicate 16 0 })).hart 0).replyQ.length ∧ (5 : BitVec 3).toNat ≤ 5 ∧ 5 < (6 : BitVec 3).toNat
    ∧ (let s : State := { base with harts := [(0, { hart0 with blockQ := [⟨0x40, [], 0⟩] })] }
       s.running 0 = true ∧ (s.hart 0).block = none ∧ (s.hart 0).blockQ = [⟨0x40, [], 0⟩]) := by decide
theorem witness_HartStreamControl : let s := ctrl [(1, 32)]
    s.isHartControl = true ∧ (s.hart 0).blockQ = [] ∧ (s.hart 0).block = none ∧ s.descending 0 = false ∧ (∀ c ∈ s.cmds, c.hart ≠ s.me) ∧ s.releaseReady .sy
    ∧ (0x20000 + BitVec.ofInt 64 ((16 : BitVec 19).toInt * 4) : W64).toNat % 64 = 0 ∧ (0x20000 + BitVec.ofInt 64 ((1 : BitVec 19).toInt * 4) : W64).toNat % 64 ≠ 0
    ∧ (s.getX 1 + (0 : BitVec 14).signExtend 64).toNat ≤ 32 ∧ 32 < (s.getX 1 + (1 : BitVec 14).signExtend 64).toNat :=
  ⟨rfl, rfl, rfl, rfl, (fun _ hc => by cases hc), release_base _ _, by decide, by decide, by decide, by decide⟩
/-- A yield that begins, one of 0 cycles, one while a pre-emption is asked for; waits before and at their end. -/
theorem witness_ExitYieldAndCalls : let s := ctrl [(7, 9)]
    s.linkUp = true ∧ s.descending 0 = false ∧ ({ s with cmds := [⟨0, 0, 0, 0, .desc 0 0 0x10001 0 none 6 1 [], 0, 0, [], .run, 0, 0, none, false, [], []⟩] } : State).descending 0 = true ∧
    min (s.getX 7).toNat 65536 ≠ 0 ∧ ¬ (s.team 0).request = true ∧ min (s.getX 0).toNat 65536 = 0
    ∧ (({ s with teams := [(0, { team0 with request := true })] } : State).team 0).request = true
    ∧ (({ s with cycle := 8, harts := [(0, { hart0 with wait := some (.yield 9) })] } : State).hart 0).wait = some (.yield 9) ∧ 8 < 9
    ∧ ((verge { wait := some (.yield 9) }).verge 0).wait = some (.yield 9) ∧ s.isControl = true ∧ (verge {}).fqtail ≤ (verge {}).fqhead
    ∧ s.dbgctl.getLsbD 19 = false ∧ ({ s with dbgctl := 0x80000 } : State).dbgctl.getLsbD 19 = true ∧ (verge {}).cur = .verge 0 := by decide
/-- Classes 2 and 7 give evalue the address, 1 and 8 the detail; a translation fault with and without an entry that merges. -/
theorem witness_TrapEntry : (0x05 < 256 ∧ 1 < 16 ∧ 3 < 8 ∧ 3 < 256) ∧ (verge {}).cur = .verge 0 ∧ (ctrl []).cur = .ctrl 0 ∧ (vec id).cur = .vec 0
    ∧ (∀ e ∈ (ctrl []).live, ¬ (e.ctx = 1 ∧ e.base = 0x40000000 ∧ e.size = 4096))
    ∧ ({ ctrl [] with live := [⟨3, 1, 0x40000000, 4096⟩] } : State).live.find? (fun e => e.ctx = 1 && e.base = 0x40000000 && e.size = 4096) = some ⟨3, 1, 0x40000000, 4096⟩ := by
  decide
theorem witness_StreamsAndPrivilege : (vec id).isVector = true ∧ (ctrl []).isControl = true ∧ (ctrl []).isHartControl = true ∧ (verge {}).isVerge = true
    ∧ encode (.add 0 0 0) = some 0x01000000 ∧ encode (.brk) = some 0xFA000000 ∧ encode (.vadd (.main 0) (.main 0) (.main 0)) = some 0x40000000
    ∧ encode (.lnsetZ) = some 0xDA000008 ∧ encode (.vgo 1) = some 0x38000001 ∧ encode (.vdrain .tm) = some 0x3B000000 ∧ encode .eret = some 0xF3000000
    ∧ encode (.fqreplay 0 0 0) = some 0xF9000000 := by and_intros <;> rfl
/-- Register 9 and 10; an idle hart and one with a queued block; the verge core's own registers at both ends, the devices above. -/
theorem witness_SystemRegisters : (ctrl []).cur = .ctrl 0 ∧ (9 : BitVec 9).toNat ≤ 9 ∧ 9 < (10 : BitVec 9).toNat
    ∧ ((ctrl []).hart 0).blockQ = [] ∧ ((ctrl []).hart 0).block = none ∧ (ctrl []).descending 0 = false
    ∧ (({ base with harts := [(0, { hart0 with blockQ := [⟨0x40, [], 0⟩] })] } : State).hart 0).blockQ ≠ []
    ∧ ((ctrl []).team 0).st = .resident ∧ (verge {}).cur = .verge 0 ∧ ((verge { x := [(1, 2)] }).getX 1).toNat ≠ 0
    ∧ (verge {}).nharts + 2 ≤ ((verge { x := [(1, 1000)] }).getX 1).toNat ∧ ({ base with ctxsel := 3 } : State).ctxsel ≠ 0
    ∧ (0xEF : BitVec 9).toNat < 0xF0 ∧ 0xF5 < (0xF6 : BitVec 9).toNat := by decide
/-- A covered pin and none; an empty queue and one record; a skip and a replay, and a release that need not wait. -/
theorem witness_FaultPath : let s : State := { verge { x := [(1, 0x100), (2, 1), (3, 2)] } with fqring := 0x0006000000100000, fqtail := 1 }
    s.cur = .verge 0 ∧ (3 : BitVec 2) = 3 ∧ (∀ p ∈ s.pins, ¬ (p.ctx = 1)) ∧ (∃ p ∈ ({ s with pins := [⟨0, 0, 1, 0, 4096, 0xF⟩] } : State).pins, p.ctx = 1)
    ∧ s.resolve s.cur (s.getX 1) 64 .store = .ok (.mem 0x100) ∧ s.fqhead ≠ s.fqtail ∧ s.homeReady true 64 (.mem 0x100)
    ∧ (∃ tr, ({ s with verges := [(0, { x := [(1, 0x101)] })] } : State).resolve (.verge 0) 0x101 64 .store = .error tr)
    ∧ 2 ≤ (s.getX 3).toNat ∧ (s.getX 2).toNat < 2 ∧ s.releaseReady .dv ∧ s.recvs = [] :=
  ⟨rfl, rfl, (fun _ h => by cases h), ⟨_, .head _, rfl⟩, lands_eq (by decide), by decide, ready_mem (by decide) rfl (by decide),
    ⟨_, traps_eq (s := { verge { x := [(1, 0x101)] } with fqring := 0x0006000000100000, fqtail := 1 }) (t := { cls := 0x03, addr := 0x101, acc := 2, sz := 6 }) (by decide)⟩,
    by decide, by decide, ⟨(fun h => by revert h; decide), rfl, (fun h => by cases h)⟩, rfl⟩

/-- Two loads that can be performed; and two of which the second leaves what is mapped, at an active element above the first. -/
theorem witness_VectorLoadsAndFaults : let s := vmem 0xA0000 2 [(12, 0x100)] [] []
    s.endsAt 2 2 ∧ (VOp.main 2).writable = true ∧ s.VectorReady okB [.main 2] ∧ s.VectorReady okB [.main 2, .main 3] ∧ s.linkUp = true
    ∧ s.conflicts s.me (rangesOf 1 false ((((s.hart 0).activesIn 0 2)).map (fun i => s.getS 12 + BitVec.ofNat 64 i))) = false
    ∧ (∀ j, (s.hart 0).covers 2 j → s.resolve s.cur (s.getS 12 + BitVec.ofNat 64 j) 1 .load = .ok (.mem (0x100 + j)) ∧ s.readsAt false 1 (.mem (0x100 + j))) :=
  ⟨ends_of rfl, rfl, vector_ready rfl rfl (by decide), vector_ready rfl rfl (by decide), rfl, by decide, fun j h => match j, h with
    | 0, _ => ⟨lands_eq (by decide), load_mem (by decide) rfl (by decide) (by decide)⟩
    | 1, _ => ⟨lands_eq (by decide), load_mem (by decide) rfl (by decide) (by decide)⟩
    | n + 2, h => absurd h.2.1 (by omega)⟩
theorem witness_load_faults : let s := vmem 0xA0000 2 [(12, 0x3FFFFFFF)] [] []
    (s.hart 0).covers 2 1 ∧ (∃ tr, s.elemCheck s.cur false (s.getS 12 + BitVec.ofNat 64 (1 * 1)) 1 .load = some tr ∧ tr.cls = 0x05)
    ∧ (∀ j, (s.hart 0).covers 2 j → j < 1 → s.resolve s.cur (s.getS 12 + BitVec.ofNat 64 (j * 1)) 1 .load = .ok (.mem 0x3FFFFFFF) ∧ s.readsAt false 1 (.mem 0x3FFFFFFF))
    ∧ (∃ j, (s.hart 0).covers 2 j ∧ j < 1) :=
  ⟨⟨by decide, by decide, by decide⟩, ⟨{ cls := 0x05, addr := 0x40000000, acc := 1, sz := 0, rsn := 1, base := 0x40000000, size := 4096 }, by decide, rfl⟩,
    fun j _ h => match j, h with | 0, _ => ⟨lands_eq (by decide), load_mem (by decide) rfl (by decide) (by decide)⟩ | n + 1, h => absurd h (by omega),
    ⟨0, ⟨by decide, by decide, by decide⟩, by decide⟩⟩
theorem witness_VectorStores : let s := vmem 0xA0000 2 [(12, 0x100)] [] []
    s.endsAt 2 2 ∧ s.VectorReady okB [.main 2] ∧ s.VectorReady okB [.main 2, .main 3]
    ∧ s.conflicts s.me (rangesOf 1 true ((((s.hart 0).activesIn 0 2)).map (fun i => s.getS 12 + BitVec.ofNat 64 i))) = false
    ∧ (∀ j, (s.hart 0).covers 2 j → s.resolve s.cur (s.getS 12 + BitVec.ofNat 64 j) 1 .store = .ok (.mem (0x100 + j)) ∧ s.storeReady 1 (.mem (0x100 + j))) :=
  ⟨ends_of rfl, vector_ready rfl rfl (by decide), vector_ready rfl rfl (by decide), by decide, fun j h => match j, h with
    | 0, _ => ⟨lands_eq (by decide), store_mem (by decide)⟩
    | 1, _ => ⟨lands_eq (by decide), store_mem (by decide)⟩
    | n + 2, h => absurd h.2.1 (by omega)⟩
/-- Two atomics at one address: the second one takes what the first left. -/
theorem witness_VectorAtomics : let s := vmem 0xC0000 2 [(12, 0x100)] [] []
    s.endsAt 2 2 ∧ s.VectorReady okFI [.main 2, .main 3] ∧ s.VectorReady okI [.main 2, .main 3] ∧ s.VectorReady okB [.main 2, .main 3]
    ∧ s.conflicts s.me (rangesOf 4 true ((((s.hart 0).activesIn 0 2)).map (fun _ => s.getS 12))) = false
    ∧ (∀ j, (s.hart 0).covers 2 j → s.resolve s.cur (s.getS 12 + indexElem (s.hart 0) true (.main 3) 8 j * BitVec.ofNat 64 4) 4 .atomic = .ok (.mem 0x100)
      ∧ s.atomicReady true 4 (.mem 0x100) ∧ s.atomicReady false 4 (.mem 0x100)) :=
  ⟨ends_of rfl, vector_ready rfl rfl (by decide), vector_ready rfl rfl (by decide), vector_ready rfl rfl (by decide), by decide, fun j h => match j, h with
    | 0, _ => ⟨lands_eq (by decide), atomic_mem (by decide) rfl (by decide) (by decide), atomic_mem (by decide) rfl (by decide) (by decide)⟩
    | 1, _ => ⟨lands_eq (by decide), atomic_mem (by decide) rfl (by decide) (by decide), atomic_mem (by decide) rfl (by decide) (by decide)⟩
    | n + 2, h => absurd h.2.1 (by omega)⟩
/-- A store and an atomic whose second element leaves what is mapped. -/
theorem witness_store_faults : let s := vmem 0xA0000 2 [(12, 0x3FFFFFFF)] [] []
    (s.hart 0).covers 2 0 ∧ (s.hart 0).covers 2 1 ∧ (∃ tr, s.elemCheck s.cur false (s.getS 12 + BitVec.ofNat 64 (1 * 1)) 1 .store = some tr)
    ∧ (∃ tr, s.elemCheck s.cur true (s.getS 12 + BitVec.ofNat 64 (1 * 1)) 1 .store = some tr)
    ∧ (∃ tr, s.elemCheck s.cur false (s.getS 12 + BitVec.ofNat 64 (1 * 1)) 1 .atomic = some tr)
    ∧ s.resolve s.cur (s.getS 12) 1 .store = .ok (.mem 0x3FFFFFFF) ∧ s.homeReady true 1 (.mem 0x3FFFFFFF) ∧ s.linkUp = true :=
  ⟨⟨by decide, by decide, by decide⟩, ⟨by decide, by decide, by decide⟩,
    ⟨{ cls := 0x05, addr := 0x40000000, acc := 2, sz := 0, rsn := 1, base := 0x40000000, size := 4096 }, by decide⟩,
    ⟨{ cls := 0x05, addr := 0x40000000, acc := 2, sz := 0, rsn := 1, base := 0x40000000, size := 4096 }, by decide⟩,
    ⟨{ cls := 0x05, addr := 0x40000000, acc := 3, sz := 0, rsn := 1, base := 0x40000000, size := 4096 }, by decide⟩,
    lands_eq (by decide), ready_mem (by decide) rfl (by decide), rfl⟩
/-- Three records and room for two, so that the third is counted and not stored; and a stop that has counted already. -/
theorem witness_VectorAppend : let s := vmem 0xA0000 3 [(7, 0x200)] [] [(0x200, 1), (0x208, 3), (0x211, 1)]
    (∃ i, (s.hart 0).covers 3 i) ∧ (∀ i, ¬ ((vec id).hart 0).covers 0 i) ∧ (∃ tr, (vec id).resolve (.vec 0) 0x40000000 32 .atomic = .error tr) ∧ (s.hart 0).vstart = 0 ∧ s.VectorReady okB [.main 2] ∧ s.VectorReady okB [.main 2, .main 5] ∧ (VOp.main 5).writable = true
    ∧ s.resolve s.cur (s.getS 7) 32 .atomic = .ok (.mem 0x200) ∧ s.homeReady true 32 (.mem 0x200) ∧ (∀ x ∈ s.cmds, x.hart ≠ s.me)
    ∧ (s.hart 0).latch = none ∧ s.recordAt (.mem 0x200) = [1, 3, 0x100, 0, 0, 0, 0, 0]
    ∧ (∀ j, j < 2 → s.resolve s.cur (0x100 + BitVec.ofNat 64 (1 + j)) 1 .store = .ok (.mem (0x101 + j)) ∧ s.homeReady true 1 (.mem (0x101 + j)))
    ∧ (∃ x, ((vec (fun t => { t with latch := some ⟨9, 0x20000⟩ })).hart 0).latch = some x ∧ x.pc = ((vec id).hart 0).vpc) :=
  ⟨⟨0, by decide, by decide, by decide⟩, (fun i h => absurd h.2.1 (by omega)),
    ⟨_, traps_eq (s := vec id) (t := { cls := 0x05, addr := 0x40000000, acc := 3, sz := 5, rsn := 1, base := 0x40000000, size := 4096 }) (by decide)⟩, rfl,
    vector_ready rfl rfl (by decide), vector_ready rfl rfl (by decide), rfl, lands_eq (by decide), ready_mem (by decide) rfl (by decide), (fun _ h => by cases h),
    rfl, by decide, (fun j h => match j, h with
      | 0, _ => ⟨lands_eq (by decide), ready_mem (by decide) rfl (by decide)⟩
      | 1, _ => ⟨lands_eq (by decide), ready_mem (by decide) rfl (by decide)⟩
      | n + 2, h => absurd h (by omega)), ⟨_, rfl, rfl⟩⟩
/-- The image of a vector of `n` elements of a type with its values at 0x100 of the scratchpad; of q4 elements its scales are at
0x200. -/
def image (ty n : Nat) : BitVec 512 :=
  BitVec.ofNat 512 (256 ^ 63 + ty * 256 ^ 62 + (if ty = tQ4 then 256 ^ 60 + 0xFF0000000200 * 256 ^ 8 else 0) + n * 256 ^ 32 + 0xFF0000000100)
/-- A vector stream with that image as handle 1 and the positions 1 and 0 in register 4. -/
def handles (ty : Nat) : State :=
  vec (fun t => { t with mode := BitVec.ofNat 32 (ty * 0x10000), vl := 2, hd := [(1, image ty 2)], v := [(4, reg 64 [1, 0])], s := [(2, 0xFF0000000400)] })

theorem witness_HandleMovesAndLoads : let s := handles 10
    s.isVector = true ∧ s.conflicts s.me (rangesOf 64 false [s.getS 2]) = false ∧ s.conflicts s.me (rangesOf 64 true [s.getS 2]) = false
    ∧ s.resolve s.cur (s.getS 2) 64 .load = .ok (.spad 0 0x400) ∧ s.loadReady 64 (.spad 0 0x400)
    ∧ s.resolve s.cur (s.getS 2) 64 .store = .ok (.spad 0 0x400) ∧ s.storeReady 64 (.spad 0 0x400)
    ∧ s.VectorReady (fun t => okB t || t.ty = tQ4) [.main 2, .main 4] ∧ hKind (image 10 2) = 1 ∧ hOk (image 10 2) = true ∧ (s.hart 0).ty = hEt (image 10 2)
    ∧ hOk (image 15 2) = false ∧ s.steady ∧ s.endsAt 2 2 ∧ hCheck (s.hart 0) (Tab.get 0 (s.hart 0).hd 1) = none ∧ (∀ x ∈ s.cmds, x.hart ≠ s.me)
    ∧ (∀ i, (s.hart 0).covers 2 i → s.tensorEntry (image 10 2) false ((s.hart 0).read false (.main 4) 64 i % 2 ^ 32) ((s.hart 0).read false (.main 4) 64 i / 2 ^ 32)
          (some (1 - i))
        ∧ s.holds false (hVal (image 10 2) + (1 - i) * 1) 1 0) :=
  ⟨rfl, by decide, by decide, lands_eq (by decide), load_spad (by decide), lands_eq (by decide), store_spad (by decide),
    vector_ready rfl rfl (by decide), by decide, by decide, by decide, by decide, steady_of (h := 0) (.inr rfl) rfl rfl rfl, ends_of rfl, by decide, (fun _ h => by cases h), fun i h => match i, h with
    | 0, _ => ⟨⟨by decide, by decide, by decide⟩, ⟨.spad 0 0x101, lands_eq (by decide), load_spad (by decide), by decide⟩⟩
    | 1, _ => ⟨⟨by decide, by decide, by decide⟩, ⟨.spad 0 0x100, lands_eq (by decide), load_spad (by decide), by decide⟩⟩
    | n + 2, h => absurd h.2.1 (by omega)⟩
/-- The two nibbles of one byte of a q4 image with a scale byte. -/
theorem witness_handle_q4 : let s := handles tQ4
    (s.hart 0).ty = tQ4 ∧ hCheck (s.hart 0) (Tab.get 0 (s.hart 0).hd 1) = none ∧ hSl (image tQ4 2) = 1 ∧ (s.hart 0).vstart = 0
    ∧ (∀ i, (s.hart 0).covers 2 i → s.tensorEntry (image tQ4 2) false ((s.hart 0).read false (.main 4) 64 i % 2 ^ 32) 0 (some (1 - i))
        ∧ s.holds false (hVal (image tQ4 2) + (1 - i) / 2) 1 0 ∧ s.holds false (hScl (image tQ4 2) + (1 - i) / 32) 1 0
        ∧ (s.hart 0).q4Bad false (.main 2) i = 0
        ∧ s.resolve s.cur (BitVec.ofNat 64 (hVal (image tQ4 2) + (1 - i) / 2)) 1 .store = .ok (.spad 0 0x100) ∧ s.storeReady 1 (.spad 0 0x100)
        ∧ s.resolve s.cur (BitVec.ofNat 64 (hScl (image tQ4 2) + (1 - i) / 32)) 1 .store = .ok (.spad 0 0x200) ∧ s.storeReady 1 (.spad 0 0x200)) :=
  ⟨by decide, by decide, by decide, rfl, fun i h => match i, h with
    | 0, _ => ⟨⟨by decide, by decide, by decide⟩, ⟨.spad 0 0x100, lands_eq (by decide), load_spad (by decide), by decide⟩,
        ⟨.spad 0 0x200, lands_eq (by decide), load_spad (by decide), by decide⟩, by decide,
        lands_eq (s := handles tQ4) (by decide), store_spad (by decide), lands_eq (s := handles tQ4) (by decide), store_spad (by decide)⟩
    | 1, _ => ⟨⟨by decide, by decide, by decide⟩, ⟨.spad 0 0x100, lands_eq (by decide), load_spad (by decide), by decide⟩,
        ⟨.spad 0 0x200, lands_eq (by decide), load_spad (by decide), by decide⟩, by decide,
        lands_eq (s := handles tQ4) (by decide), store_spad (by decide), lands_eq (s := handles tQ4) (by decide), store_spad (by decide)⟩
    | n + 2, h => absurd h.2.1 (by omega)⟩
theorem witness_HandleStores : let s := handles 10
    s.endsAt 2 2 ∧ s.VectorReady (fun t => okB t || t.ty = tQ4) [.main 2, .main 4] ∧ s.steady ∧ hCheck (s.hart 0) (Tab.get 0 (s.hart 0).hd 1) = none
    ∧ (∀ x ∈ s.cmds, x.hart ≠ s.me)
    ∧ (∀ i, (s.hart 0).covers 2 i → s.tensorEntry (image 10 2) false ((s.hart 0).read false (.main 4) 64 i % 2 ^ 32) ((s.hart 0).read false (.main 4) 64 i / 2 ^ 32)
          (some (1 - i))
        ∧ s.resolve s.cur (BitVec.ofNat 64 (hVal (image 10 2) + (1 - i) * 1)) 1 .store = .ok (.spad 0 (0x100 + (1 - i))) ∧ s.storeReady 1 (.spad 0 (0x100 + (1 - i)))) :=
  ⟨ends_of rfl, vector_ready rfl rfl (by decide), steady_of (h := 0) (.inr rfl) rfl rfl rfl, by decide, (fun _ h => by cases h), fun i h => match i, h with
    | 0, _ => ⟨⟨by decide, by decide, by decide⟩, lands_eq (s := handles 10) (by decide), store_spad (by decide)⟩
    | 1, _ => ⟨⟨by decide, by decide, by decide⟩, lands_eq (s := handles 10) (by decide), store_spad (by decide)⟩
    | n + 2, h => absurd h.2.1 (by omega)⟩

/-- A command of hart 0, as its stream issues it. -/
def cmd (op : EngOp) (stage : Stage) (add : Nat) : Cmd := ⟨0, 0, 0, 0, op, 0x300, add, [], stage, 0, 0, none, false, [], []⟩
/-- The conditions of R221 on a copy's operands, in its order. -/
def copyConds (spad r : Nat) (dst src : W64) (z : Nat) (ls : List Level) (n : Nat) (cw : W64) : List Bool :=
  let runs := (ls.map (fun l => l.count.toNat)).prod
  let moves := runs ≠ 0 ∧ z ≠ 0
  let ext (by_ : Level → W64) : List Int := ls.map (fun l => ((l.count.toNat : Int) - 1) * (by_ l).toInt)
  let sl : Int := src.toNat + ((ext Level.ss).map (min 0)).sum
  let sh : Int := src.toNat + ((ext Level.ss).map (max 0)).sum + z - 1
  let dl : Int := dst.toNat + ((ext Level.ds).map (min 0)).sum
  let dh : Int := dst.toNat + ((ext Level.ds).map (max 0)).sum + z - 1
  let memBad (lo hi : Int) : Bool := lo < 0 || 2 ^ 48 ≤ hi || (0xFF0000000000 ≤ hi && lo < 0xFF0000000000 + 0x50000)
  let spadBad (lo hi : Int) : Bool := lo < 0 || (spad : Int) ≤ hi
  [ls.any (fun l => 2 ^ 32 - 1 < l.count.toNat) || 2 ^ 40 < runs || 2 ^ 32 < z,
   moves && ((r = 0 || r = 2) && memBad sl sh || (r = 1 || r = 2) && memBad dl dh),
   moves && (!(r = 0 || r = 2) && spadBad sl sh || !(r = 1 || r = 2) && spadBad dl dh),
   moves && (r = 2 || r = 3) && sl ≤ dh && dl ≤ sh,
   n ≠ 0 && (cw.toNat % 8 ≠ 0 || 2 ^ 48 ≤ cw.toNat || inWindow cw.toNat && spad < cw.toNat - 0xFF0000000000 + 8)]
/-- Each condition at its boundary, met and missed; a command that conflicts; a full table, with a hart that waits for entries and one
before it, which gets them or not. -/
theorem witness_CopyIssue : let s := vec (fun t => { t with s := [(1, 0x100), (2, 64)] })
    let one : List Level := List.replicate 6 ⟨1, 0, 0⟩
    let deep (c : W64) (d : W64) : List Level := ⟨c, 0, d⟩ :: List.replicate 5 ⟨1, 0, 0⟩
    let spad := (s.team 0).bytes
    s.isVector = true ∧ copyConds spad 0 0 0x100 64 one 0 0 = [false, false, false, false, false]
    ∧ copyConds spad 1 0x100 0 64 (deep 0xFFFFFFFF 64) 1 0x300 = [false, false, false, false, false]
    ∧ (copyConds spad 1 0x100 0 64 (deep 0x100000000 64) 0 0).head? = some true ∧ (copyConds spad 2 0 0x100 (2 ^ 32 + 1) one 0 0).head? = some true
    ∧ copyConds spad 0 0 0xFFFFFFFFFFC0 64 one 0 0 = [false, false, false, false, false]
    ∧ copyConds spad 0 0 0xFFFFFFFFFFC1 64 one 0 0 = [false, true, false, false, false]
    ∧ copyConds spad 1 64 0 64 (deep 2 (-64)) 0 0 = [false, false, false, false, false]
    ∧ copyConds spad 1 63 0 64 (deep 2 (-64)) 0 0 = [false, true, false, false, false]
    ∧ copyConds spad 0 0x4FFC0 0x100 64 one 0 0 = [false, false, false, false, false]
    ∧ copyConds spad 0 0x4FFC1 0x100 64 one 0 0 = [false, false, true, false, false]
    ∧ copyConds spad 3 64 0 64 one 0 0 = [false, false, false, false, false] ∧ copyConds spad 3 63 0 64 one 0 0 = [false, false, false, true, false]
    ∧ (let small := (({ s with teams := [(0, { team0 with shape := 0x0000080004073FF1 })] } : State).team 0).bytes
       copyConds small 0 0 0x100 64 one 1 0xFF0000003FF8 = [false, false, false, false, false]
       ∧ copyConds small 0 0 0x100 64 one 1 0xFF0000004000 = [false, false, false, false, true])
    ∧ copyConds spad 0 0 0x100 64 one 1 0x304 = [false, false, false, false, true]
    ∧ (∀ x ∈ s.cmds, x.hart ≠ s.me) ∧ s.ritUsed 0 + 2 ≤ 64 ∧ s.ritAhead 0 s.me = []
    ∧ (let busy : State := { s with cmds := [{ cmd (.copy 0 0 0x100 64 []) .run 0 with ranges := [⟨false, 0, 63, true⟩] }] }
       ∃ x ∈ busy.cmds, x.hart = busy.me ∧ ∃ e ∈ x.ranges, ∃ y ∈ [(⟨true, 0x100, 0x13F, false⟩ : Range), ⟨false, 0, 63, true⟩],
         e.mem = y.mem ∧ e.lo ≤ y.hi ∧ y.lo ≤ e.hi ∧ (e.write = true ∨ y.write = true))
    ∧ (let c : Cmd := { cmd (.copy 0 0 0x100 64 []) .run 0 with hart := 1, ranges := List.replicate 64 ⟨true, 0, 0, false⟩ }
       let full : State := { s with cmds := [c] }
       (∀ x ∈ full.cmds, x.hart ≠ full.me) ∧ (full.hart 0).stalled = none ∧ 64 < full.ritUsed 0 + 2
       ∧ (let waits : State := { s with ritQ := [(0, [1, 0])], harts := [(0, { hart0 with block := some ⟨0, [], 0⟩ }), (1, { hart0 with stalled := some ⟨2, false⟩ })] }
          waits.ritWaiters 0 = [1] ∧ (waits.hart 1).stalled = some ⟨2, false⟩ ∧ waits.ritAhead 0 waits.me ≠ []
          ∧ waits.ritUsed 0 + 2 ≤ 64 ∧ 64 < ({ waits with cmds := [c] } : State).ritUsed 0 + 2)) :=
  ⟨rfl, by decide, by decide, by decide, by decide, by decide, by decide, by decide, by decide, by decide, by decide, by decide, by decide, by decide, by decide,
    (fun _ h => by cases h), by decide, by decide, ⟨_, .head _, rfl, _, .head _, _, .tail _ (.head _), by decide⟩, by decide⟩
/-- A machine that has the first page pinned for the commands of hart 0. -/
def pinned (s : State) : State := { s with pins := [⟨0, 0, 1, 0, 4096, 0xF⟩] }
/-- A pinned page lies where its leaf says, whatever the bytes of memory hold. -/
theorem pages_pinned {s : State} {va n : Nat} {a : Access} (hp : s.pins = [⟨0, 0, 1, 0, 4096, 0xF⟩]) (hl : s.linkUp = true)
    (hc : 4096 ≤ 4000000000 * s.channels) (ha : a.allowed (0xF : W64) = true) (hn : va + n ≤ 4096) {w : Nat → Prop} : s.enginePages 0 id a va n w := by
  refine ⟨hl, fun v hv _ i hi => ?_, fun i hi => ⟨?_, fun _ _ => ?_⟩⟩
  · have e1 : v.pins = s.pins := by rcases hv with ⟨k, e | ⟨m, e⟩⟩ <;> rw [e] <;> rfl
    have e2 : ∀ x, v.mapped x = s.mapped x := by intro x; rcases hv with ⟨k, e | ⟨m, e⟩⟩ <;> rw [e] <;> rfl
    have hm : ∀ x, x < 4096 → s.mapped x = true := by
      intro x hx
      have : s.isDevice x = true := decide_eq_true (Nat.lt_of_lt_of_le hx hc)
      simp only [State.mapped, this, Bool.true_or]
    have hx : va + i < 4096 := Nat.lt_of_lt_of_le (Nat.add_lt_add_left hi va) hn
    have hpin : v.pinned 0 (va + i) = some ⟨0, 4096, 0xF⟩ := by
      simp [State.pinned, e1, hp, hx]
    have h0 : entryPa 15#64 = 0 := by decide
    have hv' : isView 0 = false := by decide
    have hmod : (va + i) % 4096 = va + i := Nat.mod_eq_of_lt hx
    have m0 := hm 0 (by decide)
    have m1 := hm 4095 (by decide)
    have hu : v.useLeaf false ⟨0, 4096, 0xF⟩ (va + i) a = .ok (va + i) := by
      unfold State.useLeaf
      have z : entryPa (⟨0, 4096, 0xF⟩ : Page).leaf / (⟨0, 4096, 0xF⟩ : Page).size * (⟨0, 4096, 0xF⟩ : Page).size = 0 := by decide
      rw [z]
      simp only [e2, Nat.zero_add, hmod, hv', ha, m0, m1, Bool.and_self, Bool.not_true, Bool.false_and, Bool.or_self, Bool.false_eq_true, if_false]
    unfold State.engineAt
    rw [hpin]
    have z : entryPa (⟨0, 4096, 0xF⟩ : Page).leaf / (⟨0, 4096, 0xF⟩ : Page).size * (⟨0, 4096, 0xF⟩ : Page).size = 0 := by decide
    simp only [z, Nat.zero_add, hmod, e2, hm _ hx, if_true, hu]
    rfl
  · exact Nat.lt_of_lt_of_le (Nat.lt_of_lt_of_le (Nat.add_lt_add_left hi va) hn) (by decide)
  · exact rfl
theorem clean_of {s : State} {va n : Nat} (h : s.poison = []) : s.engineClean id va n := by
  intro i _; simp [State.poisoned, h, Tab.get]
/-- A translation, and what it takes to prove one by deciding. -/
def maps (s : State) (ctx va : Nat) (a : Access) (pa : Nat) : Bool := match s.translate 0 ctx va a with | .ok q => decide (q = pa) | .error _ => false
theorem maps_eq {s : State} {ctx va : Nat} {a : Access} {pa : Nat} (h : maps s ctx va a pa = true) : s.translate 0 ctx va a = .ok pa := by
  unfold maps at h
  split at h
  · next q hq => rw [hq, of_decide_eq_true h]
  · cases h
def unmapped (s : State) (ctx va : Nat) (a : Access) (f : TFail) : Bool := match s.translate 0 ctx va a with | .ok _ => false | .error e => decide (e = f)
theorem unmapped_eq {s : State} {ctx va : Nat} {a : Access} {f : TFail} (h : unmapped s ctx va a f = true) : s.translate 0 ctx va a = .error f := by
  unfold unmapped at h
  split at h
  · cases h
  · next q hq => rw [hq, of_decide_eq_true h]
/-- Hart 0 with one command in flight. -/
def flight (c : Cmd) : State := pinned { vec id with cmds := [c] }

/-- A run from memory to memory, and a copy whose runs have all moved; completion words in the scratchpad, in memory, and in a page that
does not translate. -/
theorem witness_CopyRunsAndCompletions : let c := cmd (.copy 2 0x200 0x100 2 [⟨1, 0, 0⟩]) .run 1
    let s := flight c
    s.steps 0 0 c .run EngOp.isCopy ∧ c.o = 0 ∧ ([⟨1, 0, 0⟩].map (fun l : Level => l.count.toNat)).prod = 1
    ∧ s.enginePages 0 id .engRead 0x100 2 (fun q => ∃ i, i < 2 ∧ q = id (0x200 + i)) ∧ s.engineClean id 0x100 2
    ∧ s.enginePages 0 id .engWrite 0x200 2 (fun q => ∃ i, i < 2 ∧ q = id (0x200 + i))
    ∧ (∀ i j, i < 2 → j < 2 → id (0x200 + i) ≠ id (0x100 + j))
    ∧ (let d : Cmd := { c with stage := .add }
       let t := flight d
       t.cmd? 0 0 = some d ∧ t.mayMove d = true ∧ inWindow d.cw.toNat = false ∧ inWindow (0xFF0000000008 : W64).toNat = true
       ∧ t.translate 0 (t.ctxOf 0) 0x300 .atomic = .ok 0x300 ∧ t.anyPoison 0x300 8 = false
       ∧ t.translate 0 (t.ctxOf 0) 0x40000000 .atomic = .error ⟨1, 0x40000000, 4096⟩ ∧ t.entryFor (t.ctxOf 0) 0x40000000 4096 = none) :=
  ⟨⟨by decide, rfl, rfl, by decide, by decide⟩, rfl, by decide, pages_pinned rfl rfl (by decide) (by decide) (by decide), clean_of rfl,
    pages_pinned rfl rfl (by decide) (by decide) (by decide), (fun i j hi hj => by simp only [id]; omega),
    by decide, by decide, by decide, by decide, maps_eq (by decide), by decide, unmapped_eq (by decide), by decide⟩
/-- A number of tiles that fits, the first that does not, none; a team that holds rows and one that does not. -/
theorem witness_MatrixIssue : let s := vec (fun t => { t with s := [(1, 2047), (2, 1)] })
    s.isVector = true ∧ (s.getS 2).toNat ≠ 0 ∧ ((vec id).getS 2).toNat = 0 ∧ (∀ x ∈ s.cmds, x.hart ≠ s.me) ∧ s.issueFree
    ∧ (s.getS 1).toNat + 1 ≤ (s.team 0).tiles ∧ (s.team 0).tiles < 2048 + 1 ∧ (s.hart 0).rnd ≠ stoch
    ∧ (∃ c ∈ (flight (cmd (.mcvt 0 0 1 0 0 false false) .run 0)).cmds, teamOf c.hart = 0 ∧ c.op.isMatrix = true)
    ∧ (∃ x ∈ (flight (cmd (.mcvt 2047 0 1 0 0 false false) .run 0)).cmds, x.hart = s.me ∧ ∃ c0 off k fm rnd sat clr, x.op = .mcvt c0 off k fm rnd sat clr ∧ 2047 < c0 + k ∧ c0 < 2047 + 1)
    ∧ (vreg 0 2 []).VectorReady (fun t => t.ty = tF32) [.main 6] ∧ (∃ i, ((vreg 0 2 []).hart 0).covers 2 i) ∧ (∀ i, ¬ ((vreg 0 0 []).hart 0).covers 0 i)
    ∧ (∀ i, ((vreg 0 2 []).hart 0).covers 2 i → 0 + i < 1024 * (s.team 0).tiles) :=
  ⟨rfl, by decide, by decide, (fun _ h => by cases h), ⟨(fun _ h => by cases h), by decide, rfl⟩, by decide, by decide, by decide,
    ⟨_, .head _, rfl, rfl⟩, ⟨_, .head _, rfl, _, _, _, _, _, _, _, rfl, by decide, by decide⟩, vector_ready rfl rfl (by decide), ⟨0, by decide, by decide, by decide⟩, (fun i h => absurd h.2.1 (by omega)),
    fun i h => Nat.lt_of_lt_of_le (Nat.zero_add i ▸ h.2.1) (by decide)⟩
/-- One token of two numbers and its node, in a team that holds four rows. -/
theorem witness_descent : let s : State := { vreg 0xC0000 1 [] with teams := [(0, { team0 with rows := 4 })] }
    let geo : Nat := 2 ^ 16 + 2
    s.VectorReady (fun t => t.ty = tN32) [.main 6, .main 7] ∧ (6 : BitVec 5).getLsbD 0 = false ∧ (s.team 0).rows ≠ 0 ∧ classDescent (s.team 0).pclass = true
    ∧ 1 ≤ geo % 2 ^ 16 ∧ geo % 2 ^ 16 ≤ 4096 ∧ 1 ≤ geo / 2 ^ 16 ∧ geo / 2 ^ 16 ≤ 2 ^ 30 ∧ s.issueFree
    ∧ (∀ e ∈ ((List.range 1).filter (s.hart 0).active).map (fun i => (i, (s.hart 0).read false (.main 6) 32 i, (s.hart 0).read false (.main 7) 32 i)),
        e.2.1 < geo / 2 ^ 16 ∧ 0 + (e.2.1 + 1) * codeBytes 0 2 ≤ (s.team 0).bytes ∧ 0 + (e.2.2 + 1) * codeBytes 0 2 ≤ (s.team 0).bytes ∧ e.2.2 < 512)
    ∧ ((vreg 0xC0000 1 []).team 0).rows = 0 :=
  ⟨vector_ready rfl rfl (by decide), by decide, by decide, by decide, by decide, by decide, by decide, by decide, ⟨(fun _ h => by cases h), by decide, rfl⟩,
    by decide, rfl⟩
/-- A product of one tile, dense, masked and gathered, in a number format and in q4; a gathered one with no active element. -/
theorem witness_MatrixProducts : let s : State := { vreg 0xC0000 1 [] with teams := [(0, { team0 with rows := 4 })] }
    let geo : Nat := 2 ^ 20 + 2 ^ 16 + 1
    (1 : BitVec 3).toNat ≤ 5 ∧ (5 : BitVec 3).toNat = tQ4 ∧ s.isVector = true ∧ (s.team 0).rows ≠ 0 ∧ ((vec id).team 0).rows = 0
    ∧ geo % 2 ^ 16 = 1 ∧ geo / 2 ^ 16 % 2 ^ 4 = 1 ∧ geo / 2 ^ 20 % 2 ^ 8 = 1 ∧ geo / 2 ^ 28 = 0 ∧ 0 + 1 * 1 ≤ (s.team 0).tiles ∧ 1 ≤ (s.hart 0).maskBits
    ∧ popBelow (Tab.get 0 (s.hart 0).k 2) 1 ≤ 1 ∧ 31 * rowBytes 1 1 + rowBytes 1 1 ≤ (s.team 0).bytes ∧ s.issueFree
    ∧ 31 * rowBytes 5 1 + rowBytes 5 1 ≤ (s.team 0).bytes ∧ (∀ n : Fin 32, s.rowFormat 0 (0 + n * rowBytes 5 1) 1 = none)
    ∧ (s.hart 0).ty = tN32 ∧ (3 : BitVec 5).toNat < (s.hart 0).n ∧ (s.hart 0).vl ≤ 256 ∧ (s.hart 0).active 0 = true ∧ ((vreg 0xC0000 0 []).hart 0).vl = 0 :=
  ⟨by decide, by decide, rfl, by decide, by decide, by decide, by decide, by decide, by decide, by decide, by decide, by decide, by decide,
    ⟨(fun _ h => by cases h), by decide, rfl⟩, by decide, by decide, by decide, by decide, by decide, by decide, by decide⟩
/-- A tile with an active row and one with none, of a command that has a tile left and of one at its last; a conversion; a descent. -/
theorem witness_MatrixSteps : let c := cmd (.prod 0 true 1 0 2 1 [some 0] 0 64 none) .run 0
    let s := flight c
    s.cmd? 0 0 = some c ∧ s.mayMove c = true ∧ s.olderMatrix c = false ∧ [some 0].getD (32 * (0 / 1) + 0) none ≠ none
    ∧ (∀ r, r < 32 → ([some 0] : List (Option Nat)).getD (32 * (1 / 1) + r) none = none) ∧ 0 + 1 < 2 * 1 ∧ ¬ 1 + 1 < 2 * 1
    ∧ (flight (cmd (.mcvt 0 0 1 4 0 false true) .run 0)).cmd? 0 0 = some (cmd (.mcvt 0 0 1 4 0 false true) .run 0)
    ∧ (flight (cmd (.desc 0 0 0x10001 0 (some 1) 6 2 [(0, 0, 3), (1, 0, 3)]) .run 0)).cmd? 0 0 = some (cmd (.desc 0 0 0x10001 0 (some 1) 6 2 [(0, 0, 3), (1, 0, 3)]) .run 0)
    ∧ ([(0, 0, 3), (1, 0, 3)] : List (Nat × Nat × Nat)).Pairwise (fun a b => a.1 < b.1) := by
  decide
/-- The pages of ranges where nothing is cached. -/
theorem pages_same {s v : State} {core ctx : Nat} {a : Access} (ht : s.tlb = []) (hl : s.l1 = []) (hp : s.poison = []) (ho : s.OnlyBytes 0 v)
    (hk : s.HomeKept core (fun _ => False) v) (l : List (Nat × Nat)) : v.pagesAll core ctx a l = s.pagesAll core ctx a l := by
  have ev : v.tlb = s.tlb := by rcases ho with ⟨k, e | ⟨m, e⟩⟩ <;> rw [e] <;> rfl
  have hd : v.channels = s.channels := by rcases ho with ⟨k, e | ⟨m, e⟩⟩ <;> rw [e] <;> rfl
  have e3 : v.rootOf ctx = s.rootOf ctx := by rcases ho with ⟨k, e | ⟨m, e⟩⟩ <;> rw [e] <;> rfl
  have hu : ∀ p va, v.useLeaf false p va a = s.useLeaf false p va a := by
    intro p va; rcases ho with ⟨k, e | ⟨m, e⟩⟩ <;> rw [e] <;> rfl
  have hf : ∀ va, v.findPage core ctx va = s.findPage core ctx va := by
    intro va
    have e1 : v.held core ctx va = none := by simp only [State.held, ev, ht, List.find?_nil]
    have e2 : s.held core ctx va = none := by simp only [State.held, ht, List.find?_nil]
    have e4 : v.tableOk (s.rootOf ctx) = s.tableOk (s.rootOf ctx) := by unfold State.tableOk State.isDevice; rw [hd]
    unfold State.findPage
    rw [e1, e2, e3]
    simp only [e4]
    cases h : s.tableOk (s.rootOf ctx)
    · rfl
    · simp only [if_true, walks_same hl hp hd hk va 4 _ h]
  have hp' : ∀ hi fuel va, v.pagesFrom core ctx hi a fuel va = s.pagesFrom core ctx hi a fuel va := by
    intro hi fuel
    induction fuel with
    | zero => intro va; rfl
    | succ n ih => intro va; simp only [State.pagesFrom, hf, hu, ih]
  induction l with
  | nil => rfl
  | cons x l ih => simp only [State.pagesAll, State.pagesOf, hp', ih]
def pagesAre (s : State) (a : Access) (l : List (Nat × Nat)) (ps : List Page) : Bool := match s.pagesAll 0 1 a l with | .ok q => decide (q = ps) | .error _ => false
theorem pages_eq {s : State} {a : Access} {l : List (Nat × Nat)} {ps : List Page} (h : pagesAre s a l ps = true) : s.pagesAll 0 1 a l = .ok ps := by
  unfold pagesAre at h
  split at h
  · next q hq => rw [hq, of_decide_eq_true h]
  · cases h
/-- A table with one sub-key of one f32 number in each half and one row of one f32 number, in the first page. -/
def table : BitVec 512 := BitVec.ofNat 512 (4 * 256 ^ 63 + 64 * 256 ^ 32 + (2 ^ 41 + 2 ^ 28 + 2 ^ 16 + 1) * 256 ^ 24 + 0x180 * 256 ^ 16 + 0x140 * 256 ^ 8 + 0x100)

/-- A query, a query count past the most, one of none; a class with key lookup engines and one without. -/
theorem witness_LookupIssue : let s := vec (fun t => { t with hd := [(1, table)], s := [(1, 0), (2, 64), (3, 1), (4, 0x3F800000), (5, 0x300)] })
    s.isVector = true ∧ classKle (s.team 0).pclass ≠ 0 ∧ classKle 1 = 0 ∧ tableBad table = false ∧ tableBad 0 = true ∧ (s.getS 3).toNat ≤ 4096
    ∧ s.wordOk s.me 0x300 1 = true ∧ s.issueFree ∧ 0 + 1 * (tableOf table).queryBytes ≤ (s.team 0).bytes ∧ 64 + 1 * (tableOf table).recordBytes ≤ (s.team 0).bytes
    ∧ 0 + 1 * (tableOf table).queryBytes ≤ 64 ∧ 0 + 1 * (tableOf table).gradBytes ≤ (s.team 0).bytes ∧ (s.getS 4).toNat < 2 ^ 32
    ∧ s.lookupFault false ⟨table, 1, 64, 1, 0, 0, 0⟩ = true :=
  ⟨rfl, by decide, by decide, by decide, by decide, by decide, by decide, ⟨(fun _ h => by cases h), by decide, rfl⟩, by decide, by decide, by decide, by decide,
    by decide, by decide⟩
/-- Two sub-keys a half; a NaN among the scores. -/
theorem witness_LookupSelection : let t : Table := { tableOf table with n := 2, k := 2, wm := 1 }
    t.k ≤ [0x3F800000, 0x7FC00000].length ∧ [0x3F800000, 0x7FC00000].length ≤ t.n ∧ (∀ x ∈ [0x3F800000, 0x7FC00000] ++ [0, 0x40000000], x < 2 ^ 32) := by
  decide
theorem witness_LookupQueries : let c := cmd (.klq table 0 64 1 []) .probe 1
    let s := flight c
    s.cmd? 0 0 = some c ∧ (s.team 0).st = .resident ∧ s.mayMove c = true ∧ s.lookupTurn c = true
    ∧ s.hasPins c = true ∧ (∀ v, s.OnlyBytes 0 v → s.HomeKept 0 (fun _ => False) v → ∀ l, v.pagesAll 0 (s.ctxOf 0) .engRead l = s.pagesAll 0 (s.ctxOf 0) .engRead l)
    ∧ s.enginePages 0 id .engRead 0x100 4 (fun _ => False) ∧ s.engineClean id 0x100 4 ∧ s.enginePages 0 id .engRead 0x140 4 (fun _ => False) ∧ s.engineClean id 0x140 4
    ∧ ({ s with pins := [] } : State).hasPins c = false
    ∧ (∃ ps, s.pagesAll 0 1 .engRead [(0x100, 4), (0x140, 4)] = .ok ps)
    ∧ (let choose := s.selections 0 (tableOf table) 0 1 (s.engineBytes 0 id 0x100 4) (s.engineBytes 0 id 0x140 4)
       ∃ qs, s.pagesAll 0 1 .engRead ((choose.flatten.map Prod.fst).eraseDups.map (fun r => (0x180 + r * 64, 4))) = .ok qs)
    ∧ (let d := cmd (.klq table 0 64 1 [[(0, 0x3F800000)]]) .run 1
       let t := flight d
       t.cmd? 0 0 = some d ∧ t.mayMove d = true ∧ d.k < 1 ∧ [(0, 0x3F800000)].length = (tableOf table).k
       ∧ t.enginePages 0 id .engRead 0x180 4 (fun _ => False) ∧ t.engineClean id 0x180 4) :=
  ⟨by decide, rfl, by decide, by decide, by decide, (fun v hv hk l => pages_same rfl rfl rfl hv hk l), pages_pinned rfl rfl (by decide) (by decide) (by decide), clean_of rfl,
    pages_pinned rfl rfl (by decide) (by decide) (by decide), clean_of rfl, by decide, ⟨[⟨0, 2 ^ 30, 0xF⟩, ⟨0, 2 ^ 30, 0xF⟩], pages_eq (by decide)⟩, ⟨[⟨0, 2 ^ 30, 0xF⟩], pages_eq (by decide)⟩,
    by decide, rfl, by decide, by decide, pages_pinned rfl rfl (by decide) (by decide) (by decide), clean_of rfl⟩
/-- A probe whose entry names the one row, a probe whose entry names a row that is not, and a step on the row. -/
theorem witness_LookupUpdates : let c := cmd (.klu table 0 64 1 0x3F800000 []) .probe 1
    let s := flight c
    s.cmd? 0 0 = some c ∧ (s.team 0).st = .resident ∧ s.mayMove c = true ∧ s.lookupTurn c = true ∧ leNat (s.spadBytes 0 (64 + 0 + 64 + 0) 8) % 2 ^ 32 < 1 * 1
    ∧ (∃ ps, s.pagesAll 0 1 .engWrite [(0x180 + 0 * 64, 4)] = .ok ps)
    ∧ (let t : State := { s with teams := [(0, { team0 with spad := [(128, 1)] })] }
       (tableOf table).n * (tableOf table).n ≤ leNat (t.spadBytes 0 (64 + 0 + 64 + 0) 8) % 2 ^ 32)
    ∧ (let d := cmd (.klu table 0 64 1 0x3F800000 [(0, 0, 0x3F800000)]) .run 1
       let t := flight d
       t.cmd? 0 0 = some d ∧ t.mayMove d = true ∧ [(0, 0, 0x3F800000)][d.k]? = some (0, 0, 0x3F800000) ∧ (tableOf table).fv ≤ 2
       ∧ codeBytes (tableOf table).fv (tableOf table).vw ≤ (tableOf table).vpitch ∧ t.enginePages 0 id .engRead 0x180 4 (fun q => ∃ i, i < 4 ∧ q = id (0x180 + i))
       ∧ t.enginePages 0 id .engWrite 0x180 4 (fun q => ∃ i, i < 4 ∧ q = id (0x180 + i))
       ∧ t.engineClean id 0x180 4) :=
  ⟨by decide, rfl, by decide, by decide, by decide, ⟨[⟨0, 2 ^ 30, 0xF⟩], pages_eq (by decide)⟩, by decide, by decide, by decide, rfl, by decide, by decide,
    pages_pinned rfl rfl (by decide) (by decide) (by decide), pages_pinned rfl rfl (by decide) (by decide) (by decide), clean_of rfl⟩
def pageIs (s : State) (va n : Nat) (a : Access) (ps : List Page) : Bool := match s.pagesOf 0 1 va n a with | .ok q => decide (q = ps) | .error _ => false
theorem page_eq {s : State} {va n : Nat} {a : Access} {ps : List Page} (h : pageIs s va n a ps = true) : s.pagesOf 0 1 va n a = .ok ps := by
  unfold pageIs at h
  split at h
  · next q hq => rw [hq, of_decide_eq_true h]
  · cases h
/-- The last row below the bound and the first beyond it; a base that is aligned and one that is not. -/
theorem witness_IndexIssue : let s := vec (fun t => { t with vl := 2, mode := 0xC0000, s := [(1, 0x100), (2, 5), (3, 4)], v := [(4, reg 32 [4, 5])] })
    s.VectorReady (fun t => t.ty = tN32 || t.ty = tN64) [.main 4] ∧ ¬ 5 ≤ (s.hart 0).read false (.main 4) 32 0 ∧ 5 ≤ (s.hart 0).read false (.main 4) 32 1
    ∧ (∃ ps, s.pagesOf 0 (s.ctxOf 0) (0x100 + 4 * 4) 4 .engRead = .ok ps) ∧ (s.getS 1).toNat % min 4 64 = 0 ∧ (s.getS 3).toNat % min 4 64 = 0 ∧ 0 % min 4 64 = 0
    ∧ 0 + 2 * 4 ≤ (s.team 0).bytes ∧ s.wordOk s.me 0 0 = true ∧ s.issueFree ∧ (0x102 : W64).toNat % min 4 64 ≠ 0 :=
  ⟨vector_ready rfl rfl (by decide), by decide, by decide, ⟨[⟨0, 2 ^ 30, 0xF⟩], page_eq (by decide)⟩, by decide, by decide, by decide, by decide, by decide,
    ⟨(fun _ h => by cases h), by decide, rfl⟩, by decide⟩
/-- A probe with a bad second row and one with none; a gather and a scatter with a row to move, and one at its end. -/
theorem witness_IndexSteps : let c := cmd (.gix 0x100 4 5 4 0 [4, 5]) .probe 1
    let s := flight c
    s.cmd? 0 0 = some c ∧ (s.team 0).st = .resident ∧ s.mayMove c = true ∧ s.unprobed c = false ∧ 5 ≤ [4, 5].getD 1 0 ∧ ¬ 5 ≤ [4, 5].getD 0 0
    ∧ (∃ ps, s.pagesOf 0 (s.ctxOf 0) (0x100 + 4 * 4) 4 .engRead = .ok ps) ∧ (∃ ps, s.pagesOf 0 (s.ctxOf 0) (0x100 + 4 * 4) 4 .engWrite = .ok ps)
    ∧ (let d := cmd (.six 0x100 4 5 4 0 [4] 1) .run 1
       let t := flight d
       t.cmd? 0 0 = some d ∧ t.mayMove d = true ∧ d.k < [4].length ∧ [4].length ≤ 1 ∧ t.enginePages 0 id .engRead (0x100 + 4 * 4) 4 (fun q => ∃ i, i < 4 ∧ q = id (0x110 + i))
       ∧ t.enginePages 0 id .engWrite (0x100 + 4 * 4) 4 (fun q => ∃ i, i < 4 ∧ q = id (0x110 + i)) ∧ t.engineClean id (0x100 + 4 * 4) 4) :=
  ⟨by decide, rfl, by decide, by decide, by decide, by decide, ⟨[⟨0, 2 ^ 30, 0xF⟩], page_eq (by decide)⟩, ⟨[⟨0, 2 ^ 30, 0xF⟩], page_eq (by decide)⟩, by decide, rfl, by decide, by decide,
    pages_pinned rfl rfl (by decide) (by decide) (by decide), pages_pinned rfl rfl (by decide) (by decide) (by decide), clean_of rfl⟩
/-- Tables at 0x1000 and 0x2000 that map the first GiB of context 1 onto itself. -/
def tables : Tab Byte := [(0x1000, 1), (0x1001, 0x20), (0x2000, 0xF)]
def walked (s : State) : State := { s with mem := tables, roots := [(1, 0x1001)] }
theorem home8 (s : State) (pa : Nat) : s.home pa 8 = [s.homeByte pa, s.homeByte (pa + 1), s.homeByte (pa + 2), s.homeByte (pa + 3), s.homeByte (pa + 4),
    s.homeByte (pa + 5), s.homeByte (pa + 6), s.homeByte (pa + 7)] := rfl
/-- Whoever holds those tables translates so, whatever else memory holds. -/
theorem walked_translates {s : State} (hc : 2 ^ 30 ≤ 4000000000 * s.channels) (hm : ∀ q, 0x1000 ≤ q → q < 0x3000 → s.homeByte q = Tab.get 0 tables q)
    (hp : ∀ l, s.poisoned l = false) (va : Nat) (hv : va < 2 ^ 30) (a : Access) : s.translateRoot false 0x1000 va a = .ok va := by
  have hd : ∀ x, x < 2 ^ 30 → s.isDevice x = true := fun x hx => decide_eq_true (Nat.lt_of_lt_of_le hx hc)
  have h1 : s.entryAt 0x1000 = 0x2001 := by
    simp only [State.entryAt, home8]
    rw [hm _ (by decide) (by decide), hm _ (by decide) (by decide), hm _ (by decide) (by decide), hm _ (by decide) (by decide),
      hm _ (by decide) (by decide), hm _ (by decide) (by decide), hm _ (by decide) (by decide), hm _ (by decide) (by decide)]
    decide
  have h2 : s.entryAt 0x2000 = 0xF := by
    simp only [State.entryAt, home8]
    rw [hm _ (by decide) (by decide), hm _ (by decide) (by decide), hm _ (by decide) (by decide), hm _ (by decide) (by decide),
      hm _ (by decide) (by decide), hm _ (by decide) (by decide), hm _ (by decide) (by decide), hm _ (by decide) (by decide)]
    decide
  have i0 : va / 2 ^ (12 + 9 * 3) % 512 = 0 := by omega
  have i1 : va / 2 ^ (12 + 9 * 2) % 512 = 0 := by omega
  have m0 : s.malformed 0 0x1000 0 0x2001 = false := by
    have : s.tableOk (entryPa 0x2001#64) = true := hd _ (by decide)
    simp [State.malformed, this]
  have m1 : s.malformed 1 0x2000 0 0xF = false := by
    have e : entryPa 0xF#64 = 0 := by decide
    simp [State.malformed, e]
  have w : s.walk va 4 0x1000 = .ok ⟨0, 2 ^ 30, 0xF⟩ := by
    have hz : va / 2 ^ 30 * 2 ^ 30 = 0 := by omega
    have n0 : entryPa (0x2001 : W64) = 0x2000 := by decide
    have b1 : ((0x2001 : W64).getLsbD 0 = true) ∧ (0x2001 : W64).getLsbD 1 = false ∧ (0x2001 : W64).getLsbD 2 = false ∧ (0x2001 : W64).getLsbD 3 = false
      ∧ (0x2001 : W64).getLsbD 5 = false := by decide
    have b2 : ((0xF : W64).getLsbD 0 = true) ∧ (0xF : W64).getLsbD 1 = true ∧ (0xF : W64).getLsbD 5 = false := by decide
    have z : leafSize 1 0xF = 2 ^ 30 := by decide
    have r : State.walk s va 4 0x1000 = s.walk va 3 0x2000 := by
      rw [State.walk]
      simp only [i0, Nat.mul_zero, Nat.add_zero, h1, hp, m0, n0, b1, Bool.false_eq_true, if_false, Bool.not_true, Bool.and_false, Bool.or_self, Nat.sub_self]
    rw [r, State.walk]
    have : (3 - 2 : Nat) = 1 := rfl
    simp only [i1, Nat.mul_zero, Nat.add_zero, h2, hp, this, m1, b2, z, hz, Bool.false_eq_true, if_false, Bool.not_true, Bool.false_and, Bool.and_false, Bool.true_or, if_true]
  have hmap : ∀ x, x < 2 ^ 30 → s.mapped x = true := fun x hx => by simp only [State.mapped, hd x hx, Bool.true_or]
  have ok : s.tableOk 0x1000 = true := hd _ (by decide)
  have al : a.allowed 0xF = true := by cases a <;> decide
  have z0 : entryPa (⟨0, 2 ^ 30, 0xF⟩ : Page).leaf / (⟨0, 2 ^ 30, 0xF⟩ : Page).size * (⟨0, 2 ^ 30, 0xF⟩ : Page).size = 0 := by decide
  have v0 : isView 0 = false := by decide
  unfold State.translateRoot
  simp only [ok, w, Bool.not_true, Bool.false_eq_true, if_false]
  unfold State.useLeaf
  rw [z0]
  simp only [hmap 0 (by decide), hmap (2 ^ 30 - 1) (by decide), v0, al, Bool.and_self, Bool.not_true, Bool.false_and, Bool.or_self, Bool.false_eq_true, if_false,
    Nat.zero_add, Nat.mod_eq_of_lt hv]
theorem walked_reach {s : State} (hr : s.rootOf 1 = 0x1000) (hc : 2 ^ 30 ≤ 4000000000 * s.channels)
    (hm : ∀ q, 0x1000 ≤ q → q < 0x3000 → s.homeByte q = Tab.get 0 tables q) (hp : ∀ l, s.poisoned l = false) (w : Waiter) (va : Nat) (hv : va < 2 ^ 30) (a : Access) :
    s.reach w 1 va a = .ok va := by
  have hh : isHost va = false := decide_eq_false (by omega)
  unfold State.reach
  rw [hr, walked_translates hc hm hp va hv a]
  simp only [State.mustWaitFor, hh, hp, Bool.false_and, Bool.false_eq_true, if_false]

/-- An object and an addend that fits, the first that does not; all of its arrivals, fewer and more; a set high byte; a phase that has
turned and one that has not. -/
theorem witness_Barriers : let s := mem [(2, 0x100), (3, 7)] [(0x100, 3), (0x104, 2), (0x108, 9)]
    s.isControl = true ∧ s.resolve s.cur (s.getX 2) 16 .atomic = .ok (.mem 0x100) ∧ s.homeReady true 16 (.mem 0x100) ∧ isHost 0x100 = false ∧ s.releaseReady .dv
    ∧ s.resolve s.cur (s.getX 2) 8 .load = .ok (.mem 0x100) ∧ s.homeReady false 16 (.mem 0x100) ∧ (s.getX 2).toNat % 16 = 0
    ∧ (let o := s.placeValue true (.mem 0x100) 16
       o < 2 ^ 96 ∧ o % 2 ^ 32 = 3 ∧ o / 2 ^ 32 % 2 ^ 32 = 2 ∧ 3 + (0xFFFFFFFC : W64).toNat < 2 ^ 32 ∧ 2 ^ 32 ≤ 3 + (0xFFFFFFFD : W64).toNat
       ∧ ((List.range 64).filter (7 : W64).getLsbD).length = 3 ∧ ((List.range 64).filter (15 : W64).getLsbD).length = 4)
    ∧ 2 ^ 96 ≤ (mem [] [(0x10C, 1)]).placeValue true (.mem 0x100) 16
    ∧ (∃ tr, s.resolve s.cur 0x108 16 .atomic = .error tr) ∧ (∃ tr, s.resolve s.cur 0x104 8 .load = .error tr)
    ∧ s.resolve s.cur 0x108 8 .load = .ok (.mem 0x108) ∧ (0x108 : W64).toNat % 16 ≠ 0
    ∧ (let v : State := { verge { x := [(2, 0x1000000000000)] } with cur := .verge 0 }
       v.resolve v.cur (v.getX 2) 16 .atomic = .ok (.mem 0x1000000000000) ∧ isHost 0x1000000000000 = true) :=
  ⟨rfl, lands_eq (by decide), ready_mem (by decide) rfl (by decide), by decide, ⟨fun _ => rfl, rfl, fun _ => rfl⟩, lands_eq (by decide), ready_mem (by decide) rfl (by decide), by decide,
    by decide, by decide, ⟨{ cls := 0x03, addr := 0x108, acc := 3, sz := 4 }, traps_eq (by decide)⟩, ⟨{ cls := 0x03, addr := 0x104, acc := 1, sz := 3 }, traps_eq (by decide)⟩,
    lands_eq (by decide), by decide, lands_eq (by decide), by decide⟩
/-- A sound record, an unsound one; a context the hart may name and one it may not; a queue with room and a full one. -/
theorem witness_LaunchInstruction :
    let s := mem [(20, 0x1000)] [(0x1001, 0x40), (0x1009, 1), (0x1030, 1)]
    s.isControl = true ∧ s.steady ∧ (s.hart 0).blockQ = [] ∧ (s.hart 0).block = none ∧ s.descending 0 = false ∧ s.cmds = [] ∧ s.releaseReady .dv
    ∧ s.resolve s.cur (s.getX 20) 64 .load = .ok (.mem 0x1000) ∧ s.homeReady false 64 (.mem 0x1000) ∧ s.recordAt (.mem 0x1000) = record
    ∧ s.ctxOf s.me = 1 ∧ 0x4000 / 2 ^ 48 = 0 ∧ (0x4000 % 4 = 0 ∧ 0x100 < 2 ^ 48 ∧ 0x100 % 8 = 0 ∧ 1 < 2 ^ 45 ∧ 1 ≤ 1 % 2 ^ 4 ∧ 1 % 2 ^ 4 ≤ 8)
    ∧ (2 * 2 ^ 48) / 2 ^ 48 ≠ 0 ∧ (2 * 2 ^ 48) / 2 ^ 48 ≠ 1 ∧ ¬ 1 ≤ 0 % 2 ^ 4
    ∧ (Tab.get [] s.dq 4).length < 256 ∧ 256 ≤ (Tab.get [] ({ s with dq := [(4, List.replicate 256 ⟨record, 3, 0x40⟩)] } : State).dq 4).length
    ∧ (Tab.get 0 (verge {}).ctxroot 1).getLsbD 0 = true :=
  ⟨rfl, steady_of (h := 0) (.inl rfl) rfl rfl rfl, rfl, rfl, rfl, rfl, ⟨fun _ => rfl, rfl, fun _ => rfl⟩, lands_eq (by decide), ready_mem (by decide) rfl (by decide), by decide, rfl,
    by decide, by decide, by decide, by decide, by decide, by decide, by decide, by decide⟩

def wordIs (s : State) (w : Waiter) (ctx va : Nat) (a : Access) (v : W64) : Bool := match s.ctxWord w ctx va a with | .ok x => decide (x = v) | .error _ => false
theorem word_eq {s : State} {w : Waiter} {ctx va : Nat} {a : Access} {v : W64} (h : wordIs s w ctx va a v = true) : s.ctxWord w ctx va a = .ok v := by
  unfold wordIs at h
  split at h
  · next q hq => rw [hq, of_decide_eq_true h]
  · cases h
def bytesAre (s : State) (w : Waiter) (ctx : Nat) (a : Access) (n va len : Nat) (v : List Byte) : Bool :=
  match s.ctxRead w ctx a n va len with | .ok x => decide (x = v) | .error _ => false
theorem bytes_eq {s : State} {w : Waiter} {ctx n va len : Nat} {a : Access} {v : List Byte} (h : bytesAre s w ctx a n va len v = true) : s.ctxRead w ctx a n va len = .ok v := by
  unfold bytesAre at h
  split at h
  · next q hq => rw [hq, of_decide_eq_true h]
  · cases h
/-- A record that is ready, one with a target that its counter has not reached, one whose context is gone, and one with a list of three. -/
theorem witness_TakenRecords : let s : State := walked { base with launches := [(0, { words := record, teams := 1 })], dq := [(4, [⟨record, 3, 0x40⟩])] }
    s.linkUp = true ∧ (∀ q, q < 64 → s.hostReady q = false ∧ s.overrun q = false) ∧ (∀ l, l < s.nlaunch → (s.launch l).finished = true ∨ (s.launch l).retired < (s.launch l).teams)
    ∧ s.dq = [(4 * 1 + 0, [⟨record, 3, 0x40⟩])] ∧ ((record.getD 6 0).toNat / 2 ^ 14 % 4 = 0) ∧ (Tab.get 0 s.ctxroot 1).getLsbD 0 = true
    ∧ (record.getD 2 0).toNat % 2 ^ 48 = 0 ∧ record.getD 5 0 = 0
    ∧ ((0x3000003000 : W64).toNat % 2 ^ 48 ≠ 0 ∧ s.ctxWord (.queue 68) 1 0x3000 .load = .ok 0 ∧ (0 : W64).toNat < (0x3000000003000 : W64).toNat / 2 ^ 48)
    ∧ (Tab.get 0 ({ s with ctxroot := [] } : State).ctxroot 1).getLsbD 0 = false
    ∧ (let t : State := { s with mem := tables ++ [(0x3000, 3), (0x3008, 3), (0x3010, 9)] }
       ∃ bs, t.ctxRead (.queue 68) 1 .load 1 0x3000 24 = .ok bs ∧ leNat (bs.take 8) = 3 ∧ leNat ((bs.drop 8).take 8) = 3) :=
  ⟨rfl, by decide, by decide, rfl, by decide, by decide, by decide, by decide, ⟨by decide, word_eq (by decide), by decide⟩, by decide,
    ⟨[3, 0, 0, 0, 0, 0, 0, 0, 3, 0, 0, 0, 0, 0, 0, 0, 9, 0, 0, 0, 0, 0, 0, 0], bytes_eq (by decide), by decide, by decide⟩⟩
theorem no_grant_awaited (k : Nat) : (base.hart k).awaitsGrant = false := by
  cases k with
  | zero => decide
  | succ k => rfl
/-- A pending team that fits; nothing pending; ages at the limit and below it; a hart that has done its work. -/
theorem witness_PlacementAndAgeing : let v : Team := { st := .pending, ctx := 1, shape := 0x11, launch := 0 }
    let s : State := { base with teams := [(0, v)], launches := [(0, { words := record, teams := 1 })], power := 152 }
    s.pstate ≠ 4 ∧ 0 < s.nteam ∧ (s.team 0) = v ∧ (∀ k, k < s.nteam → k ≠ 0 → (s.team k).st = .retired) ∧ 1 ≤ v.nharts ∧ v.nharts ≤ 8
    ∧ ({ v with shape := 0x0000080050073FF1 } : Team).lgmin ≤ ({ v with shape := 0x0000080050073FF1 } : Team).lgmax ∧ v.nharts * v.lgmin ≤ 16 ∧ v.units ≤ 80
    ∧ v.tiles ≤ 2048 ∧ v.pclass ≤ 8 ∧ v.rows = 0 ∧ classUnits v.pclass ≤ s.power ∧ (∀ m ∈ s.images, ¬ (m.ctx = v.ctx))
    ∧ (∀ k, k < base.nteam → (base.team k).st ≠ .pending ∧ ((base.team k).st = .saved → (base.team k).held = true ∨ (base.team k).killed = true))
    ∧ (∀ k, (base.hart k).awaitsGrant = false)
    ∧ (let t : State := { base with teams := [(0, { team0 with st := .saved, killed := true })] }
       (t.team 0).st = .saved ∧ (t.team 0).held = false ∧ (t.team 0).killed = true)
    ∧ 2 ^ 24 ≤ v.waited + (({ s with cycle := 2 ^ 24 } : State).cycle - v.since) ∧ v.waited + (({ s with cycle := 2 ^ 24 - 1 } : State).cycle - v.since) < 2 ^ 24
    ∧ (let t : State := { base with harts := [(0, { hart0 with exited := true })] }
       t.onCore 0 = true ∧ (t.hart 0).exited = true ∧ (t.hart 0).blockQ = [] ∧ (t.hart 0).block = none ∧ t.descending 0 = false) :=
  ⟨by decide, by decide, rfl, by decide, by decide, by decide, by decide, by decide, by decide, by decide, by decide, rfl, by decide, (fun _ h => by cases h), by decide,
    no_grant_awaited, by decide, by decide, by decide, by decide⟩
/-- A resident team whose one hart has ended, of a launch with a completion counter at 0x3000. -/
def ending : State := walked { base with
  harts := [(0, { hart0 with exited := true })], launches := [(0, { words := record.set 4 0x3000, ctx := 1, teams := 1, src := .device 0 0 })] }
/-- Teams that are asked and not; that have a lookup in its run and none; that have ended, with a team to come and without. -/
theorem witness_StoppingTeams : let s := ending
    (s.team 0).st = .resident ∧ (s.team 0).request = false ∧ (({ s with teams := [(0, { team0 with request := true })] } : State).team 0).request = true
    ∧ (let t : State := { s with teams := [(0, { team0 with st := .stopping })], cmds := [cmd (.klq 0 0 0 0 []) .run 0] }
       (t.team 0).st = .stopping ∧ (∃ c ∈ t.cmds, teamOf c.hart = 0 ∧ c.mustEnd = true) ∧ (∀ c ∈ ({ t with cmds := [] } : State).cmds, c.mustEnd = false) ∧ (t.team 0).killed = false)
    ∧ s.cmds = [] ∧ (∀ j, j < (s.team 0).nharts → (s.hart (8 * 0 + j)).exited = true ∧ (s.hart (8 * 0 + j)).blockQ = [] ∧ (s.hart (8 * 0 + j)).block = none
        ∧ s.descending (8 * 0 + j) = false)
    ∧ ¬ (base.hart 0).exited = true ∧ 0 < (base.team 0).nharts
    ∧ (s.launch 0).finished = false ∧ (s.launch 0).src = .device 0 0 ∧ (s.launch 0).teams ≤ (s.launch 0).retired + 1
    ∧ (s.launch 0).retired + 1 < ({ s.launch 0 with teams := 2 } : Launch).teams ∧ ((s.launch 0).words.getD 4 0).toNat ≠ 0 ∧ (record.getD 4 0).toNat = 0
    ∧ (∀ j, j < (s.team 0).nharts → ∀ i, j < i → i < (s.team 0).nharts → (s.hart (8 * 0 + i)).num ≠ (s.hart (8 * 0 + j)).num)
    ∧ (let t : State := { s with teams := [(0, { team0 with st := .saved, killed := true })] }
       (t.team 0).st = .saved ∧ (t.team 0).killed = true ∧ (∀ c ∈ t.cmds, ¬ teamOf c.hart = 0) ∧ (t.launch 0).retired + 1 < ({ t.launch 0 with teams := 2 } : Launch).teams)
    ∧ (let t : State := { s with teams := [(0, { team0 with st := .saved })], cmds := [{ cmd (.copy 0 0 0 64 []) .run 0 with k := 1 }, { cmd (.copy 0 0 0 64 []) .run 0 with seq := 1 }] }
       ∃ c ∈ t.cmds, ∃ d ∈ t.cmds, (c.begun = true ∧ c.parked = none) ∧ ¬ (d.begun = true ∧ d.parked = none) ∧ c.seq ≠ d.seq)
    ∧ (∀ u, s.KeepsBytes 0 u → (∀ q, q < 2 ^ 52 → (isHost q = true → s.linkUp = true) → u.homeByte q = s.ownByte 0 q) → (∀ m, u.poisoned m = true → s.poisoned m = true) →
        u.reach (.launch 0) 1 0x3000 .atomic = .ok 0x3000)
    ∧ s.hartAt 5 = none ∧ s.hartAt 0 = some 0 ∧ ({ s.launch 0 with finished := true } : Launch).finished = true ∧ (∀ j, (s.team j).nharts ≤ 8) := by
  refine ⟨rfl, rfl, rfl, ⟨rfl, ⟨_, .head _, rfl, rfl⟩, (fun _ h => by cases h), rfl⟩, rfl, by decide, by decide, by decide, rfl, rfl, by decide, by decide, by decide, by decide, (fun j hj i h1 h2 => absurd (Nat.lt_of_lt_of_le h2 (by decide)) (by omega : ¬ i < 1)), ⟨rfl, rfl, (fun _ h => by cases h), by decide⟩,
    ⟨_, .head _, _, .tail _ (.head _), by decide⟩, fun u hk hh hp => ?_, by decide, by decide, rfl, fun j => ?_⟩
  · have er : u.rootOf 1 = 0x1000 := by
      have : u.rootOf 1 = ending.rootOf 1 := by rw [hk.2.2]; rfl
      rw [this]; decide
    have ec : u.channels = ending.channels := by rw [hk.2.2]; rfl
    refine walked_reach er (by rw [ec]; decide) (fun q h1 h2 => ?_) (fun l => ?_) _ 0x3000 (by decide) .atomic
    · rw [hh q (by omega) (fun _ => rfl)]; rfl
    · cases hb : u.poisoned l
      · rfl
      · exact absurd ((hp l hb).symm.trans (no_poison rfl l)) (by decide)
  · match j with
    | 0 => decide
    | n + 1 => exact Nat.zero_le _
/-- A hart stopped on a report and one that runs; the last place of a register and the first beyond it. -/
theorem witness_RegisterFiles : let s : State := { base with harts := [(0, { hart0 with parkC := some ⟨0, false⟩, rfsel := 0x0003000000000000 })] }
    s.hartAt 0 = some 0 ∧ (s.hart 0).parkC ≠ none ∧ ((s.hart 0).rfsel.extractLsb' 56 8).toNat ≤ 11
    ∧ s.fileLen 0 0 3 = some (s.hart 0).bytes ∧ (s.hart 0).bytes - 8 < (s.hart 0).bytes ∧ ¬ (s.hart 0).bytes < (s.hart 0).bytes
    ∧ ¬ ((base.hart 0).parkC ≠ none ∨ (base.hart 0).parkV ≠ none ∨ (base.team 0).st = .saved) := by decide
/-- A hart on a core, halted and not, and one off it; no hart; breakpoints on both streams. -/
theorem witness_HaltingHarts : base.hartAt 5 = none ∧ base.hartAt 0 = some 0 ∧ base.onCore 0 = true ∧ (base.hart 0).halted = none ∧ base.descending 0 = false
    ∧ (let s : State := { base with cmds := [cmd (.desc 0 0 0x10001 0 none 6 1 []) .run 0] }
       s.hartAt 0 = some 0 ∧ s.onCore 0 = true ∧ (s.hart 0).halted = none ∧ s.descending 0 = true)
    ∧ (let s : State := { base with harts := [(0, { hart0 with halted := some 3 })] }
       s.hartAt 0 = some 0 ∧ (s.hart 0).halted = some 3)
    ∧ (let s : State := { base with teams := [(0, { team0 with st := .saved })], savedFrom := [(0, some 0)] }
       s.hartAt 0 = some 0 ∧ s.onCore 0 = false)
    ∧ (let s : State := { base with bp := [(0, 0x20001), (1, 0x20002)], harts := [(0, { hart0 with block := some ⟨0, [], 0⟩ })] }
       s.running 0 = true ∧ s.descending 0 = false ∧ (s.hart 0).bpSkipC = false ∧ (s.hart 0).bpSkipV = false ∧ (s.hart 0).block ≠ none ∧ (s.hart 0).loopDue = false
       ∧ (∀ kind : Fin 2, let w : W64 := Tab.get 0 s.bp kind
          (w.extractLsb' 0 2).toNat = kind + 1 ∧ (w.extractLsb' 48 16).toNat = 0 ∧ (w.extractLsb' 2 46).toNat = 0x20000 / 4)) := by decide
/-- Commands well formed and not; a hart that is halted and one that runs; a place that exists; a datum that can be reached, one that
cannot; a Milestone ring with room and a full one. -/
theorem witness_DebugAndMilestone : let s : State := { base with harts := [(0, { hart0 with halted := some 1 })] }
    let c : BitVec 32 := 0x00320003
    let m : BitVec 32 := 0x02310000
    (c.extractLsb' 24 8 = 0 ∧ c.getLsbD 23 = false ∧ (c.extractLsb' 20 3).toNat = 3 ∧ c.getLsbD 18 = false) ∧ c.getLsbD 17 = true
    ∧ ¬ (0x00220003 : BitVec 32).extractLsb' 20 3 = 3 ∧ (0x00300003 : BitVec 32).getLsbD 17 = false
    ∧ s.dbgCmd = none ∧ ({ s with dbgCmd := some c } : State).dbgCmd = some c ∧ ¬ (({ s with dbgCmd := some 0 } : State).dbgCmd = none ∨ ({ s with dbgCmd := some 0 } : State).dbgCmd = some c)
    ∧ s.cmderr = 0 ∧ ({ s with cmderr := 2 } : State).cmderr ≠ 0
    ∧ s.hartAt 0 = some 0 ∧ (s.hart 0).halted ≠ none ∧ (base.hart 0).halted = none ∧ s.hartAt 9 = none ∧ s.fileLen 0 0 3 = some (s.hart 0).bytes ∧ 0 < (s.hart 0).bytes
    ∧ fileWritable 0 3 = true ∧ fileWritable 13 0 = false
    ∧ ((m.extractLsb' 24 8).toNat = 2 ∧ (m.extractLsb' 20 3).toNat ≤ 3 ∧ m.extractLsb' 17 2 = 0 ∧ m.extractLsb' 0 16 = 0) ∧ ¬ (c.extractLsb' 24 8).toNat = 2
    ∧ s.debugPa false true 0x100 = some 0x100 ∧ 0x100 % 8 = 0 ∧ 0x101 % 8 ≠ 0 ∧ s.debugPa false false 0x4000000000000 = none
    ∧ ¬ (s.poisoned (0x100 / 64) = true ∨ (isHost 0x100 = true ∧ s.linkUp = false)) ∧ ({ s with poison := [(4, true)] } : State).poisoned (0x100 / 64) = true
    ∧ (let t : State := { s with msctl := 1, msbase := 0x0010000000010000 }
       t.msctl.getLsbD 0 = true ∧ t.cycle % 2 ^ 0 = 0 ∧ t.mstick ≠ t.cycle + 1 ∧ (t.msptr + 2 ^ 64 - t.msrd.toNat) % 2 ^ 64 ≠ 2 ^ (t.msbase.extractLsb' 52 4).toNat
       ∧ (({ t with msptr := 2 } : State).msptr + 2 ^ 64 - t.msrd.toNat) % 2 ^ 64 = 2 ^ (t.msbase.extractLsb' 52 4).toNat) := by decide
/-- A link that is up and one that is down; a wait at its limit and one below it; writes in device memory and in the host window. -/
theorem witness_HostLink : let s : State := { base with cycle := 2 ^ 20, harts := [(0, { hart0 with wait := some (.host 0), vwait := some (.host 1) })], verges := [(0, { wait := some (.host 0) })] }
    s.linkUp = true ∧ (63 < 64) ∧ (s.hart 0).wait = some (.host 0) ∧ 0 + 2 ^ 20 ≤ s.cycle ∧ (s.hart 0).vwait = some (.host 1) ∧ ¬ 1 + 2 ^ 20 ≤ s.cycle
    ∧ (s.verge 0).wait = some (.host 0)
    ∧ (let t : State := { s with linkUp := false, launches := [(0, { words := record, teams := 1 })] }
       t.linkUp = false ∧ t.dueEntries = [] ∧ (∀ l, l < t.nlaunch → (t.launch l).finished = true ∨ (t.launch l).retired < (t.launch l).teams))
    ∧ ([1, 2] : List Byte) ≠ [] ∧ 0x100 + 2 ≤ 4000000000 * s.channels ∧ 2 ^ 48 ≤ 2 ^ 49 - 2 ∧ 2 ^ 49 - 2 + 2 ≤ 2 ^ 49 ∧ 3 < 4 ∧ 4 ≤ 4 := by decide
/-- A dirty byte at its horizon and one below; a ring that is usable, with room and full; a ring that is not. -/
theorem witness_HorizonsAndFaultRing : let s : State := { base with
      cycle := 65536, l1 := [(0x100, some ⟨7, true, 0⟩), (0x140, some ⟨7, true, 1⟩)], fqring := 0x0006000000100000, reports := [⟨0, [1, 2, 3, 4, 5, 6, 7, 8], some 0⟩] }
    64 * 5 + 64 ≤ 2 ^ 52 ∧ (64 * 4 ≤ 0x100 ∧ 0x100 < 64 * 4 + 64 ∧ s.l1Byte 0 0x100 = some ⟨7, true, 0⟩ ∧ 0 + 65536 ≤ s.cycle)
    ∧ (∀ i : Fin 64, ∀ y ∈ s.l1Byte 0 (64 * 5 + i), ¬ y.at_ + 65536 ≤ s.cycle) ∧ s.linkUp = true
    ∧ (6 ≤ (s.fqring.extractLsb' 48 4).toNat ∧ (s.fqring.extractLsb' 0 48).toNat ≠ 0 ∧ (s.fqring.extractLsb' 0 48).toNat % 4096 = 0 ∧ s.fqring.extractLsb' 52 12 = 0
        ∧ (s.fqring.extractLsb' 0 48).toNat + 64 * 2 ^ 6 ≤ 4000000000 * s.channels)
    ∧ s.fqtail - s.fqhead < 2 ^ 6 ∧ 2 ^ 6 ≤ ({ s with fqtail := 64 } : State).fqtail - s.fqhead ∧ s.reports = [⟨0, [1, 2, 3, 4, 5, 6, 7, 8], some 0⟩] ∧ [1, 2, 3, 4, 5, 6, 7, 8].length = 8
    ∧ ¬ 6 ≤ ((0x0005000000100000 : W64).extractLsb' 48 4).toNat := by decide
/-- Channel 0 at 0x10000: its ring of one descriptor at 0x3000 and its tail at 0x3020, its one slot of 512 bytes at 0x5000, context 1. -/
def port : State := { walked base with
  fchan := 0x10000, railstat := 1, permits := [(0, 1)],
  mem := tables ++ [(0x3001, 0x40), (0x3008, 1), (0x3020, 1), (0x10001, 0x30), (0x10006, 0x10), (0x10009, 0x50), (0x1000E, 0x10), (0x10024, 1), (0x10026, 1)] }
theorem port_table (q : Nat) (_ : 0x1000 ≤ q) (h2 : q < 0x3000) : port.homeByte q = Tab.get 0 tables q := by
  have hg : ∀ (l m : Tab Byte), (∀ e ∈ l, q < e.1) → Tab.get 0 (m ++ l) q = Tab.get 0 m q := by
    intro l m hl
    induction m with
    | nil =>
      cases l with
      | nil => rfl
      | cons e l => exact if_pos (hl e (.head _))
    | cons e m ih => simp only [List.cons_append, Tab.get, ih]
  exact hg _ tables (fun e he => Nat.lt_of_lt_of_le h2 ((show ∀ e ∈ ([(0x3001, 0x40), (0x3008, 1), (0x3020, 1), (0x10001, 0x30), (0x10006, 0x10),
    (0x10009, 0x50), (0x1000E, 0x10), (0x10024, 1), (0x10026, 1)] : Tab Byte), 0x3000 ≤ e.1 by decide) e he))
theorem port_reach (w : Waiter) (va : Nat) (hv : va < 2 ^ 30) (a : Access) : port.reach w 1 va a = .ok va :=
  walked_reach (by decide) (by decide) port_table (no_poison rfl) w va hv a
/-- The first cell of a message of 300 bytes. -/
def cell : Cell := ⟨0, 0, 0, 300, 0, List.replicate 256 7, 0⟩
theorem witness_FabricPort : let s := port
    let word (i : Nat) : W64 := s.entryAt ((s.fchan.extractLsb' 12 40).toNat * 4096 + 64 * 0 + 8 * i)
    (word 0).getLsbD 52 = true ∧ (word 0).toNat % 2 ^ 48 = 0x3000 ∧ ((word 0).extractLsb' 48 4).toNat = 0 ∧ ((word 4).extractLsb' 48 16).toNat = 1
    ∧ (base.entryAt 0).getLsbD 52 = false ∧ Tab.get none s.sendPark 0 = none ∧ Tab.get none ({ s with sendPark := [(0, some 3)] } : State).sendPark 0 ≠ none
    ∧ s.ctxWord (.send 0) 1 0x3020 .engRead = .ok 1 ∧ word 5 ≠ 1 ∧ Tab.get 0 s.permits 0 ≠ 0 ∧ (word 4).extractLsb' 32 16 &&& s.railstat.extractLsb' 0 16 ≠ 0
    ∧ (∃ bs, s.ctxRead (.send 0) 1 .engRead 1 0x3000 32 = .ok bs ∧ leNat (bs.take 8) = 0x4000 ∧ leNat ((bs.drop 8).take 8) = 1)
    ∧ (∀ i, i < 1 → s.reach (.send 0) 1 (0x4000 + i) .engRead = .ok (0x4000 + i) ∧ (i + 1 < 1 → (0x4000 + i + 1) % 64 ≠ 0 → 0x4000 + (i + 1) = 0x4000 + i + 1))
    ∧ (let t : State := { s with sends := [⟨0, 0, 0x4000, 1, 0x3040, 0, none⟩] }
       t.sends.find? (fun m => m.ch = 0 && m.msg = 0) = some ⟨0, 0, 0x4000, 1, 0x3040, 0, none⟩ ∧ (0x3040 : W64).toNat % 2 ^ 48 ≠ 0
       ∧ t.sends.find? (fun m => m.ch = 0 && m.msg = 1) = none)
    ∧ s.reach (.ack 0 0) 1 0x3040 .atomic = .ok 0x3040
    ∧ (s.recvs.filter (fun m => m.parked.isSome)).length < 16
    ∧ 16 ≤ ((List.replicate 16 (⟨0, 0, 0, 1, 0, [], [], some 3, false⟩ : RecvMsg)).filter (fun m => m.parked.isSome)).length
    ∧ (∃ freed, s.ctxWord (.recv 0 0 0) 1 ((word 2).toNat % 2 ^ 48) .engRead = .ok freed) ∧ s.chanOn 0 = true ∧ s.chanPeer 0 = 0 ∧ (∀ k, k < 256 → base.chanOn k = true → base.chanPeer k ≠ 0)
    ∧ (1 ≤ cell.len ∧ cell.idx < (cell.len + 255) / 256 ∧ cell.data.length = min 256 (cell.len - 256 * cell.idx) ∧ cell.len ≤ 2 ^ (1 + 8) - 16)
    ∧ ((word 1).extractLsb' 52 4).toNat = 1 ∧ ¬ 497 ≤ 2 ^ (1 + 8) - 16 ∧ 256 < cell.len ∧ s.recvs = [] ∧ s.linkUp = true
    ∧ (let t : State := { s with recvs := [⟨0, 0, 0, 300, 0, [0], [], some 3, false⟩, ⟨0, 1, 0, 300, 0, [0], [], none, false⟩] }
       (∀ m ∈ t.recvs, m.ch = 0 → m.parked = none → m.held = [] ∧ m.aborted = false ∧ m.seen.length ≠ (m.len + 255) / 256)
       ∧ (∃ m, t.recvs.find? (fun m => m.ch = 0 && m.msg = 0) = some m ∧ m.parked ≠ none ∧ 0 ∈ m.seen ∧ 1 ∉ m.seen)) := by
  refine ⟨by decide, by decide, by decide, by decide, by decide, by decide, by decide, word_eq (by decide), by decide, by decide, by decide,
    ⟨_, bytes_eq (v := [0, 0x40, 0, 0, 0, 0, 0, 0, 1, 0, 0, 0, 0, 0, 0, 0, 0, 0, 0, 0, 0, 0, 0, 0, 0, 0, 0, 0, 0, 0, 0, 0]) (by decide), by decide, by decide⟩,
    fun i h => ⟨port_reach _ _ (by omega) .engRead, fun h => absurd h (by omega)⟩, ⟨by decide, by decide, by decide⟩, port_reach _ _ (by decide) _, by decide, by decide,
    ⟨0, word_eq (by decide)⟩, by decide, by decide, by decide, by decide, by decide, by decide, by decide, rfl, rfl, by decide, ⟨_, rfl, by decide, by decide, by decide⟩⟩
/-- The payload of that cell goes where the tables say, whatever the port has written so far. -/
theorem witness_cell (t : State) (hr : t.roots = port.roots) (h1 : t.strec1 = port.strec1) (h2 : t.a48 = port.a48) (hp : ∀ l, t.poisoned l = true → port.poisoned l = true)
    (hm : ∀ q, ¬ ((0x10000 ≤ q ∧ q < 0x10000 + 64) ∨ ∃ i, i < cell.data.length ∧ q = 0x5010 + i) → t.homeByte q = port.homeByte q) (i : Nat) (hi : i < cell.data.length) :
    t.translateRoot false (t.rootOf 1) (0x5010 + i) .engWrite = .ok (0x5010 + i) := by
  have er : t.rootOf 1 = 0x1000 := by
    have : t.rootOf 1 = port.rootOf 1 := by unfold State.rootOf; rw [hr]
    rw [this]; decide
  have ec : t.channels = port.channels := by unfold State.channels; rw [h1, h2]
  rw [er]
  have hl : cell.data.length = 256 := by decide
  refine walked_translates (by rw [ec]; decide) (fun q a b => ?_) (fun l => ?_) (0x5010 + i) (by omega) _
  · rw [hm q (by rintro (h | ⟨j, -, h⟩) <;> omega), port_table q a b]
  · cases hb : t.poisoned l
    · rfl
    · exact absurd ((hp l hb).symm.trans (no_poison rfl l)) (by decide)

/-- The header of an image of 96 bytes with one kernel, of the device's version, for a version number m. -/
def header (m : Byte) : List Byte := [0x49, 0x43, 0x39, 0x4A, m, 0, 0, 0, 0x60] ++ List.replicate 31 0 ++ [0x40, 0, 0, 0, 1] ++ List.replicate 19 0
theorem header_good : ∀ m : Byte, (Header.of (header m)).ok = true ∧ (Header.of (header m)).ident.extractLsb' 32 8 = m
    ∧ ((Header.of (header m)).ident.extractLsb' 40 8).toNat = 0 ∧ (Header.of (header m)).size.toNat = 96 ∧ (Header.of (header m)).errmask = 0
    ∧ hi32 (Header.of (header m)).ktab = 1 ∧ (Header.of (header m)).kernelOk (header m ++ List.replicate 32 0) 0 = true := by decide
/-- A machine with that image at 0x3000 of context 1. -/
def loading : State := { walked base with
  mem := tables ++ [(0x3000, 0x49), (0x3001, 0x43), (0x3002, 0x39), (0x3003, 0x4A), (0x3004, Config.isaMajor), (0x3008, 0x60), (0x3028, 0x40), (0x302C, 1)],
  imgload := some 0x1000000003000 }
theorem loading_reach (w : Waiter) (va : Nat) (hv : va < 2 ^ 30) (a : Access) : loading.reach w 1 va a = .ok va := by
  refine walked_reach (by decide) (by decide) (fun q _ h2 => ?_) (no_poison rfl) w va hv a
  have hg : ∀ (l m : Tab Byte), (∀ e ∈ l, q < e.1) → Tab.get 0 (m ++ l) q = Tab.get 0 m q := by
    intro l m hl
    induction m with
    | nil =>
      cases l with
      | nil => rfl
      | cons e l => exact if_pos (hl e (.head _))
    | cons e m ih => simp only [List.cons_append, Tab.get, ih]
  refine hg _ tables (fun e he => Nat.lt_of_lt_of_le h2 ?_)
  have hk : e.1 ∈ [0x3000, 0x3001, 0x3002, 0x3003, 0x3004, 0x3008, 0x3028, 0x302C] := List.mem_map_of_mem (f := Prod.fst) he
  exact (show ∀ k ∈ [0x3000, 0x3001, 0x3002, 0x3003, 0x3004, 0x3008, 0x3028, 0x302C], 0x3000 ≤ k by decide) _ hk
theorem loading_good : ∃ hd ks, loading.checkImage 1 0x3000 = .good hd ks ∧ loading.corrected hd.errmask true = none := by
  have r1 : loading.ctxRead .image 1 .load 1 0x3000 64 = .ok (header Config.isaMajor) := by
    simp only [State.ctxRead, loading_reach _ 0x3000 (by decide) .load]
    rfl
  have r2 : loading.ctxRead .image 1 .load 2 0x3000 96 = .ok (header Config.isaMajor ++ List.replicate 32 0) := by
    have p1 : pieceLen 0x3000 96 = 64 := by decide
    have p2 : pieceLen 0x3040 32 = 32 := by decide
    have n1 : (96 : Nat) ≠ 0 := by decide
    have n2 : (32 : Nat) ≠ 0 := by decide
    simp only [State.ctxRead, loading_reach _ 0x3000 (by decide) .load, p1, n1, if_false, Nat.reduceAdd, Nat.reduceSub, loading_reach _ 0x3040 (by decide) .load, p2, n2]
    rfl
  obtain ⟨h1, h2, h3, h4, h5, h6, h7⟩ := header_good Config.isaMajor
  have c : ∀ b, loading.corrected 0 b = none := by
    intro b
    unfold State.corrected
    rw [List.find?_eq_none]
    intro x _ h
    simp at h
  refine ⟨Header.of (header Config.isaMajor), (List.range 1).map ((Header.of (header Config.isaMajor)).kernelAt (header Config.isaMajor ++ List.replicate 32 0)), ?_, by rw [h5]; exact c true⟩
  have a0 : (Tab.get 0 loading.ctxroot 1).getLsbD 0 = true := by decide
  have a1 : pieces 0x3000 96 = 2 := by decide
  have a2 : (64 ≤ loading.images.length : Bool) = false := by decide
  have a3 : loading.images = [] := rfl
  have ra : List.range 1 = [0] := rfl
  unfold State.checkImage
  simp only [a0, Bool.not_true, Bool.false_eq_true, if_false, (by decide : ¬ (0x3000 : Nat) % 4096 ≠ 0), r1, h1, h4, a1, r2, h6, ra, List.all_cons, List.all_nil, h7, Bool.and_self,
    h2, bne_self_eq_false, h3, Nat.not_lt_zero, h5, c, a3, List.length_nil, List.any_nil]
  rfl
def lostIs (s : State) (w : Waiter) (ctx : Nat) (a : Access) (n va len f : Nat) : Bool :=
  match s.ctxRead w ctx a n va len with | .error e => decide (e = .lost f) | .ok _ => false
theorem lost_eq {s : State} {w : Waiter} {ctx n va len f : Nat} {a : Access} (h : lostIs s w ctx a n va len f = true) : s.ctxRead w ctx a n va len = .error (.lost f) := by
  unfold lostIs at h
  split at h
  · next q hq => rw [hq, of_decide_eq_true h]
  · cases h
/-- Which errata a stepping lacks and which of them translated code reproduces is the device's own: for one that is both, a mask that
names it asks for a translation and is refused for nothing. -/
theorem witness_reproduced (e : Nat) (he : e < 64) (h1 : Config.erratumPresent loading.stepping e = false)
    (h2 : Config.erratumReproducible loading.stepping e = true) :
    loading.corrected (BitVec.twoPow 64 e) true ≠ none ∧ loading.corrected (BitVec.twoPow 64 e) false = none := by
  unfold State.corrected
  refine ⟨fun h => ?_, List.find?_eq_none.mpr fun x hx h => ?_⟩
  · have := List.find?_eq_none.mp h e (List.mem_range.mpr he)
    simp [h1, h2, he] at this
  · simp [BitVec.getLsbD_twoPow] at h
    obtain ⟨⟨⟨_, rfl⟩, -⟩, h3⟩ := h
    simp [h2] at h3
theorem witness_CodeImages : let s := loading
    s.imgcode ≠ 1 ∧ ({ s with imgcode := 1 } : State).imgcode = 1 ∧ base.imgload = none ∧ s.imgload = some 0x1000000003000
    ∧ (0x1000000003000 : W64).toNat / 2 ^ 48 = 1 ∧ (0x1000000003000 : W64).toNat % 2 ^ 48 = 0x3000 ∧ (Tab.get 0 s.ctxroot 1).getLsbD 0 = true
    ∧ (Tab.get 0 s.ctxroot 2).getLsbD 0 = false ∧ 0x3000 % 4096 = 0 ∧ 0x3040 % 4096 ≠ 0
    ∧ s.sweepImages = s ∧ (∃ f, s.ctxRead .image 1 .load 1 0x40000000 64 = .error (.lost f)) ∧ ({ s with imgload := none } : State).imgload = none
    ∧ (∃ bs, (walked base).ctxRead .image 1 .load 1 0x4000 64 = .ok bs ∧ bs.take 4 ≠ [0x49, 0x43, 0x39, 0x4A] ∧ bs.length = 64)
    ∧ (∃ m ∈ ({ s with images := [⟨1, 1, 0x3000, 96, false, false, [], 0, false, false⟩] } : State).images, m.id = 1) ∧ (∀ m ∈ base.images, m.id ≠ 1) :=
  ⟨by decide, rfl, rfl, rfl, by decide, by decide, by decide, by decide, by decide, by decide, rfl, ⟨1, lost_eq (by decide)⟩, rfl, ⟨_, bytes_eq (v := List.replicate 64 0) (by decide), by decide, by decide⟩,
    ⟨_, .head _, rfl⟩, (fun _ h => by cases h)⟩
/-- A start that is complete and one that is not; a budget that a class needs and one below it; an attestation that is good, and one out of
alignment. -/
theorem witness_PowerAndAttestation : let s : State := { base with strec2 := 0x10000, attstat := 1, attaddr := 0x40 }
    (s.strec2.getLsbD 16 = true ∧ ((4 : W64).extractLsb' 0 3).toNat ≤ 4 ∧ s.changing = false) ∧ ¬ ((5 : W64).extractLsb' 0 3).toNat ≤ 4 ∧ base.strec2.getLsbD 16 = false
    ∧ ({ s with teams := [] } : State).resident = [] ∧ 0 < s.nteam ∧ (s.team 0).st = .resident
    ∧ (∀ k, k < s.nteam → k ≠ 0 → (s.team k).st ≠ .resident ∧ (s.team k).st ≠ .stopping) ∧ (s.team 0).request = false ∧ (s.team 0).forPower = false
    ∧ classUnits (s.team 0).pclass = 12 ∧ (((0x0C00 : W64).extractLsb' 8 8).toNat = 12) ∧ ((0x0B00 : W64).extractLsb' 8 8).toNat < 12
    ∧ s.attstat.getLsbD 0 = true ∧ base.attstat.getLsbD 0 = false ∧ s.attaddr.toNat % 64 = 0 ∧ s.attaddr.toNat + 30016 ≤ 4000000000 * s.channels
    ∧ s.poisoned (s.attaddr.toNat / 64) = false ∧ (∀ i, i < 32 → s.homeByte (s.attaddr.toNat + 32 + i) = 0) ∧ (0x41 : W64).toNat % 64 ≠ 0 := by decide
/-- Three heavy teams of which the two less important must go, the later placed of equal ones first; and one that stays. -/
theorem witness_power_order : let v (prio placed : Nat) : Team := { team0 with shape := BitVec.ofNat 64 (0x0000000050013FF1 + 2 ^ 14 * prio), placed := placed }
    let s : State := { base with strec2 := 0x10000, nteam := 3, teams := [(0, v 0 1), (1, v 0 2), (2, v 1 3)] }
    let units (g : Nat) : Nat := classUnits (s.team g).pclass
    let before (k g : Nat) : Bool := decide ((s.team k).prio < (s.team g).prio ∨ ((s.team k).prio = (s.team g).prio ∧ (s.team g).placed < (s.team k).placed))
    let left (g : Nat) : Nat := ((List.range s.nteam).map (fun k => if ((s.team k).st == .resident && !(s.team k).request) && !before k g then units k else 0)).sum
    (∀ k : Fin 3, ∀ g : Fin 3, (s.team k).prio = (s.team g).prio → (s.team k).placed = (s.team g).placed → k = g)
    ∧ 0 < units 0 ∧ left 1 = 3 * units 0 ∧ left 0 = 2 * units 0 ∧ left 2 = units 0 := by decide
/-- A first step that failed last time; a fallback and none; passes, a failure and a trip at either end; a machine that waits for a
recovery image. Which firmware verifies depends on the key that is fused in. -/
theorem witness_DeviceStarts : let r : StartRun := ⟨List.replicate 7 true, 5, 0, [], [], [], none⟩
    let outcome (w : W64) (i : Nat) : Nat := (w.extractLsb' (8 * (i - 1)) 8).toNat
    outcome (2 : W64) 1 = 2 ∧ outcome State.reset.strec0 1 ≠ 2 ∧ outcome (0x020000 : W64) 3 = 2 ∧ (∀ i, i < 8 → 2 ≤ i → r.pass.getD (i - 1) false = true)
    ∧ (∀ j, j < 8 → r.trip ≠ some j) ∧ ({ r with trip := some 1 } : StartRun).trip = some 1 ∧ ({ r with trip := some 7 } : StartRun).trip = some 7
    ∧ ({ r with pass := [true] } : StartRun).pass.getD 1 false = false ∧ ({ r with pass := List.replicate 6 true } : StartRun).pass.getD 6 false = false
    ∧ ({ base with recovery := true } : State).recovery = true ∧ base.tripped = false ∧ base.recovery = false
    ∧ ({ base with booted := true } : State).booted = true ∧ base.strec2.getLsbD 16 = false := by decide
/-- For firmware that verifies, or does not, the first step passes, or fails. -/
theorem witness_firmware (f g : List Byte) : (slhVerify fusedKey f g = true ∨ ¬ slhVerify fusedKey f g = true)
    ∧ (({ pass := [], rails := 0, channels := 0, cxl := [], firmware := f, signature := g, trip := none } : StartRun).firmware = f) := ⟨Classical.em _, rfl⟩

/-- An instruction with its word, at the first and the last opcode; an event. -/
theorem witness_DecodeEncode : (Instr.addi 3 3 1).illFormed = none ∧ encode (.addi 3 3 1) = some 0x1418C001 ∧ decode 0x1418C001 = .ok (.addi 3 3 1)
    ∧ (Instr.add 3 1 2).illFormed = none ∧ Instr.brk.illFormed = none ∧ encode .brk = some 0xFA000000 ∧ encode .takeRecord = none := by and_intros <;> rfl
def fetched (s : State) (p : Party) (va n pa : Nat) : Bool := match s.fetchAt p va n with | .ok q => decide (q = pa) | .error _ => false
theorem fetch_eq {s : State} {p : Party} {va n pa : Nat} (h : fetched s p va n pa = true) : s.fetchAt p va n = .ok pa := by
  unfold fetched at h
  split at h
  · next q hq => rw [hq, of_decide_eq_true h]
  · cases h
/-- A control word of a native hart; a vector word of a team in JPF inside a registered image, and outside any. -/
theorem witness_StepRunsDecoded : let s : State := { base with agenda := [.run (.ctrl 0) none], mem := pages ++ [(0x20000, 1), (0x20001, 0xC0), (0x20002, 0x18), (0x20003, 0x14)] }
    let r : State := ({ s with agenda := [] } : State).ready (.ctrl 0) none
    s.agenda = [.run (.ctrl 0) none] ∧ s.late = [] ∧ s.tripped = false ∧ ({ s with tripped := true } : State).tripped = true ∧ r.canRun (.ctrl 0) = true ∧ r.haltDue (.ctrl 0) = false
    ∧ r.bpHit (.ctrl 0) = false ∧ r.wordBytes (.ctrl 0) = 4 ∧ r.fetchAt (.ctrl 0) (r.pcOf (.ctrl 0)).toNat (r.wordBytes (.ctrl 0)) = .ok 0x20000 ∧ r.codePoisoned 0 0x20000 = false ∧ r.linkUp = true
    ∧ leNat ((List.range 4).map (fun j => r.codeByte 0 (0x20000 + j))) = 0x1418C001 ∧ r.translatedWord (.ctrl 0) 0x1418C001 = 0x1418C001
    ∧ decodeFor (.ctrl 0) false 0x1418C001 = .ok (.addi 3 3 1) ∧ (r.prepare (.ctrl 0) none).bpSeq (.ctrl 0) (.addi 3 3 1) = false
    ∧ (let t : State := { s with teams := [(0, { team0 with jpf := true })], mem := pages ++ [(0x20002, 0x10), (0x20003, 0x8E)], harts := [(0, { hart0 with block := some ⟨0, [], 0⟩ })], images := [⟨1, 1, 0x20000, 96, true, false, [], 0, false, false⟩] }
       t.wordBytes (.vec 0) = 8 ∧ t.canRun (.vec 0) = true ∧ (t.hart 0).loopDue = false ∧ (t.hart 0).block ≠ none ∧ t.imageOf (.vec 0) ≠ none
       ∧ ({ t with images := [] } : State).imageOf (.vec 0) = none
       ∧ t.fetchAt (.vec 0) (t.pcOf (.vec 0)).toNat (t.wordBytes (.vec 0)) = .ok 0x20000
       ∧ leNat ((List.range 8).map (fun j => t.codeByte 0 (0x20000 + j))) = 0x8E100000 ∧ t.translatedWord (.vec 0) 0x8E100000 = 0x8E100000
       ∧ decodeFor (.vec 0) true 0x8E100000 = .ok (.vreply 1))
    ∧ (∀ h, (State.reset.hart h).bpSkipC = false ∧ (State.reset.hart h).bpSkipV = false) ∧ (∀ c, (State.reset.linesOf c).length ≤ 16)
    ∧ s.pcOf (.ctrl 0) ≠ ({ s with harts := [(0, { hart0 with cpc := 0x20004 })] } : State).pcOf (.ctrl 0) :=
  ⟨rfl, rfl, rfl, rfl, by decide, by decide, by decide, by decide, fetch_eq (by decide), by decide, rfl, by decide, by decide, rfl, by decide, ⟨by decide, by decide, by decide, by decide,
    by decide, by decide, fetch_eq (by decide), by decide, by decide, rfl⟩, (fun _ => ⟨rfl, rfl⟩), (fun _ => Nat.zero_le _), by decide⟩
/-- A write that has stayed unperformed, and the step that performs it, alone or after one to the same bytes. -/
theorem witness_StepRunsDecoded_perform : let w := atWord (.perform 0) 0 [pend (.ctrl 0) 256 seven]
    let v := atWord (.perform 1) 0 [pend (.ctrl 0) 256 (.write (leBytes 8 5)), pend (.ctrl 0) 256 seven]
    w.agenda = [.perform 0] ∧ w.tripped = false ∧ w.late[0]? = some (pend (.ctrl 0) 256 seven) ∧ w.late.take 0 = []
    ∧ afterStep w (fun t => (t.late, t.l1Read 0 256 1)) = some ([], [7])
    ∧ v.late[1]? = some (pend (.ctrl 0) 256 seven) ∧ (pend (.ctrl 0) 256 (.write (leBytes 8 5))).precedes (pend (.ctrl 0) 256 seven) = true
    ∧ afterStep v (fun t => (t.late, t.l1Read 0 256 1)) = some ([], [7]) := by decide
/-- A machine in canonical form that steps. -/
theorem witness_MemoryStaysCanonical : Memory.wf (State.reset.withFetchWord 32 0x1D392345).mem = true
    ∧ (match step (State.reset.withFetchWord 32 0x1D392345) with | .next _ => true | _ => false) = true := by decide

/-! ### Slices, controllers and counts (R190, R192, R330; worked by hand from the formulas) -/

theorem test_slice : sliceOf 0x12345678 = 36 ∧ State.reset.controllerOf 0x12345678 = 3
    ∧ ({ State.reset with a48 := true } : State).controllerOf 0x12345678 = 3 ∧ ({ State.reset with strec1 := 1 } : State).controllerOf 0x12345678 = 23 := by decide
/-- Five cycles at a vgo with the block queue full, and at an rqpop with no reply. -/
theorem test_stalled_cycles : let s (hi : Nat) : State := { atWord (.elapse 5) hi [] with harts := [(0, { hart0 with blockQ := List.replicate 16 ⟨0, [], 0⟩ })] }
    afterStep (s 0x3800) (fun t => t.counts) = some [(countAt 0 0 2, 5)] ∧ afterStep (s 0x39B8) (fun t => t.counts) = some [(countAt 0 0 3, 5)] := by decide

/-! ### Boundary cases of statements -/

/-- A kept command's entries, made again once they are free; and while they are not. -/
theorem witness_CopyIssue_kept : let r : Range := ⟨true, 0, 0, false⟩
    let y : Cmd := { cmd (.copy 0 0 0x100 2 []) .run 0 with unmade := [r] }
    let s : State := { base with cmds := [y], ritQ := [(0, [0])] }
    let full : State := { s with cmds := [y, { cmd (.copy 0 0 0x100 2 []) .run 0 with hart := 1, ranges := List.replicate 64 r }] }
    s.ritWaiters 0 = [0] ∧ (s.hart 0).stalled = none ∧ s.cmds.find? (fun y => y.hart = 0 && !y.unmade.isEmpty) = some y ∧ s.ritUsed 0 + 1 ≤ 64
    ∧ full.ritWaiters 0 = [0] ∧ 64 < full.ritUsed 0 + 1 ∧ after (.ritStallEnd 0) s (fun t => t.cmds.map (fun c => (c.ranges, c.unmade))) = some [([r], [])]
    ∧ after (.ritStallEnd 0) full (fun t => t.cmds.map (fun c => c.unmade.length)) = some [1, 0] := by decide
/-- A completion word whose page has gone since the payload ended: its command parks with the entries it had, once they are free. -/
theorem witness_CopyRunsAndCompletions_spare : let r : Range := ⟨true, 0, 0, false⟩
    let c : Cmd := { cmd (.copy 0 0 0x100 2 []) .add 1 with cw := 0x40000000, spare := [r] }
    let s := flight c
    let full : State := { s with cmds := [c, { cmd (.copy 0 0 0x100 2 []) .run 0 with hart := 1, ranges := List.replicate 64 r }] }
    s.mayMove c = true ∧ s.onCore 0 = true ∧ s.ritUsed 0 + 1 ≤ 64 ∧ 64 < full.ritUsed 0 + 1 ∧ full.mayMove c = true
    ∧ after (.completionAdd 0 0) s (fun t => (t.cmds.map (fun c => (c.ranges, c.spare, c.parked.isSome)), t.reports.length)) = some ([([r], [], true)], 1)
    ∧ after (.completionAdd 0 0) full (fun t => (t.cmds.length, t.reports.length)) = some (2, 0) := by decide
/-- An access of the host's memory by the debug core with the link down: it waits, and fails after the limit; a word of another type. -/
theorem witness_DebugAndMilestone_waits : let c : BitVec 32 := 0x02B00000
    let s : State := { base with linkUp := false, mem := pages ++ [(0x11008, 0xF), (0x1100E, 1)], data2 := 0x40000000 }
    s.debugPa true false 0x40000000 = some (2 ^ 48) ∧ isHost (2 ^ 48) = true ∧ (c.extractLsb' 24 8).toNat = 2 ∧ (c.extractLsb' 20 3).toNat = 3
    ∧ after (.accessMemory c) s (fun t => (t.dbgCmd, t.hostWaits, t.cmderr)) = some (some c, [(.debug, 0)], 0)
    ∧ after (.accessMemory c) { s with cycle := 2 ^ 20, hostWaits := [(.debug, 0)], dbgCmd := some c } (fun t => (t.dbgCmd, t.hostWaits, t.cmderr)) = some (none, [], 5)
    ∧ after (.accessRegister c) s (fun t => t.cmderr) = some 0 := by decide
/-- A message acknowledged while a later one's payload is parked: its completion word is added (0x3040 holds 2 after an add of 2). -/
theorem test_ack_while_parked : after (.fabricAck 0 0) { port with sends := [⟨0, 0, 0x4000, 1, 0x0002000000003040, 0, none⟩], sendPark := [(0, some 3)] }
    (fun t => (t.sends, t.homeByte 0x3040, t.sendPark)) = some ([], 2, [(0, some 3)]) := by decide
/-- Host memory beyond the window, where a recovery image may lie. -/
theorem test_host_beyond_window : hostPa 0x100 = 2 ^ 48 + 0x100 ∧ ({ State.reset with mem := [(2 ^ 52 + 2 ^ 48, 9)] } : State).hostBytes (2 ^ 48) 1 = [9]
    ∧ after (.hostWrite (2 ^ 52 + 2 ^ 48) [9]) base (fun t => t.hostBytes (2 ^ 48) 1) = some [9] := by decide

end Sys2Proof.Tests
end

section
/-! SUPPORT. The control stream's arithmetic, divisions, branches and jumps (R57 to R63, R66, R67): the values the operations give,
what going to a target does, the words of formats S3 and SI that are refused, and the statements settled from them. -/

namespace Sys2Proof.Machine

/-! ### The values of the operations (R60, R61, R63) -/

theorem word_decide (p : Prop) [Decidable p] : word (decide p) = if p then 1 else 0 := by simp [word]

theorem fMin_eq (x y : W64) : fMin x y = if x.toInt ≤ y.toInt then x else y := by
  rw [fMin, ← ite_not]; simp only [Int.not_lt]

theorem fMinu_eq (x y : W64) : fMinu x y = if x.toNat ≤ y.toNat then x else y := by
  rw [fMinu, ← ite_not]; simp only [Nat.not_lt]

/-- Where the signed operands are equal, so are the words, and either form of the maximum names the same one. -/
theorem fMax_eq (x y : W64) : fMax x y = if x.toInt ≤ y.toInt then y else x := by
  rcases Int.lt_trichotomy x.toInt y.toInt with h | h | h
  · rw [fMax, if_pos h, if_pos (Int.le_of_lt h)]
  · rw [BitVec.eq_of_toInt_eq h, fMax, ite_self, ite_self]
  · rw [fMax, if_neg (Int.not_lt.mpr (Int.le_of_lt h)), if_neg (Int.not_le.mpr h)]

theorem fMaxu_eq (x y : W64) : fMaxu x y = if x.toNat ≤ y.toNat then y else x := by
  rcases Nat.lt_trichotomy x.toNat y.toNat with h | h | h
  · rw [fMaxu, if_pos h, if_pos (Nat.le_of_lt h)]
  · rw [BitVec.eq_of_toNat_eq h, fMaxu, ite_self, ite_self]
  · rw [fMaxu, if_neg (Nat.not_lt.mpr (Nat.le_of_lt h)), if_neg (Nat.not_le.mpr h)]

/-- The high half of a two's complement double word is the floor of its quotient by 2^64. -/
theorem extractLsb'_high_ofInt (p : Int) : (BitVec.ofInt 128 p).extractLsb' 64 64 = BitVec.ofInt 64 (p / 2 ^ 64) := by
  apply BitVec.eq_of_toNat_eq
  simp only [BitVec.extractLsb'_toNat, BitVec.toNat_ofInt, Nat.shiftRight_eq_div_pow]
  omega

theorem fMulh_eq (x y : W64) : fMulh x y = (x.signExtend 128 * y.signExtend 128).extractLsb' 64 64 := by
  simp only [BitVec.signExtend, ← BitVec.ofInt_mul, extractLsb'_high_ofInt, fMulh]

theorem fMulhu_eq (x y : W64) : fMulhu x y = (x.setWidth 128 * y.setWidth 128).extractLsb' 64 64 := by
  have hlt : x.toNat * y.toNat < 2 ^ 64 * 2 ^ 64 := Nat.mul_lt_mul'' x.isLt y.isLt
  apply BitVec.eq_of_toNat_eq
  simp only [fMulhu, BitVec.extractLsb'_toNat, BitVec.toNat_mul, BitVec.toNat_setWidth, BitVec.toNat_ofNat,
    Nat.shiftRight_eq_div_pow, Nat.mod_eq_of_lt (show x.toNat < 2 ^ 128 by omega),
    Nat.mod_eq_of_lt (show y.toNat < 2 ^ 128 by omega), Nat.mod_eq_of_lt (show x.toNat * y.toNat < 2 ^ 128 from hlt)]

/-- On the operands of the one signed overflow the truncated quotient 2^63 reads as the least word again (R61). -/
theorem fDiv_eq (x y : W64) : fDiv x y = if y = 0 then 0xFFFFFFFFFFFFFFFF
    else if x = 0x8000000000000000 ∧ y = 0xFFFFFFFFFFFFFFFF then 0x8000000000000000
    else BitVec.ofInt 64 (Int.tdiv x.toInt y.toInt) := by
  by_cases hw : x = 0x8000000000000000 ∧ y = 0xFFFFFFFFFFFFFFFF
  · obtain ⟨rfl, rfl⟩ := hw; decide
  · rw [fDiv, if_neg hw]; rfl

theorem fRem_eq (x y : W64) : fRem x y = if y = 0 then x
    else if x = 0x8000000000000000 ∧ y = 0xFFFFFFFFFFFFFFFF then 0
    else BitVec.ofInt 64 (Int.tmod x.toInt y.toInt) := by
  by_cases hw : x = 0x8000000000000000 ∧ y = 0xFFFFFFFFFFFFFFFF
  · obtain ⟨rfl, rfl⟩ := hw; decide
  · rw [fRem, if_neg hw]

theorem fDivu_eq (x y : W64) : fDivu x y = if y = 0 then 0xFFFFFFFFFFFFFFFF else x / y := by
  rw [fDivu, ← BitVec.toNat_udiv, BitVec.ofNat_toNat, BitVec.setWidth_eq]; rfl

theorem fRemu_eq (x y : W64) : fRemu x y = if y = 0 then x else x % y := by
  rw [fRemu, ← BitVec.toNat_umod, BitVec.ofNat_toNat, BitVec.setWidth_eq]

theorem upper_eq (j : BitVec 19) : upper j = BitVec.ofInt 64 (j.toInt * 2 ^ 14) := by
  rw [upper, BitVec.shiftLeft_eq_mul_twoPow, BitVec.signExtend, BitVec.ofInt_mul]; rfl

/-- The two parts of a constant (R63): an upper part of 19 bits, in units of 2^14, and a signed immediate of 14 bits. -/
theorem constant_parts (c : Int) (hlo : -2 ^ 32 - 8192 ≤ c) (hhi : c ≤ 2 ^ 32 - 8193) :
    let h := (c + 8192) / 16384
    let lo := c - h * 16384
    h < 2 ^ 18 ∧ -2 ^ 18 ≤ h ∧ -2 ^ 13 ≤ lo ∧ lo < 2 ^ 13
      ∧ BitVec.ofInt 64 (h * 2 ^ 14) + BitVec.ofInt 64 lo = BitVec.ofInt 64 c := by
  intro h lo
  have hsum : h * 2 ^ 14 + lo = c := by omega
  exact ⟨by omega, by omega, by omega, by omega, by rw [← BitVec.ofInt_add, hsum]⟩

/-! ### Completing with a register result -/

theorem completes_aluRR {i : Instr} {s : State} {d a b : BitVec 5} {f : W64 → W64 → W64} {v : W64} (hc : s.isControl = true)
    (he : exec i s = aluRR f d a b s) (hv : f (s.getX a) (s.getX b) = v) : Completes i s (s.ControlResult d v s.nextPc) :=
  hv ▸ Completes.of he (aluRR_result f s d a b hc)

theorem completes_aluRI {i : Instr} {s : State} {d a : BitVec 5} {k : BitVec 14} {f : W64 → W64 → W64} {v : W64}
    (hc : s.isControl = true) (he : exec i s = aluRI f d a k s) (hv : f (s.getX a) (k.signExtend 64) = v) :
    Completes i s (s.ControlResult d v s.nextPc) :=
  hv ▸ Completes.of he (aluRI_result f s d a k hc)

/-- An instruction that writes a value of the state alone into rd, as lui and auipc do. -/
theorem completes_write {i : Instr} {s : State} {d : BitVec 5} {g : State → W64} {v : W64} (hc : s.isControl = true)
    (he : exec i s = onControl s (fun s => s.putX d (g s))) (hv : g s = v) : Completes i s (s.ControlResult d v s.nextPc) := by
  subst hv
  exact ⟨_, by rw [he, onControl, if_pos hc], State.controlResult_putX s d (g s) hc⟩

/-! ### Going to a target (R58, R66, R67) -/

/-- x0 discards writes (R57). -/
theorem State.putX_zero (s : State) (v : W64) : s.putX 0 v = s := rfl

/-- A target below the top fits the pc of the party, so that the pc holds it whole. -/
theorem State.pcOf_setPc_of_lt (s u : State) (p : Party) (t : W64) (ht : t.toNat < s.topOf p) : (u.setPc p t).pcOf p = t := by
  rw [State.pcOf_setPc]
  cases p with
  | verge n => rfl
  | ctrl h | vec h =>
    apply BitVec.eq_of_toNat_eq
    simp only [State.topOf] at ht
    simp only [BitVec.toNat_setWidth]
    omega

/-- A register written and the pc set to a target below the top: the result of a transfer of control. -/
theorem State.controlResult_setPc (s : State) (d : BitVec 5) (v t : W64) (hc : s.isControl = true) (ht : t.toNat < s.topOf s.cur) :
    s.ControlResult d v t ((s.putX d v).setPc s.cur t) := by
  obtain ⟨hrd, hothers, -, -, -⟩ := State.controlResult_putX s d v hc
  rw [State.readX_advance] at hrd
  refine ⟨by rwa [State.readX_setPc], fun r hr => ?_, State.pcOf_setPc_of_lt s _ _ t ht, State.controlFrame_write s d v t hc,
    State.sameBytes_of _ _ (by simp [State.putX]) (by simp [State.putX]) (fun g => by simp [State.putX])⟩
  rw [State.readX_setPc, ← hothers r hr, State.readX_advance]

/-- Going on to the next word with no register written. -/
theorem State.controlResult_advance (s : State) (hc : s.isControl = true) : s.ControlResult 0 0 s.nextPc s.advance := by
  simpa only [State.putX_zero] using State.controlResult_putX s 0 0 hc

/-- How an instruction that goes to `dest` with `v` written to rd ends, by the checks of the target (R58): range, then alignment. -/
def State.Goes (s : State) (i : Instr) (d : BitVec 5) (v dest : W64) : Prop :=
  (dest.toNat < s.topOf s.cur → dest.toNat % s.wordBytes s.cur = 0 → Completes i s (s.ControlResult d v dest))
  ∧ (s.topOf s.cur ≤ dest.toNat → Traps i s { cls := 0x02, addr := dest })
  ∧ (dest.toNat < s.topOf s.cur → dest.toNat % s.wordBytes s.cur ≠ 0 → Traps i s { cls := 0x04, addr := dest })

/-- How a branch to `dest` under the condition `c` ends: its target is checked only when it is taken (R66). -/
def State.Branches (s : State) (i : Instr) (dest : W64) (c : Prop) : Prop :=
  (¬ c → Completes i s (s.ControlResult 0 0 s.nextPc))
  ∧ (c → dest.toNat < s.topOf s.cur → dest.toNat % s.wordBytes s.cur = 0 → Completes i s (s.ControlResult 0 0 dest))
  ∧ (c → s.topOf s.cur ≤ dest.toNat → Traps i s { cls := 0x02, addr := dest })
  ∧ (c → dest.toNat < s.topOf s.cur → dest.toNat % s.wordBytes s.cur ≠ 0 → Traps i s { cls := 0x04, addr := dest })

theorem goes_of_jumpTo {i : Instr} {s : State} {d : BitVec 5} {v dest : W64} {f : State → State} (hc : s.isControl = true)
    (he : exec i s = s.jumpTo dest f) (hf : f s = s.putX d v) : s.Goes i d v dest := by
  refine ⟨fun hlt hal => ?_, fun hge => ?_, fun hlt hal => ?_⟩
  · exact ⟨_, by rw [he, State.jumpTo, if_neg (Nat.not_le.mpr hlt), if_neg (fun hne => hne hal), hf], State.controlResult_setPc s d v dest hc hlt⟩
  · rw [Traps, he, State.jumpTo, if_pos hge, trapNow]
  · rw [Traps, he, State.jumpTo, if_neg (Nat.not_le.mpr hlt), if_pos hal, trapNow]

theorem branches_of_branchOp {i : Instr} {s : State} {a b : BitVec 5} {o : BitVec 14} {f : W64 → W64 → Bool} {c : Prop}
    (hc : s.isControl = true) (he : exec i s = branchOp f a b o s) (hf : f (s.getX a) (s.getX b) = true ↔ c) :
    s.Branches i (s.target o.toInt) c := by
  have taken (h : c) : s.Goes i 0 0 (s.target o.toInt) :=
    goes_of_jumpTo hc (f := id) (by rw [he, branchOp, hc, if_pos (hf.mpr h)]; rfl) (State.putX_zero s 0).symm
  refine ⟨fun h => ?_, fun h => (taken h).1, fun h => (taken h).2.1, fun h => (taken h).2.2⟩
  exact ⟨_, by rw [he, branchOp, hc, if_neg (mt hf.mp h)]; rfl, State.controlResult_advance s hc⟩

end Sys2Proof.Machine

namespace Sys2Proof

/-! ### Words and what they decode to (R46, R47, R52, R54) -/

/-- A word of format S3: opcode, rd, rs1, rs2 and the function field. -/
def wordS3 (op : Nat) (d a b : BitVec 5) (n : Nat) : Nat := op * 2 ^ 24 + d.toNat * 2 ^ 19 + a.toNat * 2 ^ 14 + b.toNat * 2 ^ 9 + n

/-- A word of format SI: opcode, rd, rs1 and an immediate of 14 bits. -/
def wordSI (op : Nat) (d a : BitVec 5) (k : BitVec 14) : Nat := op * 2 ^ 24 + d.toNat * 2 ^ 19 + a.toNat * 2 ^ 14 + k.toNat

theorem decode_of_encode {i : Instr} {w : Nat} (hr : Laws.RoundTrip.Statement i) (hi : i.illFormed = none) (hw : encode i = some w) :
    decode w = .ok i := (hr hi w hw).2

/-- The opcode and the function field of a word of format S3, for an opcode of the first table. -/
theorem wordS3_fields {op n : Nat} (d a b : BitVec 5) (hop : op ≤ 0x0F) (hn : n < 2 ^ 9) :
    wordS3 op d a b n / 2 ^ 28 = 0 ∧ wordS3 op d a b n / 2 ^ 24 % 16 = op ∧ wordS3 op d a b n / 2 ^ 0 % 2 ^ 9 = n := by
  simp only [wordS3]
  omega

theorem fnIs_error {w lo n v : Nat} (h : w / 2 ^ lo % 2 ^ n ≠ v) : fnIs w lo n v = .error .reservedValue := if_neg h

/-- A function field that no entry of the opcode defines is a reserved value: only the opcodes of min and max define function 1. -/
theorem decode_wordS3_reserved {op n : Nat} (d a b : BitVec 5) (hop : 0x01 ≤ op ∧ op ≤ 0x0F) (hn : n < 2 ^ 9) (h0 : n ≠ 0)
    (h1 : n = 1 → op ≠ 0x0B ∧ op ≠ 0x0C) : decode (wordS3 op d a b n) = .error .reservedValue := by
  obtain ⟨hhi, hlo, hfn⟩ := wordS3_fields d a b hop.2 hn
  generalize wordS3 op d a b n = w at hhi hlo hfn
  have hbad : fnIs w 0 9 0 = .error .reservedValue := fnIs_error (by rwa [hfn])
  have hfields : decodeFields w = .error .reservedValue := by
    simp only [decodeFields, hhi, decode0]
    split
    case h_11 | h_12 =>
      split
      · omega
      · omega
      · rfl
    case h_16 =>
      simp only [imp_false] at *
      omega
    all_goals rw [hbad]; rfl
  rw [decode, hfields]; rfl

theorem decode_wordS3_one {op n : Nat} {d a b : BitVec 5} {i : Instr} (hop : 0x01 ≤ op ∧ op ≤ 0x0F) (h1 : op ≠ 0x0B ∧ op ≠ 0x0C)
    (hn : n < 2 ^ 9) (hi : decode (wordS3 op d a b 0) = .ok i) :
    decode (wordS3 op d a b n) = if n = 0 then .ok i else .error .reservedValue := by
  split
  · next h => rw [h, hi]
  · next h => exact decode_wordS3_reserved d a b hop hn h fun _ => h1

theorem decode_wordS3_two {op n : Nat} {d a b : BitVec 5} {i j : Instr} (hop : 0x01 ≤ op ∧ op ≤ 0x0F) (hn : n < 2 ^ 9)
    (hi : decode (wordS3 op d a b 0) = .ok i) (hj : decode (wordS3 op d a b 1) = .ok j) :
    decode (wordS3 op d a b n) = if n = 0 then .ok i else if n = 1 then .ok j else .error .reservedValue := by
  split
  · next h => rw [h, hi]
  · next h =>
    split
    · next h' => rw [h', hj]
    · next h' => exact decode_wordS3_reserved d a b hop hn h fun e => absurd e h'

/-- A shift by an immediate above 63 is a reserved value (R62). -/
theorem decode_of_shift {w : Nat} {i : Instr} {k : BitVec 14} (hf : decodeFields w = .ok i) (hi : i.illFormed = needs (k.toNat ≤ 63)) :
    decode w = if k.toNat ≤ 63 then .ok i else .error .reservedValue := by
  by_cases hk : k.toNat ≤ 63 <;> simp [decode, hf, hi, needs, hk, bind, Except.bind, pure, Except.pure]

theorem decodeFields_shifts (d a : BitVec 5) (k : BitVec 14) : decodeFields (wordSI 0x18 d a k) = .ok (.slli d a k)
    ∧ decodeFields (wordSI 0x19 d a k) = .ok (.srli d a k) ∧ decodeFields (wordSI 0x1A d a k) = .ok (.srai d a k) := by
  refine ⟨?_, ?_, ?_⟩
  · obtain ⟨-, hhi, hlo, hd, ha, hk⟩ := Laws.RoundTrip.layout4 0x18 d a k (by decide) (wordSI 0x18 d a k) rfl
    simp only [decodeFields, hhi, decode1, hlo, hd, ha, hk]; rfl
  · obtain ⟨-, hhi, hlo, hd, ha, hk⟩ := Laws.RoundTrip.layout4 0x19 d a k (by decide) (wordSI 0x19 d a k) rfl
    simp only [decodeFields, hhi, decode1, hlo, hd, ha, hk]; rfl
  · obtain ⟨-, hhi, hlo, hd, ha, hk⟩ := Laws.RoundTrip.layout4 0x1A d a k (by decide) (wordSI 0x1A d a k) rfl
    simp only [decodeFields, hhi, decode1, hlo, hd, ha, hk]; rfl

end Sys2Proof

namespace Sys2Proof.Machine

/-- Settles O1: each operation is one register write with the value its lemma above gives, each well-formed word is the encoder's, and
what no entry defines is refused by the function field or by the range of the shift amount. -/
theorem controlArithmetic : Obligations.ControlArithmetic := by
  refine ⟨?registers, ?immediates⟩
  case registers =>
    intro s d a b hc x y n gives
    refine ⟨?_, ?_, ?_, ?_, ?_, ?_, ?_, ?_, ?_, ?_, ?_, ?_, ?_, ?_, ?_, ?_, ?_, ?words⟩
    · exact completes_aluRR hc rfl rfl
    · exact completes_aluRR hc rfl rfl
    · exact completes_aluRR hc rfl rfl
    · exact completes_aluRR hc rfl rfl
    · exact completes_aluRR hc rfl rfl
    · exact completes_aluRR hc rfl rfl
    · exact completes_aluRR hc rfl rfl
    · exact completes_aluRR hc rfl rfl
    · exact completes_aluRR hc rfl (word_decide _)
    · exact completes_aluRR hc rfl (word_decide _)
    · exact completes_aluRR hc rfl (fMin_eq x y)
    · exact completes_aluRR hc rfl (fMinu_eq x y)
    · exact completes_aluRR hc rfl (fMax_eq x y)
    · exact completes_aluRR hc rfl (fMaxu_eq x y)
    · exact completes_aluRR hc rfl rfl
    · exact completes_aluRR hc rfl (fMulh_eq x y)
    · exact completes_aluRR hc rfl (fMulhu_eq x y)
    case words =>
      intro n hn reads one two
      have single {op : Nat} {i : Instr} (hi : decode (wordS3 op d a b 0) = .ok i) (hop : 0x01 ≤ op ∧ op ≤ 0x0F)
          (h1 : op ≠ 0x0B ∧ op ≠ 0x0C) : one op i := decode_wordS3_one hop h1 hn hi
      refine ⟨?_, ?_, ?_, ?_, ?_, ?_, ?_, ?_, ?_, ?_, ?_, ?_, ?_, ?_, ?_⟩
      · exact single (decode_of_encode (Laws.RoundTrip.add d a b) rfl rfl) (by decide) (by decide)
      · exact single (decode_of_encode (Laws.RoundTrip.sub d a b) rfl rfl) (by decide) (by decide)
      · exact single (decode_of_encode (Laws.RoundTrip.and d a b) rfl rfl) (by decide) (by decide)
      · exact single (decode_of_encode (Laws.RoundTrip.or d a b) rfl rfl) (by decide) (by decide)
      · exact single (decode_of_encode (Laws.RoundTrip.xor d a b) rfl rfl) (by decide) (by decide)
      · exact single (decode_of_encode (Laws.RoundTrip.sll d a b) rfl rfl) (by decide) (by decide)
      · exact single (decode_of_encode (Laws.RoundTrip.srl d a b) rfl rfl) (by decide) (by decide)
      · exact single (decode_of_encode (Laws.RoundTrip.sra d a b) rfl rfl) (by decide) (by decide)
      · exact single (decode_of_encode (Laws.RoundTrip.slt d a b) rfl rfl) (by decide) (by decide)
      · exact single (decode_of_encode (Laws.RoundTrip.sltu d a b) rfl rfl) (by decide) (by decide)
      · exact decode_wordS3_two (by decide) hn (decode_of_encode (Laws.RoundTrip.min d a b) rfl rfl)
          (decode_of_encode (Laws.RoundTrip.minu d a b) rfl rfl)
      · exact decode_wordS3_two (by decide) hn (decode_of_encode (Laws.RoundTrip.max d a b) rfl rfl)
          (decode_of_encode (Laws.RoundTrip.maxu d a b) rfl rfl)
      · exact single (decode_of_encode (Laws.RoundTrip.mul d a b) rfl rfl) (by decide) (by decide)
      · exact single (decode_of_encode (Laws.RoundTrip.mulh d a b) rfl rfl) (by decide) (by decide)
      · exact single (decode_of_encode (Laws.RoundTrip.mulhu d a b) rfl rfl) (by decide) (by decide)
  case immediates =>
    intro s d a i j hc x k up gives
    refine ⟨?_, ?_, ?_, ?_, ?_, ?_, ?_, ?_, ?shifts, ?reserved, ?words, constant_parts⟩
    · exact completes_aluRI hc rfl rfl
    · exact completes_aluRI hc rfl rfl
    · exact completes_aluRI hc rfl rfl
    · exact completes_aluRI hc rfl rfl
    · exact completes_aluRI hc rfl (word_decide _)
    · exact completes_aluRI hc rfl (word_decide _)
    · exact completes_write (g := fun _ => upper j) hc rfl (upper_eq j)
    · exact completes_write (g := fun s => s.pcOf s.cur + upper j) hc rfl (congrArg (s.pcOf s.cur + ·) (upper_eq j))
    case shifts =>
      intro hi
      exact ⟨Completes.of rfl (aluShift_result _ s d a i hc hi), Completes.of rfl (aluShift_result _ s d a i hc hi),
        Completes.of rfl (aluShift_result _ s d a i hc hi)⟩
    case reserved =>
      intro hi
      exact ⟨aluShift_reserved _ s d a i hc hi, aluShift_reserved _ s d a i hc hi, aluShift_reserved _ s d a i hc hi⟩
    case words =>
      obtain ⟨hslli, hsrli, hsrai⟩ := decodeFields_shifts d a i
      refine ⟨?_, ?_, ?_, ?_, ?_, ?_, ?_, ?_, ?_, ?_, ?_⟩
      · exact decode_of_encode (Laws.RoundTrip.addi d a i) rfl rfl
      · exact decode_of_encode (Laws.RoundTrip.andi d a i) rfl rfl
      · exact decode_of_encode (Laws.RoundTrip.ori d a i) rfl rfl
      · exact decode_of_encode (Laws.RoundTrip.xori d a i) rfl rfl
      · exact decode_of_shift hslli rfl
      · exact decode_of_shift hsrli rfl
      · exact decode_of_shift hsrai rfl
      · exact decode_of_encode (Laws.RoundTrip.slti d a i) rfl rfl
      · exact decode_of_encode (Laws.RoundTrip.sltui d a i) rfl rfl
      · exact decode_of_encode (Laws.RoundTrip.lui d j) rfl rfl
      · exact decode_of_encode (Laws.RoundTrip.auipc d j) rfl rfl

/-- Settles O2: the zero divisor and the one overflow are cases of the value alone, so that the instruction completes on every operand. -/
theorem controlDivision : Obligations.ControlDivision := by
  intro s d a b hc x y gives wraps
  refine ⟨?_, ?_, ?_, ?_, ?_, ?_, ?_, ?_⟩
  · exact completes_aluRR hc rfl (fDiv_eq x y)
  · exact completes_aluRR hc rfl (fDivu_eq x y)
  · exact completes_aluRR hc rfl (fRem_eq x y)
  · exact completes_aluRR hc rfl (fRemu_eq x y)
  · exact decode_of_encode (Laws.RoundTrip.div d a b) rfl rfl
  · exact decode_of_encode (Laws.RoundTrip.divu d a b) rfl rfl
  · exact decode_of_encode (Laws.RoundTrip.rem d a b) rfl rfl
  · exact decode_of_encode (Laws.RoundTrip.remu d a b) rfl rfl

/-- Settles O3: a branch taken and a jump are both a move to a checked target, with x0 or rd written; a branch not taken goes on. -/
theorem controlTransfers : Obligations.ControlTransfers := by
  refine ⟨?branches, ?jumps⟩
  case branches =>
    intro s a b o hc x y dest branch
    refine ⟨?_, ?_, ?_, ?_, ?_, ?_, ?_, ?_, ?_, ?_, ?_, ?_⟩
    · exact branches_of_branchOp hc rfl beq_iff_eq
    · exact branches_of_branchOp hc rfl bne_iff_ne
    · exact branches_of_branchOp (f := fun x y => decide (x.toInt < y.toInt)) hc rfl decide_eq_true_iff
    · exact branches_of_branchOp (f := fun x y => decide (y.toInt ≤ x.toInt)) hc rfl decide_eq_true_iff
    · exact branches_of_branchOp (f := fun x y => decide (x.toNat < y.toNat)) hc rfl decide_eq_true_iff
    · exact branches_of_branchOp (f := fun x y => decide (y.toNat ≤ x.toNat)) hc rfl decide_eq_true_iff
    · exact decode_of_encode (Laws.RoundTrip.beq a b o) rfl rfl
    · exact decode_of_encode (Laws.RoundTrip.bne a b o) rfl rfl
    · exact decode_of_encode (Laws.RoundTrip.blt a b o) rfl rfl
    · exact decode_of_encode (Laws.RoundTrip.bge a b o) rfl rfl
    · exact decode_of_encode (Laws.RoundTrip.bltu a b o) rfl rfl
    · exact decode_of_encode (Laws.RoundTrip.bgeu a b o) rfl rfl
  case jumps =>
    intro s d a o k hc link jump
    refine ⟨?_, ?_, ?_, ?_⟩
    · exact goes_of_jumpTo hc (if_pos hc) rfl
    · exact goes_of_jumpTo hc (if_pos hc) rfl
    · exact decode_of_encode (Laws.RoundTrip.jal d o) rfl rfl
    · exact decode_of_encode (Laws.RoundTrip.jalr d a k) rfl rfl

end Sys2Proof.Machine
end

section
/-! SUPPORT. Masks, s registers, vmode and vlen (R26, R28, R86 to R88, R98): what an instruction that replaces the executing hart
leaves, the bits of masks and of the mode register, the words of formats VK and E that are refused, and the statements settled from
them. -/

namespace Sys2Proof.Machine

/-! ### Completing with the executing hart replaced -/

theorem Completes.mono {i : Instr} {s : State} {P Q : State → Prop} (h : Completes i s P) (hPQ : ∀ t, P t → Q t) : Completes i s Q :=
  h.imp fun t ⟨ht, hp⟩ => ⟨ht, hPQ t hp⟩

/-- An effect on the hart that was written last is the write of the hart it leaves. -/
theorem State.modHart_setHart (s : State) (h : Nat) (u : Hart) (f : Hart → Hart) : (s.setHart h u).modHart h f = s.setHart h (f u) := by
  rw [State.modHart_eq, State.hart_setHart_self, State.setHart_setHart]

theorem State.putS_setHart (s : State) (u : Hart) (r : BitVec 4) (v : W64) :
    (s.setHart s.me u).putS r v = s.setHart s.me { u with s := Tab.put 0 u.s r.toNat v } :=
  State.modHart_setHart s s.me u fun t => { t with s := Tab.put 0 t.s r.toNat v }

/-- An instruction of the vector stream whose effect replaces the executing hart completes, and the stream goes on. -/
theorem completes_goesOn {i : Instr} {s : State} {u : Hart} {f : State → State} (hv : s.isVector = true) (he : exec i s = onVector s f)
    (hf : f s = s.setHart s.me u) (hp : u.vpc = (s.hart s.me).vpc) : Completes i s (s.GoesOn u) :=
  ⟨_, he.trans (onVector_next s f hv), hf ▸ State.goesOn_advance s u hv hp⟩

/-- One whose operand fields are checked first, and which names no vector register. -/
theorem completes_goesOn_of_ok {i : Instr} {s : State} {ok : Hart → Bool} {u : Hart} {f : State → State} (hv : s.isVector = true)
    (hok : ok (s.hart s.me) = true) (he : exec i s = onVectorIf s ok [] fun s => (f s).advance) (hf : f s = s.setHart s.me u)
    (hp : u.vpc = (s.hart s.me).vpc) : Completes i s (s.GoesOn u) :=
  ⟨_, he.trans (onVectorIf_ready s ok [] _ ⟨hv, hok, rfl⟩), hf ▸ State.goesOn_advance s u hv hp⟩

theorem traps_of_not_ok {i : Instr} {s : State} {ok : Hart → Bool} {regs : List VOp} {f : State → State} (hv : s.isVector = true)
    (hok : ok (s.hart s.me) = false) (he : exec i s = onVectorIf s ok regs f) : Traps i s (illegal .reservedValue) := by
  rw [Traps, he, onVectorIf, hv, hok]; rfl

theorem completes_putS {i : Instr} {s : State} {r : BitVec 4} {g : State → W64} {v : W64} (hv : s.isVector = true)
    (he : exec i s = onVector s fun s => s.putS r (g s)) (hg : g s = v) : Completes i s (s.ScalarResult false r v) := by
  subst hg
  exact (completes_goesOn hv he rfl rfl).mono (s.scalarResult_of false r (g s))

theorem completes_putS_of_ok {i : Instr} {s : State} {ok : Hart → Bool} {r : BitVec 4} {g : State → W64} {v : W64}
    (hv : s.isVector = true) (hok : ok (s.hart s.me) = true) (he : exec i s = onVectorIf s ok [] fun s => (s.putS r (g s)).advance)
    (hg : g s = v) : Completes i s (s.ScalarResult false r v) := by
  subst hg
  exact (completes_goesOn_of_ok (f := fun s => s.putS r (g s)) hv hok he rfl rfl).mono (s.scalarResult_of false r (g s))

/-- One that writes an s register and leaves vstart 0. -/
theorem completes_putS_clear {i : Instr} {s : State} {r : BitVec 4} {g : State → W64} {v : W64} (hv : s.isVector = true)
    (he : exec i s = onVector s fun s => (s.putS r (g s)).modHart s.me fun t => { t with vstart := 0 }) (hg : g s = v) :
    Completes i s (s.ScalarResult true r v) := by
  subst hg
  have hf : ((s.putS r (g s)).modHart s.me fun t => { t with vstart := 0 })
      = s.setHart s.me { s.hart s.me with s := Tab.put 0 (s.hart s.me).s r.toNat (g s), vstart := 0 } :=
    State.modHart_setHart s s.me _ _
  exact (completes_goesOn hv he hf rfl).mono (s.scalarResult_of true r (g s))

/-! ### The bits of a mask (R86, R98) -/

/-- One that replaces bits 0 to vl − 1 of a mask. -/
theorem completes_lowBits {i : Instr} {s : State} {d : BitVec 3} {m : Hart → Nat} {bit : Nat → Bool} (hv : s.isVector = true)
    (he : exec i s = onVector s fun s => s.modHart s.me fun t =>
      { t with vstart := 0, k := Tab.put 0 t.k d.toNat (lowBits (Tab.get 0 t.k d.toNat) (m t) t.vl) })
    (hm : ∀ j, j < (s.hart s.me).vl → (m (s.hart s.me)).testBit j = bit j) :
    Completes i s (s.MaskResult d fun j => if j < (s.hart s.me).vl then bit j else (Tab.get 0 (s.hart s.me).k d.toNat).testBit j) := by
  refine (completes_goesOn hv he rfl rfl).mono fun t ht => s.maskResult_of d _ _ t ht fun j => ?_
  rw [testBit_lowBits]
  split
  · next h => exact hm j h
  · rfl

/-- One that writes what it counts of the bits of a mask below vl. -/
theorem completes_count {i : Instr} {s : State} {f : Nat → Nat → Nat} {a : BitVec 3} {r : BitVec 4} {n : Nat} (hv : s.isVector = true)
    (he : exec i s = onVector s fun s => (s.putS r (BitVec.ofNat 64 (f (Tab.get 0 (s.hart s.me).k a.toNat) (s.hart s.me).vl))).modHart
      s.me fun t => { t with vstart := 0 })
    (hf : f (Tab.get 0 (s.hart s.me).k a.toNat) (s.hart s.me).vl = n) : Completes i s (s.ScalarResult true r (BitVec.ofNat 64 n)) :=
  completes_putS_clear (g := fun s => BitVec.ofNat 64 (f (Tab.get 0 (s.hart s.me).k a.toNat) (s.hart s.me).vl)) hv he
    (congrArg (BitVec.ofNat 64) hf)

theorem completes_maskOp {i : Instr} {s : State} {f : Nat → Nat → Nat} {d a b : BitVec 3} {bit : Nat → Bool} (hv : s.isVector = true)
    (he : exec i s = maskOp f d a b s)
    (hf : ∀ j, (f (Tab.get 0 (s.hart s.me).k a.toNat) (Tab.get 0 (s.hart s.me).k b.toNat)).testBit j = bit j) :
    Completes i s (s.MaskResult d fun j => if j < (s.hart s.me).vl then bit j else (Tab.get 0 (s.hart s.me).k d.toNat).testBit j) :=
  completes_lowBits (m := fun t => f (Tab.get 0 t.k a.toNat) (Tab.get 0 t.k b.toNat)) hv he fun j _ => hf j

theorem completes_fillMask {i : Instr} {s : State} {d : BitVec 3} {fill : Bool} (hv : s.isVector = true)
    (he : exec i s = fillMask fill d s) :
    Completes i s (s.MaskResult d fun j => if j < (s.hart s.me).vl then fill else (Tab.get 0 (s.hart s.me).k d.toNat).testBit j) := by
  refine completes_lowBits (m := fun t => if fill then 2 ^ t.vl - 1 else 0) hv he fun j hj => ?_
  cases fill with
  | false => exact Nat.zero_testBit j
  | true => exact (Nat.testBit_two_pow_sub_one _ j).trans (decide_eq_true hj)

theorem popBelow_eq (x n : Nat) : popBelow x n = ((List.range n).filter x.testBit).length := by
  induction n with
  | zero => rfl
  | succ n ih => cases h : x.testBit n <;> simp [popBelow, List.range_succ, ih, h]

theorem lowestFrom_eq (x lo n : Nat) : lowestFrom x lo n = ((List.range' lo n).find? x.testBit).getD (lo + n) := by
  induction n generalizing lo with
  | zero => rfl
  | succ n ih => cases h : x.testBit lo <;> simp [lowestFrom, List.range'_succ, ih, h, Nat.add_comm, Nat.add_left_comm]

theorem lowestFrom_zero_eq (x n : Nat) : lowestFrom x 0 n = ((List.range n).find? x.testBit).getD n := by
  rw [lowestFrom_eq, List.range_eq_range', Nat.zero_add]

theorem testBit_xor_and (x y i : Nat) : (x ^^^ (x &&& y)).testBit i = (x.testBit i && !y.testBit i) := by
  rw [Nat.testBit_xor, Nat.testBit_and]
  cases x.testBit i <;> cases y.testBit i <;> rfl

theorem Hart.breakAt_eq (t : Hart) (a : Nat) :
    t.breakAt a = ((t.activeBelow t.vl).find? fun i => (Tab.get 0 t.k a).testBit i).getD t.vl := by
  simp only [Hart.breakAt, Hart.activeBelow, List.find?_filter, Bool.decide_and, Bool.decide_eq_true]

theorem testBit_lowBits_bitsWhere (old : Nat) (p : Nat → Bool) (n i : Nat) :
    (lowBits old (bitsWhere p n) n).testBit i = if i < n then p i else old.testBit i := by
  rw [testBit_lowBits, testBit_bitsWhere]
  split
  · next h => rw [decide_eq_true h, Bool.true_and]
  · rfl

/-- What kbefore and kthrough leave: the mask's bits below vl, and the break element's number where an s register is named. -/
theorem completes_breakOp {i : Instr} {s : State} {keep : Nat → Nat → Bool} {d a : BitVec 3} {w : Bool} {r : BitVec 4}
    {e : Nat} (hv : s.isVector = true) (he : exec i s = breakOp keep d a w r s) (hbreak : (s.hart s.me).breakAt a.toNat = e) :
    let u := s.hart s.me
    Completes i s fun t => ∃ m x, s.GoesOn { u with k := Tab.put 0 u.k d.toNat m, s := x, vstart := 0 } t
      ∧ (∀ i, m.testBit i = if i < u.vl then u.active i && keep i e else (Tab.get 0 u.k d.toNat).testBit i)
      ∧ x = if w then Tab.put 0 u.s r.toNat (BitVec.ofNat 64 e) else u.s := by
  intro u
  subst hbreak
  cases w with
  | false => exact (completes_goesOn hv he rfl rfl).mono fun t ht => ⟨_, _, ht, testBit_lowBits_bitsWhere _ _ _, rfl⟩
  | true =>
    exact (completes_goesOn hv he (State.putS_setHart s _ r _) rfl).mono fun t ht => ⟨_, _, ht, testBit_lowBits_bitsWhere _ _ _, rfl⟩

/-! ### The fields of the mode register (R24, R26, R88) -/

theorem getLsbD_setField (m : BitVec 32) (lo n v i : Nat) (hi : i < 32) :
    (setField m lo n v).getLsbD i = if lo ≤ i ∧ i < lo + n then v.testBit (i - lo) else m.getLsbD i := by
  simp only [setField, BitVec.getLsbD_or, BitVec.getLsbD_and, BitVec.getLsbD_not, BitVec.getLsbD_ofNat, Nat.testBit_mul_two_pow,
    Nat.testBit_two_pow_sub_one, hi]
  split
  · next h => simp [h.1, show i - lo < n by omega]
  · next h =>
    have hout : (decide (lo ≤ i) && decide (i - lo < n)) = false := by
      rw [← Bool.decide_and, decide_eq_false (by omega)]
    rw [hout]; simp

/-- A field replaced when its select bit is set (R88). -/
def setSelected (c : Bool) (lo n v : Nat) (m : BitVec 32) : BitVec 32 := if c then setField m lo n v else m

theorem applyMode_eq (f : VModeFields) (m : BitVec 32) :
    applyMode f m = setSelected f.selSc 3 3 f.sc.toNat (setSelected f.selG 6 1 f.gneg.toNat (setSelected f.selG 7 3 f.gk.toNat
      (setSelected f.selG 10 1 f.gen.toNat (setSelected f.selM 11 1 f.m.toNat (setSelected f.selSat 12 1 f.sat.toNat
        (setSelected f.selRnd 13 3 f.rnd.toNat (setSelected f.selT 16 4 f.t.toNat m))))))) := by
  simp only [applyMode, setSelected]
  cases f.selG <;> rfl

theorem getLsbD_setSelected_other (c : Bool) (m : BitVec 32) (lo n v i : Nat) (h : i < 32 ∧ (i < lo ∨ lo + n ≤ i)) :
    (setSelected c lo n v m).getLsbD i = m.getLsbD i := by
  cases c
  · rfl
  · exact (getLsbD_setField m lo n v i h.1).trans (if_neg (by omega))

theorem getLsbD_setSelected_same (c : Bool) (m : BitVec 32) (lo : Nat) (b : Bool) (h : lo < 32) :
    (setSelected c lo 1 b.toNat m).getLsbD lo = if c then b else m.getLsbD lo := by
  cases c
  · rfl
  · refine ((getLsbD_setField m lo 1 b.toNat lo h).trans (if_pos (by omega))).trans ?_
    rw [Nat.sub_self]
    cases b <;> rfl

theorem extractLsb'_setSelected_other (c : Bool) (m : BitVec 32) (lo n v lo' n' : Nat)
    (h : lo' + n' ≤ 32 ∧ (lo' + n' ≤ lo ∨ lo + n ≤ lo')) : (setSelected c lo n v m).extractLsb' lo' n' = m.extractLsb' lo' n' := by
  ext i hi
  rw [BitVec.getElem_extractLsb', BitVec.getElem_extractLsb', getLsbD_setSelected_other _ _ _ _ _ _ (by omega)]

theorem extractLsb'_setSelected_same (c : Bool) {n : Nat} (m : BitVec 32) (lo : Nat) (x : BitVec n) (h : lo + n ≤ 32) :
    (setSelected c lo n x.toNat m).extractLsb' lo n = if c then x else m.extractLsb' lo n := by
  cases c
  · rfl
  · ext i hi
    rw [BitVec.getElem_extractLsb', setSelected, if_pos rfl, getLsbD_setField _ _ _ _ _ (by omega), if_pos (by omega),
      Nat.add_sub_cancel_left]
    rfl

/-- Each field of the mode register after a vmode is the selected one of the word, or the one that stood. -/
theorem applyMode_fields (f : VModeFields) (m : BitVec 32) :
    mT (applyMode f m) = (if f.selT then f.t.toNat else mT m) ∧ mRnd (applyMode f m) = (if f.selRnd then f.rnd.toNat else mRnd m)
    ∧ mSat (applyMode f m) = (if f.selSat then f.sat else mSat m) ∧ mZero (applyMode f m) = (if f.selM then f.m else mZero m)
    ∧ mGen (applyMode f m) = (if f.selG then f.gen else mGen m) ∧ mGk (applyMode f m) = (if f.selG then f.gk.toNat else mGk m)
    ∧ mGneg (applyMode f m) = (if f.selG then f.gneg else mGneg m) ∧ mSc (applyMode f m) = (if f.selSc then f.sc.toNat else mSc m) := by
  simp (disch := decide) only [applyMode_eq, mT, mRnd, mSat, mZero, mGen, mGk, mGneg, mSc, extractLsb'_setSelected_other,
    extractLsb'_setSelected_same, getLsbD_setSelected_other, getLsbD_setSelected_same, apply_ite BitVec.toNat, and_self]

/-! ### What svl reads (R87) -/

theorem svlValue_four (t : Hart) : svlValue t 4 = BitVec.ofNat 64 ((t.loops.head?.map Loop.passes).getD 0) := by
  cases h : t.loops <;> simp [svlValue, h]

theorem svlValue_index (t : Hart) {n : Nat} (h : n < 6) : svlValue t (BitVec.ofNat 8 (8 + n)).toNat = (innerNest t.loops).getD n 0 := by
  have hread (k : Nat) : svlValue t (k + 8) = (innerNest t.loops).getD (k + 8 - 8) 0 := rfl
  rw [BitVec.toNat_ofNat, Nat.mod_eq_of_lt (by omega), Nat.add_comm, hread, Nat.add_sub_cancel]

/-- The fields that svl reads are 0 to 4 and 8 to 13. -/
def svlNamed (n : Nat) : Prop := n < 5 ∨ (8 ≤ n ∧ n < 14)

theorem svlNamed_iff (n : Nat) : (decide (n ≤ 4) || (decide (8 ≤ n) && decide (n ≤ 13))) = true ↔ svlNamed n := by
  simp only [svlNamed, Bool.or_eq_true, Bool.and_eq_true, decide_eq_true_eq]
  omega

theorem svlNamed_index {n : Nat} (h : n < 6) : svlNamed (BitVec.ofNat 8 (8 + n)).toNat := by
  rw [BitVec.toNat_ofNat, Nat.mod_eq_of_lt (by omega)]
  exact .inr (by omega)

/-! ### The s-register instructions (R87) -/

theorem completes_sOp {i : Instr} {s : State} {f : W64 → W64 → W64} {a b c : BitVec 4} {v : W64} (hv : s.isVector = true)
    (he : exec i s = sOp f a b c s) (hf : f (s.getS b) (s.getS c) = v) : Completes i s (s.ScalarResult false a v) :=
  completes_putS (g := fun s => f (s.getS b) (s.getS c)) hv he hf

theorem completes_sShift {i : Instr} {s : State} {f : W64 → Nat → W64} {a b : BitVec 4} {n : BitVec 8} (hv : s.isVector = true)
    (hn : n.toNat ≤ 63) (he : exec i s = sShift f a b n s) : Completes i s (s.ScalarResult false a (f (s.getS b) n.toNat)) :=
  completes_putS_of_ok (g := fun s => f (s.getS b) n.toNat) hv (decide_eq_true hn) he rfl

theorem traps_sShift {i : Instr} {s : State} {f : W64 → Nat → W64} {a b : BitVec 4} {n : BitVec 8} (hv : s.isVector = true)
    (hn : 63 < n.toNat) (he : exec i s = sShift f a b n s) : Traps i s (illegal .reservedValue) :=
  traps_of_not_ok hv (decide_eq_false (Nat.not_le.mpr hn)) he

theorem completes_svl {s : State} {a : BitVec 4} {f : BitVec 8} {v : W64} (hv : s.isVector = true)
    (hnamed : svlNamed f.toNat) (hf : svlValue (s.hart s.me) f.toNat = v) : Completes (.svl a f) s (s.ScalarResult false a v) :=
  completes_putS_of_ok (ok := fun _ => f.toNat ≤ 4 || (8 ≤ f.toNat && f.toNat ≤ 13)) (g := fun s => svlValue (s.hart s.me) f.toNat)
    hv ((svlNamed_iff _).mpr hnamed) rfl hf

end Sys2Proof.Machine

namespace Sys2Proof

/-! ### Words that are refused (R46, R52, R54) -/

/-- A word of format VK: opcode, kd, ka, kb and the low 15 bits. -/
def wordVK (op : Nat) (d a b : BitVec 3) (n : Nat) : Nat := op * 2 ^ 24 + d.toNat * 2 ^ 21 + a.toNat * 2 ^ 18 + b.toNat * 2 ^ 15 + n

/-- A word of format E: opcode, sa, sb, sc, sd and the low byte. -/
def wordE (op : Nat) (a b c : BitVec 4) (z n : Nat) : Nat :=
  op * 2 ^ 24 + a.toNat * 2 ^ 20 + b.toNat * 2 ^ 16 + c.toNat * 2 ^ 12 + z * 2 ^ 8 + n

theorem wordVK_fields (op : Nat) (d a b : BitVec 3) {n : Nat} (hn : n < 2 ^ 15) :
    wordVK op d a b n / 2 ^ 24 = op ∧ wordVK op d a b n / 2 ^ 0 % 2 ^ 15 = n ∧ wordVK op d a b n / 2 ^ 21 % 2 ^ 3 = d.toNat
      ∧ wordVK op d a b n / 2 ^ 4 % 2 ^ 14 = b.toNat * 2 ^ 11 + n / 2 ^ 4 := by
  simp only [wordVK]
  omega

theorem wordE_fields (op : Nat) (a b c : BitVec 4) {z n : Nat} (hz : z < 2 ^ 4) (hn : n < 2 ^ 8) :
    wordE op a b c z n / 2 ^ 24 = op ∧ wordE op a b c z n / 2 ^ 0 % 2 ^ 8 = n ∧ wordE op a b c z n / 2 ^ 8 % 2 ^ 4 = z
      ∧ wordE op a b c z n / 2 ^ 8 % 2 ^ 8 = c.toNat * 2 ^ 4 + z
      ∧ wordE op a b c z n / 2 ^ 8 % 2 ^ 12 = b.toNat * 2 ^ 8 + c.toNat * 2 ^ 4 + z
      ∧ wordE op a b c z n / 2 ^ 0 % 2 ^ 20 = b.toNat * 2 ^ 16 + c.toNat * 2 ^ 12 + z * 2 ^ 8 + n := by
  simp only [wordE]
  omega

theorem opcode_nibbles {w op : Nat} (hw : w / 2 ^ 24 = op) : w / 2 ^ 28 = op / 16 ∧ w / 2 ^ 24 % 16 = op % 16 := by omega

theorem fld_toNat (w lo n : Nat) : (fld w lo n).toNat = w / 2 ^ lo % 2 ^ n := BitVec.toNat_ofNat _ _

theorem reserved_error {w lo n : Nat} (h : w / 2 ^ lo % 2 ^ n ≠ 0) : reserved w lo n = .error .reservedBit := if_neg h

theorem decode_of_fields_error {w : Nat} {e : Reason} (hf : decodeFields w = .error e) : decode w = .error e := by rw [decode, hf]; rfl

theorem decode_of_illFormed {w : Nat} {i : Instr} {e : Reason} (hf : decodeFields w = .ok i) (hi : i.illFormed = some e) :
    decode w = .error e := by simp only [decode, hf, bind, Except.bind, hi]

theorem decode_of_wellFormed {w : Nat} {i : Instr} (hf : decodeFields w = .ok i) (hi : i.illFormed = none) :
    decode w = .ok i := by simp only [decode, hf, bind, Except.bind, hi, pure, Except.pure]

/-! ### Words of format VK (R86, R98) -/

theorem decode_maskOp_reserved {w op : Nat} (hop : 0x77 ≤ op ∧ op ≤ 0x7A) (hw : w / 2 ^ 24 = op) (h : w / 2 ^ 0 % 2 ^ 15 ≠ 0) :
    decode w = .error .reservedBit := by
  obtain ⟨hhi, hlo⟩ := opcode_nibbles hw
  obtain rfl | rfl | rfl | rfl : op = 0x77 ∨ op = 0x78 ∨ op = 0x79 ∨ op = 0x7A := by omega
  all_goals
    refine decode_of_fields_error ?_
    simp only [decodeFields, hhi, decode7, hlo, reserved_error h]
    rfl

theorem wordVK_zero (op : Nat) (d a b : BitVec 3) : put op 24 + put d.toNat 21 + put a.toNat 18 + put b.toNat 15 = wordVK op d a b 0 :=
  (Nat.add_zero _).symm

theorem decode_maskOp {op n : Nat} {d a b : BitVec 3} {i : Instr} (hop : 0x77 ≤ op ∧ op ≤ 0x7A) (hn : n < 2 ^ 15)
    (hi : decode (wordVK op d a b 0) = .ok i) : decode (wordVK op d a b n) = if n = 0 then .ok i else .error .reservedBit := by
  obtain ⟨hw, hlow, -, -⟩ := wordVK_fields op d a b hn
  split
  · next h => rw [h, hi]
  · next h => exact decode_maskOp_reserved hop hw (by rwa [hlow])

/-- kpop and kfirst check the bits between ka and the number of the s register, then kd: either is reserved. -/
theorem decode_count_reserved {w op : Nat} (hop : op = 0x7C ∨ op = 0x7D) (hw : w / 2 ^ 24 = op)
    (h : w / 2 ^ 4 % 2 ^ 14 ≠ 0 ∨ w / 2 ^ 21 % 2 ^ 3 ≠ 0) : decode w = .error .reservedBit := by
  obtain ⟨hhi, hlo⟩ := opcode_nibbles hw
  refine decode_of_fields_error ?_
  by_cases hmid : w / 2 ^ 4 % 2 ^ 14 = 0
  · have hkd := reserved_error (h.resolve_left (not_not_intro hmid))
    obtain rfl | rfl := hop
    all_goals
      simp only [decodeFields, hhi, decode7, hlo, reserved_ok _ _ _ hmid, hkd]
      rfl
  · obtain rfl | rfl := hop
    all_goals
      simp only [decodeFields, hhi, decode7, hlo, reserved_error hmid]
      rfl

theorem wordVK_count (op : Nat) (a : BitVec 3) (r : BitVec 4) : put op 24 + put a.toNat 18 + r.toNat = wordVK op 0 a 0 r.toNat := by
  simp only [put, wordVK, BitVec.ofNat_eq_ofNat, BitVec.toNat_ofNat, Nat.zero_mod]
  omega

theorem decode_count {op n : Nat} {d a b : BitVec 3} {r : BitVec 4} {i : Instr} (hop : op = 0x7C ∨ op = 0x7D) (hn : n < 2 ^ 15)
    (hr : n % 2 ^ 4 = r.toNat) (hi : decode (wordVK op 0 a 0 r.toNat) = .ok i) :
    decode (wordVK op d a b n) = if d = 0 ∧ b = 0 ∧ n < 2 ^ 4 then .ok i else .error .reservedBit := by
  obtain ⟨hw, -, hd, hmid⟩ := wordVK_fields op d a b hn
  split
  · next h =>
    obtain ⟨rfl, rfl, hlt⟩ := h
    rw [← hi, ← hr, Nat.mod_eq_of_lt hlt]
  · next h =>
    refine decode_count_reserved hop hw ?_
    rw [hd, hmid]
    simp only [BitVec.toNat_eq, BitVec.ofNat_eq_ofNat, BitVec.toNat_ofNat] at h
    omega

/-- The bits between kd and the low 15 are reserved whatever form of kset the low bits name. -/
theorem decode_kset_reserved {w : Nat} (hw : w / 2 ^ 24 = 0x7B) (h : w / 2 ^ 15 % 2 ^ 6 ≠ 0) : decode w = .error .reservedBit := by
  obtain ⟨hhi, hlo⟩ := opcode_nibbles hw
  refine decode_of_fields_error ?_
  simp only [decodeFields, hhi, decode7, hlo, reserved_error h]
  split <;> rfl

theorem decode_kset_undefined {w : Nat} (hw : w / 2 ^ 24 = 0x7B) (h : w / 2 ^ 15 % 2 ^ 6 = 0) (hfn : 1 < w / 2 ^ 0 % 2 ^ 15) :
    decode w = .error .reservedValue := by
  obtain ⟨hhi, hlo⟩ := opcode_nibbles hw
  refine decode_of_fields_error ?_
  simp only [decodeFields, hhi, decode7, hlo, reserved_ok _ _ _ h]
  split
  · omega
  · omega
  · rfl

theorem decode_kset (d : BitVec 3) {n : Nat} (hn : n < 2 ^ 21) : decode (0x7B * 2 ^ 24 + d.toNat * 2 ^ 21 + n)
    = if 2 ^ 15 ≤ n then .error .reservedBit
      else if n = 0 then .ok (.kset d) else if n = 1 then .ok (.ksetClear d) else .error .reservedValue := by
  have hw : (0x7B * 2 ^ 24 + d.toNat * 2 ^ 21 + n) / 2 ^ 24 = 0x7B := by omega
  have hfn : (0x7B * 2 ^ 24 + d.toNat * 2 ^ 21 + n) / 2 ^ 0 % 2 ^ 15 = n % 2 ^ 15 := by omega
  have hmid : (0x7B * 2 ^ 24 + d.toNat * 2 ^ 21 + n) / 2 ^ 15 % 2 ^ 6 = n / 2 ^ 15 := by omega
  split
  · next h => exact decode_kset_reserved hw (by omega)
  split
  · next h => rw [h, Nat.add_zero]; exact decode_of_encode (Laws.RoundTrip.kset d) rfl rfl
  split
  · next h => rw [h]; exact decode_of_encode (Laws.RoundTrip.ksetClear d) rfl rfl
  · next h => exact decode_kset_undefined hw (by omega) (by omega)

theorem decodeFields_break (d a : BitVec 3) (w : Bool) (r : BitVec 4) :
    decodeFields (put 0x93 24 + put d.toNat 21 + put a.toNat 18 + put w.toNat 4 + r.toNat) = .ok (.kbefore d a w r)
    ∧ decodeFields (put 0x94 24 + put d.toNat 21 + put a.toNat 18 + put w.toNat 4 + r.toNat) = .ok (.kthrough d a w r) := by
  refine ⟨?_, ?_⟩
  · obtain ⟨-, hhi, hlo, hres, hd, ha, hw, hr⟩ := Laws.RoundTrip.layout33 0x93 d a w r (by decide) _ rfl
    simp only [decodeFields, hhi, decode9, hlo, hres, hd, ha, hw, hr]; rfl
  · obtain ⟨-, hhi, hlo, hres, hd, ha, hw, hr⟩ := Laws.RoundTrip.layout33 0x94 d a w r (by decide) _ rfl
    simp only [decodeFields, hhi, decode9, hlo, hres, hd, ha, hw, hr]; rfl

theorem decode_break_reserved {w op : Nat} (hop : op = 0x93 ∨ op = 0x94) (hw : w / 2 ^ 24 = op) (h : w / 2 ^ 5 % 2 ^ 13 ≠ 0) :
    decode w = .error .reservedBit := by
  obtain ⟨hhi, hlo⟩ := opcode_nibbles hw
  refine decode_of_fields_error ?_
  obtain rfl | rfl := hop
  all_goals
    simp only [decodeFields, hhi, decode9, hlo, reserved_error h]
    rfl

/-- The number of the s register is reserved too where the form writes none (R98). -/
theorem decode_break {op n : Nat} {d a : BitVec 3} {w : Bool} {r : BitVec 4} {i : Instr} (hop : op = 0x93 ∨ op = 0x94)
    (hf : decodeFields (put op 24 + put d.toNat 21 + put a.toNat 18 + put w.toNat 4 + r.toNat) = .ok i)
    (hi : i.illFormed = mustBeZero (w || r == 0) none) (hn : n < 2 ^ 18) (hr : n % 2 ^ 4 = r.toNat) (hw : n / 2 ^ 4 % 2 = 1 ↔ w = true) :
    decode (op * 2 ^ 24 + d.toNat * 2 ^ 21 + a.toNat * 2 ^ 18 + n)
      = if n < 2 ^ 5 ∧ (w = true ∨ r = 0) then .ok i else .error .reservedBit := by
  by_cases hlt : n < 2 ^ 5
  · have hbit : w.toNat = n / 2 ^ 4 := by
      cases w with
      | false => have := mt hw.mp (by decide); rw [Bool.toNat_false]; omega
      | true => have := hw.mpr rfl; rw [Bool.toNat_true]; omega
    have hword : put op 24 + put d.toNat 21 + put a.toNat 18 + put w.toNat 4 + r.toNat
        = op * 2 ^ 24 + d.toNat * 2 ^ 21 + a.toNat * 2 ^ 18 + n := by
      simp only [put]; omega
    rw [hword] at hf
    by_cases hform : w = true ∨ r = 0
    · rw [if_pos ⟨hlt, hform⟩]
      exact decode_of_wellFormed hf (hi.trans (if_pos (by simpa using hform)))
    · rw [if_neg fun h => hform h.2]
      exact decode_of_illFormed hf (hi.trans (if_neg (by simpa using hform)))
  · rw [if_neg fun h => hlt h.1]
    exact decode_break_reserved hop (by omega) (by omega)

/-! ### Words of format E (R87) -/

theorem refused_scalarOne {w op : Nat} (hop : op = 0x80 ∨ op = 0x81 ∨ op = 0x84) (hw : w / 2 ^ 24 = op)
    (h : w / 2 ^ 8 % 2 ^ 4 ≠ 0 ∨ w / 2 ^ 0 % 2 ^ 8 ≠ 0) : ∃ e, decode w = .error e := by
  obtain ⟨hhi, hlo⟩ := opcode_nibbles hw
  by_cases hz : w / 2 ^ 8 % 2 ^ 4 = 0
  · have hfn := fnIs_error (h.resolve_left (not_not_intro hz))
    refine ⟨.reservedValue, decode_of_fields_error ?_⟩
    obtain rfl | rfl | rfl := hop
    all_goals
      simp only [decodeFields, hhi, decode8, hlo, reserved_ok _ _ _ hz, hfn]
      rfl
  · refine ⟨.reservedBit, decode_of_fields_error ?_⟩
    obtain rfl | rfl | rfl := hop
    all_goals
      simp only [decodeFields, hhi, decode8, hlo, reserved_error hz]
      rfl

theorem refused_scalarTwo {w op : Nat} (hop : op = 0x82 ∨ op = 0x83) (hw : w / 2 ^ 24 = op)
    (h : w / 2 ^ 8 % 2 ^ 4 ≠ 0 ∨ 1 < w / 2 ^ 0 % 2 ^ 8) : ∃ e, decode w = .error e := by
  obtain ⟨hhi, hlo⟩ := opcode_nibbles hw
  by_cases hz : w / 2 ^ 8 % 2 ^ 4 = 0
  · have hfn := h.resolve_left (not_not_intro hz)
    refine ⟨.reservedValue, decode_of_fields_error ?_⟩
    obtain rfl | rfl := hop
    all_goals
      simp only [decodeFields, hhi, decode8, hlo, reserved_ok _ _ _ hz]
      split
      · omega
      · omega
      · rfl
  · refine ⟨.reservedBit, decode_of_fields_error ?_⟩
    obtain rfl | rfl := hop
    all_goals
      simp only [decodeFields, hhi, decode8, hlo, reserved_error hz]
      split <;> rfl

theorem refused_scalarShift {w op : Nat} (hop : op = 0x85 ∨ op = 0x86) (hw : w / 2 ^ 24 = op)
    (h : w / 2 ^ 8 % 2 ^ 8 ≠ 0 ∨ 63 < w / 2 ^ 0 % 2 ^ 8) : ∃ e, decode w = .error e := by
  obtain ⟨hhi, hlo⟩ := opcode_nibbles hw
  by_cases hz : w / 2 ^ 8 % 2 ^ 8 = 0
  · have hlarge : needs (decide ((fld w 0 8).toNat ≤ 63)) = some .reservedValue := by
      rw [fld_toNat, decide_eq_false (by omega)]; rfl
    refine ⟨.reservedValue, ?_⟩
    obtain rfl | rfl := hop
    · refine decode_of_illFormed (i := .sshli (fld w 20 4) (fld w 16 4) (fld w 0 8)) ?_ hlarge
      simp only [decodeFields, hhi, decode8, hlo, reserved_ok _ _ _ hz]
      rfl
    · refine decode_of_illFormed (i := .sshri (fld w 20 4) (fld w 16 4) (fld w 0 8)) ?_ hlarge
      simp only [decodeFields, hhi, decode8, hlo, reserved_ok _ _ _ hz]
      rfl
  · refine ⟨.reservedBit, decode_of_fields_error ?_⟩
    obtain rfl | rfl := hop
    all_goals
      simp only [decodeFields, hhi, decode8, hlo, reserved_error hz]
      rfl

theorem refused_svl {w : Nat} (hw : w / 2 ^ 24 = 0x88) (h : w / 2 ^ 8 % 2 ^ 12 ≠ 0 ∨ ¬ Machine.svlNamed (w / 2 ^ 0 % 2 ^ 8)) :
    ∃ e, decode w = .error e := by
  obtain ⟨hhi, hlo⟩ := opcode_nibbles hw
  by_cases hz : w / 2 ^ 8 % 2 ^ 12 = 0
  · have hnamed := h.resolve_left (not_not_intro hz)
    rw [← fld_toNat] at hnamed
    refine ⟨.reservedValue, decode_of_illFormed (i := .svl (fld w 20 4) (fld w 0 8)) ?_ (if_neg (mt (Machine.svlNamed_iff _).mp hnamed))⟩
    simp only [decodeFields, hhi, decode8, hlo, reserved_ok _ _ _ hz]
    rfl
  · refine ⟨.reservedBit, decode_of_fields_error ?_⟩
    simp only [decodeFields, hhi, decode8, hlo, reserved_error hz]
    rfl

theorem refused_vlen {w : Nat} (hw : w / 2 ^ 24 = 0x8A) (h : w / 2 ^ 0 % 2 ^ 20 ≠ 0) : ∃ e, decode w = .error e := by
  obtain ⟨hhi, hlo⟩ := opcode_nibbles hw
  refine ⟨.reservedBit, decode_of_fields_error ?_⟩
  simp only [decodeFields, hhi, decode8, hlo, reserved_error h]
  rfl

/-! ### The encoder's words of format E, and every other word of their opcodes (R87) -/

theorem wordE_three_fn (op : Nat) (a b c : BitVec 4) (n : Nat) :
    put op 24 + put a.toNat 20 + put b.toNat 16 + put c.toNat 12 + n = wordE op a b c 0 n := by
  simp only [put, wordE]
  omega

theorem wordE_three (op : Nat) (a b c : BitVec 4) : put op 24 + put a.toNat 20 + put b.toNat 16 + put c.toNat 12 = wordE op a b c 0 0 :=
  (Nat.add_zero _).symm.trans (wordE_three_fn op a b c 0)

/-- The word of an instruction that names sa and the low byte alone. -/
theorem wordE_sa_low (op : Nat) (a : BitVec 4) (n : Nat) : put op 24 + put a.toNat 20 + n = wordE op a 0 0 0 n := by
  simp only [put, wordE, BitVec.ofNat_eq_ofNat, BitVec.toNat_ofNat, Nat.zero_mod]
  omega

theorem wordE_sa (op : Nat) (a : BitVec 4) : put op 24 + put a.toNat 20 = wordE op a 0 0 0 0 :=
  (Nat.add_zero _).symm.trans (wordE_sa_low op a 0)

/-- The word of an instruction that names sa, sb and the low byte alone. -/
theorem wordE_low (op : Nat) (a b : BitVec 4) (n : Nat) : put op 24 + put a.toNat 20 + put b.toNat 16 + n = wordE op a b 0 0 n := by
  simp only [put, wordE, BitVec.ofNat_eq_ofNat, BitVec.toNat_ofNat, Nat.zero_mod]
  omega

/-- A word of an operation that one function field names, and that reserves sd. -/
theorem decode_wordE_one {op z n : Nat} {a b c : BitVec 4} {i : Instr} (hop : op = 0x80 ∨ op = 0x81 ∨ op = 0x84) (hz : z < 2 ^ 4)
    (hn : n < 2 ^ 8) (hi : decode (wordE op a b c 0 0) = .ok i) :
    (z = 0 → n = 0 → decode (wordE op a b c z n) = .ok i) ∧ (z ≠ 0 ∨ n ≠ 0 → ∃ e, decode (wordE op a b c z n) = .error e) := by
  obtain ⟨hw, hlow, hsd, -⟩ := wordE_fields op a b c hz hn
  exact ⟨fun h0 h1 => by rw [h0, h1, hi], fun h => refused_scalarOne hop hw (by rwa [hsd, hlow])⟩

theorem decode_wordE_two {op z n : Nat} {a b c : BitVec 4} {i j : Instr} (hop : op = 0x82 ∨ op = 0x83) (hz : z < 2 ^ 4) (hn : n < 2 ^ 8)
    (hi : decode (wordE op a b c 0 0) = .ok i) (hj : decode (wordE op a b c 0 1) = .ok j) :
    (z = 0 → n = 0 → decode (wordE op a b c z n) = .ok i) ∧ (z = 0 → n = 1 → decode (wordE op a b c z n) = .ok j)
      ∧ (z ≠ 0 ∨ 1 < n → ∃ e, decode (wordE op a b c z n) = .error e) := by
  obtain ⟨hw, hlow, hsd, -⟩ := wordE_fields op a b c hz hn
  exact ⟨fun h0 h1 => by rw [h0, h1, hi], fun h0 h1 => by rw [h0, h1, hj], fun h => refused_scalarTwo hop hw (by rwa [hsd, hlow])⟩

theorem decode_wordE_shift {op z n : Nat} {a b c : BitVec 4} {i : Instr} (hop : op = 0x85 ∨ op = 0x86) (hz : z < 2 ^ 4) (hn : n < 2 ^ 8)
    (hi : n ≤ 63 → decode (wordE op a b 0 0 n) = .ok i) :
    (c = 0 → z = 0 → n ≤ 63 → decode (wordE op a b c z n) = .ok i)
      ∧ (c ≠ 0 ∨ z ≠ 0 ∨ 63 < n → ∃ e, decode (wordE op a b c z n) = .error e) := by
  obtain ⟨hw, hlow, -, hscd, -⟩ := wordE_fields op a b c hz hn
  refine ⟨fun hc h0 hle => by rw [hc, h0, hi hle], fun h => refused_scalarShift hop hw ?_⟩
  rw [hscd, hlow]
  simp only [ne_eq, BitVec.toNat_eq, BitVec.ofNat_eq_ofNat, BitVec.toNat_ofNat] at h
  omega

theorem decode_wordE_svl {z n : Nat} {a b c : BitVec 4} {i : Instr} (hz : z < 2 ^ 4) (hn : n < 2 ^ 8)
    (hi : Machine.svlNamed n → decode (wordE 0x88 a 0 0 0 n) = .ok i) :
    (b = 0 → c = 0 → z = 0 → Machine.svlNamed n → decode (wordE 0x88 a b c z n) = .ok i)
      ∧ (b ≠ 0 ∨ c ≠ 0 ∨ z ≠ 0 ∨ ¬ Machine.svlNamed n → ∃ e, decode (wordE 0x88 a b c z n) = .error e) := by
  obtain ⟨hw, hlow, -, -, hsbcd, -⟩ := wordE_fields 0x88 a b c hz hn
  refine ⟨fun hb hc h0 hnamed => by rw [hb, hc, h0, hi hnamed], fun h => refused_svl hw ?_⟩
  rw [hsbcd, hlow]
  simp only [Machine.svlNamed, ne_eq, BitVec.toNat_eq, BitVec.ofNat_eq_ofNat, BitVec.toNat_ofNat] at h ⊢
  omega

theorem decode_wordE_vlen {z n : Nat} {a b c : BitVec 4} {i : Instr} (hz : z < 2 ^ 4) (hn : n < 2 ^ 8)
    (hi : decode (wordE 0x8A a 0 0 0 0) = .ok i) :
    (b = 0 → c = 0 → z = 0 → n = 0 → decode (wordE 0x8A a b c z n) = .ok i)
      ∧ (b ≠ 0 ∨ c ≠ 0 ∨ z ≠ 0 ∨ n ≠ 0 → ∃ e, decode (wordE 0x8A a b c z n) = .error e) := by
  obtain ⟨hw, -, -, -, -, hrest⟩ := wordE_fields 0x8A a b c hz hn
  refine ⟨fun hb hc h0 h1 => by rw [hb, hc, h0, h1, hi], fun h => refused_vlen hw ?_⟩
  rw [hrest]
  simp only [ne_eq, BitVec.toNat_eq, BitVec.ofNat_eq_ofNat, BitVec.toNat_ofNat] at h
  omega

end Sys2Proof

namespace Sys2Proof.Machine

/-- Settles O8: each mask instruction replaces the bits below vl alone, the counts are searches of the same bits, and of a word the bits
that its entry does not name decide. -/
theorem masks : Obligations.Masks := by
  refine ⟨?operations, ?breaks⟩
  case operations =>
    intro s d a b r hv u bit gives
    refine ⟨?_, ?_, ?_, ?_, ?_, ?_, ?_, ?_, ?words, fun n hn => decode_kset d hn⟩
    · exact completes_maskOp hv rfl fun j => Nat.testBit_and _ _ j
    · exact completes_maskOp hv rfl fun j => Nat.testBit_or _ _ j
    · exact completes_maskOp hv rfl fun j => Nat.testBit_xor _ _ j
    · exact completes_maskOp (f := fun x y => x ^^^ (x &&& y)) hv rfl fun j => testBit_xor_and _ _ j
    · exact completes_fillMask hv rfl
    · exact completes_fillMask hv rfl
    · exact completes_count (f := popBelow) hv rfl (popBelow_eq _ u.vl)
    · exact completes_count (f := fun x n => lowestFrom x 0 n) hv rfl (lowestFrom_zero_eq _ u.vl)
    case words =>
      intro n hn reads named counts
      refine ⟨?_, ?_, ?_, ?_, ?_, ?_⟩
      · exact decode_maskOp (by decide) hn (decode_of_encode (Laws.RoundTrip.kand d a b) rfl (congrArg some (wordVK_zero _ d a b)))
      · exact decode_maskOp (by decide) hn (decode_of_encode (Laws.RoundTrip.kor d a b) rfl (congrArg some (wordVK_zero _ d a b)))
      · exact decode_maskOp (by decide) hn (decode_of_encode (Laws.RoundTrip.kxor d a b) rfl (congrArg some (wordVK_zero _ d a b)))
      · exact decode_maskOp (by decide) hn (decode_of_encode (Laws.RoundTrip.kandn d a b) rfl (congrArg some (wordVK_zero _ d a b)))
      · exact fun hr => decode_count (.inl rfl) hn hr (decode_of_encode (Laws.RoundTrip.kpop a r) rfl (congrArg some (wordVK_count _ a r)))
      · exact fun hr => decode_count (.inr rfl) hn hr (decode_of_encode (Laws.RoundTrip.kfirst a r) rfl (congrArg some (wordVK_count _ a r)))
  case breaks =>
    intro s d a w r hv u e gives
    have hbreak : u.breakAt a.toNat = e := u.breakAt_eq a.toNat
    obtain ⟨hbefore, hthrough⟩ := decodeFields_break d a w r
    refine ⟨?_, ?_, fun n hn => ⟨?_, ?_⟩⟩
    · exact completes_breakOp (keep := fun i e => decide (i < e)) hv rfl hbreak
    · exact completes_breakOp (keep := fun i e => decide (i ≤ e)) hv rfl hbreak
    · exact decode_break (.inl rfl) hbefore rfl hn
    · exact decode_break (.inr rfl) hthrough rfl hn

/-- Settles O9: a value of the s registers, of the lengths or of the loops is one register write; vlen and vmode replace fields of the hart,
and the fields of the mode register are disjoint. -/
theorem scalarsModeAndLength : Obligations.ScalarsModeAndLength := by
  refine ⟨?scalars, ?mode⟩
  case scalars =>
    intro s a b c n i hv u x y gives
    refine ⟨?_, ?_, ?_, ?_, ?_, ?_, ?_, ?shifts, ?reserved, ?_, ?_, ?_, ?_, ?_, ?_, ?indices, ?words⟩
    · exact completes_sOp (f := (· + ·)) hv rfl rfl
    · exact completes_sOp (f := (· - ·)) hv rfl rfl
    · exact completes_sOp hv rfl (fMinu_eq x y)
    · exact completes_sOp hv rfl (fMin_eq x y)
    · exact completes_sOp hv rfl (fMaxu_eq x y)
    · exact completes_sOp hv rfl (fMax_eq x y)
    · exact completes_sOp (f := (· &&& ·)) hv rfl rfl
    case shifts => exact fun hn => ⟨completes_sShift hv hn rfl, completes_sShift hv hn rfl⟩
    case reserved => exact fun hn => ⟨traps_sShift hv hn rfl, traps_sShift hv hn rfl⟩
    · exact completes_putS (g := fun _ => i.signExtend 64) hv rfl rfl
    · exact completes_svl hv (.inl (by decide)) rfl
    · exact completes_svl hv (.inl (by decide)) rfl
    · exact completes_svl hv (.inl (by decide)) rfl
    · exact completes_svl hv (.inl (by decide)) rfl
    · exact completes_svl hv (.inl (by decide)) (svlValue_four u)
    case indices => exact fun m hm => completes_svl hv (svlNamed_index hm) (svlValue_index u hm)
    case words =>
      intro n z hn hz reads refused one two shift named
      have hnat : (BitVec.ofNat 8 n).toNat = n := by rw [BitVec.toNat_ofNat, Nat.mod_eq_of_lt hn]
      have shifted {op : Nat} {i : Instr} (hop : op = 0x85 ∨ op = 0x86) (hr : Laws.RoundTrip.Statement i)
          (hi : i.illFormed = needs ((BitVec.ofNat 8 n).toNat ≤ 63))
          (hw : encode i = some (put op 24 + put a.toNat 20 + put b.toNat 16 + (BitVec.ofNat 8 n).toNat)) : shift op i := by
        rw [hnat, wordE_low] at hw
        exact decode_wordE_shift hop hz hn fun hle => decode_of_encode hr (hi.trans (if_pos (decide_eq_true (Nat.le_trans (Nat.le_of_eq hnat) hle)))) hw
      have hsvl := decode_wordE_svl (a := a) (b := b) (c := c) hz hn fun hnamed =>
        decode_of_encode (Laws.RoundTrip.svl a (BitVec.ofNat 8 n)) (if_pos ((svlNamed_iff _).mpr (hnat.symm ▸ hnamed)))
          (congrArg some (by rw [hnat]; exact wordE_sa_low 0x88 a n))
      have hvlen := decode_wordE_vlen (b := b) (c := c) hz hn
        (decode_of_encode (Laws.RoundTrip.vlen a) rfl (congrArg some (wordE_sa 0x8A a)))
      refine ⟨?_, ?_, ?_, ?_, ?_, ?_, ?_, ?_, hsvl.1, hsvl.2, hvlen.1, hvlen.2⟩
      · exact decode_wordE_one (.inl rfl) hz hn (decode_of_encode (Laws.RoundTrip.sadd a b c) rfl (congrArg some (wordE_three _ a b c)))
      · exact decode_wordE_one (.inr (.inl rfl)) hz hn (decode_of_encode (Laws.RoundTrip.ssub a b c) rfl (congrArg some (wordE_three _ a b c)))
      · exact decode_wordE_two (.inl rfl) hz hn (decode_of_encode (Laws.RoundTrip.smin a b c) rfl (congrArg some (wordE_three _ a b c)))
          (decode_of_encode (Laws.RoundTrip.sminS a b c) rfl (congrArg some (wordE_three_fn _ a b c 1)))
      · exact decode_wordE_two (.inr rfl) hz hn (decode_of_encode (Laws.RoundTrip.smax a b c) rfl (congrArg some (wordE_three _ a b c)))
          (decode_of_encode (Laws.RoundTrip.smaxS a b c) rfl (congrArg some (wordE_three_fn _ a b c 1)))
      · exact decode_wordE_one (.inr (.inr rfl)) hz hn (decode_of_encode (Laws.RoundTrip.sand a b c) rfl (congrArg some (wordE_three _ a b c)))
      · exact shifted (.inl rfl) (Laws.RoundTrip.sshli a b _) rfl rfl
      · exact shifted (.inr rfl) (Laws.RoundTrip.sshri a b _) rfl rfl
      · exact decode_of_encode (Laws.RoundTrip.sli a i) rfl rfl
  case mode =>
    intro s a f hv u m
    have hexec : exec (.vmode f) s = execVmode f s := rfl
    refine ⟨completes_goesOn (f := fun s => s.modHart s.me fun t => { t with vl := min (t.vlmax t.ty) (s.getS a).toNat }) hv rfl rfl rfl,
      fun hf hm => ?_, fun hm => ?_, applyMode_fields f u.mode⟩
    · exact completes_goesOn_of_ok (f := fun s => s.modHart s.me fun t => t.setMode (applyMode f t.mode)) hv (by rw [hf, hm]; rfl) hexec rfl rfl
    · exact traps_of_not_ok hv (by rw [hm, Bool.not_true, Bool.and_false]) hexec

end Sys2Proof.Machine
end
